-- ==== Sys2Proof/Word.lean ====
section
/-! DEFINITION. The word types of HOH-EC: 32-bit command and register words, and the bytes of the two stream buffers
(`spec/00_scope.md` R6, R7). -/

namespace Sys2Proof

/-- A register, a command word or a word on the host's data bus (R6: host data-bus width 32 bits). -/
abbrev Word := BitVec 32

/-- One byte of INBUF or OUTBUF. -/
abbrev Byte := BitVec 8

end Sys2Proof
end

