-- ==== Sys2Proof/Config.lean ====
section
/-! DEFINITION. What an instance of HOH-EC fixes (`spec/00_scope.md` R6) and the free values: whatever the spec leaves
open comes from a constant with no body, so nothing can be proved about the value it gives. -/

namespace Sys2Proof

/-- A full binary tree of a Huffman slot: every internal node has exactly two children, child0 first
(`spec/10_state.md` R45). -/
inductive Tree where
  /-- A leaf carrying its symbol. -/
  | leaf (sym : Nat)
  /-- An internal node with child0 and child1. -/
  | node (child0 child1 : Tree)
  deriving DecidableEq, Repr, Inhabited

/-- What a non-empty Huffman slot holds: the alphabet size A and the tree (`spec/43_huffman.md` R180). -/
structure HuffTree where
  alphabet : Nat
  root : Tree
  deriving DecidableEq, Repr, Inhabited

/-- The OPEN parameters of one instance (R6, decisions D5 and D6). They never change while the machine runs. -/
structure Config where
  /-- N_SYM: the largest alphabet and symbol limit. -/
  nSym : Nat
  /-- IN_BYTES: the size of INBUF. -/
  inBytes : Nat
  /-- OUT_BYTES: the size of OUTBUF. -/
  outBytes : Nat
  /-- BASE: the host address of the block's offset 0. -/
  base : Nat
  deriving DecidableEq, Repr

/-- The instance with R6's default sizes. BASE has no default in the spec: 0 is the model's.
DESIGN CHOICE (log entry 1), unsafe only for a statement that names `Config.standard` or `State.reset`. -/
def Config.standard : Config := { nSym := 1024, inBytes := 65536, outBytes := 65536, base := 0 }

/-- The parameter values R6 allows. -/
abbrev Config.Legal (c : Config) : Prop :=
  (2 ≤ c.nSym ∧ c.nSym ≤ 65535) ∧
  (c.inBytes % 4 = 0 ∧ 4 ≤ c.inBytes ∧ c.inBytes ≤ 2 ^ 24) ∧
  (c.outBytes % 4 = 0 ∧ 4 ≤ c.outBytes ∧ c.outBytes ≤ 2 ^ 24) ∧
  c.base % 2 ^ 26 = 0

/-- The largest value-table depth, VT_MAX_DEPTH (R6). -/
def Config.vtMaxDepth : Nat := 9

/-- The number of frequency banks, NUM_FT (R6). -/
def Config.numFt : Nat := 4

/-- The number of Huffman slots, NUM_HT (R6). -/
def Config.numHt : Nat := 4

/-- Bits of a free value: draw number `n` at width `w` (`spec/93_implementation_defined.md` I8, I9, I12). -/
opaque Config.freeBits (w : Nat) (n : Nat) : BitVec w

/-- A free number, for a register whose legal range is no power of two (I12). -/
opaque Config.freeNat (n : Nat) : Nat

/-- The byte that a buffer address nothing has written holds, in the buffer contents of draw `seed` (I9, I10, I12). -/
opaque Config.freeByte (seed : Nat) (addr : Nat) : Byte

/-- The contents of a Huffman slot after an imprecise fault (I12). -/
opaque Config.freeSlot (n : Nat) : Option HuffTree

/-- The contents of VT.present after an imprecise fault (I12). -/
opaque Config.freePresent (n : Nat) : Vector Bool 512

/-- The contents of VT.fwd after an imprecise fault (I12). -/
opaque Config.freeFwd (n : Nat) : Vector (BitVec 10) 512

/-- The contents of VT.inv after an imprecise fault (I12). -/
opaque Config.freeInv (n : Nat) : Vector (BitVec 9) 512

end Sys2Proof
end

