-- ==== Sys2Proof/Machine/State.lean ====
section
/-! DEFINITION. The state of one HOH-EC instance (`spec/10_state.md` R20) as plain data, the reasons a step can stop, and
the state after reset (`spec/70_reset_and_hazards.md` R261). -/

namespace Sys2Proof.Machine

/-- The range-coder mode, STATUS.RC_MODE (R23, R39). -/
inductive RcMode where
  | idle
  | enc
  | dec
  deriving DecidableEq, Repr

/-- The fault codes of `spec/60_exceptions.md` R231, by name. -/
inductive FaultCode where
  | rcLowGeHigh
  | rcStateMask
  | rcRange
  | rcZeroFreq
  | rcTotal
  | rcSync
  | rcMode
  | rcUnderflowOvf
  | ftSymbol
  | ftLimit
  | ftOverflow
  | htEmpty
  | htSymbol
  | htAlphabet
  | vtDepth
  | vtValue
  | vtAbsent
  | vtIndex
  | vtNotValid
  | illegalCommand
  | protocol
  | outOverflow
  | bsSeek
  | fmtTruncated
  | fmtVtTag
  | fmtVtPayload
  | fmtHtTree
  deriving DecidableEq, Repr

/-- What the set fault latch holds: FAULTCODE and FAULTCMD (R24, R25, R50). -/
structure FaultRecord where
  code : FaultCode
  cmd : Word
  deriving DecidableEq, Repr

/-- One entry of the total order of host accesses, resets and block steps (`spec/20_memory.md` R69, R70). -/
inductive Turn where
  /-- The host writes a word at an address. -/
  | write (addr : Nat) (value : Word)
  /-- The host reads the word at an address. -/
  | read (addr : Nat)
  /-- The platform's reset input acts (R260). -/
  | reset
  /-- The host does nothing and the block takes its step, if one is enabled. -/
  | block
  deriving DecidableEq, Repr

/-- Bytes by address, addresses strictly rising. An address not listed holds no value of its own: what it reads as is a
free value. -/
abbrev Memory := List Host.Cell

/-- The one form a memory has: its addresses rise strictly, so no address is listed twice. No entry can equal what an
unlisted address reads as, since an unlisted address has no value. -/
abbrev Memory.wf (m : Memory) : Prop := (m.map Prod.fst).Pairwise (· < ·)

/-- The state of one instance. Every field but the first five is R20's; those five are the instance's parameters
(log entry 1) and the model's own bookkeeping (log entries 2, 3, 4, 5, 7). -/
structure State where
  /-- The instance's parameters; no step changes them. -/
  cfg : Config
  /-- The host accesses, resets and block turns still to come, the next one first. -/
  schedule : List Turn
  /-- The word the last host read returned. -/
  bus : Word
  /-- How many free values have been drawn. -/
  draws : Nat
  /-- The draw that the bytes of INBUF and of OUTBUF nothing has written come from. -/
  inSeed : Nat
  outSeed : Nat
  /-- The pending-command latch (R49); STATUS.BUSY says whether it holds a word. -/
  pending : Option Word
  /-- The fault latch (R50); FAULTCODE and FAULTCMD show what it holds. -/
  fault : Option FaultRecord
  /-- DATA (R27). -/
  data : Word
  /-- RESULT (R28). -/
  result : Word
  /-- CMDCOUNT (R29). -/
  cmdCount : Word
  /-- IRQ_EN bits 1:0: DONE_IE, FAULT_IE (R30). -/
  irqEn : BitVec 2
  /-- IRQ_STATUS bits 1:0: DONE_IS, FAULT_IS (R31). -/
  irqStatus : BitVec 2
  /-- IN_LEN (R32), a number of bytes. -/
  inLen : Nat
  /-- INPOS (R33), a stream position. -/
  inPos : Nat
  /-- OUTPOS (R34), a stream position. -/
  outPos : Nat
  /-- RC_LOW bits 30:0 (R35). -/
  rcLow : BitVec 31
  /-- RC_HIGH bits 30:0 (R36). -/
  rcHigh : BitVec 31
  /-- RC_CODE bits 30:0 (R37). -/
  rcCode : BitVec 31
  /-- RC_UNDERFLOW (R38). -/
  rcUnderflow : Word
  /-- STATUS.RC_MODE (R39). -/
  rcMode : RcMode
  /-- VT_DEPTH (R40). -/
  vtDepth : Nat
  /-- VT_CEIL (R41). -/
  vtCeil : Nat
  /-- VT_TAG bits 1:0 (R42). -/
  vtTag : BitVec 2
  /-- STATUS.VT_VALID (R46). -/
  vtValid : Bool
  /-- VT.present (R46). -/
  present : Vector Bool 512
  /-- VT.fwd (R46). -/
  fwd : Vector (BitVec 10) 512
  /-- VT.inv (R46). -/
  inv : Vector (BitVec 9) 512
  /-- FT[0..3] (R44): the counts of each bank; the bank's symbol limit is how many there are. -/
  ft : Vector (List Word) 4
  /-- HT[0..3] (R45): EMPTY is none. -/
  ht : Vector (Option HuffTree) 4
  /-- INBUF (R47). -/
  inbuf : Memory
  /-- OUTBUF (R48). -/
  outbuf : Memory
  deriving DecidableEq, Repr

/-- Why the machine stops. A HOH-EC fault is no stop: it is a next state with the fault latch set. -/
inductive Fault where
  /-- Raised by a host access at an address outside the block's 48 MiB range (R60): the access is not one of this
  block's, and the spec says nothing about it. Safe: the model stops where the bus would go on elsewhere. -/
  | hostAddressOutsideBlock
  deriving DecidableEq, Repr

/-- Why a command has no meaning. -/
inductive Refusal where
  /-- Raised by `exec`'s arm of a command not modelled yet. Safe. No command is left in this state. -/
  | notModelled (mnemonic : String)
  deriving DecidableEq, Repr

/-- The machine right after reset (R53, R261), as the instance with the default parameters, no host access to come, and
buffers nothing has written. -/
def State.reset : State where
  cfg := Config.standard
  schedule := []
  bus := 0
  draws := 2
  inSeed := 0
  outSeed := 1
  pending := none
  fault := none
  data := 0
  result := 0
  cmdCount := 0
  irqEn := 0
  irqStatus := 0
  inLen := 0
  inPos := 0
  outPos := 0
  rcLow := 0
  rcHigh := 0x7FFFFFFF
  rcCode := 0
  rcUnderflow := 0
  rcMode := .idle
  vtDepth := 0
  vtCeil := 0
  vtTag := 0
  vtValid := false
  present := Vector.replicate 512 false
  fwd := Vector.replicate 512 0
  inv := Vector.replicate 512 0
  ft := Vector.replicate 4 []
  ht := Vector.replicate 4 none
  inbuf := []
  outbuf := []

end Sys2Proof.Machine
end

