-- ==== Sys2Proof/Machine/Ops.lean ====
section
/-! DEFINITION. The named operations over registers and memory: completing a command, entering a fault (the one exception
of HOH-EC), the reset that is the only return from it, the stream primitives, and the unspecified values an imprecise
fault leaves. -/

namespace Sys2Proof.Machine

/-! ## Byte memory -/

/-- The byte listed at an address, if there is one. -/
def memRead : Memory → Nat → Option Byte
  | [], _ => none
  | (k, b) :: m, a => if k = a then some b else memRead m a

/-- Write one byte, keeping the addresses strictly rising. -/
def memWrite : Memory → Nat → Byte → Memory
  | [], a, b => [(a, b)]
  | (k, c) :: m, a, b =>
    if a < k then (a, b) :: (k, c) :: m
    else if a = k then (a, b) :: m
    else (k, c) :: memWrite m a b

/-- The byte of INBUF at an address (R47): a free value where nothing has written it since reset (93 I10). -/
def inByte (s : State) (a : Nat) : Byte := (memRead s.inbuf a).getD (Config.freeByte s.inSeed a)

/-- The byte of OUTBUF at an address (R48): a free value where nothing has written it. -/
def outByte (s : State) (a : Nat) : Byte := (memRead s.outbuf a).getD (Config.freeByte s.outSeed a)

/-- The output bit at stream position `p` (R65). -/
def outBitAt (s : State) (p : Nat) : Bool := (outByte s (p / 8)).getLsbD (7 - p % 8)

/-- The input bit at stream position `p` (R65). -/
def inBitAt (s : State) (p : Nat) : Bool := (inByte s (p / 8)).getLsbD (7 - p % 8)

/-! ## Bits -/

/-- `v` with bit `i` set to `b`. -/
def setByteBit (v : Byte) (i : Nat) (b : Bool) : Byte :=
  if b then v ||| (1#8 <<< i) else v &&& ~~~(1#8 <<< i)

/-- The low `n` bits of `v`, most significant first (R7: the order a field is written to a stream). -/
def msbBits : Nat → Nat → List Bool
  | 0, _ => []
  | n + 1, v => v.testBit n :: msbBits n v

/-! ## Completion, faults and reset -/

/-- The completion effects of every successful command (`spec/20_memory.md` R69): the pending latch is emptied (so BUSY
reads 0), CMDCOUNT goes up by 1 modulo 2^32 and IRQ_STATUS.DONE_IS is set. -/
def complete (s : State) : State :=
  { s with pending := none, cmdCount := s.cmdCount + 1, irqStatus := s.irqStatus ||| 0b10 }

/-- Fault entry (`spec/60_exceptions.md` R232), the one exception of HOH-EC: a clear latch takes the code and the command
word (the pending one, for a PROTOCOL fault too) and FAULT_IS is set; a set latch keeps what it holds (R234). The pending
latch is emptied, so BUSY reads 0. Nothing else is saved, and control goes nowhere. -/
def enterFault (c : FaultCode) (s : State) : State :=
  { s with
    fault := some (s.fault.getD { code := c, cmd := s.pending.getD 0 })
    irqStatus := if s.fault.isNone then s.irqStatus ||| 0b01 else s.irqStatus
    pending := none }

/-- The outcome of a command that ends without a fault. -/
def done (s : State) : Host.Outcome State Fault Refusal := .next (complete s)

/-- The outcome of a command that raises a fault: fault entry is a next state. -/
def raise (c : FaultCode) (s : State) : Host.Outcome State Fault Refusal := .next (enterFault c s)

/-- Reset (R260, R261), from the platform or from CTRL.SOFT_RESET: every piece of state takes its reset value. The
parameters are the instance's, the host's side (what it will do next, what it last read) is not the block's to reset,
and the buffers' unspecified contents are fresh draws. -/
def resetState (s : State) : State :=
  { State.reset with
    cfg := s.cfg
    schedule := s.schedule
    bus := s.bus
    draws := s.draws + 2
    inSeed := s.draws
    outSeed := s.draws + 1 }

/-! ## Stream primitives -/

/-- `OutBit(b)` (R66): write one bit at OUTPOS; the other bits of the byte keep their values, be they free ones. -/
def outBit (b : Bool) (s : State) : Except FaultCode State :=
  if s.outPos = 8 * s.cfg.outBytes then .error .outOverflow
  else .ok { s with
    outbuf := memWrite s.outbuf (s.outPos / 8)
      (setByteBit (outByte s (s.outPos / 8)) (7 - s.outPos % 8) b)
    outPos := s.outPos + 1 }

/-- OutBit for each bit in turn. -/
def emit : List Bool → State → Except FaultCode State
  | [], s => .ok s
  | b :: bs, s =>
    match outBit b s with
    | .error c => .error c
    | .ok t => emit bs t

/-- `InBit()` (R67) read at position `p` instead of INPOS: the bit and the position after it. A command reads on from
INPOS and stores the position it ends at. -/
def inBit (s : State) (p : Nat) : Except FaultCode (Bool × Nat) :=
  if p = 8 * s.inLen then .error .fmtTruncated else .ok (inBitAt s p, p + 1)

/-- `InBitZ()` (R68) at position `p`: past the end of input the bit is 0 and the position stays. -/
def inBitZ (s : State) (p : Nat) : Bool × Nat :=
  if p = 8 * s.inLen then (false, p) else (inBitAt s p, p + 1)

/-- `repeat n times: v <- 2*v + InBit()` from position `p`. -/
def inBits (s : State) : Nat → Nat → Nat → Except FaultCode (Nat × Nat)
  | 0, v, p => .ok (v, p)
  | n + 1, v, p =>
    match inBit s p with
    | .error c => .error c
    | .ok (b, q) => inBits s n (2 * v + b.toNat) q

/-! ## Unspecified values (R233, `spec/93_implementation_defined.md` I12)
Each `lose…` replaces one register or memory of a write set by a free value within the range the spec gives it. -/

def loseResult (s : State) : State :=
  { s with result := Config.freeBits 32 s.draws, draws := s.draws + 1 }

/-- INPOS keeps its range `0..8·IN_LEN` (R33). -/
def loseInPos (s : State) : State :=
  { s with inPos := Config.freeNat s.draws % (8 * s.inLen + 1), draws := s.draws + 1 }

/-- OUTBUF and OUTPOS; OUTPOS keeps its range `0..8·OUT_BYTES` (R34). -/
def loseOutput (s : State) : State :=
  { s with
    outbuf := []
    outSeed := s.draws
    outPos := Config.freeNat (s.draws + 1) % (8 * s.cfg.outBytes + 1)
    draws := s.draws + 2 }

/-- RC_LOW and RC_HIGH. -/
def loseInterval (s : State) : State :=
  { s with rcLow := Config.freeBits 31 s.draws, rcHigh := Config.freeBits 31 (s.draws + 1), draws := s.draws + 2 }

def loseRcCode (s : State) : State :=
  { s with rcCode := Config.freeBits 31 s.draws, draws := s.draws + 1 }

def loseUnderflow (s : State) : State :=
  { s with rcUnderflow := Config.freeBits 32 s.draws, draws := s.draws + 1 }

/-- RC_MODE: its value 3 never occurs (R23). -/
def loseRcMode (s : State) : State :=
  { s with
    rcMode := match Config.freeNat s.draws % 3 with
      | 0 => .idle
      | 1 => .enc
      | _ => .dec
    draws := s.draws + 1 }

/-- VT_CEIL (0..512, R41), VT_TAG, VT_VALID, VT.fwd and VT.inv. -/
def loseTranslation (s : State) : State :=
  { s with
    vtCeil := Config.freeNat s.draws % 513
    vtTag := Config.freeBits 2 (s.draws + 1)
    vtValid := (Config.freeBits 1 (s.draws + 2)).getLsbD 0
    fwd := Config.freeFwd (s.draws + 3)
    inv := Config.freeInv (s.draws + 4)
    draws := s.draws + 5 }

/-- VT_DEPTH (0..9, R40) and VT.present. -/
def losePresence (s : State) : State :=
  { s with
    vtDepth := Config.freeNat s.draws % 10
    present := Config.freePresent (s.draws + 1)
    draws := s.draws + 2 }

/-- Huffman slot `h`. -/
def loseSlot (h : BitVec 2) (s : State) : State :=
  { s with ht := s.ht.set h.toNat (Config.freeSlot s.draws) h.isLt, draws := s.draws + 1 }

end Sys2Proof.Machine
end

