-- ==== Sys2Proof/Machine/Operands.lean ====
section
/-! DEFINITION. What a command's operands name: a frequency bank and its sums (`spec/40_freq_table.md` R100), a Huffman
slot, and the value-table memories (`spec/10_state.md` R44-R46). -/

namespace Sys2Proof.Machine

/-! ## Frequency banks -/

/-- The counts of bank `t`. -/
def counts (s : State) (t : BitVec 2) : List Word := s.ft[t.toNat]'t.isLt

/-- `FT[t].limit` (R44): 0 while the bank is unconfigured. -/
def limit (s : State) (t : BitVec 2) : Nat := (counts s t).length

/-- `FT[t].cnt[x]`; 0 at and past the limit, where no command reads. -/
def count (s : State) (t : BitVec 2) (x : Nat) : Nat := ((counts s t)[x]?.getD 0).toNat

/-- The sum of a list of counts. -/
def sumCounts (c : List Word) : Nat := (c.map BitVec.toNat).sum

/-- `Total(t)` (R100). -/
def total (s : State) (t : BitVec 2) : Nat := sumCounts (counts s t)

/-- `Low(t, x)` (R100). -/
def low (s : State) (t : BitVec 2) (x : Nat) : Nat := sumCounts ((counts s t).take x)

/-- `High(t, x)` (R100). -/
def high (s : State) (t : BitVec 2) (x : Nat) : Nat := low s t x + count s t x

/-- The largest Total a bank may hold, `2^32 − 1` (R101). -/
def maxBankTotal : Nat := 2 ^ 32 - 1

/-- Replace the counts (and so the limit) of bank `t`. -/
def setBank (t : BitVec 2) (c : List Word) (s : State) : State :=
  { s with ft := s.ft.set t.toNat c t.isLt }

/-- `FT[t].cnt[x] <- v`. -/
def setCount (t : BitVec 2) (x : Nat) (v : Word) (s : State) : State := setBank t ((counts s t).set x v) s

/-- `reg.RESULT <- v`, for a `v` that fits 32 bits. -/
def setResult (v : Nat) (s : State) : State := { s with result := BitVec.ofNat 32 v }

/-! ## Huffman slots -/

/-- `HT[h]` (R45): none is EMPTY. -/
def slot (s : State) (h : BitVec 2) : Option HuffTree := s.ht[h.toNat]'h.isLt

/-- `HT[h] <- (A, root)`. -/
def setSlot (h : BitVec 2) (t : HuffTree) (s : State) : State :=
  { s with ht := s.ht.set h.toNat (some t) h.isLt }

/-! ## Value-table memories -/

/-- `VT.present[v]`. -/
def presentAt (s : State) (v : Nat) : Bool := s.present[v]?.getD false

/-- `VT.fwd[v]`. -/
def fwdAt (s : State) (v : Nat) : Nat := (s.fwd[v]?.getD 0).toNat

/-- `VT.inv[i]`. -/
def invAt (s : State) (i : Nat) : Nat := (s.inv[i]?.getD 0).toNat

/-- `VT.present` with exactly the values of `vs` set. -/
def presenceOf (vs : List Nat) : Vector Bool 512 :=
  vs.foldl (fun p v => p.setIfInBounds v true) (Vector.replicate 512 false)

/-- The members of P in rising order: the values below `m` that are present (R150). -/
def occupied (s : State) (m : Nat) : List Nat := (List.range m).filter (presentAt s)

end Sys2Proof.Machine
end

