-- ==== Sys2Proof/Machine/Flags.lean ====
section
/-! DEFINITION. The flags and the registers computed from state: the fault codes' numbers (`spec/60_exceptions.md` R231),
STATUS (`spec/10_state.md` R23), FAULTCODE, FAULTCMD, the PARAM registers (R43) and the interrupt line (R237). -/

namespace Sys2Proof.Machine

/-- The number of each fault code (R231). -/
def faultNumber : FaultCode → BitVec 8
  | .rcLowGeHigh => 0x01
  | .rcStateMask => 0x02
  | .rcRange => 0x03
  | .rcZeroFreq => 0x04
  | .rcTotal => 0x05
  | .rcSync => 0x06
  | .rcMode => 0x07
  | .rcUnderflowOvf => 0x08
  | .ftSymbol => 0x10
  | .ftLimit => 0x11
  | .ftOverflow => 0x12
  | .htEmpty => 0x18
  | .htSymbol => 0x19
  | .htAlphabet => 0x1A
  | .vtDepth => 0x20
  | .vtValue => 0x21
  | .vtAbsent => 0x22
  | .vtIndex => 0x23
  | .vtNotValid => 0x24
  | .illegalCommand => 0x30
  | .protocol => 0x31
  | .outOverflow => 0x32
  | .bsSeek => 0x33
  | .fmtTruncated => 0x40
  | .fmtVtTag => 0x41
  | .fmtVtPayload => 0x42
  | .fmtHtTree => 0x43

/-- STATUS.BUSY: the pending latch holds a word (R49). -/
def busy (s : State) : Bool := s.pending.isSome

/-- STATUS.FAULT: the fault latch is set (R50). -/
def faulted (s : State) : Bool := s.fault.isSome

/-- STATUS.FCLASS: the latched fault is a format error, code ≥ 0x40 (R23, R230). -/
def formatError (s : State) : Bool :=
  match s.fault with
  | none => false
  | some f => 0x40 ≤ (faultNumber f.code).toNat

/-- The encoding of RC_MODE (R23). -/
def rcModeBits : RcMode → BitVec 2
  | .idle => 0
  | .enc => 1
  | .dec => 2

/-- STATUS (R23): bits 31:7 and bit 3 are reserved and read 0. -/
def statusWord (s : State) : Word :=
  (0 : BitVec 25) ++ BitVec.ofBool s.vtValid ++ rcModeBits s.rcMode ++ (0 : BitVec 1) ++
    BitVec.ofBool (formatError s) ++ BitVec.ofBool (faulted s) ++ BitVec.ofBool (busy s)

/-- FAULTCODE (R24). -/
def faultCodeWord (s : State) : Word :=
  match s.fault with
  | none => 0
  | some f => (faultNumber f.code).setWidth 32

/-- FAULTCMD (R25). -/
def faultCmdWord (s : State) : Word :=
  match s.fault with
  | none => 0
  | some f => f.cmd

/-- ID (R21). -/
def idValue : Word := 0x484F4801

/-- PARAM0 (R43): N_SYM, NUM_FT, NUM_HT, VT_MAX_DEPTH. -/
def param0Word (s : State) : Word :=
  (0 : BitVec 4) ++ BitVec.ofNat 4 Config.vtMaxDepth ++ BitVec.ofNat 4 Config.numHt ++
    BitVec.ofNat 4 Config.numFt ++ BitVec.ofNat 16 s.cfg.nSym

/-- The interrupt output: `(FAULT_IS and FAULT_IE) or (DONE_IS and DONE_IE)` (R237). -/
def irqLine (s : State) : Bool := s.irqStatus &&& s.irqEn ≠ 0

end Sys2Proof.Machine
end

