-- ==== Sys2Proof/Machine/RangeCoder.lean ====
section
/-! DEFINITION. The range-coder commands and the shared update (`spec/41_range_coder.md` R120-R133). RC_LOW, RC_HIGH and
RC_CODE are 31 bits wide, so a left shift of them drops bit 31 as `& MASK` does; every product and quotient is taken
exactly, over Nat (R134). -/

namespace Sys2Proof.Machine

/-! ## Parameters (`spec/00_scope.md` R6) -/

/-- FULL = 2^B, B = 31. -/
def rcFull : Nat := 0x80000000

/-- HALF = FULL / 2: bit 30. -/
def rcHalf : BitVec 31 := 0x40000000

/-- QUARTER = HALF / 2: bit 29. -/
def rcQuarter : BitVec 31 := 0x20000000

/-- MINRANGE = QUARTER + 2. -/
def rcMinRange : Nat := 0x20000002

/-- MAXTOTAL = MINRANGE. -/
def rcMaxTotal : Nat := 0x20000002

/-- MASK = FULL − 1. -/
def rcMask : BitVec 31 := 0x7FFFFFFF

/-- `range = high − low + 1` (R120). -/
def rcRange (s : State) : Nat := s.rcHigh.toNat - s.rcLow.toNat + 1

/-! ## The shared update -/

/-- `RcCheckState()` (R121): the first failing check, if any. -/
def rcCheckState (s : State) : Option FaultCode :=
  if s.rcHigh.toNat ≤ s.rcLow.toNat then some .rcLowGeHigh
  else if s.rcLow.toNat &&& rcMask.toNat ≠ s.rcLow.toNat ∨ s.rcHigh.toNat &&& rcMask.toNat ≠ s.rcHigh.toNat then
    some .rcStateMask
  else if ¬ (rcMinRange ≤ rcRange s ∧ rcRange s ≤ rcFull) then some .rcRange
  else none

/-- The checks and the narrowing of `RcUpdate(t, x, …)` (R122), before renormalization. -/
def rcNarrow (t : BitVec 2) (x : Nat) (s : State) : Except FaultCode State :=
  match rcCheckState s with
  | some c => .error c
  | none =>
    if low s t x = high s t x then .error .rcZeroFreq
    else if rcMaxTotal ≤ total s t then .error .rcTotal
    else .ok { s with
      rcLow := BitVec.ofNat 31 (s.rcLow.toNat + low s t x * rcRange s / total s t)
      rcHigh := BitVec.ofNat 31 (s.rcLow.toNat + high s t x * rcRange s / total s t - 1) }

/-- The first loop of `RcRenormalize` (R123), with the coder's Shift action and at most `n` iterations. -/
def rcShiftLoop (shift : State → Except FaultCode State) : Nat → State → Except FaultCode State
  | 0, s => .ok s
  | n + 1, s =>
    if (s.rcLow ^^^ s.rcHigh) &&& rcHalf = 0 then
      match shift s with
      | .error c => .error c
      | .ok t => rcShiftLoop shift n { t with rcLow := t.rcLow <<< 1, rcHigh := t.rcHigh <<< 1 ||| 1 }
    else .ok s

/-- The second loop of `RcRenormalize` (R124), with the coder's Underflow action and at most `n` iterations. -/
def rcUnderflowLoop (underflow : State → Except FaultCode State) : Nat → State → Except FaultCode State
  | 0, s => .ok s
  | n + 1, s =>
    if s.rcLow &&& ~~~s.rcHigh &&& rcQuarter ≠ 0 then
      match underflow s with
      | .error c => .error c
      | .ok t =>
        rcUnderflowLoop underflow n { t with
          rcLow := t.rcLow <<< 1 ^^^ rcHalf
          rcHigh := (t.rcHigh ^^^ rcHalf) <<< 1 ||| rcHalf ||| 1 }
    else .ok s

/-- `RcRenormalize(Shift, Underflow)` (R123, R124). A 31-bit interval cannot keep the first loop going more than 31
times, nor the second more than 30 (R135), so the bounds cut nothing off. -/
def rcRenormalize (shift underflow : State → Except FaultCode State) (s : State) : Except FaultCode State :=
  match rcShiftLoop shift 31 s with
  | .error c => .error c
  | .ok t => rcUnderflowLoop underflow 30 t

/-! ## Encoder and decoder actions -/

/-- `repeat n times: OutBit(b)`. -/
def emitRepeated (b : Bool) : Nat → State → Except FaultCode State
  | 0, s => .ok s
  | n + 1, s =>
    match outBit b s with
    | .error c => .error c
    | .ok t => emitRepeated b n t

/-- `EncShift()` (R125): the shared top bit, then the pending complementary bits. -/
def encShift (s : State) : Except FaultCode State :=
  let bit := s.rcLow.getLsbD 30
  match outBit bit s with
  | .error c => .error c
  | .ok t =>
    match emitRepeated (!bit) s.rcUnderflow.toNat t with
    | .error c => .error c
    | .ok u => .ok { u with rcUnderflow := 0 }

/-- `EncUnderflow()` (R126). -/
def encUnderflow (s : State) : Except FaultCode State :=
  if s.rcUnderflow.toNat = 2 ^ 32 - 1 then .error .rcUnderflowOvf
  else .ok { s with rcUnderflow := s.rcUnderflow + 1 }

/-- `DecShift()` (R127). -/
def decShift (s : State) : Except FaultCode State :=
  let r := inBitZ s s.inPos
  .ok { s with rcCode := s.rcCode <<< 1 ||| (BitVec.ofBool r.1).setWidth 31, inPos := r.2 }

/-- `DecUnderflow()` (R128). -/
def decUnderflow (s : State) : Except FaultCode State :=
  let r := inBitZ s s.inPos
  .ok { s with
    rcCode := s.rcCode &&& rcHalf ||| s.rcCode <<< 1 &&& rcMask >>> 1 ||| (BitVec.ofBool r.1).setWidth 31
    inPos := r.2 }

/-! ## Commands -/

/-- RC_ENC_INIT (R129). -/
def execRcEncInit (s : State) : Host.Outcome State Fault Refusal :=
  done { s with rcLow := 0, rcHigh := rcMask, rcCode := 0, rcUnderflow := 0, rcMode := .enc }

/-- The write set of RC_ENC_WRITE (R130), unspecified after an imprecise fault. -/
def loseEncWrite (s : State) : State := loseInterval (loseUnderflow (loseOutput s))

/-- RC_ENC_WRITE (R130). A fault of renormalization is imprecise (R233). -/
def execRcEncWrite (a : BitVec 2) (x : BitVec 16) (s : State) : Host.Outcome State Fault Refusal :=
  if s.rcMode ≠ .enc then raise .rcMode s
  else if limit s a ≤ x.toNat then raise .ftSymbol s
  else
    match rcNarrow a x.toNat s with
    | .error c => raise c s
    | .ok t =>
      match rcRenormalize encShift encUnderflow t with
      | .error c => raise c (loseEncWrite s)
      | .ok u => done u

/-- The write set of RC_ENC_FINISH (R131). -/
def loseEncFinish (s : State) : State := loseRcMode (loseUnderflow (loseOutput s))

/-- How many bits from stream position `p` to the next byte boundary. -/
def bitsToByte (p : Nat) : Nat := (8 - p % 8) % 8

/-- RC_ENC_FINISH (R131): the final bit 1, then zero bits to a byte boundary. -/
def execRcEncFinish (s : State) : Host.Outcome State Fault Refusal :=
  if s.rcMode ≠ .enc then raise .rcMode s
  else
    match emit (true :: List.replicate (bitsToByte (s.outPos + 1)) false) s with
    | .error c => raise c (loseEncFinish s)
    | .ok t => done { t with rcUnderflow := 0, rcMode := .idle }

/-- `repeat n times: code <- (code << 1) | InBitZ()` (R132), by the decoder's Shift action. -/
def fillCode : Nat → State → State
  | 0, s => s
  | n + 1, s =>
    let r := inBitZ s s.inPos
    fillCode n { s with rcCode := s.rcCode <<< 1 ||| (BitVec.ofBool r.1).setWidth 31, inPos := r.2 }

/-- RC_DEC_INIT (R132). -/
def execRcDecInit (s : State) : Host.Outcome State Fault Refusal :=
  let t := fillCode 31 { s with rcLow := 0, rcHigh := rcMask, rcUnderflow := 0, rcCode := 0 }
  done { t with rcMode := .dec }

/-- `value = ((offset + 1) * total − 1) // range` with `offset = code − low`, over the integers (R133). -/
def rcValue (t : BitVec 2) (s : State) : Int :=
  (((s.rcCode.toNat : Int) - s.rcLow.toNat + 1) * total s t - 1) / rcRange s

/-- The symbol whose interval `[Low, High)` contains `v` (R133, R138). -/
def symbolAt (t : BitVec 2) (v : Int) (s : State) : Option Nat :=
  (List.range (limit s t)).find? fun x => (low s t x : Int) ≤ v ∧ v < high s t x

/-- The write set of RC_DEC_READ (R133). -/
def loseDecRead (s : State) : State := loseInterval (loseRcCode (loseInPos (loseResult s)))

/-- RC_DEC_READ (R133). Every check but the last comes before the first write. The RC_SYNC for a value that no symbol
contains stands beside the RC_SYNC for a value out of range: a value in range is contained in one symbol (R138). -/
def execRcDecRead (a : BitVec 2) (s : State) : Host.Outcome State Fault Refusal :=
  if s.rcMode ≠ .dec then raise .rcMode s
  else
    match rcCheckState s with
    | some c => raise c s
    | none =>
      if rcMaxTotal ≤ total s a then raise .rcTotal s
      else if total s a = 0 then raise .rcZeroFreq s
      else if ¬ (0 ≤ rcValue a s ∧ rcValue a s < total s a) then raise .rcSync s
      else
        match symbolAt a (rcValue a s) s with
        | none => raise .rcSync s
        | some x =>
          match rcNarrow a x s with
          | .error c => raise c s
          | .ok t =>
            match rcRenormalize decShift decUnderflow t with
            | .error c => raise c (loseDecRead s)
            | .ok u =>
              if u.rcLow.toNat ≤ u.rcCode.toNat ∧ u.rcCode.toNat ≤ u.rcHigh.toNat then done (setResult x u)
              else raise .rcSync (loseDecRead s)

end Sys2Proof.Machine
end

