-- ==== Sys2Proof/Machine/BitStream.lean ====
section
/-! DEFINITION. NOP and the raw bit-stream commands (`spec/44_bitstream.md` R210-R216). -/

namespace Sys2Proof.Machine

/-- NOP (R210): the completion effects and nothing else. -/
def execNop (s : State) : Host.Outcome State Fault Refusal := done s

/-- BS_PUT (R211): the range check comes before any bit, so an OUT_OVERFLOW is precise. After it every bit fits: the second
way to fault is there because `emit` is total, and no state with OUTPOS in its range takes it. -/
def execBsPut (k : BitVec 6) (s : State) : Host.Outcome State Fault Refusal :=
  if 8 * s.cfg.outBytes < s.outPos + k.toNat then raise .outOverflow s
  else
    match emit (msbBits k.toNat s.data.toNat) s with
    | .error c => raise c s
    | .ok t => done t

/-- BS_GET (R212), checked before any bit is read, as BS_PUT is. -/
def execBsGet (k : BitVec 6) (s : State) : Host.Outcome State Fault Refusal :=
  if 8 * s.inLen < s.inPos + k.toNat then raise .fmtTruncated s
  else
    match inBits s k.toNat 0 s.inPos with
    | .error c => raise c s
    | .ok (v, p) => done (setResult v { s with inPos := p })

/-- BS_OUT_ALIGN (R213). The padding always fits, since 8·OUT_BYTES is a multiple of 8. -/
def execBsOutAlign (s : State) : Host.Outcome State Fault Refusal :=
  match emit (List.replicate (bitsToByte s.outPos) false) s with
  | .error c => raise c s
  | .ok t => done (setResult (bitsToByte s.outPos) t)

/-- BS_IN_ALIGN (R214): `INPOS <- 8 * ceil(INPOS / 8)`. -/
def execBsInAlign (s : State) : Host.Outcome State Fault Refusal :=
  done { s with inPos := 8 * ((s.inPos + 7) / 8) }

/-- BS_OUT_RESET (R215). -/
def execBsOutReset (s : State) : Host.Outcome State Fault Refusal := done { s with outPos := 0 }

/-- BS_IN_SEEK (R216): INPOS becomes DATA. -/
def execBsInSeek (s : State) : Host.Outcome State Fault Refusal :=
  if 8 * s.inLen < s.data.toNat then raise .bsSeek s
  else done { s with inPos := s.data.toNat }

end Sys2Proof.Machine
end

