-- ==== Sys2Proof/Machine/FreqTable.lean ====
section
/-! DEFINITION. The frequency-table commands (`spec/40_freq_table.md` R102-R109). -/

namespace Sys2Proof.Machine

/-- FT_CLEAR (R102): configure bank `a` with limit `x` and zero its counts. -/
def execFtClear (a : BitVec 2) (x : BitVec 16) (s : State) : Host.Outcome State Fault Refusal :=
  if x.toNat < 1 ∨ s.cfg.nSym < x.toNat then raise .ftLimit s
  else done (setBank a (List.replicate x.toNat 0) s)

/-- FT_SET (R103): the count of symbol `x` becomes DATA. -/
def execFtSet (a : BitVec 2) (x : BitVec 16) (s : State) : Host.Outcome State Fault Refusal :=
  if limit s a ≤ x.toNat then raise .ftSymbol s
  else if maxBankTotal < total s a - count s a x.toNat + s.data.toNat then raise .ftOverflow s
  else done (setCount a x.toNat s.data s)

/-- FT_INC (R104): the count of symbol `x` goes up by 1. -/
def execFtInc (a : BitVec 2) (x : BitVec 16) (s : State) : Host.Outcome State Fault Refusal :=
  if limit s a ≤ x.toNat then raise .ftSymbol s
  else if maxBankTotal < total s a + 1 then raise .ftOverflow s
  else done (setCount a x.toNat (BitVec.ofNat 32 (count s a x.toNat + 1)) s)

/-- A command that checks `x < limit` of bank `a` and returns a number about it (R105, R107, R108). -/
def readSymbol (value : Nat) (a : BitVec 2) (x : BitVec 16) (s : State) : Host.Outcome State Fault Refusal :=
  if limit s a ≤ x.toNat then raise .ftSymbol s
  else done (setResult value s)

/-- FT_GET (R105). -/
def execFtGet (a : BitVec 2) (x : BitVec 16) (s : State) : Host.Outcome State Fault Refusal :=
  readSymbol (count s a x.toNat) a x s

/-- FT_TOTAL (R106). -/
def execFtTotal (a : BitVec 2) (s : State) : Host.Outcome State Fault Refusal :=
  done (setResult (total s a) s)

/-- FT_LOW (R107). -/
def execFtLow (a : BitVec 2) (x : BitVec 16) (s : State) : Host.Outcome State Fault Refusal :=
  readSymbol (low s a x.toNat) a x s

/-- FT_HIGH (R108). -/
def execFtHigh (a : BitVec 2) (x : BitVec 16) (s : State) : Host.Outcome State Fault Refusal :=
  readSymbol (high s a x.toNat) a x s

/-- FT_LIMIT (R109). -/
def execFtLimit (a : BitVec 2) (s : State) : Host.Outcome State Fault Refusal :=
  done (setResult (limit s a) s)

end Sys2Proof.Machine
end

