-- ==== Sys2Proof/Machine/Huffman.lean ====
section
/-! DEFINITION. Building, writing, reading and walking Huffman trees, and the commands on the four slots
(`spec/43_huffman.md` R180-R191). -/

namespace Sys2Proof.Machine

/-! ## Building (R181) -/

/-- An element of the pool: weight, sequence number, node. -/
structure PoolEntry where
  weight : Nat
  seq : Nat
  node : Tree
  deriving DecidableEq, Repr

/-- Lexicographic order on (weight, seq). -/
def poolBefore (x y : PoolEntry) : Bool := x.weight < y.weight || (x.weight == y.weight && x.seq < y.seq)

/-- The element of the pool with the smallest (weight, seq), and the rest of the pool. -/
def poolTakeMin : List PoolEntry → Option (PoolEntry × List PoolEntry)
  | [] => none
  | e :: r =>
    match poolTakeMin r with
    | none => some (e, [])
    | some (m, r') => if poolBefore e m then some (e, r) else some (m, e :: r')

/-- The merge loop: `n` bounds the rounds, `next` is the next merged node's sequence number. -/
def poolMerge : Nat → Nat → List PoolEntry → Option Tree
  | 0, _, _ => none
  | n + 1, next, pool =>
    match poolTakeMin pool with
    | none => none
    | some (x, rest) =>
      match poolTakeMin rest with
      | none => some x.node
      | some (y, rest') =>
        poolMerge n (next + 1)
          ({ weight := x.weight + y.weight, seq := next, node := .node x.node y.node } :: rest')

/-- The leaves: the symbols with a count above 0, in rising order, as (symbol, weight). -/
def huffLeaves (c : List Nat) : List (Nat × Nat) :=
  (c.zipIdx.filter fun p => 0 < p.1).map fun p => (p.2, p.1)

/-- The leaves of a table with no count above 0 are symbol 0 alone, with weight 1 (R182). -/
def huffLeavesOrZero (c : List Nat) : List (Nat × Nat) :=
  match huffLeaves c with
  | [] => [(0, 1)]
  | l => l

/-- The pool at the start: a leaf's sequence number is its rank among the leaves. -/
def huffPool (leaves : List (Nat × Nat)) : List PoolEntry :=
  leaves.zipIdx.map fun p => { weight := p.1.2, seq := p.2, node := .leaf p.1.1 }

/-- `HuffBuild(A, c)` (R181). With m leaves the loop merges m − 1 times and ends in round m, so it always gives a tree. -/
def huffBuild (c : List Nat) : Tree :=
  let pool := huffPool (huffLeavesOrZero c)
  (poolMerge pool.length pool.length pool).getD (.leaf 0)

/-! ## Codes and serialization -/

/-- The code of a symbol (R183): branch bits from the root, 0 to child0 and 1 to child1; none where it is no leaf. -/
def huffCode : Tree → Nat → Option (List Bool)
  | .leaf y, x => if y = x then some [] else none
  | .node c0 c1, x =>
    match huffCode c0 x with
    | some p => some (false :: p)
    | none =>
      match huffCode c1 x with
      | some p => some (true :: p)
      | none => none

/-- The symbols of the leaves, left to right. -/
def huffSymbols : Tree → List Nat
  | .leaf x => [x]
  | .node c0 c1 => huffSymbols c0 ++ huffSymbols c1

/-- The leaf width `w(A) = ceil(log2 A)` (R184). -/
def leafWidth (A : Nat) : Nat := if A ≤ 1 then 0 else Nat.log2 (A - 1) + 1

/-- `Ser(node)`, pre-order, with leaf width `w` (R185). -/
def huffSerialize (w : Nat) : Tree → List Bool
  | .leaf x => false :: msbBits w x
  | .node c0 c1 => true :: (huffSerialize w c0 ++ huffSerialize w c1)

/-! ## Reading -/

/-- What `Des()` carries along (R188): the input position, the leaves used and the internal nodes counted. -/
structure DesState where
  pos : Nat
  used : List Nat
  internal : Nat
  deriving DecidableEq, Repr

/-- `Des()` (R188) for alphabet size `A`, nested at most `n` deep. A tree with at most A − 1 internal nodes is at most A
nodes deep, so `n = A` cuts nothing off. -/
def huffDeserialize (s : State) (A : Nat) : Nat → DesState → Except FaultCode (Tree × DesState)
  | 0, _ => .error .fmtHtTree
  | n + 1, d =>
    match inBit s d.pos with
    | .error c => .error c
    | .ok (true, p) =>
      if A - 1 < d.internal + 1 then .error .fmtHtTree
      else
        match huffDeserialize s A n { d with pos := p, internal := d.internal + 1 } with
        | .error c => .error c
        | .ok (c0, d0) =>
          match huffDeserialize s A n d0 with
          | .error c => .error c
          | .ok (c1, d1) => .ok (.node c0 c1, d1)
    | .ok (false, p) =>
      match inBits s (leafWidth A) 0 p with
      | .error c => .error c
      | .ok (x, q) =>
        if A ≤ x ∨ x ∈ d.used then .error .fmtHtTree
        else .ok (.leaf x, { d with pos := q, used := x :: d.used })

/-- `HuffDecode(tree)` (R190) from position `p`: the symbol and the position after its code. -/
def huffWalk (s : State) : Tree → Nat → Except FaultCode (Nat × Nat)
  | .leaf x, p => .ok (x, p)
  | .node c0 c1, p =>
    match inBit s p with
    | .error c => .error c
    | .ok (false, q) => huffWalk s c0 q
    | .ok (true, q) => huffWalk s c1 q

/-! ## Commands -/

/-- The serialized length `(2L − 1) + L·w(A)` of a tree with L leaves (R185). -/
def serializedLength (t : HuffTree) : Nat :=
  2 * (huffSymbols t.root).length - 1 + (huffSymbols t.root).length * leafWidth t.alphabet

/-- HT_BUILD (R186): slot `a` from bank `b`. -/
def execHtBuild (a b : BitVec 2) (s : State) : Host.Outcome State Fault Refusal :=
  if limit s b < 1 ∨ s.cfg.nSym < limit s b then raise .htAlphabet s
  else
    let t : HuffTree := { alphabet := limit s b, root := huffBuild ((counts s b).map BitVec.toNat) }
    done (setResult (serializedLength t) (setSlot a t s))

/-- The write set of HT_SERIALIZE and of HT_ENCODE (R187, R189). -/
def loseEmission (s : State) : State := loseResult (loseOutput s)

/-- Write bits to the output stream and return how many (R187, R189). -/
def emitCounted (bits : List Bool) (s : State) : Host.Outcome State Fault Refusal :=
  match emit bits s with
  | .error c => raise c (loseEmission s)
  | .ok t => done (setResult (t.outPos - s.outPos) t)

/-- HT_SERIALIZE (R187). -/
def execHtSerialize (a : BitVec 2) (s : State) : Host.Outcome State Fault Refusal :=
  match slot s a with
  | none => raise .htEmpty s
  | some t => emitCounted (huffSerialize (leafWidth t.alphabet) t.root) s

/-- The write set of HT_DESERIALIZE (R188). -/
def loseDeserialize (a : BitVec 2) (s : State) : State := loseSlot a (loseResult (loseInPos s))

/-- HT_DESERIALIZE (R188): read a tree for alphabet size `x` into slot `a`. -/
def execHtDeserialize (a : BitVec 2) (x : BitVec 16) (s : State) : Host.Outcome State Fault Refusal :=
  if x.toNat < 1 ∨ s.cfg.nSym < x.toNat then raise .htAlphabet s
  else
    match huffDeserialize s x.toNat x.toNat { pos := s.inPos, used := [], internal := 0 } with
    | .error c => raise c (loseDeserialize a s)
    | .ok (t, d) =>
      done (setResult (d.pos - s.inPos) { setSlot a { alphabet := x.toNat, root := t } s with inPos := d.pos })

/-- The code of `x` in slot `a`, or the fault of R189 and R191. -/
def slotCode (s : State) (a : BitVec 2) (x : Nat) : Except FaultCode (List Bool) :=
  match slot s a with
  | none => .error .htEmpty
  | some t =>
    if t.alphabet ≤ x then .error .htSymbol
    else
      match huffCode t.root x with
      | none => .error .htSymbol
      | some p => .ok p

/-- HT_ENCODE (R189). -/
def execHtEncode (a : BitVec 2) (x : BitVec 16) (s : State) : Host.Outcome State Fault Refusal :=
  match slotCode s a x.toNat with
  | .error c => raise c s
  | .ok p => emitCounted p s

/-- The write set of HT_DECODE (R190). -/
def loseDecode (s : State) : State := loseResult (loseInPos s)

/-- HT_DECODE (R190). -/
def execHtDecode (a : BitVec 2) (s : State) : Host.Outcome State Fault Refusal :=
  match slot s a with
  | none => raise .htEmpty s
  | some t =>
    match huffWalk s t.root s.inPos with
    | .error c => raise c (loseDecode s)
    | .ok (x, p) => done (setResult x { s with inPos := p })

/-- HT_LEN (R191). -/
def execHtLen (a : BitVec 2) (x : BitVec 16) (s : State) : Host.Outcome State Fault Refusal :=
  match slotCode s a x.toNat with
  | .error c => raise c s
  | .ok p => done (setResult p.length s)

end Sys2Proof.Machine
end

