-- ==== Sys2Proof/Machine/ValueTable.lean ====
section
/-! DEFINITION. The sparse value table: the reference gap code, the three serializations, the translation, and the
commands (`spec/42_value_table.md` R150-R163). -/

namespace Sys2Proof.Machine

/-! ## The reference gap code (R151) -/

/-- `refw(j)`: 2^(20 − j) down to 1, and 1 from there on. -/
def refWeight (j : Nat) : Nat := if j ≤ 20 then 2 ^ (20 - j) else 1

/-- `RefCode(M)`: the tree HuffBuild makes for the symbols 0..M from the reference weights. -/
def refTree (m : Nat) : Tree := huffBuild ((List.range (m + 1)).map refWeight)

/-- The codes of a list of symbols, one after the other. -/
def codeAll (t : Tree) (xs : List Nat) : List Bool := xs.flatMap fun x => (huffCode t x).getD []

/-! ## The three payloads -/

/-- The bitmap payload (R153): bit i is present[i]. -/
def bitmapBits (s : State) (m : Nat) : List Bool := (List.range m).map (presentAt s)

/-- The gaps of R154 of the values `vs`, in rising order, from `next` (one past the value before) to the terminator. -/
def gapsFrom (m : Nat) : Nat → List Nat → List Nat
  | next, [] => [m - next]
  | next, v :: vs => (v - next) :: gapsFrom m (v + 1) vs

/-- The delta payload's symbols (R154). -/
def deltaSymbols (s : State) (m : Nat) : List Nat := gapsFrom m 0 (occupied s m)

/-- The lengths of the maximal runs of a bit list, the current run having bit `cur` and `n` values so far (R155). -/
def runLengths : Bool → Nat → List Bool → List Nat
  | _, n, [] => [n]
  | cur, n, b :: bs => if b = cur then runLengths cur (n + 1) bs else n :: runLengths b 1 bs

/-- The runs `L_0, …, L_(R−1)`, starting with an empty run that may have length 0 (R155). -/
def presenceRuns (s : State) (m : Nat) : List Nat := runLengths false 0 (bitmapBits s m)

/-- The range payload's symbols: R − 1, then the runs (R155). -/
def rangeSymbols (s : State) (m : Nat) : List Nat := ((presenceRuns s m).length - 1) :: presenceRuns s m

/-- The payload of a tag (R153-R155). -/
def payload (s : State) (m : Nat) (tag : Nat) : List Bool :=
  match tag with
  | 0 => bitmapBits s m
  | 1 => codeAll (refTree m) (deltaSymbols s m)
  | _ => codeAll (refTree m) (rangeSymbols s m)

/-- The tag with the shortest payload, the smallest tag on a tie (R157). -/
def bestTag (lb ld lr : Nat) : Nat :=
  if lb ≤ ld ∧ lb ≤ lr then 0 else if ld ≤ lr then 1 else 2

/-- The tag VT_ENCODE chooses (R157): Lb = M. -/
def chosenTag (s : State) (m : Nat) : Nat := bestTag m (payload s m 1).length (payload s m 2).length

/-! ## The translation (R152, R160) -/

/-- `for i in 0..n−1: VT.fwd[v_i] <- i ; VT.inv[i] <- v_i`, with VT_CEIL = n and VT_VALID = 1. -/
def buildTranslation (vs : List Nat) (s : State) : State :=
  { s with
    vtCeil := vs.length
    fwd := vs.zipIdx.foldl (fun f p => f.setIfInBounds p.1 (BitVec.ofNat 10 p.2)) s.fwd
    inv := vs.zipIdx.foldl (fun f p => f.setIfInBounds p.2 (BitVec.ofNat 9 p.1)) s.inv
    vtValid := true }

/-! ## Reading a payload -/

/-- The values a bitmap marks, from value `i` with `n` bits left (R153). -/
def readBitmap (s : State) : Nat → Nat → Nat → Except FaultCode (List Nat × Nat)
  | 0, _, p => .ok ([], p)
  | n + 1, i, p =>
    match inBit s p with
    | .error c => .error c
    | .ok (b, q) =>
      match readBitmap s n (i + 1) q with
      | .error c => .error c
      | .ok (vs, r) => .ok (if b then i :: vs else vs, r)

/-- The decoding rule of R154 with `next = prev + 1`. Every gap but the last moves `next` on by at least 1 and never past
M, so M + 1 rounds are enough and `n = M + 1` cuts nothing off. -/
def readDelta (s : State) (t : Tree) (m : Nat) : Nat → Nat → Nat → Except FaultCode (List Nat × Nat)
  | 0, _, _ => .error .fmtVtPayload
  | n + 1, next, p =>
    match huffWalk s t p with
    | .error c => .error c
    | .ok (g, q) =>
      if next + g = m then .ok ([], q)
      else if m < next + g then .error .fmtVtPayload
      else
        match readDelta s t m n (next + g + 1) q with
        | .error c => .error c
        | .ok (vs, r) => .ok ((next + g) :: vs, r)

/-- The decoding rule of R155 with `n` runs left, the next one number `i`, and the sum of the runs so far. -/
def readRuns (s : State) (t : Tree) (m : Nat) : Nat → Nat → Nat → Nat → Except FaultCode (List Nat × Nat)
  | 0, _, sum, p => if sum = m then .ok ([], p) else .error .fmtVtPayload
  | n + 1, i, sum, p =>
    match huffWalk s t p with
    | .error c => .error c
    | .ok (l, q) =>
      if 1 ≤ i ∧ l = 0 then .error .fmtVtPayload
      else if m < sum + l then .error .fmtVtPayload
      else
        match readRuns s t m n (i + 1) (sum + l) q with
        | .error c => .error c
        | .ok (vs, r) => .ok ((if i % 2 = 1 then List.range' sum l else []) ++ vs, r)

/-- The range payload: the run count minus one, then the runs (R155). -/
def readRange (s : State) (t : Tree) (m : Nat) (p : Nat) : Except FaultCode (List Nat × Nat) :=
  match huffWalk s t p with
  | .error c => .error c
  | .ok (c, q) => readRuns s t m (c + 1) 0 0 q

/-- A tag and its payload from position `p` (R156, R161): the tag, the values marked, the position after them. -/
def readTable (s : State) (m : Nat) (p : Nat) : Except FaultCode (Nat × List Nat × Nat) :=
  match inBits s 2 0 p with
  | .error c => .error c
  | .ok (tag, q) =>
    match (match tag with
      | 0 => readBitmap s m 0 q
      | 1 => readDelta s (refTree m) m (m + 1) 0 q
      | 2 => readRange s (refTree m) m q
      | _ => .error .fmtVtTag : Except FaultCode (List Nat × Nat)) with
    | .error c => .error c
    | .ok (vs, r) => .ok (tag, vs, r)

/-! ## Commands -/

/-- The depths VT_CLEAR and VT_DECODE accept (R158, R161). -/
def depthLegal (d : Nat) : Bool := 1 ≤ d ∧ d ≤ Config.vtMaxDepth

/-- VT_CLEAR (R158). -/
def execVtClear (k : BitVec 6) (s : State) : Host.Outcome State Fault Refusal :=
  if ¬ depthLegal k.toNat then raise .vtDepth s
  else done { s with
    vtDepth := k.toNat, present := presenceOf [], vtCeil := 0, vtTag := 0, vtValid := false }

/-- VT_MARK (R159). -/
def execVtMark (x : BitVec 16) (s : State) : Host.Outcome State Fault Refusal :=
  if s.vtDepth = 0 then raise .vtDepth s
  else if 2 ^ s.vtDepth ≤ x.toNat then raise .vtValue s
  else done { s with present := s.present.setIfInBounds x.toNat true, vtValid := false }

/-- The write set of VT_ENCODE (R160). -/
def loseVtEncode (s : State) : State := loseTranslation (loseResult (loseOutput s))

/-- VT_ENCODE (R160). -/
def execVtEncode (s : State) : Host.Outcome State Fault Refusal :=
  if s.vtDepth = 0 then raise .vtDepth s
  else
    let m := 2 ^ s.vtDepth
    let tag := chosenTag s m
    let bits := payload s m tag
    match emit (msbBits 2 tag ++ bits) s with
    | .error c => raise c (loseVtEncode s)
    | .ok t =>
      done (setResult (2 + bits.length)
        (buildTranslation (occupied s m) { t with vtTag := BitVec.ofNat 2 tag }))

/-- The write set of VT_DECODE (R161). -/
def loseVtDecode (s : State) : State := losePresence (loseTranslation (loseResult (loseInPos s)))

/-- VT_DECODE (R161). -/
def execVtDecode (k : BitVec 6) (s : State) : Host.Outcome State Fault Refusal :=
  if ¬ depthLegal k.toNat then raise .vtDepth s
  else
    match readTable s (2 ^ k.toNat) s.inPos with
    | .error c => raise c (loseVtDecode s)
    | .ok (tag, vs, p) =>
      done (setResult (p - s.inPos)
        (buildTranslation vs { s with
          vtDepth := k.toNat, present := presenceOf vs, vtTag := BitVec.ofNat 2 tag, inPos := p }))

/-- VT_FWD (R162). -/
def execVtFwd (x : BitVec 16) (s : State) : Host.Outcome State Fault Refusal :=
  if s.vtValid = false then raise .vtNotValid s
  else if 2 ^ s.vtDepth ≤ x.toNat then raise .vtValue s
  else if presentAt s x.toNat = false then raise .vtAbsent s
  else done (setResult (fwdAt s x.toNat) s)

/-- VT_INV (R163). -/
def execVtInv (x : BitVec 16) (s : State) : Host.Outcome State Fault Refusal :=
  if s.vtValid = false then raise .vtNotValid s
  else if s.vtCeil ≤ x.toNat then raise .vtIndex s
  else done (setResult (invAt s x.toNat) s)

end Sys2Proof.Machine
end

