-- ==== Sys2Proof/Syntax.lean ====
section
/-! DEFINITION. The 32 commands of HOH-EC, one constructor per row of `spec/opcode_table.json` (`spec/30_encoding.md`
R83), each carrying the fields its row marks used. -/

namespace Sys2Proof

/-- A command. `a` is a frequency-bank or Huffman-slot number, `b` the bank of HT_BUILD, `k` a bit count or a bit depth,
`x` the 16-bit field `s` (symbol, limit, alphabet size, value or index). -/
inductive Instr where
  | nop
  | ftClear (a : BitVec 2) (x : BitVec 16)
  | ftSet (a : BitVec 2) (x : BitVec 16)
  | ftInc (a : BitVec 2) (x : BitVec 16)
  | ftGet (a : BitVec 2) (x : BitVec 16)
  | ftTotal (a : BitVec 2)
  | ftLow (a : BitVec 2) (x : BitVec 16)
  | ftHigh (a : BitVec 2) (x : BitVec 16)
  | ftLimit (a : BitVec 2)
  | rcEncInit
  | rcEncWrite (a : BitVec 2) (x : BitVec 16)
  | rcEncFinish
  | rcDecInit
  | rcDecRead (a : BitVec 2)
  | vtClear (k : BitVec 6)
  | vtMark (x : BitVec 16)
  | vtEncode
  | vtDecode (k : BitVec 6)
  | vtFwd (x : BitVec 16)
  | vtInv (x : BitVec 16)
  | htBuild (a : BitVec 2) (b : BitVec 2)
  | htSerialize (a : BitVec 2)
  | htDeserialize (a : BitVec 2) (x : BitVec 16)
  | htEncode (a : BitVec 2) (x : BitVec 16)
  | htDecode (a : BitVec 2)
  | htLen (a : BitVec 2) (x : BitVec 16)
  | bsPut (k : BitVec 6)
  | bsGet (k : BitVec 6)
  | bsOutAlign
  | bsInAlign
  | bsOutReset
  | bsInSeek
  deriving DecidableEq, Repr

end Sys2Proof
end

