-- ==== Sys2Proof/Machine/Dispatch.lean ====
section
/-! DEFINITION. One arm per command (`spec/30_encoding.md` R83): what the block does with the pending command. -/

namespace Sys2Proof.Machine

def exec (i : Instr) (s : State) : Host.Outcome State Fault Refusal :=
  match i with
  | .nop => Sys2Proof.Machine.execNop s
  | .ftClear a x => Sys2Proof.Machine.execFtClear a x s
  | .ftSet a x => Sys2Proof.Machine.execFtSet a x s
  | .ftInc a x => Sys2Proof.Machine.execFtInc a x s
  | .ftGet a x => Sys2Proof.Machine.execFtGet a x s
  | .ftTotal a => Sys2Proof.Machine.execFtTotal a s
  | .ftLow a x => Sys2Proof.Machine.execFtLow a x s
  | .ftHigh a x => Sys2Proof.Machine.execFtHigh a x s
  | .ftLimit a => Sys2Proof.Machine.execFtLimit a s
  | .rcEncInit => Sys2Proof.Machine.execRcEncInit s
  | .rcEncWrite a x => Sys2Proof.Machine.execRcEncWrite a x s
  | .rcEncFinish => Sys2Proof.Machine.execRcEncFinish s
  | .rcDecInit => Sys2Proof.Machine.execRcDecInit s
  | .rcDecRead a => Sys2Proof.Machine.execRcDecRead a s
  | .vtClear k => Sys2Proof.Machine.execVtClear k s
  | .vtMark x => Sys2Proof.Machine.execVtMark x s
  | .vtEncode => Sys2Proof.Machine.execVtEncode s
  | .vtDecode k => Sys2Proof.Machine.execVtDecode k s
  | .vtFwd x => Sys2Proof.Machine.execVtFwd x s
  | .vtInv x => Sys2Proof.Machine.execVtInv x s
  | .htBuild a b => Sys2Proof.Machine.execHtBuild a b s
  | .htSerialize a => Sys2Proof.Machine.execHtSerialize a s
  | .htDeserialize a x => Sys2Proof.Machine.execHtDeserialize a x s
  | .htEncode a x => Sys2Proof.Machine.execHtEncode a x s
  | .htDecode a => Sys2Proof.Machine.execHtDecode a s
  | .htLen a x => Sys2Proof.Machine.execHtLen a x s
  | .bsPut k => Sys2Proof.Machine.execBsPut k s
  | .bsGet k => Sys2Proof.Machine.execBsGet k s
  | .bsOutAlign => Sys2Proof.Machine.execBsOutAlign s
  | .bsInAlign => Sys2Proof.Machine.execBsInAlign s
  | .bsOutReset => Sys2Proof.Machine.execBsOutReset s
  | .bsInSeek => Sys2Proof.Machine.execBsInSeek s

end Sys2Proof.Machine
end

