-- ==== Sys2Proof/WellFormed.lean ====
section
/-! DEFINITION. Which commands exist: the field widths are in the types of `Instr`, and BS_PUT and BS_GET take at most 32
bits (`spec/30_encoding.md` R82, R84). Every other range check is part of a command's own rule. -/

namespace Sys2Proof

/-- A command that has an encoding: k is at most 32 in BS_PUT and BS_GET. -/
def WellFormed : Instr → Bool
  | .bsPut k => k.toNat ≤ 32
  | .bsGet k => k.toNat ≤ 32
  | .nop => true
  | .ftClear _ _ => true
  | .ftSet _ _ => true
  | .ftInc _ _ => true
  | .ftGet _ _ => true
  | .ftTotal _ => true
  | .ftLow _ _ => true
  | .ftHigh _ _ => true
  | .ftLimit _ => true
  | .rcEncInit => true
  | .rcEncWrite _ _ => true
  | .rcEncFinish => true
  | .rcDecInit => true
  | .rcDecRead _ => true
  | .vtClear _ => true
  | .vtMark _ => true
  | .vtEncode => true
  | .vtDecode _ => true
  | .vtFwd _ => true
  | .vtInv _ => true
  | .htBuild _ _ => true
  | .htSerialize _ => true
  | .htDeserialize _ _ => true
  | .htEncode _ _ => true
  | .htDecode _ => true
  | .htLen _ _ => true
  | .bsOutAlign => true
  | .bsInAlign => true
  | .bsOutReset => true
  | .bsInSeek => true

end Sys2Proof
end

