-- ==== Sys2Proof/Decode.lean ====
section
/-! DEFINITION. The decoder (`spec/30_encoding.md` R80-R84), total on 32-bit words and rejecting by name, and after it the
encoder, written from the same opcode map. -/

namespace Sys2Proof

/-- Why a word is no command (R84). Each of the three raises ILLEGAL_COMMAND. -/
inductive Reject where
  /-- The opcode is in no row of the map. -/
  | reservedOpcode
  /-- A field the row marks unused is not 0. -/
  | unusedFieldNotZero
  /-- k exceeds 32 in BS_PUT or BS_GET. -/
  | countAbove32
  deriving DecidableEq, Repr

/-- `op = w[31:26]` (R81). -/
def opField (w : Word) : BitVec 6 := w.extractLsb' 26 6

/-- `a = w[25:24]` (R81). -/
def aField (w : Word) : BitVec 2 := w.extractLsb' 24 2

/-- `b = w[23:22]` (R81). -/
def bField (w : Word) : BitVec 2 := w.extractLsb' 22 2

/-- `k = w[21:16]` (R81). -/
def kField (w : Word) : BitVec 6 := w.extractLsb' 16 6

/-- `s = w[15:0]` (R81). -/
def sField (w : Word) : BitVec 16 := w.extractLsb' 0 16

/-- The command `i`, where every unused field is 0 (R82's second check). -/
def whenUnusedZero (unusedZero : Bool) (i : Instr) : Except Reject Instr :=
  if unusedZero then .ok i else .error .unusedFieldNotZero

/-- R82's check of k in BS_PUT and BS_GET, made after the unused fields are found 0. -/
def whenCountFits (unusedZero : Bool) (k : BitVec 6) (i : Instr) : Except Reject Instr :=
  if unusedZero then (if k.toNat ≤ 32 then .ok i else .error .countAbove32) else .error .unusedFieldNotZero

/-- R82 with the opcode map of R83. Each row's condition names the fields the map marks UNUSED. -/
def decode (w : Word) : Except Reject Instr :=
  let a := aField w
  let b := bField w
  let k := kField w
  let x := sField w
  match (opField w).toNat with
  | 0x00 => whenUnusedZero (a = 0 ∧ b = 0 ∧ k = 0 ∧ x = 0) .nop
  | 0x01 => whenUnusedZero (b = 0 ∧ k = 0) (.ftClear a x)
  | 0x02 => whenUnusedZero (b = 0 ∧ k = 0) (.ftSet a x)
  | 0x03 => whenUnusedZero (b = 0 ∧ k = 0) (.ftInc a x)
  | 0x04 => whenUnusedZero (b = 0 ∧ k = 0) (.ftGet a x)
  | 0x05 => whenUnusedZero (b = 0 ∧ k = 0 ∧ x = 0) (.ftTotal a)
  | 0x06 => whenUnusedZero (b = 0 ∧ k = 0) (.ftLow a x)
  | 0x07 => whenUnusedZero (b = 0 ∧ k = 0) (.ftHigh a x)
  | 0x08 => whenUnusedZero (b = 0 ∧ k = 0 ∧ x = 0) (.ftLimit a)
  | 0x09 => whenUnusedZero (a = 0 ∧ b = 0 ∧ k = 0 ∧ x = 0) .rcEncInit
  | 0x0A => whenUnusedZero (b = 0 ∧ k = 0) (.rcEncWrite a x)
  | 0x0B => whenUnusedZero (a = 0 ∧ b = 0 ∧ k = 0 ∧ x = 0) .rcEncFinish
  | 0x0C => whenUnusedZero (a = 0 ∧ b = 0 ∧ k = 0 ∧ x = 0) .rcDecInit
  | 0x0D => whenUnusedZero (b = 0 ∧ k = 0 ∧ x = 0) (.rcDecRead a)
  | 0x10 => whenUnusedZero (a = 0 ∧ b = 0 ∧ x = 0) (.vtClear k)
  | 0x11 => whenUnusedZero (a = 0 ∧ b = 0 ∧ k = 0) (.vtMark x)
  | 0x12 => whenUnusedZero (a = 0 ∧ b = 0 ∧ k = 0 ∧ x = 0) .vtEncode
  | 0x13 => whenUnusedZero (a = 0 ∧ b = 0 ∧ x = 0) (.vtDecode k)
  | 0x14 => whenUnusedZero (a = 0 ∧ b = 0 ∧ k = 0) (.vtFwd x)
  | 0x15 => whenUnusedZero (a = 0 ∧ b = 0 ∧ k = 0) (.vtInv x)
  | 0x18 => whenUnusedZero (k = 0 ∧ x = 0) (.htBuild a b)
  | 0x19 => whenUnusedZero (b = 0 ∧ k = 0 ∧ x = 0) (.htSerialize a)
  | 0x1A => whenUnusedZero (b = 0 ∧ k = 0) (.htDeserialize a x)
  | 0x1B => whenUnusedZero (b = 0 ∧ k = 0) (.htEncode a x)
  | 0x1C => whenUnusedZero (b = 0 ∧ k = 0 ∧ x = 0) (.htDecode a)
  | 0x1D => whenUnusedZero (b = 0 ∧ k = 0) (.htLen a x)
  | 0x20 => whenCountFits (a = 0 ∧ b = 0 ∧ x = 0) k (.bsPut k)
  | 0x21 => whenCountFits (a = 0 ∧ b = 0 ∧ x = 0) k (.bsGet k)
  | 0x22 => whenUnusedZero (a = 0 ∧ b = 0 ∧ k = 0 ∧ x = 0) .bsOutAlign
  | 0x23 => whenUnusedZero (a = 0 ∧ b = 0 ∧ k = 0 ∧ x = 0) .bsInAlign
  | 0x24 => whenUnusedZero (a = 0 ∧ b = 0 ∧ k = 0 ∧ x = 0) .bsOutReset
  | 0x25 => whenUnusedZero (a = 0 ∧ b = 0 ∧ k = 0 ∧ x = 0) .bsInSeek
  | _ => .error .reservedOpcode

/-- The word with the five fields of R80, op at the top. -/
def commandWord (op : BitVec 6) (a b : BitVec 2) (k : BitVec 6) (x : BitVec 16) : Word :=
  op ++ a ++ b ++ k ++ x

/-- The command word of a command: `match | (a << 24) | (b << 22) | (k << 16) | s` (R86). -/
def encode : Instr → Word
  | .nop => commandWord 0x00 0 0 0 0
  | .ftClear a x => commandWord 0x01 a 0 0 x
  | .ftSet a x => commandWord 0x02 a 0 0 x
  | .ftInc a x => commandWord 0x03 a 0 0 x
  | .ftGet a x => commandWord 0x04 a 0 0 x
  | .ftTotal a => commandWord 0x05 a 0 0 0
  | .ftLow a x => commandWord 0x06 a 0 0 x
  | .ftHigh a x => commandWord 0x07 a 0 0 x
  | .ftLimit a => commandWord 0x08 a 0 0 0
  | .rcEncInit => commandWord 0x09 0 0 0 0
  | .rcEncWrite a x => commandWord 0x0A a 0 0 x
  | .rcEncFinish => commandWord 0x0B 0 0 0 0
  | .rcDecInit => commandWord 0x0C 0 0 0 0
  | .rcDecRead a => commandWord 0x0D a 0 0 0
  | .vtClear k => commandWord 0x10 0 0 k 0
  | .vtMark x => commandWord 0x11 0 0 0 x
  | .vtEncode => commandWord 0x12 0 0 0 0
  | .vtDecode k => commandWord 0x13 0 0 k 0
  | .vtFwd x => commandWord 0x14 0 0 0 x
  | .vtInv x => commandWord 0x15 0 0 0 x
  | .htBuild a b => commandWord 0x18 a b 0 0
  | .htSerialize a => commandWord 0x19 a 0 0 0
  | .htDeserialize a x => commandWord 0x1A a 0 0 x
  | .htEncode a x => commandWord 0x1B a 0 0 x
  | .htDecode a => commandWord 0x1C a 0 0 0
  | .htLen a x => commandWord 0x1D a 0 0 x
  | .bsPut k => commandWord 0x20 0 0 k 0
  | .bsGet k => commandWord 0x21 0 0 k 0
  | .bsOutAlign => commandWord 0x22 0 0 0 0
  | .bsInAlign => commandWord 0x23 0 0 0 0
  | .bsOutReset => commandWord 0x24 0 0 0 0
  | .bsInSeek => commandWord 0x25 0 0 0 0

/-- The command the decoder reads from an instruction whose bits are `w`, numbered as `spec/opcode_table.json` numbers
them: one 32-bit word, bit 0 its least significant bit. Bits at and above `nbits` are taken as 0. -/
def decodeTableWord (nbits w : Nat) : Option Instr :=
  match decode (BitVec.ofNat 32 (w % 2 ^ nbits)) with
  | .ok i => some i
  | .error _ => none

end Sys2Proof
end

