-- ==== Sys2Proof/Machine/HostAccess.lean ====
section
/-! DEFINITION. What the host's accesses do: the address map and the windows (`spec/20_memory.md` R60-R64), the registers
(`spec/10_state.md` R21-R43), the PROTOCOL fault (`spec/60_exceptions.md` R236), and fetching the pending command. -/

namespace Sys2Proof.Machine

/-! ## The address map (R60) -/

/-- The size of the block's range, 48 MiB. -/
def blockBytes : Nat := 0x3000000

/-- The offset of the INBUF window. -/
def inWindow : Nat := 0x1000000

/-- The offset of the OUTBUF window. -/
def outWindow : Nat := 0x2000000

/-- The aligned offset an address stands for: address bits 1:0 are ignored (R61). None: the address is outside the
block's range. -/
def blockOffset (s : State) (addr : Nat) : Option Nat :=
  if s.cfg.base ≤ addr ∧ addr < s.cfg.base + blockBytes then some ((addr - s.cfg.base) / 4 * 4) else none

/-- Whether an aligned offset is in the INBUF window. -/
def inInWindow (s : State) (off : Nat) : Bool := inWindow ≤ off ∧ off < inWindow + s.cfg.inBytes

/-- Whether an aligned offset is in the OUTBUF window. -/
def inOutWindow (s : State) (off : Nat) : Bool := outWindow ≤ off ∧ off < outWindow + s.cfg.outBytes

/-! ## Windows (R63, R64): big-endian words -/

/-- Four bytes as a word, the first in bits 31:24. -/
def bigEndian (b0 b1 b2 b3 : Byte) : Word := b0 ++ b1 ++ b2 ++ b3

/-- The INBUF word whose first byte is byte `i`. -/
def inWord (s : State) (i : Nat) : Word :=
  bigEndian (inByte s i) (inByte s (i + 1)) (inByte s (i + 2)) (inByte s (i + 3))

/-- The word of 1s in its top `n` bits (all of it for `n ≥ 32`). -/
def topMask (n : Nat) : Word := BitVec.allOnes 32 <<< (32 - n)

/-- The OUTBUF word whose first byte is byte `i`: bits at stream positions at and past OUTPOS are those of the free word
`free` (R48, R64, 93 I9). -/
def outWord (s : State) (i : Nat) (free : Word) : Word :=
  let stored := bigEndian (outByte s i) (outByte s (i + 1)) (outByte s (i + 2)) (outByte s (i + 3))
  let known := topMask (s.outPos - 8 * i)
  stored &&& known ||| free &&& ~~~known

/-- Write a word to the INBUF bytes from `i` on. -/
def writeInWord (i : Nat) (v : Word) (s : State) : State :=
  { s with inbuf :=
      memWrite (memWrite (memWrite (memWrite s.inbuf i (v.extractLsb' 24 8))
        (i + 1) (v.extractLsb' 16 8)) (i + 2) (v.extractLsb' 8 8)) (i + 3) (v.extractLsb' 0 8) }

/-! ## Reads -/

/-- The registers whose reads are exact while BUSY = 1 (`spec/70_reset_and_hazards.md` R264), and the offsets that always
read 0: the write-only CTRL and CMD (R22, R26), reserved and unmapped ones (R62). None: another register or window. -/
def readAlways (s : State) (off : Nat) : Option Word :=
  match off with
  | 0x000 => some idValue
  | 0x004 => some 0
  | 0x008 => some (statusWord s)
  | 0x00C => some (faultCodeWord s)
  | 0x010 => some (faultCmdWord s)
  | 0x014 => some 0
  | 0x018 => none
  | 0x01C => none
  | 0x020 => none
  | 0x024 => some (s.irqEn.setWidth 32)
  | 0x028 => some (s.irqStatus.setWidth 32)
  | 0x02C => none
  | 0x030 => none
  | 0x034 => none
  | 0x038 => none
  | 0x03C => none
  | 0x040 => none
  | 0x044 => none
  | 0x048 => none
  | 0x04C => none
  | 0x050 => none
  | 0x054 => some (param0Word s)
  | 0x058 => some (BitVec.ofNat 32 s.cfg.inBytes)
  | 0x05C => some (BitVec.ofNat 32 s.cfg.outBytes)
  | _ => if inInWindow s off || inOutWindow s off then none else some 0

/-- What the other registers and the windows read as while the block is idle (R27-R42, R63, R64). -/
def readIdle (s : State) (off : Nat) (free : Word) : Word :=
  match off with
  | 0x018 => s.data
  | 0x01C => s.result
  | 0x020 => s.cmdCount
  | 0x02C => BitVec.ofNat 32 s.inLen
  | 0x030 => BitVec.ofNat 32 s.inPos
  | 0x034 => BitVec.ofNat 32 s.outPos
  | 0x038 => s.rcLow.setWidth 32
  | 0x03C => s.rcHigh.setWidth 32
  | 0x040 => s.rcCode.setWidth 32
  | 0x044 => s.rcUnderflow
  | 0x048 => BitVec.ofNat 32 s.vtDepth
  | 0x04C => BitVec.ofNat 32 s.vtCeil
  | 0x050 => s.vtTag.setWidth 32
  | _ => if inInWindow s off then inWord s (off - inWindow) else outWord s (off - outWindow) free

/-- What a host read at an aligned offset returns; `free` is the free word it may return, whole while BUSY = 1 (93 I8) or
in the OUTBUF bits not written (93 I9). -/
def readValue (s : State) (off : Nat) (free : Word) : Word :=
  match readAlways s off with
  | some v => v
  | none => if busy s then free else readIdle s off free

/-- A host read (R71): nothing of the block changes; the bus holds the word read. -/
def hostRead (addr : Nat) (s : State) : Host.Outcome State Fault Refusal :=
  match blockOffset s addr with
  | none => .fault .hostAddressOutsideBlock
  | some off => .next { s with bus := readValue s off (Config.freeBits 32 s.draws), draws := s.draws + 1 }

/-! ## Writes -/

/-- A write that is refused with PROTOCOL while BUSY = 1 (R236): the pending command is discarded and the write not made. -/
def unlessBusy (s : State) (written : State) : State := if busy s then enterFault .protocol s else written

/-- CMD (R26): ignored while the fault latch is set, PROTOCOL while BUSY = 1, else the word becomes pending. -/
def writeCmd (v : Word) (s : State) : State :=
  if faulted s then s else unlessBusy s { s with pending := some v }

/-- CTRL (R22, R262): bit 0 resets, whatever the state. -/
def writeCtrl (v : Word) (s : State) : State := if v.getLsbD 0 then resetState s else s

/-- IN_LEN (R32): `min(w[24:0], IN_BYTES)`, and INPOS becomes 0. -/
def writeInLen (v : Word) (s : State) : State :=
  unlessBusy s { s with inLen := min (v.toNat % 2 ^ 25) s.cfg.inBytes, inPos := 0 }

/-- A host write at an aligned offset (R22-R43, R62-R64). -/
def writeOffset (off : Nat) (v : Word) (s : State) : State :=
  match off with
  | 0x004 => writeCtrl v s
  | 0x014 => writeCmd v s
  | 0x018 => unlessBusy s { s with data := v }
  | 0x024 => { s with irqEn := v.setWidth 2 }
  | 0x028 => { s with irqStatus := s.irqStatus &&& ~~~(v.setWidth 2) }
  | 0x02C => writeInLen v s
  | _ => if inInWindow s off then unlessBusy s (writeInWord (off - inWindow) v s) else s

/-- A host write. -/
def hostWrite (addr : Nat) (v : Word) (s : State) : Host.Outcome State Fault Refusal :=
  match blockOffset s addr with
  | none => .fault .hostAddressOutsideBlock
  | some off => .next (writeOffset off v s)

/-! ## Fetching the pending command (R69, R82) -/

/-- The word the block executes now: the pending one, unless the fault latch is set. None: its step is not enabled. -/
def enabledWord (s : State) : Option Word :=
  match s.fault with
  | none => s.pending
  | some _ => none

/-- A word that decodes to no command raises ILLEGAL_COMMAND (R82, R84). -/
def illegalCommand (s : State) : Host.Outcome State Fault Refusal := raise .illegalCommand s

end Sys2Proof.Machine
end

