-- ==== Sys2Proof/Machine/Turns.lean ====
section
/-! DEFINITION. What one entry of the total order of host accesses, resets and block steps does (`spec/20_memory.md` R69,
R70, `spec/70_reset_and_hazards.md` R271). -/

namespace Sys2Proof.Machine

/-- The block's step (R69, R82): decode and execute the pending word. Not enabled, it leaves the state as it is: an idle
block waits for a CMD write (R261), and a faulted one for a reset (R234). -/
def blockStep (s : State) : Host.Outcome State Fault Refusal :=
  match enabledWord s with
  | none => .next s
  | some w =>
    match decode w with
    | .error _ => illegalCommand s
    | .ok i => exec i s

/-- What an entry of the schedule does. -/
def takeTurn (t : Turn) (s : State) : Host.Outcome State Fault Refusal :=
  match t with
  | .block => blockStep s
  | .read a => hostRead a s
  | .write a v => hostWrite a v s
  | .reset => .next (resetState s)

end Sys2Proof.Machine
end

