-- ==== Sys2Proof/Machine/Step.lean ====
section
/-! DEFINITION. One step of the machine, and the state whose next step runs a given command word. -/

namespace Sys2Proof.Machine

/-- One step: the next entry of the schedule happens. With none left, the block takes its step if it is enabled, and the
machine idles otherwise. -/
def step (s : State) : Host.Outcome State Fault Refusal :=
  match s.schedule with
  | [] => blockStep s
  | t :: rest => takeTurn t { s with schedule := rest }

/-- `s` with the command word `w` in the pending latch, the fault latch clear and the block's turn next, so that the very
next step decodes and executes it (log entry 2). -/
def State.withFetchWord (s : State) (nbits w : Nat) : State :=
  { s with pending := some (BitVec.ofNat 32 (w % 2 ^ nbits)), fault := none, schedule := .block :: s.schedule }

end Sys2Proof.Machine
end

