-- ==== Sys2Proof/Safety.lean ====
section
/-! DEFINITION. The terms claims are made in: completing and faulting, what a command may write (each rule's "Writes"), the
faults it may raise (`spec/60_exceptions.md` R231), the streams, and the invariants of the spec. -/

namespace Sys2Proof.Machine

/-! ## Pieces of state and frames -/

/-- A piece of state a frame speaks of: a register, a bank, a slot, or a memory. -/
inductive Part where
  | cfg
  | schedule
  | bus
  | draws
  | pending
  | fault
  | data
  | result
  | cmdCount
  | irqEn
  | irqStatus
  | inLen
  | inPos
  | outPos
  | rcLow
  | rcHigh
  | rcCode
  | rcUnderflow
  | rcMode
  | vtDepth
  | vtCeil
  | vtTag
  | vtValid
  | present
  | fwd
  | inv
  | bank (t : BitVec 2)
  | slot (h : BitVec 2)
  | inbuf
  | outbuf
  deriving DecidableEq, Repr

/-- Two states agree on a piece of state. A buffer is compared byte by byte, as reads of it see it. -/
def Part.Same (s t : State) : Part → Prop
  | .cfg => t.cfg = s.cfg
  | .schedule => t.schedule = s.schedule
  | .bus => t.bus = s.bus
  | .draws => t.draws = s.draws
  | .pending => t.pending = s.pending
  | .fault => t.fault = s.fault
  | .data => t.data = s.data
  | .result => t.result = s.result
  | .cmdCount => t.cmdCount = s.cmdCount
  | .irqEn => t.irqEn = s.irqEn
  | .irqStatus => t.irqStatus = s.irqStatus
  | .inLen => t.inLen = s.inLen
  | .inPos => t.inPos = s.inPos
  | .outPos => t.outPos = s.outPos
  | .rcLow => t.rcLow = s.rcLow
  | .rcHigh => t.rcHigh = s.rcHigh
  | .rcCode => t.rcCode = s.rcCode
  | .rcUnderflow => t.rcUnderflow = s.rcUnderflow
  | .rcMode => t.rcMode = s.rcMode
  | .vtDepth => t.vtDepth = s.vtDepth
  | .vtCeil => t.vtCeil = s.vtCeil
  | .vtTag => t.vtTag = s.vtTag
  | .vtValid => t.vtValid = s.vtValid
  | .present => t.present = s.present
  | .fwd => t.fwd = s.fwd
  | .inv => t.inv = s.inv
  | .bank a => counts t a = counts s a
  | .slot h => Machine.slot t h = Machine.slot s h
  | .inbuf => ∀ a, inByte t a = inByte s a
  | .outbuf => ∀ a, outByte t a = outByte s a

/-- `t` differs from `s` in the listed pieces of state at most. -/
def OnlyChanges (ps : List Part) (s t : State) : Prop := ∀ p : Part, p ∉ ps → p.Same s t

/-- What a command may write: the "Writes" of its rule, RESULT and STATUS bits included. -/
def writes : Instr → List Part
  | .nop => []
  | .ftClear a _ => [.bank a]
  | .ftSet a _ => [.bank a]
  | .ftInc a _ => [.bank a]
  | .ftGet _ _ => [.result]
  | .ftTotal _ => [.result]
  | .ftLow _ _ => [.result]
  | .ftHigh _ _ => [.result]
  | .ftLimit _ => [.result]
  | .rcEncInit => [.rcLow, .rcHigh, .rcCode, .rcUnderflow, .rcMode]
  | .rcEncWrite _ _ => [.rcLow, .rcHigh, .rcUnderflow, .outbuf, .outPos]
  | .rcEncFinish => [.outbuf, .outPos, .rcUnderflow, .rcMode]
  | .rcDecInit => [.rcLow, .rcHigh, .rcCode, .rcUnderflow, .inPos, .rcMode]
  | .rcDecRead _ => [.rcLow, .rcHigh, .rcCode, .inPos, .result]
  | .vtClear _ => [.vtDepth, .present, .vtCeil, .vtTag, .vtValid]
  | .vtMark _ => [.present, .vtValid]
  | .vtEncode => [.outbuf, .outPos, .vtTag, .vtCeil, .fwd, .inv, .vtValid, .result]
  | .vtDecode _ => [.vtDepth, .present, .vtCeil, .fwd, .inv, .vtTag, .vtValid, .inPos, .result]
  | .vtFwd _ => [.result]
  | .vtInv _ => [.result]
  | .htBuild a _ => [.slot a, .result]
  | .htSerialize _ => [.outbuf, .outPos, .result]
  | .htDeserialize a _ => [.slot a, .inPos, .result]
  | .htEncode _ _ => [.outbuf, .outPos, .result]
  | .htDecode _ => [.inPos, .result]
  | .htLen _ _ => [.result]
  | .bsPut _ => [.outbuf, .outPos]
  | .bsGet _ => [.inPos, .result]
  | .bsOutAlign => [.outbuf, .outPos, .result]
  | .bsInAlign => [.inPos]
  | .bsOutReset => [.outPos]
  | .bsInSeek => [.inPos]

/-- The pieces of state completion writes (`spec/20_memory.md` R69). -/
def completionParts : List Part := [.pending, .cmdCount, .irqStatus]

/-- The pieces of state fault entry writes (R232). -/
def faultParts : List Part := [.pending, .fault, .irqStatus]

/-! ## Completing and faulting -/

/-- The command `i` completes from `s` in a state with property `P`: it answers a next state, raises no fault, empties
the pending latch, counts itself, sets DONE_IS and no other pending bit (R69), and besides that changes only what its rule
lists as written. -/
def Completes (i : Instr) (s : State) (P : State → Prop) : Prop :=
  ∃ t, exec i s = .next t ∧ t.fault = s.fault ∧ t.pending = none ∧ t.cmdCount = s.cmdCount + 1 ∧
    t.irqStatus = s.irqStatus ||| 0b10 ∧ OnlyChanges (writes i ++ completionParts) s t ∧ P t

/-- Fault entry with the code `c` and the pending word (R232): both are latched, FAULT_IS is set and no other pending bit,
and the pending latch is emptied. -/
def Faulted (s t : State) (c : FaultCode) : Prop :=
  t.fault = some { code := c, cmd := s.pending.getD 0 } ∧ t.pending = none ∧ t.irqStatus = s.irqStatus ||| 0b01

/-- The command `i` raises the fault `c` from `s` with no other effect (R233). -/
def FaultsPrecisely (i : Instr) (s : State) (c : FaultCode) : Prop :=
  ∃ t, exec i s = .next t ∧ Faulted s t c ∧ OnlyChanges faultParts s t

/-- The command `i` raises the fault `c` from `s` after it began to write: what its rule lists as written holds unspecified
values, and everything else keeps its value (R233). -/
def FaultsImprecisely (i : Instr) (s : State) (c : FaultCode) : Prop :=
  ∃ t, exec i s = .next t ∧ Faulted s t c ∧ OnlyChanges (writes i ++ faultParts ++ [.draws]) s t

/-- The fault codes a command may raise (R231's "raised by"), decoding apart. -/
def raisedBy : Instr → List FaultCode
  | .nop => []
  | .ftClear _ _ => [.ftLimit]
  | .ftSet _ _ => [.ftSymbol, .ftOverflow]
  | .ftInc _ _ => [.ftSymbol, .ftOverflow]
  | .ftGet _ _ => [.ftSymbol]
  | .ftTotal _ => []
  | .ftLow _ _ => [.ftSymbol]
  | .ftHigh _ _ => [.ftSymbol]
  | .ftLimit _ => []
  | .rcEncInit => []
  | .rcEncWrite _ _ => [.rcLowGeHigh, .rcStateMask, .rcRange, .rcZeroFreq, .rcTotal, .rcMode, .rcUnderflowOvf, .ftSymbol,
      .outOverflow]
  | .rcEncFinish => [.rcMode, .outOverflow]
  | .rcDecInit => []
  | .rcDecRead _ => [.rcLowGeHigh, .rcStateMask, .rcRange, .rcZeroFreq, .rcTotal, .rcSync, .rcMode]
  | .vtClear _ => [.vtDepth]
  | .vtMark _ => [.vtDepth, .vtValue]
  | .vtEncode => [.vtDepth, .outOverflow]
  | .vtDecode _ => [.vtDepth, .fmtTruncated, .fmtVtTag, .fmtVtPayload]
  | .vtFwd _ => [.vtNotValid, .vtValue, .vtAbsent]
  | .vtInv _ => [.vtNotValid, .vtIndex]
  | .htBuild _ _ => [.htAlphabet]
  | .htSerialize _ => [.htEmpty, .outOverflow]
  | .htDeserialize _ _ => [.htAlphabet, .fmtTruncated, .fmtHtTree]
  | .htEncode _ _ => [.htEmpty, .htSymbol, .outOverflow]
  | .htDecode _ => [.htEmpty, .fmtTruncated]
  | .htLen _ _ => [.htEmpty, .htSymbol]
  | .bsPut _ => [.outOverflow]
  | .bsGet _ => [.fmtTruncated]
  | .bsOutAlign => []
  | .bsInAlign => []
  | .bsOutReset => []
  | .bsInSeek => [.bsSeek]

/-- The faults that leave a command's write set unspecified (R233, `spec/93_implementation_defined.md` I12). RC_SYNC is
listed for the check after the update; the check before it is precise. -/
def impreciseOf : Instr → List FaultCode
  | .rcEncWrite _ _ => [.outOverflow, .rcUnderflowOvf]
  | .rcEncFinish => [.outOverflow]
  | .rcDecRead _ => [.rcSync]
  | .vtEncode => [.outOverflow]
  | .vtDecode _ => [.fmtTruncated, .fmtVtTag, .fmtVtPayload]
  | .htSerialize _ => [.outOverflow]
  | .htDeserialize _ _ => [.fmtTruncated, .fmtHtTree]
  | .htEncode _ _ => [.outOverflow]
  | .htDecode _ => [.fmtTruncated]
  | .nop => []
  | .ftClear _ _ => []
  | .ftSet _ _ => []
  | .ftInc _ _ => []
  | .ftGet _ _ => []
  | .ftTotal _ => []
  | .ftLow _ _ => []
  | .ftHigh _ _ => []
  | .ftLimit _ => []
  | .rcEncInit => []
  | .rcDecInit => []
  | .vtClear _ => []
  | .vtMark _ => []
  | .vtFwd _ => []
  | .vtInv _ => []
  | .htBuild _ _ => []
  | .htLen _ _ => []
  | .bsPut _ => []
  | .bsGet _ => []
  | .bsOutAlign => []
  | .bsInAlign => []
  | .bsOutReset => []
  | .bsInSeek => []

/-! ## The opcode map (`spec/30_encoding.md` R83) -/

/-- A row of the opcode map: the word with all fields 0, and the bits a legal word shares with it. -/
structure OpcodeRow where
  mnemonic : String
  pattern : Word
  mask : Word
  deriving DecidableEq, Repr

/-- A word is one of the row's: `(w & mask) = match`. -/
def OpcodeRow.Matches (r : OpcodeRow) (w : Word) : Prop := w &&& r.mask = r.pattern

/-- The row of a command. -/
def rowOf : Instr → OpcodeRow
  | .nop => { mnemonic := "NOP", pattern := 0x00000000, mask := 0xFFFFFFFF }
  | .ftClear _ _ => { mnemonic := "FT_CLEAR", pattern := 0x04000000, mask := 0xFCFF0000 }
  | .ftSet _ _ => { mnemonic := "FT_SET", pattern := 0x08000000, mask := 0xFCFF0000 }
  | .ftInc _ _ => { mnemonic := "FT_INC", pattern := 0x0C000000, mask := 0xFCFF0000 }
  | .ftGet _ _ => { mnemonic := "FT_GET", pattern := 0x10000000, mask := 0xFCFF0000 }
  | .ftTotal _ => { mnemonic := "FT_TOTAL", pattern := 0x14000000, mask := 0xFCFFFFFF }
  | .ftLow _ _ => { mnemonic := "FT_LOW", pattern := 0x18000000, mask := 0xFCFF0000 }
  | .ftHigh _ _ => { mnemonic := "FT_HIGH", pattern := 0x1C000000, mask := 0xFCFF0000 }
  | .ftLimit _ => { mnemonic := "FT_LIMIT", pattern := 0x20000000, mask := 0xFCFFFFFF }
  | .rcEncInit => { mnemonic := "RC_ENC_INIT", pattern := 0x24000000, mask := 0xFFFFFFFF }
  | .rcEncWrite _ _ => { mnemonic := "RC_ENC_WRITE", pattern := 0x28000000, mask := 0xFCFF0000 }
  | .rcEncFinish => { mnemonic := "RC_ENC_FINISH", pattern := 0x2C000000, mask := 0xFFFFFFFF }
  | .rcDecInit => { mnemonic := "RC_DEC_INIT", pattern := 0x30000000, mask := 0xFFFFFFFF }
  | .rcDecRead _ => { mnemonic := "RC_DEC_READ", pattern := 0x34000000, mask := 0xFCFFFFFF }
  | .vtClear _ => { mnemonic := "VT_CLEAR", pattern := 0x40000000, mask := 0xFFC0FFFF }
  | .vtMark _ => { mnemonic := "VT_MARK", pattern := 0x44000000, mask := 0xFFFF0000 }
  | .vtEncode => { mnemonic := "VT_ENCODE", pattern := 0x48000000, mask := 0xFFFFFFFF }
  | .vtDecode _ => { mnemonic := "VT_DECODE", pattern := 0x4C000000, mask := 0xFFC0FFFF }
  | .vtFwd _ => { mnemonic := "VT_FWD", pattern := 0x50000000, mask := 0xFFFF0000 }
  | .vtInv _ => { mnemonic := "VT_INV", pattern := 0x54000000, mask := 0xFFFF0000 }
  | .htBuild _ _ => { mnemonic := "HT_BUILD", pattern := 0x60000000, mask := 0xFC3FFFFF }
  | .htSerialize _ => { mnemonic := "HT_SERIALIZE", pattern := 0x64000000, mask := 0xFCFFFFFF }
  | .htDeserialize _ _ => { mnemonic := "HT_DESERIALIZE", pattern := 0x68000000, mask := 0xFCFF0000 }
  | .htEncode _ _ => { mnemonic := "HT_ENCODE", pattern := 0x6C000000, mask := 0xFCFF0000 }
  | .htDecode _ => { mnemonic := "HT_DECODE", pattern := 0x70000000, mask := 0xFCFFFFFF }
  | .htLen _ _ => { mnemonic := "HT_LEN", pattern := 0x74000000, mask := 0xFCFF0000 }
  | .bsPut _ => { mnemonic := "BS_PUT", pattern := 0x80000000, mask := 0xFFC0FFFF }
  | .bsGet _ => { mnemonic := "BS_GET", pattern := 0x84000000, mask := 0xFFC0FFFF }
  | .bsOutAlign => { mnemonic := "BS_OUT_ALIGN", pattern := 0x88000000, mask := 0xFFFFFFFF }
  | .bsInAlign => { mnemonic := "BS_IN_ALIGN", pattern := 0x8C000000, mask := 0xFFFFFFFF }
  | .bsOutReset => { mnemonic := "BS_OUT_RESET", pattern := 0x90000000, mask := 0xFFFFFFFF }
  | .bsInSeek => { mnemonic := "BS_IN_SEEK", pattern := 0x94000000, mask := 0xFFFFFFFF }

/-- The rows of the map, in its order. -/
def opcodeRows : List OpcodeRow :=
  [rowOf .nop, rowOf (.ftClear 0 0), rowOf (.ftSet 0 0), rowOf (.ftInc 0 0),
   rowOf (.ftGet 0 0), rowOf (.ftTotal 0), rowOf (.ftLow 0 0), rowOf (.ftHigh 0 0),
   rowOf (.ftLimit 0), rowOf .rcEncInit, rowOf (.rcEncWrite 0 0), rowOf .rcEncFinish,
   rowOf .rcDecInit, rowOf (.rcDecRead 0), rowOf (.vtClear 0), rowOf (.vtMark 0),
   rowOf .vtEncode, rowOf (.vtDecode 0), rowOf (.vtFwd 0), rowOf (.vtInv 0),
   rowOf (.htBuild 0 0), rowOf (.htSerialize 0), rowOf (.htDeserialize 0 0), rowOf (.htEncode 0 0),
   rowOf (.htDecode 0), rowOf (.htLen 0 0), rowOf (.bsPut 0), rowOf (.bsGet 0),
   rowOf .bsOutAlign, rowOf .bsInAlign, rowOf .bsOutReset, rowOf .bsInSeek]

/-- BS_PUT's and BS_GET's rows, whose words are legal only with `k ≤ 32` (R82). -/
def countRows : List OpcodeRow := [rowOf (.bsPut 0), rowOf (.bsGet 0)]

/-- A legal word (R82): it is some row's, and in BS_PUT and BS_GET `k` is at most 32. -/
def LegalWord (w : Word) : Prop := ∃ r ∈ opcodeRows, r.Matches w ∧ (r ∈ countRows → (kField w).toNat ≤ 32)

/-! ## Streams -/

/-- The input stream of `s` holds the bits `bs` at position `p` on, all of them before its end. -/
def InputHolds (s : State) (p : Nat) (bs : List Bool) : Prop :=
  p + bs.length ≤ 8 * s.inLen ∧ ∀ i, ∀ h : i < bs.length, inBitAt s (p + i) = bs[i]

/-- The output stream of `s` holds the bits `bs` at position `p` on. -/
def OutputHolds (s : State) (p : Nat) (bs : List Bool) : Prop :=
  ∀ i, ∀ h : i < bs.length, outBitAt s (p + i) = bs[i]

/-- The output stream has room for `n` more bits. -/
def OutputRoom (s : State) (n : Nat) : Prop := s.outPos + n ≤ 8 * s.cfg.outBytes

/-- `t` is `s` with the bits `bs` appended to the output stream (R66): they are there, OUTPOS is past them, every byte of
OUTBUF outside the bytes they fall in is as it was, and so is every other bit of those bytes. -/
def Appended (s t : State) (bs : List Bool) : Prop :=
  t.outPos = s.outPos + bs.length ∧ OutputHolds t s.outPos bs ∧
  (∀ a, a < s.outPos / 8 ∨ (s.outPos + bs.length + 7) / 8 ≤ a → outByte t a = outByte s a) ∧
  ∀ p, p < s.outPos ∨ s.outPos + bs.length ≤ p → outBitAt t p = outBitAt s p

/-- The number whose binary digits are `bs`, most significant first. -/
def numberOf (bs : List Bool) : Nat := bs.foldl (fun v b => 2 * v + b.toNat) 0

/-- The input bit at position `p`, and 0 past the end of input (R68). -/
def bitOrZero (s : State) (p : Nat) : Bool := decide (p < 8 * s.inLen) && inBitAt s p

/-! ## Inputs a parse does not get past -/

/-- The input ends, at or after `p`, inside a code of the tree: what is left of it is a proper prefix of one (R190). -/
def EndsInCode (s : State) (t : Tree) (p : Nat) : Prop :=
  ∃ x q r, huffCode t x = some (q ++ r) ∧ r ≠ [] ∧ InputHolds s p q ∧ p + q.length = 8 * s.inLen

/-- The input holds, from `p` on, the codes of these symbols of the tree. -/
def SymbolsHeld (s : State) (t : Tree) (p : Nat) (xs : List Nat) : Prop :=
  (∀ x ∈ xs, x ∈ huffSymbols t) ∧ InputHolds s p (codeAll t xs)

/-- Gaps that fit a delta payload and after which another is to come (R154): the next value is at most M − 1, or M is next
to end it. -/
def GapsOpen (m : Nat) (gs : List Nat) : Prop := gs.sum + gs.length ≤ m

/-- Runs that fit a range payload of `c + 1` runs and after which another is to come (R155). -/
def RunsOpen (m c : Nat) (ls : List Nat) : Prop := ls.length ≤ c ∧ (∀ l ∈ ls.tail, l ≠ 0) ∧ ls.sum ≤ m

/-- The input holds a delta payload up to a gap that overshoots M (R154), or a range payload up to a run that is 0 but not
the first, overshoots M, or is the last and misses M (R155). -/
def BadPayload (s : State) (m : Nat) : Prop :=
  (∃ gs g, GapsOpen m gs ∧ m < gs.sum + gs.length + g ∧
    InputHolds s s.inPos [false, true] ∧ SymbolsHeld s (refTree m) (s.inPos + 2) (gs ++ [g])) ∨
  ∃ c ls l, RunsOpen m c ls ∧ ((ls ≠ [] ∧ l = 0) ∨ m < ls.sum + l ∨ (ls.length = c ∧ ls.sum + l ≠ m)) ∧
    InputHolds s s.inPos [true, false] ∧ SymbolsHeld s (refTree m) (s.inPos + 2) (c :: ls ++ [l])

/-- The input ends inside the tag or inside a payload that has not gone wrong before (R67, R153-R155). -/
def EndsInTable (s : State) (m : Nat) : Prop :=
  8 * s.inLen < s.inPos + 2 ∨
  (InputHolds s s.inPos [false, false] ∧ 8 * s.inLen < s.inPos + 2 + m) ∨
  (InputHolds s s.inPos [false, true] ∧ ∃ gs, GapsOpen m gs ∧ SymbolsHeld s (refTree m) (s.inPos + 2) gs ∧
    EndsInCode s (refTree m) (s.inPos + 2 + (codeAll (refTree m) gs).length)) ∨
  (InputHolds s s.inPos [true, false] ∧ (EndsInCode s (refTree m) (s.inPos + 2) ∨
    ∃ c ls, RunsOpen m c ls ∧ SymbolsHeld s (refTree m) (s.inPos + 2) (c :: ls) ∧
      EndsInCode s (refTree m) (s.inPos + 2 + (codeAll (refTree m) (c :: ls)).length)))

/-- What a serialized tree is made of, in its order (R185). -/
inductive TreeToken where
  /-- An inner node. -/
  | node
  /-- A leaf with its symbol. -/
  | leaf (x : Nat)
  deriving DecidableEq, Repr

/-- The bits of tokens with leaf width `w` (R185). -/
def tokenBits (w : Nat) (ts : List TreeToken) : List Bool :=
  ts.flatMap fun t => match t with
    | .node => [true]
    | .leaf x => false :: msbBits w x

/-- The leaf symbols of tokens. -/
def tokenLeaves (ts : List TreeToken) : List Nat :=
  ts.filterMap fun t => match t with
    | .node => none
    | .leaf x => some x

/-- Tokens that fit a tree for alphabet size A and after which another is to come (R188): no beginning of them is a whole
tree, and neither a leaf nor the number of inner nodes is one the parse refuses. -/
def TokensOpen (A : Nat) (ts : List TreeToken) : Prop :=
  (∀ n ≤ ts.length, (tokenLeaves (ts.take n)).length ≤ (ts.take n).count .node) ∧
  ts.count .node ≤ A - 1 ∧ (tokenLeaves ts).Nodup ∧ ∀ x ∈ tokenLeaves ts, x < A

/-- The input holds a serialized tree up to an inner node past A − 1 of them, or a leaf index at or past A or used before
(R188). -/
def BadTree (s : State) (A : Nat) : Prop :=
  ∃ ts, TokensOpen A ts ∧
    ((ts.count .node = A - 1 ∧ InputHolds s s.inPos (tokenBits (leafWidth A) (ts ++ [.node]))) ∨
    ∃ x < 2 ^ leafWidth A, (A ≤ x ∨ x ∈ tokenLeaves ts) ∧
      InputHolds s s.inPos (tokenBits (leafWidth A) (ts ++ [.leaf x])))

/-- The input ends inside a serialized tree that has not gone wrong before: before a token, or inside a leaf's index. -/
def EndsInTree (s : State) (A : Nat) : Prop :=
  ∃ ts, TokensOpen A ts ∧ InputHolds s s.inPos (tokenBits (leafWidth A) ts) ∧
    (s.inPos + (tokenBits (leafWidth A) ts).length = 8 * s.inLen ∨
    (InputHolds s s.inPos (tokenBits (leafWidth A) ts ++ [false]) ∧
      8 * s.inLen < s.inPos + (tokenBits (leafWidth A) ts).length + 1 + leafWidth A))

/-! ## Host accesses -/

/-- The offsets whose writes raise PROTOCOL while BUSY = 1 (R236): CMD, DATA, IN_LEN and the INBUF window. -/
def BusyGuarded (s : State) (off : Nat) : Prop :=
  off = 0x014 ∨ off = 0x018 ∨ off = 0x02C ∨ (inWindow ≤ off ∧ off < inWindow + s.cfg.inBytes)

/-- A host read of the word at offset `off` answers `v`, and changes nothing of the block (R71). -/
def ReadsAs (s : State) (off : Nat) (v : Word) : Prop :=
  ∃ t, hostRead (s.cfg.base + off) s = .next t ∧ t.bus = v ∧ OnlyChanges [.bus, .draws] s t

/-- A host read of the register at offset `off` answers the number `n`. -/
def ReadsNumber (s : State) (off : Nat) (n : Nat) : Prop := ∃ v, ReadsAs s off v ∧ v.toNat = n

/-- A host write of `v` at offset `off` gives a state with property `P`, and changes the listed pieces of state at most. -/
def WritesTo (s : State) (off : Nat) (v : Word) (ps : List Part) (P : State → Prop) : Prop :=
  ∃ t, hostWrite (s.cfg.base + off) v s = .next t ∧ OnlyChanges ps s t ∧ P t

/-- A host write of `v` at offset `off` raises PROTOCOL (R236): the write is not made, and the pending word `w` is discarded
and latched as FAULTCMD. -/
def RaisesProtocol (s : State) (off : Nat) (v w : Word) : Prop :=
  ∃ t, hostWrite (s.cfg.base + off) v s = .next t ∧ t.fault = some { code := .protocol, cmd := w } ∧ t.pending = none ∧
    t.irqStatus = s.irqStatus ||| 0b01 ∧ OnlyChanges faultParts s t

/-- The next entry of the schedule is a reset: the platform's, or the host writes 1 to CTRL.SOFT_RESET (R260). -/
def ResetIsNext (s : State) : Prop :=
  ∃ rest, s.schedule = .reset :: rest ∨
    ∃ a v, s.schedule = .write a v :: rest ∧ blockOffset s a = some 0x004 ∧ v.getLsbD 0 = true

/-- Every value R261 lists, with the buffers' contents unspecified. -/
def HasResetValues (t : State) : Prop :=
  t.pending = none ∧ t.fault = none ∧ t.data = 0 ∧ t.result = 0 ∧ t.cmdCount = 0 ∧ t.irqEn = 0 ∧ t.irqStatus = 0 ∧
  t.inLen = 0 ∧ t.inPos = 0 ∧ t.outPos = 0 ∧ t.rcLow = 0 ∧ t.rcHigh = 0x7FFFFFFF ∧ t.rcCode = 0 ∧ t.rcUnderflow = 0 ∧
  t.rcMode = .idle ∧ t.vtDepth = 0 ∧ t.vtCeil = 0 ∧ t.vtTag = 0 ∧ t.vtValid = false ∧
  (∀ a : BitVec 2, limit t a = 0) ∧ ∀ h : BitVec 2, slot t h = none

/-! ## The range coder of the pseudocode, over Nat (`spec/41_range_coder.md` R120-R128) -/

/-- The pseudocode's `while cond: body`: `d` is what the loop leaves of `c`. -/
inductive While {α : Type} (cond : α → Prop) (body : α → α) : α → α → Prop
  /-- The condition fails. -/
  | stop {c : α} (h : ¬ cond c) : While cond body c c
  /-- The condition holds: the body runs, and the loop goes on. -/
  | again {c d : α} (h : cond c) (rest : While cond body (body c) d) : While cond body c d

/-- The coder's values, its input position, and the bits it has put out. -/
structure Coder where
  low : Nat
  high : Nat
  code : Nat
  uf : Nat
  pos : Nat
  out : List Bool
  deriving DecidableEq, Repr

/-- The coder's values in a state, with nothing put out yet. -/
def coderOf (s : State) : Coder :=
  { low := s.rcLow.toNat, high := s.rcHigh.toNat, code := s.rcCode.toNat, uf := s.rcUnderflow.toNat, pos := s.inPos, out := [] }

/-- Narrowing to symbol `x` of bank `a` (R122). -/
def narrowed (s : State) (a : BitVec 2) (x : Nat) (c : Coder) : Coder :=
  { c with
    low := c.low + low s a x * (c.high - c.low + 1) / total s a
    high := c.low + high s a x * (c.high - c.low + 1) / total s a - 1 }

/-- The first loop's condition (R123): bit 30 of low and of high is the same. -/
def SameTopBit (c : Coder) : Prop := (2 ^ 30 ≤ c.low ↔ 2 ^ 30 ≤ c.high)

/-- The second loop's condition (R124): bit 29 is 1 in low and 0 in high. -/
def StraddlesMiddle (c : Coder) : Prop := c.low / 2 ^ 29 % 2 = 1 ∧ c.high / 2 ^ 29 % 2 = 0

/-- The first loop's assignments (R123). -/
def shifted (c : Coder) : Coder := { c with low := 2 * c.low % 2 ^ 31, high := 2 * c.high % 2 ^ 31 + 1 }

/-- The second loop's assignments (R124): bit 29 is deleted, bit 30 stays (0 in low, 1 in high), the bits below move up by
one, and 0 enters low, 1 enters high. -/
def cancelled (c : Coder) : Coder := { c with low := 2 * c.low % 2 ^ 30, high := 2 ^ 30 + 2 * c.high % 2 ^ 30 + 1 }

/-- EncShift (R125). -/
def coderEncShift (c : Coder) : Coder :=
  { c with
    out := c.out ++ decide (2 ^ 30 ≤ c.low) :: List.replicate c.uf (!decide (2 ^ 30 ≤ c.low))
    uf := 0 }

/-- EncUnderflow (R126), with an unbounded counter. -/
def coderEncUnderflow (c : Coder) : Coder := { c with uf := c.uf + 1 }

/-- DecShift (R127), reading the input of `s`. -/
def coderDecShift (s : State) (c : Coder) : Coder :=
  { c with code := 2 * c.code % 2 ^ 31 + (bitOrZero s c.pos).toNat, pos := min (c.pos + 1) (8 * s.inLen) }

/-- DecUnderflow (R128): bit 29 is deleted, bit 30 stays, the bits below move up by one, and an input bit enters. -/
def coderDecUnderflow (s : State) (c : Coder) : Coder :=
  { c with
    code := c.code / 2 ^ 30 * 2 ^ 30 + 2 * c.code % 2 ^ 30 + (bitOrZero s c.pos).toNat
    pos := min (c.pos + 1) (8 * s.inLen) }

/-- `RcRenormalize(Shift, Underflow)` takes `c` to `e` (R123, R124). -/
def Renormalizes (shift underflow : Coder → Coder) (c e : Coder) : Prop :=
  ∃ m, While SameTopBit (fun c => shifted (shift c)) c m ∧ While StraddlesMiddle (fun c => cancelled (underflow c)) m e

/-- The symbols of a message, each with the bank it is coded with and that bank's counts at the time. -/
abbrev Message := List (BitVec 2 × List Word × BitVec 16)

/-- RC_ENC_WRITE of each symbol in turn, the host having set the bank's counts before it. None: a command faulted. -/
def encodeMessage : Message → State → Option State
  | [], s => some s
  | (a, l, x) :: m, s =>
    match exec (.rcEncWrite a x) (setBank a l s) with
    | .next t => if t.fault.isNone then encodeMessage m t else none
    | _ => none

/-- RC_DEC_READ for each symbol of the message in turn, the host having set the same counts: what RESULT held after each.
None: a command faulted. -/
def decodeMessage : Message → State → Option (List Nat)
  | [], _ => some []
  | (a, l, _) :: m, s =>
    match exec (.rcDecRead a) (setBank a l s) with
    | .next t => if t.fault.isNone then (decodeMessage m t).map (t.result.toNat :: ·) else none
    | _ => none

/-! ## The Huffman build of the pseudocode (`spec/43_huffman.md` R181) -/

/-- `e` comes no later than `f` in the lexicographic order of (weight, seq). -/
def NoLater (e f : PoolEntry) : Prop := e.weight < f.weight ∨ (e.weight = f.weight ∧ e.seq ≤ f.seq)

/-- The loop `while |pool| > 1` of HuffBuild ends in the tree: `next` is the next merged node's sequence number. A pool
is a set: only what it holds matters. -/
inductive Builds : Nat → List PoolEntry → Tree → Prop
  /-- One element is left. -/
  | last (next : Nat) (e : PoolEntry) : Builds next [e] e.node
  /-- The two elements smallest in (weight, seq) are merged. -/
  | merge (next : Nat) {pool rest : List PoolEntry} (x y : PoolEntry) {t : Tree} (hp : pool.Perm (x :: y :: rest))
      (hx : ∀ e ∈ y :: rest, NoLater x e) (hy : ∀ e ∈ rest, NoLater y e)
      (h : Builds (next + 1) ({ weight := x.weight + y.weight, seq := next, node := .node x.node y.node } :: rest) t) :
      Builds next pool t

/-- The symbols with a count above 0 in rising order, or symbol 0 alone where there is none (R181, R182). -/
def builtSymbols (s : State) (t : BitVec 2) : List Nat :=
  let xs := (List.range (limit s t)).filter fun x => decide (0 < count s t x)
  if xs = [] then [0] else xs

/-- The pool HuffBuild starts with (R181): the leaf of rank j has sequence number j, and its symbol's count as weight; the
leaf of a table with no count above 0 has weight 1 (R182). -/
def startPool (s : State) (t : BitVec 2) : List PoolEntry :=
  (builtSymbols s t).zipIdx.map fun p => { weight := max 1 (count s t p.1), seq := p.2, node := .leaf p.1 }

/-! ## Invariants the spec gives -/

/-- Both buffers have the one form of a memory, within the buffer's size (R47, R48). -/
def BuffersFormed (s : State) : Prop :=
  Memory.wf s.inbuf ∧ Memory.wf s.outbuf ∧ (∀ c ∈ s.inbuf, c.1 < s.cfg.inBytes) ∧ ∀ c ∈ s.outbuf, c.1 < s.cfg.outBytes

/-- `0 ≤ INPOS ≤ 8·IN_LEN`, `IN_LEN ≤ IN_BYTES`, `0 ≤ OUTPOS ≤ 8·OUT_BYTES` (`spec/10_state.md` R32-R34). -/
def PositionsInRange (s : State) : Prop :=
  s.inPos ≤ 8 * s.inLen ∧ s.inLen ≤ s.cfg.inBytes ∧ s.outPos ≤ 8 * s.cfg.outBytes

/-- Once the fault latch is set no command is pending (R232, R234). -/
def FaultEmptiesLatch (s : State) : Prop := s.fault.isSome → s.pending = none

/-- Every bank: a limit of at most N_SYM and a Total of at most 2^32 − 1 (R44, R101). -/
def BanksInRange (s : State) : Prop := ∀ a : BitVec 2, limit s a ≤ s.cfg.nSym ∧ total s a ≤ 2 ^ 32 - 1

/-- The coder state is valid (`spec/41_range_coder.md` R120). -/
def CoderValid (s : State) : Prop :=
  s.rcLow.toNat < s.rcHigh.toNat ∧ rcMinRange ≤ rcRange s ∧ rcRange s ≤ rcFull ∧
  (s.rcMode = .dec → s.rcLow.toNat ≤ s.rcCode.toNat ∧ s.rcCode.toNat ≤ s.rcHigh.toNat)

/-- A slot's tree: an alphabet size in `[1, N_SYM]`, and pairwise distinct leaf symbols below it (R45, R180). -/
def TreeFormed (s : State) (t : HuffTree) : Prop :=
  1 ≤ t.alphabet ∧ t.alphabet ≤ s.cfg.nSym ∧ (huffSymbols t.root).Nodup ∧ ∀ x ∈ huffSymbols t.root, x < t.alphabet

/-- Every slot is EMPTY or holds a formed tree. -/
def SlotsFormed (s : State) : Prop := ∀ h : BitVec 2, ∀ t, slot s h = some t → TreeFormed s t

/-- VT_DEPTH is 0..9, VT_CEIL at most 512 (R40, R41). -/
def TableInRange (s : State) : Prop := s.vtDepth ≤ 9 ∧ s.vtCeil ≤ 512

/-- The rank of `v` among the present values (R46). -/
def rankOf (s : State) (v : Nat) : Nat := (occupied s v).length

/-- While VT_VALID = 1, VT_CEIL counts the present values, and fwd and inv translate each of them to its rank and back
(R46). -/
def TranslationBuilt (s : State) : Prop :=
  s.vtValid = true →
    s.vtCeil = (occupied s (2 ^ s.vtDepth)).length ∧
    ∀ v, v < 2 ^ s.vtDepth → presentAt s v = true → fwdAt s v = rankOf s v ∧ invAt s (rankOf s v) = v

/-- Every byte of OUTBUF below OUTPOS has been written (R48, R66). -/
def OutputWritten (s : State) : Prop := ∀ a, 8 * a < s.outPos → (memRead s.outbuf a).isSome

/-- The values of STATUS's and the other registers' bits that hold even after an imprecise fault. -/
def RegistersInRange (s : State) : Prop := PositionsInRange s ∧ TableInRange s ∧ FaultEmptiesLatch s

/-- What the rules promise of a machine with no fault latched. After an imprecise fault the write set holds unspecified
values (R233), so nothing is promised of it until the reset that alone lets a command execute again (R234). -/
def SoundUnlessFaulted (s : State) : Prop :=
  s.fault = none → CoderValid s ∧ SlotsFormed s ∧ TranslationBuilt s ∧ OutputWritten s

end Sys2Proof.Machine
end

