-- ==== Sys2Proof/Certificates/Slice0/Obligations.lean ====
section
/-! DEFINITION. The statements for the provers. Each docstring names the rules of `spec/` a statement formalises. -/

open Sys2Proof Sys2Proof.Machine

/-! ## Encoding -/

/-- Decoding the word of a well-formed command gives the command back, whatever its operands (R81, R82, R86). -/
def Obligations.DecodeOfEncode : Prop := ∀ i : Instr, WellFormed i = true → decode (encode i) = .ok i

/-- A word that decodes is the word of the command it decodes to, and that command is well formed: no bit of a legal word
is dropped (R82, R84). -/
def Obligations.EncodeOfDecode : Prop :=
  ∀ (w : Word) (i : Instr), decode w = .ok i → encode i = w ∧ WellFormed i = true

/-- The decoder accepts exactly the legal words of R82: those of some row of the opcode map, with `k ≤ 32` in BS_PUT and
BS_GET. No word is in two rows. -/
def Obligations.LegalWordsDecode : Prop :=
  (∀ w : Word, (∃ i, decode w = .ok i) ↔ LegalWord w) ∧
  ∀ (w : Word), ∀ r ∈ opcodeRows, ∀ q ∈ opcodeRows, r.Matches w → q.Matches w → r = q

/-- Command words written out in the rules' examples decode to the commands they stand for. -/
def Obligations.SampleWordsDecode : Prop :=
  decode 0x00000000 = .ok .nop ∧
  decode 0x09000002 = .ok (.ftSet 1 2) ∧
  decode 0x1C000001 = .ok (.ftHigh 0 1) ∧
  decode 0x28000000 = .ok (.rcEncWrite 0 0) ∧
  decode 0x34000000 = .ok (.rcDecRead 0) ∧
  decode 0x4C080000 = .ok (.vtDecode 8) ∧
  decode 0x500000FF = .ok (.vtFwd 255) ∧
  decode 0x69000005 = .ok (.htDeserialize 1 5) ∧
  decode 0x6C000004 = .ok (.htEncode 0 4) ∧
  decode 0x80080000 = .ok (.bsPut 8) ∧
  decode 0x94000000 = .ok .bsInSeek

/-! ## The step -/

/-- A step at a state whose block step is enabled (R69) runs the command the pending word decodes to (R82). Derived: R69 and
R271 say that this step is enabled, not when it is taken; that it is taken at the block's turn of the schedule, which is
then over, or when no turn is left, is the model's choice (log entry 2). -/
def Obligations.StepRunsDecodedCommand : Prop :=
  ∀ (s : State) (w : Word) (i : Instr), s.fault = none → s.pending = some w → decode w = .ok i →
    (∀ rest, s.schedule = .block :: rest → step s = exec i { s with schedule := rest }) ∧
    (s.schedule = [] → step s = exec i s)

/-- A step is the next entry of the schedule: a host write, a host read, a reset, or the block's turn, and that last leaves
an idle or faulted block as it is (R69, R70, R234; the schedule is the model's, log entry 2). -/
def Obligations.StepTakesNextTurn : Prop :=
  ∀ (s : State) (rest : List Turn),
    (∀ a v, s.schedule = .write a v :: rest → step s = hostWrite a v { s with schedule := rest }) ∧
    (∀ a, s.schedule = .read a :: rest → step s = hostRead a { s with schedule := rest }) ∧
    (s.schedule = .reset :: rest → ∃ t, step s = .next t ∧ HasResetValues t ∧ t.cfg = s.cfg ∧ t.schedule = rest) ∧
    (s.schedule = .block :: rest → (s.pending = none ∨ s.fault.isSome) → step s = .next { s with schedule := rest }) ∧
    (s.schedule = [] → (s.pending = none ∨ s.fault.isSome) → step s = .next s)

/-- A pending word that is not legal raises ILLEGAL_COMMAND with no other effect when the block executes it, and every legal
word is exactly one command (R84). -/
def Obligations.IllegalWordFaults : Prop :=
  (∀ (s : State) (w : Word), s.fault = none → s.pending = some w → ¬ LegalWord w →
    (s.schedule = [] ∨ ∃ rest, s.schedule = .block :: rest) →
    ∃ t, step s = .next t ∧ Faulted s t .illegalCommand ∧ OnlyChanges (.schedule :: faultParts) s t) ∧
  ∀ w : Word, LegalWord w →
    ∃ i, decode w = .ok i ∧ WellFormed i = true ∧ ∀ j, WellFormed j = true → encode j = w → j = i

/-! ## What every command does -/

/-- Every command ends, and in one of two ways (R69, R232, R233, R272): it completes, with the completion effects and
its rule's writes; or it raises one of the faults R231 lists for it, with fault entry's effects and, at most, its rule's
writes lost. Everything else keeps its value. -/
def Obligations.EveryCommandEnds : Prop :=
  ∀ (i : Instr) (s : State), s.fault = none →
    Completes i s (fun _ => True) ∨ ∃ c ∈ raisedBy i, FaultsImprecisely i s c

/-- A fault outside the list of imprecise ones changes nothing but what fault entry changes (R233). -/
def Obligations.PreciseFaultsKeepState : Prop :=
  ∀ (i : Instr) (s t : State) (c : FaultCode), s.fault = none → exec i s = .next t → Faulted s t c →
    c ∉ impreciseOf i → OnlyChanges faultParts s t

/-- Whatever a completing command puts out is appended at OUTPOS (R66): every byte outside the bytes the new bits fall in,
and every other bit of those bytes, is as it was. Only BS_OUT_RESET moves OUTPOS otherwise. -/
def Obligations.OutputIsAppended : Prop :=
  ∀ (i : Instr) (s t : State), s.fault = none → exec i s = .next t → t.fault = none → i ≠ .bsOutReset →
    ∃ bs, Appended s t bs

/-- A set fault latch keeps its code and command, and no command completes, until a reset, which clears it; a CMD write is
ignored meanwhile (R234). -/
def Obligations.FaultStaysUntilReset : Prop :=
  (∀ (s t : State) (f : FaultRecord), s.fault = some f → step s = .next t → ¬ ResetIsNext s →
    t.fault = some f ∧ t.cmdCount = s.cmdCount) ∧
  (∀ s t : State, step s = .next t → ResetIsNext s → t.fault = none) ∧
  ∀ (s : State) (v : Word), s.fault.isSome → hostWrite (s.cfg.base + 0x014) v s = .next s

/-! ## Frequency tables -/

/-- Total, Low and High are the sums of R100, and symbol `x` owns an empty interval exactly when its count is 0. -/
def Obligations.CumulativeSums : Prop :=
  ∀ (s : State) (a : BitVec 2),
    total s a = (Finset.range (limit s a)).sum (count s a) ∧ low s a 0 = 0 ∧
    (0 < limit s a → high s a (limit s a - 1) = total s a) ∧
    ∀ x, x < limit s a →
      low s a x = (Finset.range x).sum (count s a) ∧ high s a x = low s a x + count s a x ∧
      (low s a x = high s a x ↔ count s a x = 0)

/-- FT_CLEAR (R102). -/
def Obligations.FtClearRule : Prop :=
  ∀ (s : State) (a : BitVec 2) (x : BitVec 16),
    (1 ≤ x.toNat → x.toNat ≤ s.cfg.nSym →
      Completes (.ftClear a x) s fun t => limit t a = x.toNat ∧ ∀ y, count t a y = 0) ∧
    (s.fault = none → x.toNat = 0 ∨ s.cfg.nSym < x.toNat → FaultsPrecisely (.ftClear a x) s .ftLimit)

/-- FT_SET (R103). -/
def Obligations.FtSetRule : Prop :=
  ∀ (s : State) (a : BitVec 2) (x : BitVec 16),
    (x.toNat < limit s a → total s a - count s a x.toNat + s.data.toNat ≤ 2 ^ 32 - 1 →
      Completes (.ftSet a x) s fun t => limit t a = limit s a ∧
        ∀ y, count t a y = if y = x.toNat then s.data.toNat else count s a y) ∧
    (s.fault = none → limit s a ≤ x.toNat → FaultsPrecisely (.ftSet a x) s .ftSymbol) ∧
    (s.fault = none → x.toNat < limit s a → 2 ^ 32 - 1 < total s a - count s a x.toNat + s.data.toNat →
      FaultsPrecisely (.ftSet a x) s .ftOverflow)

/-- FT_INC (R104). -/
def Obligations.FtIncRule : Prop :=
  ∀ (s : State) (a : BitVec 2) (x : BitVec 16),
    (x.toNat < limit s a → total s a + 1 ≤ 2 ^ 32 - 1 →
      Completes (.ftInc a x) s fun t => limit t a = limit s a ∧
        ∀ y, count t a y = if y = x.toNat then count s a y + 1 else count s a y) ∧
    (s.fault = none → limit s a ≤ x.toNat → FaultsPrecisely (.ftInc a x) s .ftSymbol) ∧
    (s.fault = none → x.toNat < limit s a → 2 ^ 32 - 1 < total s a + 1 → FaultsPrecisely (.ftInc a x) s .ftOverflow)

/-- FT_GET, FT_LOW and FT_HIGH (R105, R107, R108). The Total's bound is R101's. -/
def Obligations.FtSymbolReads : Prop :=
  ∀ (s : State) (a : BitVec 2) (x : BitVec 16),
    (x.toNat < limit s a → total s a ≤ 2 ^ 32 - 1 →
      Completes (.ftGet a x) s (fun t => t.result.toNat = count s a x.toNat) ∧
      Completes (.ftLow a x) s (fun t => t.result.toNat = low s a x.toNat) ∧
      Completes (.ftHigh a x) s (fun t => t.result.toNat = high s a x.toNat)) ∧
    (s.fault = none → limit s a ≤ x.toNat →
      FaultsPrecisely (.ftGet a x) s .ftSymbol ∧ FaultsPrecisely (.ftLow a x) s .ftSymbol ∧
      FaultsPrecisely (.ftHigh a x) s .ftSymbol)

/-- FT_TOTAL and FT_LIMIT (R106, R109), for banks within the bounds of R44 and R101. -/
def Obligations.FtBankReads : Prop :=
  ∀ (s : State) (a : BitVec 2), s.cfg.Legal → BanksInRange s →
    Completes (.ftTotal a) s (fun t => t.result.toNat = total s a) ∧
    Completes (.ftLimit a) s (fun t => t.result.toNat = limit s a)

/-! ## Range coder -/

/-- RC_ENC_INIT (R129). Derived: of these values the spec says "The initial values are [from general knowledge, not in
source]". -/
def Obligations.RcEncInitRule : Prop :=
  ∀ s : State, Completes .rcEncInit s fun t =>
    t.rcLow = 0 ∧ t.rcHigh.toNat = 2 ^ 31 - 1 ∧ t.rcCode = 0 ∧ t.rcUnderflow = 0 ∧ t.rcMode = .enc

/-- RC_ENC_WRITE from a valid coder state, for a symbol with a count and a Total below MAXTOTAL: the interval is narrowed and
renormalized as the pseudocode's loops do over the integers. The command completes, with the bits they put out appended, if
these fit and the counter of pending bits does not overflow; and so it does wherever there is room for the most bits one
symbol can put out (R122-R126, R130, R134). Derived: R122-R125 mark narrowing, the two loops and the order of the bits as
from general knowledge, not in the source; the model follows them (log entry 19). -/
def Obligations.RcEncWriteCompletes : Prop :=
  ∀ (s : State) (a : BitVec 2) (x : BitVec 16), s.rcMode = .enc → x.toNat < limit s a → CoderValid s →
    count s a x.toNat ≠ 0 → total s a < 0x20000002 →
    ∃ e, Renormalizes coderEncShift coderEncUnderflow (narrowed s a x.toNat (coderOf s)) e ∧
      ((OutputRoom s e.out.length ∧ e.uf < 2 ^ 32) ∨
          (OutputRoom s (31 + s.rcUnderflow.toNat) ∧ s.rcUnderflow.toNat + 30 < 2 ^ 32) →
        Completes (.rcEncWrite a x) s fun t =>
          t.rcLow.toNat = e.low ∧ t.rcHigh.toNat = e.high ∧ t.rcUnderflow.toNat = e.uf ∧ Appended s t e.out)

/-- RC_ENC_WRITE's faults, in their order (R121, R122, R130), the last two imprecise. Derived: when those two are raised is
said through narrowing and the loops of R122-R126, which the spec marks as from general knowledge (log entry 19).
RC_STATE_MASK is left out, since 31-bit registers never raise it (R121, log entry 11). -/
def Obligations.RcEncWriteFaults : Prop :=
  ∀ (s : State) (a : BitVec 2) (x : BitVec 16), s.fault = none →
    (s.rcMode ≠ .enc → FaultsPrecisely (.rcEncWrite a x) s .rcMode) ∧
    (s.rcMode = .enc → limit s a ≤ x.toNat → FaultsPrecisely (.rcEncWrite a x) s .ftSymbol) ∧
    (s.rcMode = .enc → x.toNat < limit s a → s.rcHigh.toNat ≤ s.rcLow.toNat →
      FaultsPrecisely (.rcEncWrite a x) s .rcLowGeHigh) ∧
    (s.rcMode = .enc → x.toNat < limit s a → s.rcLow.toNat < s.rcHigh.toNat → rcRange s < 0x20000002 →
      FaultsPrecisely (.rcEncWrite a x) s .rcRange) ∧
    (s.rcMode = .enc → x.toNat < limit s a → CoderValid s → count s a x.toNat = 0 →
      FaultsPrecisely (.rcEncWrite a x) s .rcZeroFreq) ∧
    (s.rcMode = .enc → x.toNat < limit s a → CoderValid s → count s a x.toNat ≠ 0 → 0x20000002 ≤ total s a →
      FaultsPrecisely (.rcEncWrite a x) s .rcTotal) ∧
    ∀ e, Renormalizes coderEncShift coderEncUnderflow (narrowed s a x.toNat (coderOf s)) e →
      s.rcMode = .enc → x.toNat < limit s a → CoderValid s → count s a x.toNat ≠ 0 → total s a < 0x20000002 →
      PositionsInRange s →
      (¬ OutputRoom s e.out.length → FaultsImprecisely (.rcEncWrite a x) s .outOverflow) ∧
      (OutputRoom s e.out.length → 2 ^ 32 ≤ e.uf → FaultsImprecisely (.rcEncWrite a x) s .rcUnderflowOvf)

/-- RC_ENC_FINISH (R131): the bit 1, then zero bits to a byte boundary. Derived: of the final bit the spec says "its value
is [from general knowledge, not in source]". -/
def Obligations.RcEncFinishRule : Prop :=
  ∀ s : State,
    (s.rcMode = .enc → s.outPos < 8 * s.cfg.outBytes → Completes .rcEncFinish s fun t =>
      ∃ n, n < 8 ∧ Appended s t (true :: List.replicate n false) ∧ t.outPos % 8 = 0 ∧ t.rcUnderflow = 0 ∧
        t.rcMode = .idle) ∧
    (s.fault = none → s.rcMode ≠ .enc → FaultsPrecisely .rcEncFinish s .rcMode) ∧
    (s.fault = none → s.rcMode = .enc → s.outPos = 8 * s.cfg.outBytes → FaultsImprecisely .rcEncFinish s .outOverflow)

/-- RC_DEC_INIT (R132): RC_CODE is the next 31 input bits, with zeros past the end of input, where INPOS stops. -/
def Obligations.RcDecInitRule : Prop :=
  ∀ s : State, PositionsInRange s → Completes .rcDecInit s fun t =>
    t.rcLow = 0 ∧ t.rcHigh.toNat = 2 ^ 31 - 1 ∧ t.rcUnderflow = 0 ∧ t.rcMode = .dec ∧
    t.rcCode.toNat = numberOf ((List.range 31).map fun j => bitOrZero s (s.inPos + j)) ∧
    t.inPos = min (s.inPos + 31) (8 * s.inLen)

/-- RC_DEC_READ completes from every valid decoder state and usable table: RESULT is the one symbol whose interval contains
the value, the interval is narrowed and renormalized as the pseudocode's loops do over the integers, and the new state is
valid (R122-R124, R127, R128, R133, R135, R138). Derived: narrowing, the loops and the updates of the code are marked as
from general knowledge, not in the source; the model follows them (log entry 19). -/
def Obligations.RcDecReadCompletes : Prop :=
  ∀ (s : State) (a : BitVec 2), s.rcMode = .dec → CoderValid s → PositionsInRange s → s.cfg.Legal → BanksInRange s →
    0 < total s a → total s a < 0x20000002 →
    ∃ x v e, v = ((s.rcCode.toNat - s.rcLow.toNat + 1) * total s a - 1) / (s.rcHigh.toNat - s.rcLow.toNat + 1) ∧
      x < limit s a ∧ (low s a x ≤ v ∧ v < high s a x) ∧ (∀ y, y < limit s a → low s a y ≤ v → v < high s a y → y = x) ∧
      Renormalizes (coderDecShift s) (coderDecUnderflow s) (narrowed s a x (coderOf s)) e ∧
      Completes (.rcDecRead a) s fun t => t.result.toNat = x ∧ t.rcLow.toNat = e.low ∧ t.rcHigh.toNat = e.high ∧
        t.rcCode.toNat = e.code ∧ t.inPos = e.pos ∧ CoderValid t

/-- RC_DEC_READ's faults, in their order (R121, R133). -/
def Obligations.RcDecReadFaults : Prop :=
  ∀ (s : State) (a : BitVec 2), s.fault = none →
    (s.rcMode ≠ .dec → FaultsPrecisely (.rcDecRead a) s .rcMode) ∧
    (s.rcMode = .dec → s.rcHigh.toNat ≤ s.rcLow.toNat → FaultsPrecisely (.rcDecRead a) s .rcLowGeHigh) ∧
    (s.rcMode = .dec → s.rcLow.toNat < s.rcHigh.toNat → rcRange s < 0x20000002 →
      FaultsPrecisely (.rcDecRead a) s .rcRange) ∧
    (s.rcMode = .dec → CoderValid s → 0x20000002 ≤ total s a → FaultsPrecisely (.rcDecRead a) s .rcTotal) ∧
    (s.rcMode = .dec → CoderValid s → total s a = 0 → FaultsPrecisely (.rcDecRead a) s .rcZeroFreq) ∧
    (s.rcMode = .dec → s.rcLow.toNat < s.rcHigh.toNat → 0x20000002 ≤ rcRange s → 0 < total s a →
      total s a < 0x20000002 → s.rcCode.toNat < s.rcLow.toNat ∨ s.rcHigh.toNat < s.rcCode.toNat →
      FaultsPrecisely (.rcDecRead a) s .rcSync)

/-- Range coding round trip (R137): a message whose RC_ENC_WRITEs between RC_ENC_INIT and RC_ENC_FINISH all complete is read
back, symbol by symbol, by RC_DEC_INIT and RC_DEC_READs with the same counts, from an input that ends where the output
ended. The formulas of both sides are those of log entry 19. -/
def Obligations.RangeCoderRoundTrip : Prop :=
  ∀ (m : Message) (s s1 t u d d1 : State), s.fault = none → exec .rcEncInit s = .next s1 → encodeMessage m s1 = some t →
    exec .rcEncFinish t = .next u → u.fault = none → d.fault = none →
    8 * d.inLen = d.inPos + (u.outPos - s.outPos) →
    (∀ j, j < u.outPos - s.outPos → inBitAt d (d.inPos + j) = outBitAt u (s.outPos + j)) →
    exec .rcDecInit d = .next d1 → decodeMessage m d1 = some (m.map fun e => e.2.2.toNat)

/-! ## Value table -/

/-- VT_CLEAR (R158). -/
def Obligations.VtClearRule : Prop :=
  ∀ (s : State) (k : BitVec 6),
    (1 ≤ k.toNat → k.toNat ≤ 9 → Completes (.vtClear k) s fun t =>
      t.vtDepth = k.toNat ∧ (∀ v, presentAt t v = false) ∧ t.vtCeil = 0 ∧ t.vtTag = 0 ∧ t.vtValid = false) ∧
    (s.fault = none → k.toNat = 0 ∨ 9 < k.toNat → FaultsPrecisely (.vtClear k) s .vtDepth)

/-- VT_MARK (R159). -/
def Obligations.VtMarkRule : Prop :=
  ∀ (s : State) (x : BitVec 16),
    (TableInRange s → s.vtDepth ≠ 0 → x.toNat < 2 ^ s.vtDepth → Completes (.vtMark x) s fun t =>
      (∀ v, presentAt t v = (decide (v = x.toNat) || presentAt s v)) ∧ t.vtValid = false) ∧
    (s.fault = none → s.vtDepth = 0 → FaultsPrecisely (.vtMark x) s .vtDepth) ∧
    (s.fault = none → s.vtDepth ≠ 0 → 2 ^ s.vtDepth ≤ x.toNat → FaultsPrecisely (.vtMark x) s .vtValue)

/-- VT_ENCODE (R152-R157, R160): the smallest tag with a shortest payload is chosen, tag and payload are appended, the
translation gives each present value its rank and back, and RESULT is how many bits were written. -/
def Obligations.VtEncodeRule : Prop :=
  ∀ s : State,
    (s.cfg.Legal → TableInRange s → s.vtDepth ≠ 0 →
      (∃ j ≤ 2, OutputRoom s (2 + (payload s (2 ^ s.vtDepth) j).length)) →
      Completes .vtEncode s fun t => ∃ tag ≤ 2,
        (∀ j ≤ 2, (payload s (2 ^ s.vtDepth) tag).length ≤ (payload s (2 ^ s.vtDepth) j).length) ∧
        (∀ j < tag, (payload s (2 ^ s.vtDepth) tag).length < (payload s (2 ^ s.vtDepth) j).length) ∧
        Appended s t (msbBits 2 tag ++ payload s (2 ^ s.vtDepth) tag) ∧
        t.vtTag.toNat = tag ∧ t.result.toNat = 2 + (payload s (2 ^ s.vtDepth) tag).length ∧
        t.vtCeil = (occupied s (2 ^ s.vtDepth)).length ∧ t.vtValid = true ∧ TranslationBuilt t) ∧
    (s.fault = none → s.vtDepth = 0 → FaultsPrecisely .vtEncode s .vtDepth) ∧
    (s.fault = none → s.vtDepth ≠ 0 → PositionsInRange s →
      (∀ j ≤ 2, ¬ OutputRoom s (2 + (payload s (2 ^ s.vtDepth) j).length)) → FaultsImprecisely .vtEncode s .outOverflow)

/-- VT_DECODE completes on every payload of a tag 0, 1 or 2 (R153-R156, R161), be it one VT_ENCODE would not have chosen:
the values present are those the payload was made of (the values present in `e` below 2^k). -/
def Obligations.VtDecodeReadsPayload : Prop :=
  ∀ (s e : State) (k : BitVec 6) (tag : Nat), s.cfg.Legal → PositionsInRange s → 1 ≤ k.toNat → k.toNat ≤ 9 → tag ≤ 2 →
    InputHolds s s.inPos (msbBits 2 tag ++ payload e (2 ^ k.toNat) tag) →
    Completes (.vtDecode k) s fun t =>
      t.vtDepth = k.toNat ∧ (∀ v, presentAt t v = (decide (v < 2 ^ k.toNat) && presentAt e v)) ∧ t.vtTag.toNat = tag ∧
      t.vtCeil = (occupied e (2 ^ k.toNat)).length ∧ t.vtValid = true ∧ TranslationBuilt t ∧
      t.inPos = s.inPos + (2 + (payload e (2 ^ k.toNat) tag).length) ∧
      t.result.toNat = 2 + (payload e (2 ^ k.toNat) tag).length

/-- VT_DECODE completes on nothing else: where it completes, the input held a tag and the payload of the values it found
(R153-R156, R161). A depth outside 1..9 faults. At every other depth a tag 11 raises FMT_VT_TAG, a payload that overshoots or
misses M FMT_VT_PAYLOAD (R154, R155), and an input that ends inside the tag or the payload FMT_TRUNCATED; and every input is
one of these or VT_DECODE completes. -/
def Obligations.VtDecodeReadsOnlyPayloads : Prop :=
  (∀ (s t : State) (k : BitVec 6), s.fault = none → PositionsInRange s → exec (.vtDecode k) s = .next t →
    t.fault = none →
    1 ≤ k.toNat ∧ k.toNat ≤ 9 ∧ t.vtTag.toNat ≤ 2 ∧
      InputHolds s s.inPos (msbBits 2 t.vtTag.toNat ++ payload t (2 ^ k.toNat) t.vtTag.toNat) ∧
      t.inPos = s.inPos + (2 + (payload t (2 ^ k.toNat) t.vtTag.toNat).length)) ∧
  ∀ (s : State) (k : BitVec 6), s.fault = none →
    (k.toNat = 0 ∨ 9 < k.toNat → FaultsPrecisely (.vtDecode k) s .vtDepth) ∧
    (1 ≤ k.toNat → k.toNat ≤ 9 → InputHolds s s.inPos [true, true] → FaultsImprecisely (.vtDecode k) s .fmtVtTag) ∧
    (1 ≤ k.toNat → k.toNat ≤ 9 → BadPayload s (2 ^ k.toNat) → FaultsImprecisely (.vtDecode k) s .fmtVtPayload) ∧
    (1 ≤ k.toNat → k.toNat ≤ 9 → PositionsInRange s → EndsInTable s (2 ^ k.toNat) →
      FaultsImprecisely (.vtDecode k) s .fmtTruncated) ∧
    (1 ≤ k.toNat → k.toNat ≤ 9 →
      Completes (.vtDecode k) s (fun _ => True) ∨ InputHolds s s.inPos [true, true] ∨ BadPayload s (2 ^ k.toNat) ∨
        EndsInTable s (2 ^ k.toNat))

/-- Value-table round trip (R164): VT_DECODE, at the same depth, of the bits VT_ENCODE wrote gives the same set of values,
VT_CEIL, VT_TAG and translation. -/
def Obligations.ValueTableRoundTrip : Prop :=
  ∀ (s t d : State) (k : BitVec 6), s.fault = none → TableInRange s → exec .vtEncode s = .next t → t.fault = none →
    k.toNat = s.vtDepth → d.cfg.Legal → PositionsInRange d → d.inPos + (t.outPos - s.outPos) ≤ 8 * d.inLen →
    (∀ j, j < t.outPos - s.outPos → inBitAt d (d.inPos + j) = outBitAt t (s.outPos + j)) →
    Completes (.vtDecode k) d fun u =>
      u.vtDepth = t.vtDepth ∧ occupied u (2 ^ u.vtDepth) = occupied t (2 ^ t.vtDepth) ∧ u.vtCeil = t.vtCeil ∧
      u.vtTag = t.vtTag ∧ u.result = t.result ∧ u.inPos = d.inPos + (t.outPos - s.outPos) ∧
      (∀ v, v < 2 ^ t.vtDepth → presentAt t v = true → fwdAt u v = fwdAt t v) ∧
      ∀ j, j < t.vtCeil → invAt u j = invAt t j

/-- VT_FWD and VT_INV (R162, R163). -/
def Obligations.VtTranslates : Prop :=
  ∀ (s : State) (x : BitVec 16),
    (s.vtValid = true → x.toNat < 2 ^ s.vtDepth → presentAt s x.toNat = true →
      Completes (.vtFwd x) s fun t => t.result.toNat = fwdAt s x.toNat) ∧
    (s.vtValid = true → x.toNat < s.vtCeil → Completes (.vtInv x) s fun t => t.result.toNat = invAt s x.toNat) ∧
    (s.fault = none → s.vtValid = false →
      FaultsPrecisely (.vtFwd x) s .vtNotValid ∧ FaultsPrecisely (.vtInv x) s .vtNotValid) ∧
    (s.fault = none → s.vtValid = true → 2 ^ s.vtDepth ≤ x.toNat → FaultsPrecisely (.vtFwd x) s .vtValue) ∧
    (s.fault = none → s.vtValid = true → x.toNat < 2 ^ s.vtDepth → presentAt s x.toNat = false →
      FaultsPrecisely (.vtFwd x) s .vtAbsent) ∧
    (s.fault = none → s.vtValid = true → s.vtCeil ≤ x.toNat → FaultsPrecisely (.vtInv x) s .vtIndex)

/-- Translating a present value to its index and back gives the value (R164): VT_INV of what VT_FWD answered completes with
the value, wherever the translation is what VT_ENCODE and VT_DECODE leave (TranslationBuilt); and the index is below VT_CEIL. -/
def Obligations.TranslationIsIdentity : Prop :=
  ∀ (s : State) (x : BitVec 16), s.vtValid = true → x.toNat < 2 ^ s.vtDepth → presentAt s x.toNat = true →
    TableInRange s → TranslationBuilt s →
    ∃ t, exec (.vtFwd x) s = .next t ∧ t.result.toNat < s.vtCeil ∧
      Completes (.vtInv (BitVec.ofNat 16 t.result.toNat)) t fun u => u.result.toNat = x.toNat

/-! ## Huffman trees -/

/-- HT_BUILD (R181, R182, R186): the slot's tree is one that the pseudocode's merge loop ends in, its leaves are the symbols
with a count (or symbol 0 alone), and RESULT is the length its serialization will have. -/
def Obligations.HtBuildRule : Prop :=
  ∀ (s : State) (a b : BitVec 2), s.cfg.Legal →
    (1 ≤ limit s b → limit s b ≤ s.cfg.nSym → ∃ root, Builds (builtSymbols s b).length (startPool s b) root ∧
      (huffSymbols root).Perm (builtSymbols s b) ∧
      Completes (.htBuild a b) s fun t => slot t a = some { alphabet := limit s b, root := root } ∧
        t.result.toNat = 2 * (builtSymbols s b).length - 1 + (builtSymbols s b).length * leafWidth (limit s b)) ∧
    (s.fault = none → limit s b = 0 ∨ s.cfg.nSym < limit s b → FaultsPrecisely (.htBuild a b) s .htAlphabet)

/-- HT_SERIALIZE (R185, R187). -/
def Obligations.HtSerializeRule : Prop :=
  ∀ (s : State) (a : BitVec 2), s.cfg.Legal →
    (∀ tr, slot s a = some tr → OutputRoom s (huffSerialize (leafWidth tr.alphabet) tr.root).length →
      Completes (.htSerialize a) s fun t => Appended s t (huffSerialize (leafWidth tr.alphabet) tr.root) ∧
        t.result.toNat = (huffSerialize (leafWidth tr.alphabet) tr.root).length) ∧
    (s.fault = none → slot s a = none → FaultsPrecisely (.htSerialize a) s .htEmpty) ∧
    ∀ tr, s.fault = none → slot s a = some tr → PositionsInRange s →
      ¬ OutputRoom s (huffSerialize (leafWidth tr.alphabet) tr.root).length →
      FaultsImprecisely (.htSerialize a) s .outOverflow

/-- HT_DESERIALIZE completes on the serialization of every formed tree of the alphabet size it is given, whatever the tree's
shape, and the slot then holds that tree (R184, R185, R188). -/
def Obligations.HtDeserializeReadsTree : Prop :=
  ∀ (s : State) (a : BitVec 2) (x : BitVec 16), s.cfg.Legal → PositionsInRange s →
    (∀ tr, tr.alphabet = x.toNat → TreeFormed s tr →
      InputHolds s s.inPos (huffSerialize (leafWidth x.toNat) tr.root) →
      Completes (.htDeserialize a x) s fun t => slot t a = some tr ∧
        t.inPos = s.inPos + (huffSerialize (leafWidth x.toNat) tr.root).length ∧
        t.result.toNat = (huffSerialize (leafWidth x.toNat) tr.root).length) ∧
    (s.fault = none → x.toNat = 0 ∨ s.cfg.nSym < x.toNat → FaultsPrecisely (.htDeserialize a x) s .htAlphabet)

/-- HT_DESERIALIZE completes on nothing else: where it completes, the input held the serialization of the formed tree the
slot now holds (R180, R185, R188). For an alphabet size in 1..N_SYM a leaf index at or past A, a repeated one and an inner
node past A − 1 of them raise FMT_HT_TREE (R188), an input that ends inside the tree FMT_TRUNCATED; and every input is one of
these or HT_DESERIALIZE completes. -/
def Obligations.HtDeserializeReadsOnlyTrees : Prop :=
  (∀ (s t : State) (a : BitVec 2) (x : BitVec 16), s.fault = none → PositionsInRange s →
    exec (.htDeserialize a x) s = .next t → t.fault = none →
    ∃ tr, slot t a = some tr ∧ tr.alphabet = x.toNat ∧ TreeFormed s tr ∧
      InputHolds s s.inPos (huffSerialize (leafWidth x.toNat) tr.root) ∧
      t.inPos = s.inPos + (huffSerialize (leafWidth x.toNat) tr.root).length) ∧
  ∀ (s : State) (a : BitVec 2) (x : BitVec 16), s.fault = none → PositionsInRange s → 1 ≤ x.toNat → x.toNat ≤ s.cfg.nSym →
    (BadTree s x.toNat → FaultsImprecisely (.htDeserialize a x) s .fmtHtTree) ∧
    (EndsInTree s x.toNat → FaultsImprecisely (.htDeserialize a x) s .fmtTruncated) ∧
    (Completes (.htDeserialize a x) s (fun _ => True) ∨ BadTree s x.toNat ∨ EndsInTree s x.toNat)

/-- HT_ENCODE and HT_LEN (R183, R189, R191). -/
def Obligations.HtEncodeAndLenRule : Prop :=
  ∀ (s : State) (a : BitVec 2) (x : BitVec 16), s.cfg.Legal → SlotsFormed s →
    (∀ tr p, slot s a = some tr → huffCode tr.root x.toNat = some p →
      Completes (.htLen a x) s (fun t => t.result.toNat = p.length) ∧
      (OutputRoom s p.length →
        Completes (.htEncode a x) s fun t => Appended s t p ∧ t.result.toNat = p.length) ∧
      (s.fault = none → PositionsInRange s → ¬ OutputRoom s p.length →
        FaultsImprecisely (.htEncode a x) s .outOverflow)) ∧
    (s.fault = none → slot s a = none →
      FaultsPrecisely (.htEncode a x) s .htEmpty ∧ FaultsPrecisely (.htLen a x) s .htEmpty) ∧
    ∀ tr, s.fault = none → slot s a = some tr → (tr.alphabet ≤ x.toNat ∨ x.toNat ∉ huffSymbols tr.root) →
      FaultsPrecisely (.htEncode a x) s .htSymbol ∧ FaultsPrecisely (.htLen a x) s .htSymbol

/-- HT_DECODE (R190): over the code of a symbol it gives that symbol; an input that ends inside a code is truncated; and
every input is one or the other, since the tree is full. -/
def Obligations.HtDecodeRule : Prop :=
  ∀ (s : State) (a : BitVec 2), s.cfg.Legal → SlotsFormed s →
    (∀ tr x p, slot s a = some tr → huffCode tr.root x = some p → InputHolds s s.inPos p →
      Completes (.htDecode a) s fun t => t.result.toNat = x ∧ t.inPos = s.inPos + p.length) ∧
    (s.fault = none → slot s a = none → FaultsPrecisely (.htDecode a) s .htEmpty) ∧
    (∀ tr x p q, s.fault = none → slot s a = some tr → huffCode tr.root x = some (p ++ q) → q ≠ [] →
      InputHolds s s.inPos p → s.inPos + p.length = 8 * s.inLen → FaultsImprecisely (.htDecode a) s .fmtTruncated) ∧
    ∀ tr, s.fault = none → slot s a = some tr → PositionsInRange s →
      (∃ x p, huffCode tr.root x = some p ∧ InputHolds s s.inPos p ∧
        Completes (.htDecode a) s fun t => t.result.toNat = x ∧ t.inPos = s.inPos + p.length) ∨
      (EndsInCode s tr.root s.inPos ∧ FaultsImprecisely (.htDecode a) s .fmtTruncated)

/-- The codes of a tree form a prefix code, and exactly its leaves have one (R180, R183). -/
def Obligations.CodesArePrefixFree : Prop :=
  (∀ (t : Tree) (x y : Nat) (p q : List Bool), huffCode t x = some p → huffCode t y = some q → p <+: q → x = y) ∧
  ∀ (t : Tree) (x : Nat), (∃ p, huffCode t x = some p) ↔ x ∈ huffSymbols t

/-- The leaf width is the smallest that fits the alphabet (R184), and a tree with L leaves serializes to
`(2L − 1) + L·w(A)` bits (R185). -/
def Obligations.SerializationLengths : Prop :=
  (∀ A, 1 ≤ A → A ≤ 2 ^ leafWidth A ∧ ∀ w, A ≤ 2 ^ w → leafWidth A ≤ w) ∧
  ∀ (A : Nat) (t : Tree), (huffSerialize (leafWidth A) t).length =
    2 * (huffSymbols t).length - 1 + (huffSymbols t).length * leafWidth A

/-- Huffman round trip (R192): HT_DESERIALIZE, with A the bank's limit, of the bits that HT_BUILD and HT_SERIALIZE wrote
gives the same tree; and what HT_ENCODE then writes for a symbol with a count, HT_DECODE reads back to the symbol. -/
def Obligations.HuffmanRoundTrip : Prop :=
  ∀ (s t u d : State) (h h' f : BitVec 2), s.fault = none → s.cfg.Legal → BanksInRange s →
    exec (.htBuild h f) s = .next t → t.fault = none → exec (.htSerialize h) t = .next u → u.fault = none →
    d.cfg = s.cfg → PositionsInRange d → d.inPos + (u.outPos - t.outPos) ≤ 8 * d.inLen →
    (∀ j, j < u.outPos - t.outPos → inBitAt d (d.inPos + j) = outBitAt u (t.outPos + j)) →
    Completes (.htDeserialize h' (BitVec.ofNat 16 (limit s f))) d (fun e =>
      slot e h' = slot t h ∧ e.inPos = d.inPos + (u.outPos - t.outPos)) ∧
    ∀ (x : BitVec 16) (v e : State), count s f x.toNat ≠ 0 → exec (.htEncode h x) u = .next v → v.fault = none →
      slot e h' = slot t h → e.inPos + (v.outPos - u.outPos) ≤ 8 * e.inLen →
      (∀ j, j < v.outPos - u.outPos → inBitAt e (e.inPos + j) = outBitAt v (u.outPos + j)) →
      Completes (.htDecode h') e fun g => g.result.toNat = x.toNat ∧ g.inPos = e.inPos + (v.outPos - u.outPos)

/-! ## NOP and the bit stream -/

/-- NOP (R210). -/
def Obligations.NopRule : Prop :=
  ∀ s : State, Completes .nop s fun t => t.result = s.result ∧ t.outPos = s.outPos ∧ t.inPos = s.inPos

/-- BS_PUT (R211): DATA's bits k−1 down to 0. -/
def Obligations.BsPutRule : Prop :=
  ∀ (s : State) (k : BitVec 6),
    (OutputRoom s k.toNat → Completes (.bsPut k) s fun t =>
      Appended s t ((List.range k.toNat).map fun j => s.data.getLsbD (k.toNat - 1 - j))) ∧
    (s.fault = none → ¬ OutputRoom s k.toNat → FaultsPrecisely (.bsPut k) s .outOverflow)

/-- BS_GET (R212): the next k input bits, the first most significant. -/
def Obligations.BsGetRule : Prop :=
  ∀ (s : State) (k : BitVec 6),
    (k.toNat ≤ 32 → s.inPos + k.toNat ≤ 8 * s.inLen → Completes (.bsGet k) s fun t =>
      t.result.toNat = numberOf ((List.range k.toNat).map fun j => inBitAt s (s.inPos + j)) ∧
      t.inPos = s.inPos + k.toNat) ∧
    (s.fault = none → 8 * s.inLen < s.inPos + k.toNat → FaultsPrecisely (.bsGet k) s .fmtTruncated)

/-- BS_OUT_ALIGN (R213). -/
def Obligations.BsOutAlignRule : Prop :=
  ∀ s : State, Completes .bsOutAlign s fun t =>
    ∃ n, n < 8 ∧ Appended s t (List.replicate n false) ∧ t.outPos % 8 = 0 ∧ t.result.toNat = n

/-- BS_IN_ALIGN, BS_OUT_RESET and BS_IN_SEEK (R214, R215, R216). -/
def Obligations.BsMovesRule : Prop :=
  ∀ s : State,
    Completes .bsInAlign s (fun t => t.inPos % 8 = 0 ∧ s.inPos ≤ t.inPos ∧ t.inPos < s.inPos + 8) ∧
    Completes .bsOutReset s (fun t => t.outPos = 0) ∧
    (s.data.toNat ≤ 8 * s.inLen → Completes .bsInSeek s fun t => t.inPos = s.data.toNat) ∧
    (s.fault = none → 8 * s.inLen < s.data.toNat → FaultsPrecisely .bsInSeek s .bsSeek)

/-! ## The host's accesses -/

/-- CMD (R26). A write with the fault latch set changes nothing; else while BUSY = 1 it raises PROTOCOL; else it makes the word
pending, so BUSY is 1. CMD reads 0. -/
def Obligations.CmdWriteIssues : Prop :=
  ∀ (s : State) (v : Word),
    (s.fault.isSome → WritesTo s 0x014 v [] fun t => t.pending = s.pending) ∧
    (∀ w, s.fault = none → s.pending = some w → RaisesProtocol s 0x014 v w) ∧
    (s.fault = none → s.pending = none → WritesTo s 0x014 v [.pending] fun t => t.pending = some v ∧ busy t = true) ∧
    (s.pending = none → ReadsAs s 0x014 0)

/-- PROTOCOL (R236): a write of CMD, DATA, IN_LEN or an INBUF word while BUSY = 1 is not made; the pending word is discarded
and latched as FAULTCMD. Nothing else raises it: no write of any other offset (CTRL, IRQ_EN, IRQ_STATUS, read-only, reserved,
unmapped, OUTBUF), no write while BUSY = 0, no read, and no command. -/
def Obligations.ProtocolFault : Prop :=
  (∀ (s : State) (w v : Word) (off : Nat), s.cfg.Legal → s.fault = none → s.pending = some w →
    off % 4 = 0 → BusyGuarded s off → RaisesProtocol s off v w) ∧
  (∀ (s : State) (v : Word) (off : Nat), s.fault = none → off % 4 = 0 → off < 0x3000000 →
    (BusyGuarded s off → s.pending = none) →
    ∃ t, hostWrite (s.cfg.base + off) v s = .next t ∧ t.fault = none) ∧
  (∀ (s t : State) (a : Nat), hostRead a s = .next t → t.fault = s.fault) ∧
  ∀ (i : Instr) (s t : State) (f : FaultRecord), s.fault = none → exec i s = .next t → t.fault = some f →
    f.code ≠ .protocol

/-- Writes of DATA and IN_LEN while BUSY = 0, and of IRQ_EN and IRQ_STATUS at any time (R27, R30, R31, R32). They hold with
the fault latch set too (R234). -/
def Obligations.RegisterWrites : Prop :=
  ∀ (s : State) (v : Word),
    (s.pending = none → WritesTo s 0x018 v [.data] fun t => t.data = v) ∧
    (s.pending = none → WritesTo s 0x02C v [.inLen, .inPos] fun t =>
      t.inLen = min (v.toNat % 2 ^ 25) s.cfg.inBytes ∧ t.inPos = 0) ∧
    WritesTo s 0x024 v [.irqEn] (fun t => ∀ j < 2, t.irqEn.getLsbD j = v.getLsbD j) ∧
    WritesTo s 0x028 v [.irqStatus] fun t => ∀ j < 2, t.irqStatus.getLsbD j = (s.irqStatus.getLsbD j && !v.getLsbD j)

/-- CTRL (R22, R260, R261, R262): a write with bit 0 set gives every piece of state its reset value, whatever the state; a
write with bit 0 clear has no effect. CTRL reads 0. -/
def Obligations.SoftReset : Prop :=
  ∀ (s : State) (v : Word),
    (v.getLsbD 0 = true → ∃ t, hostWrite (s.cfg.base + 0x004) v s = .next t ∧ HasResetValues t ∧ t.cfg = s.cfg ∧
      irqLine t = false) ∧
    (v.getLsbD 0 = false → hostWrite (s.cfg.base + 0x004) v s = .next s) ∧
    (s.pending = none → ReadsAs s 0x004 0)

/-- What the registers read as while BUSY = 0 (R27-R29, R32-R38, R40-R42), and that a read changes nothing (R71). -/
def Obligations.IdleRegisterReads : Prop :=
  ∀ s : State, s.cfg.Legal → RegistersInRange s → s.pending = none →
    ReadsAs s 0x018 s.data ∧ ReadsAs s 0x01C s.result ∧ ReadsAs s 0x020 s.cmdCount ∧
    ReadsNumber s 0x02C s.inLen ∧ ReadsNumber s 0x030 s.inPos ∧ ReadsNumber s 0x034 s.outPos ∧
    ReadsNumber s 0x038 s.rcLow.toNat ∧ ReadsNumber s 0x03C s.rcHigh.toNat ∧ ReadsNumber s 0x040 s.rcCode.toNat ∧
    ReadsAs s 0x044 s.rcUnderflow ∧ ReadsNumber s 0x048 s.vtDepth ∧ ReadsNumber s 0x04C s.vtCeil ∧
    ReadsNumber s 0x050 s.vtTag.toNat

/-- The registers whose reads are exact at any time, BUSY = 1 included (R21, R23-R25, R30, R31, R43, R264), and the number of
every fault code (R231), which FAULTCODE answers and FCLASS is computed from (R230). -/
def Obligations.ExactReads : Prop :=
  ∀ s : State, s.cfg.Legal →
    ReadsNumber s 0x000 0x484F4801 ∧
    (∃ v, ReadsAs s 0x008 v ∧ v.getLsbD 0 = s.pending.isSome ∧ v.getLsbD 1 = s.fault.isSome ∧
      (v.getLsbD 2 = true ↔ ∃ f, s.fault = some f ∧ 0x40 ≤ (faultNumber f.code).toNat) ∧ v.getLsbD 3 = false ∧
      (v.toNat / 16 % 4 = match s.rcMode with | .idle => 0 | .enc => 1 | .dec => 2) ∧ v.getLsbD 6 = s.vtValid ∧
      v.toNat < 2 ^ 7) ∧
    ReadsNumber s 0x00C (match s.fault with | none => 0 | some f => (faultNumber f.code).toNat) ∧
    ReadsAs s 0x010 (match s.fault with | none => 0 | some f => f.cmd) ∧
    ReadsNumber s 0x024 s.irqEn.toNat ∧ ReadsNumber s 0x028 s.irqStatus.toNat ∧
    ReadsNumber s 0x054 (9 * 2 ^ 24 + 4 * 2 ^ 20 + 4 * 2 ^ 16 + s.cfg.nSym) ∧
    ReadsNumber s 0x058 s.cfg.inBytes ∧ ReadsNumber s 0x05C s.cfg.outBytes ∧
    ∀ p ∈ [(.rcLowGeHigh, 0x01), (.rcStateMask, 0x02), (.rcRange, 0x03), (.rcZeroFreq, 0x04), (.rcTotal, 0x05),
      (.rcSync, 0x06), (.rcMode, 0x07), (.rcUnderflowOvf, 0x08), (.ftSymbol, 0x10), (.ftLimit, 0x11), (.ftOverflow, 0x12),
      (.htEmpty, 0x18), (.htSymbol, 0x19), (.htAlphabet, 0x1A), (.vtDepth, 0x20), (.vtValue, 0x21), (.vtAbsent, 0x22),
      (.vtIndex, 0x23), (.vtNotValid, 0x24), (.illegalCommand, 0x30), (.protocol, 0x31), (.outOverflow, 0x32),
      (.bsSeek, 0x33), (.fmtTruncated, 0x40), (.fmtVtTag, 0x41), (.fmtVtPayload, 0x42), (FaultCode.fmtHtTree, 0x43)],
      (faultNumber p.1).toNat = p.2

/-- The INBUF window (R63): a word write while BUSY = 0 replaces the four bytes, the first from bits 31:24, and no other
byte; reading the word gives it back. -/
def Obligations.InbufWords : Prop :=
  ∀ (s : State) (j : Nat) (v : Word), s.cfg.Legal → s.pending = none → 4 * j < s.cfg.inBytes →
    WritesTo s (inWindow + 4 * j) v [.inbuf] fun t =>
      (∀ n < 4, inByte t (4 * j + n) = v.extractLsb' (24 - 8 * n) 8) ∧
      (∀ a, a < 4 * j ∨ 4 * j + 4 ≤ a → inByte t a = inByte s a) ∧ ReadsAs t (inWindow + 4 * j) v

/-- The OUTBUF window (R64, R65): while BUSY = 0 a word's bit for a stream position below OUTPOS is that stream bit. The
word is read-only. -/
def Obligations.OutbufWords : Prop :=
  ∀ (s : State) (j : Nat), s.cfg.Legal → 4 * j < s.cfg.outBytes →
    (s.pending = none → ∃ v, ReadsAs s (outWindow + 4 * j) v ∧
      ∀ n < 32, 32 * j + n < s.outPos → v.getLsbD (31 - n) = outBitAt s (32 * j + n)) ∧
    ∀ v, hostWrite (s.cfg.base + (outWindow + 4 * j)) v s = .next s

/-- Reserved register offsets and unmapped offsets read 0 and ignore writes, read-only registers ignore writes (R62), and
address bits 1:0 are ignored (R61). The write-only CTRL and CMD read 0 (R22, R26). That all these read 0 while BUSY = 1 too
is the model's reading (log entry 9). -/
def Obligations.IgnoredAccesses : Prop :=
  (∀ (s : State) (off : Nat) (v : Word), s.cfg.Legal → off % 4 = 0 →
    ((0x060 ≤ off ∧ off < inWindow) ∨ (inWindow + s.cfg.inBytes ≤ off ∧ off < outWindow) ∨
      (outWindow + s.cfg.outBytes ≤ off ∧ off < 0x3000000)) →
    ReadsAs s off 0 ∧ hostWrite (s.cfg.base + off) v s = .next s) ∧
  (∀ (s : State) (v : Word), ∀ off ∈ [0x000, 0x008, 0x00C, 0x010, 0x01C, 0x020, 0x030, 0x034, 0x038, 0x03C, 0x040, 0x044,
      0x048, 0x04C, 0x050, 0x054, 0x058, 0x05C], hostWrite (s.cfg.base + off) v s = .next s) ∧
  (∀ s : State, ReadsAs s 0x004 0 ∧ ReadsAs s 0x014 0) ∧
  ∀ (s : State) (a : Nat) (v : Word), s.cfg.Legal →
    hostRead a s = hostRead (a / 4 * 4) s ∧ hostWrite a v s = hostWrite (a / 4 * 4) v s

/-- The interrupt line (R237), and the two events that raise its sources: a completing command sets DONE_IS, a fault sets
FAULT_IS. -/
def Obligations.InterruptLine : Prop :=
  (∀ s : State, irqLine s =
    ((s.irqStatus.getLsbD 0 && s.irqEn.getLsbD 0) || (s.irqStatus.getLsbD 1 && s.irqEn.getLsbD 1))) ∧
  ∀ (i : Instr) (s t : State), s.fault = none → exec i s = .next t →
    t.irqStatus.getLsbD 1 = (s.irqStatus.getLsbD 1 || t.fault.isNone) ∧
    t.irqStatus.getLsbD 0 = (s.irqStatus.getLsbD 0 || t.fault.isSome)

/-! ## Reset and invariants -/

/-- Reset (R53, R261), and that the invariants below hold there. The parameters are the model's choice (log entry 1), and
so is that no host access is to come (log entry 2). -/
def Obligations.ResetState : Prop :=
  HasResetValues State.reset ∧ State.reset.cfg.Legal ∧ RegistersInRange State.reset ∧ BanksInRange State.reset ∧
  BuffersFormed State.reset ∧ SoundUnlessFaulted State.reset

/-- Every step keeps the ranges of R32-R34, R40, R41, R44 and R101, keeps a latched fault without a pending command, keeps
both buffers formed, and leaves the parameters alone (R20). -/
def Obligations.StepKeepsRanges : Prop :=
  ∀ s t : State, s.cfg.Legal → RegistersInRange s → BanksInRange s → BuffersFormed s → step s = .next t →
    t.cfg = s.cfg ∧ RegistersInRange t ∧ BanksInRange t ∧ BuffersFormed t

/-- Every step keeps what the rules promise of a machine with no fault latched: a valid coder state (R120, R135), formed
trees (R45, R180), the translation VT_VALID promises (R46), and every output byte below OUTPOS written. -/
def Obligations.StepKeepsSoundness : Prop :=
  ∀ s t : State, RegistersInRange s → BanksInRange s → SoundUnlessFaulted s → step s = .next t → SoundUnlessFaulted t
end

