-- ==== Sys2Proof/Laws/Bits.lean ====
section
/-! SUPPORT. Bits of bytes, and numbers written most significant bit first. -/

namespace Sys2Proof.Machine

/-- The byte with one bit set. -/
theorem oneBit_getLsbD : ∀ i < 8, ∀ j < 8, (1#8 <<< i).getLsbD j = decide (j = i) := by decide

/-- Setting one bit of a byte leaves the others. -/
theorem setByteBit_getLsbD (v : Byte) (i j : Nat) (b : Bool) (hi : i < 8) :
    (setByteBit v i b).getLsbD j = if j = i then b else v.getLsbD j := by
  by_cases hj : j < 8
  · have h := oneBit_getLsbD i hi j hj
    cases b
    · simp only [setByteBit, Bool.false_eq_true, if_false, BitVec.getLsbD_and, BitVec.getLsbD_not, h, hj]
      by_cases hji : j = i <;> simp [hji]
    · simp only [setByteBit, if_true, BitVec.getLsbD_or, h]
      by_cases hji : j = i <;> simp [hji]
  · have h1 : j ≠ i := by omega
    rw [if_neg h1, BitVec.getLsbD_of_ge _ _ (by omega), BitVec.getLsbD_of_ge _ _ (by omega)]

@[simp] theorem msbBits_length (n v : Nat) : (msbBits n v).length = n := by
  induction n with
  | zero => rfl
  | succ n ih => simp [msbBits, ih]

/-- Bit `i` of `msbBits n v` in stream order. -/
theorem msbBits_getElem (n v i : Nat) (h : i < (msbBits n v).length) :
    (msbBits n v)[i] = v.testBit (n - 1 - i) := by
  induction n generalizing i with
  | zero => simp [msbBits] at h
  | succ n ih =>
    cases i with
    | zero => simp [msbBits]
    | succ i =>
      simp only [msbBits, List.getElem_cons_succ]
      rw [ih]
      congr 1
      omega

/-- Reading bits as a number, `v <- 2*v + bit`, from `v`. -/
def bitsNat (v : Nat) (bs : List Bool) : Nat := bs.foldl (fun a b => 2 * a + b.toNat) v

theorem bitsNat_msbBits (n v a : Nat) : bitsNat a (msbBits n v) = a * 2 ^ n + v % 2 ^ n := by
  induction n generalizing a with
  | zero => simp [bitsNat, msbBits, Nat.mod_one]
  | succ n ih =>
    have h : v % 2 ^ (n + 1) = v % 2 ^ n + 2 ^ n * (v / 2 ^ n % 2) := Nat.mod_pow_succ
    have hb : (v.testBit n).toNat = v / 2 ^ n % 2 := Nat.toNat_testBit v n
    simp only [msbBits, bitsNat, List.foldl_cons]
    have := ih (2 * a + (v.testBit n).toNat)
    simp only [bitsNat] at this
    rw [this, h, hb, pow_succ]
    ring

/-- Reading back a number of `n` bits. -/
theorem bitsNat_msbBits_zero {n v : Nat} (h : v < 2 ^ n) : bitsNat 0 (msbBits n v) = v := by
  rw [bitsNat_msbBits, Nat.mod_eq_of_lt h]; omega

end Sys2Proof.Machine
end

