-- ==== Sys2Proof/Laws/Memory.lean ====
section
/-! SUPPORT. Byte memory: a read after a write, and the one form every memory operation keeps. -/

namespace Sys2Proof.Machine

@[simp] theorem memRead_nil (a : Nat) : memRead [] a = none := rfl

theorem memRead_memWrite_same (m : Memory) (a : Nat) (b : Byte) : memRead (memWrite m a b) a = some b := by
  induction m with
  | nil => simp [memWrite, memRead]
  | cons c m ih =>
    obtain ⟨k, v⟩ := c
    unfold memWrite
    split
    · simp [memRead]
    · split
      · simp [memRead]
      · rename_i h1 h2
        simp [memRead, Ne.symm h2, ih]

theorem memRead_memWrite_other (m : Memory) {a a' : Nat} (b : Byte) (h : a' ≠ a) :
    memRead (memWrite m a b) a' = memRead m a' := by
  induction m with
  | nil => simp [memWrite, memRead, h.symm]
  | cons c m ih =>
    obtain ⟨k, v⟩ := c
    unfold memWrite
    split
    · simp [memRead, h.symm]
    · split
      · rename_i h1 h2
        subst h2
        simp [memRead, h.symm]
      · by_cases hk : k = a' <;> simp [memRead, hk, ih]

/-- One lemma for both: what a write leaves to be read. -/
theorem memRead_memWrite (m : Memory) (a a' : Nat) (b : Byte) :
    memRead (memWrite m a b) a' = if a' = a then some b else memRead m a' := by
  split
  · rename_i h; rw [h, memRead_memWrite_same]
  · rename_i h; exact memRead_memWrite_other m b h

/-- The addresses of a memory after a write. -/
theorem memWrite_keys (m : Memory) (a : Nat) (b : Byte) :
    ∀ k ∈ (memWrite m a b).map Prod.fst, k = a ∨ k ∈ m.map Prod.fst := by
  induction m with
  | nil => simp [memWrite]
  | cons c m ih =>
    obtain ⟨k, v⟩ := c
    unfold memWrite
    split
    · simp
    · split
      · simp; tauto
      · intro j hj
        simp only [List.map_cons, List.mem_cons] at hj ⊢
        rcases hj with rfl | hj
        · simp
        · rcases ih j hj with h | h <;> simp [h]

theorem wf_nil : Memory.wf [] := by simp [Memory.wf]

/-- A write keeps the addresses strictly rising. -/
theorem memWrite_wf (m : Memory) (a : Nat) (b : Byte) (h : Memory.wf m) : Memory.wf (memWrite m a b) := by
  induction m with
  | nil => simp [memWrite, Memory.wf]
  | cons c m ih =>
    obtain ⟨k, v⟩ := c
    simp only [Memory.wf, List.map_cons, List.pairwise_cons] at h
    unfold memWrite
    split
    · rename_i hak
      simp only [Memory.wf, List.map_cons, List.pairwise_cons, List.mem_cons]
      refine ⟨?_, h⟩
      rintro j (rfl | hj)
      · exact hak
      · exact lt_trans hak (h.1 j hj)
    · split
      · rename_i h1 h2
        subst h2
        simpa [Memory.wf] using h
      · rename_i h1 h2
        simp only [Memory.wf, List.map_cons, List.pairwise_cons]
        refine ⟨fun j hj => ?_, ih h.2⟩
        rcases memWrite_keys m a b j hj with rfl | hj
        · omega
        · exact h.1 j hj

/-- A write below a bound keeps every listed address below it. -/
theorem memWrite_bound (m : Memory) (a n : Nat) (b : Byte) (ha : a < n) (h : ∀ c ∈ m, c.1 < n) :
    ∀ c ∈ memWrite m a b, c.1 < n := by
  intro c hc
  have : c.1 ∈ (memWrite m a b).map Prod.fst := List.mem_map_of_mem hc
  rcases memWrite_keys m a b _ this with h' | h'
  · omega
  · obtain ⟨d, hd, he⟩ := List.mem_map.1 h'
    rw [← he]
    exact h d hd

/-- The four byte writes of a host write to the INBUF window keep the form. -/
theorem writeInWord_wf (i : Nat) (v : Word) (s : State) (h : Memory.wf s.inbuf) : Memory.wf (writeInWord i v s).inbuf := by
  unfold writeInWord
  exact memWrite_wf _ _ _ (memWrite_wf _ _ _ (memWrite_wf _ _ _ (memWrite_wf _ _ _ h)))

end Sys2Proof.Machine
end

