-- ==== Sys2Proof/Laws/State.lean ====
section
/-! SUPPORT. One lemma per field per named update of the state, true by rfl: what the update leaves alone, and the value
it gives where that is short. No later proof unfolds a record update. -/

namespace Sys2Proof.Machine


/-! ## complete -/

@[simp] theorem complete_cfg (s : State) : (complete s).cfg = s.cfg := rfl
@[simp] theorem complete_schedule (s : State) : (complete s).schedule = s.schedule := rfl
@[simp] theorem complete_bus (s : State) : (complete s).bus = s.bus := rfl
@[simp] theorem complete_draws (s : State) : (complete s).draws = s.draws := rfl
@[simp] theorem complete_inSeed (s : State) : (complete s).inSeed = s.inSeed := rfl
@[simp] theorem complete_outSeed (s : State) : (complete s).outSeed = s.outSeed := rfl
@[simp] theorem complete_pending (s : State) : (complete s).pending = none := rfl
@[simp] theorem complete_fault (s : State) : (complete s).fault = s.fault := rfl
@[simp] theorem complete_data (s : State) : (complete s).data = s.data := rfl
@[simp] theorem complete_result (s : State) : (complete s).result = s.result := rfl
@[simp] theorem complete_cmdCount (s : State) : (complete s).cmdCount = s.cmdCount + 1 := rfl
@[simp] theorem complete_irqEn (s : State) : (complete s).irqEn = s.irqEn := rfl
@[simp] theorem complete_irqStatus (s : State) : (complete s).irqStatus = s.irqStatus ||| 0b10 := rfl
@[simp] theorem complete_inLen (s : State) : (complete s).inLen = s.inLen := rfl
@[simp] theorem complete_inPos (s : State) : (complete s).inPos = s.inPos := rfl
@[simp] theorem complete_outPos (s : State) : (complete s).outPos = s.outPos := rfl
@[simp] theorem complete_rcLow (s : State) : (complete s).rcLow = s.rcLow := rfl
@[simp] theorem complete_rcHigh (s : State) : (complete s).rcHigh = s.rcHigh := rfl
@[simp] theorem complete_rcCode (s : State) : (complete s).rcCode = s.rcCode := rfl
@[simp] theorem complete_rcUnderflow (s : State) : (complete s).rcUnderflow = s.rcUnderflow := rfl
@[simp] theorem complete_rcMode (s : State) : (complete s).rcMode = s.rcMode := rfl
@[simp] theorem complete_vtDepth (s : State) : (complete s).vtDepth = s.vtDepth := rfl
@[simp] theorem complete_vtCeil (s : State) : (complete s).vtCeil = s.vtCeil := rfl
@[simp] theorem complete_vtTag (s : State) : (complete s).vtTag = s.vtTag := rfl
@[simp] theorem complete_vtValid (s : State) : (complete s).vtValid = s.vtValid := rfl
@[simp] theorem complete_present (s : State) : (complete s).present = s.present := rfl
@[simp] theorem complete_fwd (s : State) : (complete s).fwd = s.fwd := rfl
@[simp] theorem complete_inv (s : State) : (complete s).inv = s.inv := rfl
@[simp] theorem complete_ft (s : State) : (complete s).ft = s.ft := rfl
@[simp] theorem complete_ht (s : State) : (complete s).ht = s.ht := rfl
@[simp] theorem complete_inbuf (s : State) : (complete s).inbuf = s.inbuf := rfl
@[simp] theorem complete_outbuf (s : State) : (complete s).outbuf = s.outbuf := rfl

/-! ## enterFault -/

@[simp] theorem enterFault_cfg (c : FaultCode) (s : State) : (enterFault c s).cfg = s.cfg := rfl
@[simp] theorem enterFault_schedule (c : FaultCode) (s : State) : (enterFault c s).schedule = s.schedule := rfl
@[simp] theorem enterFault_bus (c : FaultCode) (s : State) : (enterFault c s).bus = s.bus := rfl
@[simp] theorem enterFault_draws (c : FaultCode) (s : State) : (enterFault c s).draws = s.draws := rfl
@[simp] theorem enterFault_inSeed (c : FaultCode) (s : State) : (enterFault c s).inSeed = s.inSeed := rfl
@[simp] theorem enterFault_outSeed (c : FaultCode) (s : State) : (enterFault c s).outSeed = s.outSeed := rfl
@[simp] theorem enterFault_pending (c : FaultCode) (s : State) : (enterFault c s).pending = none := rfl
@[simp] theorem enterFault_fault (c : FaultCode) (s : State) : (enterFault c s).fault = some (s.fault.getD { code := c, cmd := s.pending.getD 0 }) := rfl
@[simp] theorem enterFault_data (c : FaultCode) (s : State) : (enterFault c s).data = s.data := rfl
@[simp] theorem enterFault_result (c : FaultCode) (s : State) : (enterFault c s).result = s.result := rfl
@[simp] theorem enterFault_cmdCount (c : FaultCode) (s : State) : (enterFault c s).cmdCount = s.cmdCount := rfl
@[simp] theorem enterFault_irqEn (c : FaultCode) (s : State) : (enterFault c s).irqEn = s.irqEn := rfl
@[simp] theorem enterFault_inLen (c : FaultCode) (s : State) : (enterFault c s).inLen = s.inLen := rfl
@[simp] theorem enterFault_inPos (c : FaultCode) (s : State) : (enterFault c s).inPos = s.inPos := rfl
@[simp] theorem enterFault_outPos (c : FaultCode) (s : State) : (enterFault c s).outPos = s.outPos := rfl
@[simp] theorem enterFault_rcLow (c : FaultCode) (s : State) : (enterFault c s).rcLow = s.rcLow := rfl
@[simp] theorem enterFault_rcHigh (c : FaultCode) (s : State) : (enterFault c s).rcHigh = s.rcHigh := rfl
@[simp] theorem enterFault_rcCode (c : FaultCode) (s : State) : (enterFault c s).rcCode = s.rcCode := rfl
@[simp] theorem enterFault_rcUnderflow (c : FaultCode) (s : State) : (enterFault c s).rcUnderflow = s.rcUnderflow := rfl
@[simp] theorem enterFault_rcMode (c : FaultCode) (s : State) : (enterFault c s).rcMode = s.rcMode := rfl
@[simp] theorem enterFault_vtDepth (c : FaultCode) (s : State) : (enterFault c s).vtDepth = s.vtDepth := rfl
@[simp] theorem enterFault_vtCeil (c : FaultCode) (s : State) : (enterFault c s).vtCeil = s.vtCeil := rfl
@[simp] theorem enterFault_vtTag (c : FaultCode) (s : State) : (enterFault c s).vtTag = s.vtTag := rfl
@[simp] theorem enterFault_vtValid (c : FaultCode) (s : State) : (enterFault c s).vtValid = s.vtValid := rfl
@[simp] theorem enterFault_present (c : FaultCode) (s : State) : (enterFault c s).present = s.present := rfl
@[simp] theorem enterFault_fwd (c : FaultCode) (s : State) : (enterFault c s).fwd = s.fwd := rfl
@[simp] theorem enterFault_inv (c : FaultCode) (s : State) : (enterFault c s).inv = s.inv := rfl
@[simp] theorem enterFault_ft (c : FaultCode) (s : State) : (enterFault c s).ft = s.ft := rfl
@[simp] theorem enterFault_ht (c : FaultCode) (s : State) : (enterFault c s).ht = s.ht := rfl
@[simp] theorem enterFault_inbuf (c : FaultCode) (s : State) : (enterFault c s).inbuf = s.inbuf := rfl
@[simp] theorem enterFault_outbuf (c : FaultCode) (s : State) : (enterFault c s).outbuf = s.outbuf := rfl

/-! ## setBank -/

@[simp] theorem setBank_cfg (a : BitVec 2) (l : List Word) (s : State) : (setBank a l s).cfg = s.cfg := rfl
@[simp] theorem setBank_schedule (a : BitVec 2) (l : List Word) (s : State) : (setBank a l s).schedule = s.schedule := rfl
@[simp] theorem setBank_bus (a : BitVec 2) (l : List Word) (s : State) : (setBank a l s).bus = s.bus := rfl
@[simp] theorem setBank_draws (a : BitVec 2) (l : List Word) (s : State) : (setBank a l s).draws = s.draws := rfl
@[simp] theorem setBank_inSeed (a : BitVec 2) (l : List Word) (s : State) : (setBank a l s).inSeed = s.inSeed := rfl
@[simp] theorem setBank_outSeed (a : BitVec 2) (l : List Word) (s : State) : (setBank a l s).outSeed = s.outSeed := rfl
@[simp] theorem setBank_pending (a : BitVec 2) (l : List Word) (s : State) : (setBank a l s).pending = s.pending := rfl
@[simp] theorem setBank_fault (a : BitVec 2) (l : List Word) (s : State) : (setBank a l s).fault = s.fault := rfl
@[simp] theorem setBank_data (a : BitVec 2) (l : List Word) (s : State) : (setBank a l s).data = s.data := rfl
@[simp] theorem setBank_result (a : BitVec 2) (l : List Word) (s : State) : (setBank a l s).result = s.result := rfl
@[simp] theorem setBank_cmdCount (a : BitVec 2) (l : List Word) (s : State) : (setBank a l s).cmdCount = s.cmdCount := rfl
@[simp] theorem setBank_irqEn (a : BitVec 2) (l : List Word) (s : State) : (setBank a l s).irqEn = s.irqEn := rfl
@[simp] theorem setBank_irqStatus (a : BitVec 2) (l : List Word) (s : State) : (setBank a l s).irqStatus = s.irqStatus := rfl
@[simp] theorem setBank_inLen (a : BitVec 2) (l : List Word) (s : State) : (setBank a l s).inLen = s.inLen := rfl
@[simp] theorem setBank_inPos (a : BitVec 2) (l : List Word) (s : State) : (setBank a l s).inPos = s.inPos := rfl
@[simp] theorem setBank_outPos (a : BitVec 2) (l : List Word) (s : State) : (setBank a l s).outPos = s.outPos := rfl
@[simp] theorem setBank_rcLow (a : BitVec 2) (l : List Word) (s : State) : (setBank a l s).rcLow = s.rcLow := rfl
@[simp] theorem setBank_rcHigh (a : BitVec 2) (l : List Word) (s : State) : (setBank a l s).rcHigh = s.rcHigh := rfl
@[simp] theorem setBank_rcCode (a : BitVec 2) (l : List Word) (s : State) : (setBank a l s).rcCode = s.rcCode := rfl
@[simp] theorem setBank_rcUnderflow (a : BitVec 2) (l : List Word) (s : State) : (setBank a l s).rcUnderflow = s.rcUnderflow := rfl
@[simp] theorem setBank_rcMode (a : BitVec 2) (l : List Word) (s : State) : (setBank a l s).rcMode = s.rcMode := rfl
@[simp] theorem setBank_vtDepth (a : BitVec 2) (l : List Word) (s : State) : (setBank a l s).vtDepth = s.vtDepth := rfl
@[simp] theorem setBank_vtCeil (a : BitVec 2) (l : List Word) (s : State) : (setBank a l s).vtCeil = s.vtCeil := rfl
@[simp] theorem setBank_vtTag (a : BitVec 2) (l : List Word) (s : State) : (setBank a l s).vtTag = s.vtTag := rfl
@[simp] theorem setBank_vtValid (a : BitVec 2) (l : List Word) (s : State) : (setBank a l s).vtValid = s.vtValid := rfl
@[simp] theorem setBank_present (a : BitVec 2) (l : List Word) (s : State) : (setBank a l s).present = s.present := rfl
@[simp] theorem setBank_fwd (a : BitVec 2) (l : List Word) (s : State) : (setBank a l s).fwd = s.fwd := rfl
@[simp] theorem setBank_inv (a : BitVec 2) (l : List Word) (s : State) : (setBank a l s).inv = s.inv := rfl
@[simp] theorem setBank_ht (a : BitVec 2) (l : List Word) (s : State) : (setBank a l s).ht = s.ht := rfl
@[simp] theorem setBank_inbuf (a : BitVec 2) (l : List Word) (s : State) : (setBank a l s).inbuf = s.inbuf := rfl
@[simp] theorem setBank_outbuf (a : BitVec 2) (l : List Word) (s : State) : (setBank a l s).outbuf = s.outbuf := rfl

/-! ## setCount -/

@[simp] theorem setCount_cfg (a : BitVec 2) (x : Nat) (v : Word) (s : State) : (setCount a x v s).cfg = s.cfg := rfl
@[simp] theorem setCount_schedule (a : BitVec 2) (x : Nat) (v : Word) (s : State) : (setCount a x v s).schedule = s.schedule := rfl
@[simp] theorem setCount_bus (a : BitVec 2) (x : Nat) (v : Word) (s : State) : (setCount a x v s).bus = s.bus := rfl
@[simp] theorem setCount_draws (a : BitVec 2) (x : Nat) (v : Word) (s : State) : (setCount a x v s).draws = s.draws := rfl
@[simp] theorem setCount_inSeed (a : BitVec 2) (x : Nat) (v : Word) (s : State) : (setCount a x v s).inSeed = s.inSeed := rfl
@[simp] theorem setCount_outSeed (a : BitVec 2) (x : Nat) (v : Word) (s : State) : (setCount a x v s).outSeed = s.outSeed := rfl
@[simp] theorem setCount_pending (a : BitVec 2) (x : Nat) (v : Word) (s : State) : (setCount a x v s).pending = s.pending := rfl
@[simp] theorem setCount_fault (a : BitVec 2) (x : Nat) (v : Word) (s : State) : (setCount a x v s).fault = s.fault := rfl
@[simp] theorem setCount_data (a : BitVec 2) (x : Nat) (v : Word) (s : State) : (setCount a x v s).data = s.data := rfl
@[simp] theorem setCount_result (a : BitVec 2) (x : Nat) (v : Word) (s : State) : (setCount a x v s).result = s.result := rfl
@[simp] theorem setCount_cmdCount (a : BitVec 2) (x : Nat) (v : Word) (s : State) : (setCount a x v s).cmdCount = s.cmdCount := rfl
@[simp] theorem setCount_irqEn (a : BitVec 2) (x : Nat) (v : Word) (s : State) : (setCount a x v s).irqEn = s.irqEn := rfl
@[simp] theorem setCount_irqStatus (a : BitVec 2) (x : Nat) (v : Word) (s : State) : (setCount a x v s).irqStatus = s.irqStatus := rfl
@[simp] theorem setCount_inLen (a : BitVec 2) (x : Nat) (v : Word) (s : State) : (setCount a x v s).inLen = s.inLen := rfl
@[simp] theorem setCount_inPos (a : BitVec 2) (x : Nat) (v : Word) (s : State) : (setCount a x v s).inPos = s.inPos := rfl
@[simp] theorem setCount_outPos (a : BitVec 2) (x : Nat) (v : Word) (s : State) : (setCount a x v s).outPos = s.outPos := rfl
@[simp] theorem setCount_rcLow (a : BitVec 2) (x : Nat) (v : Word) (s : State) : (setCount a x v s).rcLow = s.rcLow := rfl
@[simp] theorem setCount_rcHigh (a : BitVec 2) (x : Nat) (v : Word) (s : State) : (setCount a x v s).rcHigh = s.rcHigh := rfl
@[simp] theorem setCount_rcCode (a : BitVec 2) (x : Nat) (v : Word) (s : State) : (setCount a x v s).rcCode = s.rcCode := rfl
@[simp] theorem setCount_rcUnderflow (a : BitVec 2) (x : Nat) (v : Word) (s : State) : (setCount a x v s).rcUnderflow = s.rcUnderflow := rfl
@[simp] theorem setCount_rcMode (a : BitVec 2) (x : Nat) (v : Word) (s : State) : (setCount a x v s).rcMode = s.rcMode := rfl
@[simp] theorem setCount_vtDepth (a : BitVec 2) (x : Nat) (v : Word) (s : State) : (setCount a x v s).vtDepth = s.vtDepth := rfl
@[simp] theorem setCount_vtCeil (a : BitVec 2) (x : Nat) (v : Word) (s : State) : (setCount a x v s).vtCeil = s.vtCeil := rfl
@[simp] theorem setCount_vtTag (a : BitVec 2) (x : Nat) (v : Word) (s : State) : (setCount a x v s).vtTag = s.vtTag := rfl
@[simp] theorem setCount_vtValid (a : BitVec 2) (x : Nat) (v : Word) (s : State) : (setCount a x v s).vtValid = s.vtValid := rfl
@[simp] theorem setCount_present (a : BitVec 2) (x : Nat) (v : Word) (s : State) : (setCount a x v s).present = s.present := rfl
@[simp] theorem setCount_fwd (a : BitVec 2) (x : Nat) (v : Word) (s : State) : (setCount a x v s).fwd = s.fwd := rfl
@[simp] theorem setCount_inv (a : BitVec 2) (x : Nat) (v : Word) (s : State) : (setCount a x v s).inv = s.inv := rfl
@[simp] theorem setCount_ht (a : BitVec 2) (x : Nat) (v : Word) (s : State) : (setCount a x v s).ht = s.ht := rfl
@[simp] theorem setCount_inbuf (a : BitVec 2) (x : Nat) (v : Word) (s : State) : (setCount a x v s).inbuf = s.inbuf := rfl
@[simp] theorem setCount_outbuf (a : BitVec 2) (x : Nat) (v : Word) (s : State) : (setCount a x v s).outbuf = s.outbuf := rfl

/-! ## setSlot -/

@[simp] theorem setSlot_cfg (a : BitVec 2) (u : HuffTree) (s : State) : (setSlot a u s).cfg = s.cfg := rfl
@[simp] theorem setSlot_schedule (a : BitVec 2) (u : HuffTree) (s : State) : (setSlot a u s).schedule = s.schedule := rfl
@[simp] theorem setSlot_bus (a : BitVec 2) (u : HuffTree) (s : State) : (setSlot a u s).bus = s.bus := rfl
@[simp] theorem setSlot_draws (a : BitVec 2) (u : HuffTree) (s : State) : (setSlot a u s).draws = s.draws := rfl
@[simp] theorem setSlot_inSeed (a : BitVec 2) (u : HuffTree) (s : State) : (setSlot a u s).inSeed = s.inSeed := rfl
@[simp] theorem setSlot_outSeed (a : BitVec 2) (u : HuffTree) (s : State) : (setSlot a u s).outSeed = s.outSeed := rfl
@[simp] theorem setSlot_pending (a : BitVec 2) (u : HuffTree) (s : State) : (setSlot a u s).pending = s.pending := rfl
@[simp] theorem setSlot_fault (a : BitVec 2) (u : HuffTree) (s : State) : (setSlot a u s).fault = s.fault := rfl
@[simp] theorem setSlot_data (a : BitVec 2) (u : HuffTree) (s : State) : (setSlot a u s).data = s.data := rfl
@[simp] theorem setSlot_result (a : BitVec 2) (u : HuffTree) (s : State) : (setSlot a u s).result = s.result := rfl
@[simp] theorem setSlot_cmdCount (a : BitVec 2) (u : HuffTree) (s : State) : (setSlot a u s).cmdCount = s.cmdCount := rfl
@[simp] theorem setSlot_irqEn (a : BitVec 2) (u : HuffTree) (s : State) : (setSlot a u s).irqEn = s.irqEn := rfl
@[simp] theorem setSlot_irqStatus (a : BitVec 2) (u : HuffTree) (s : State) : (setSlot a u s).irqStatus = s.irqStatus := rfl
@[simp] theorem setSlot_inLen (a : BitVec 2) (u : HuffTree) (s : State) : (setSlot a u s).inLen = s.inLen := rfl
@[simp] theorem setSlot_inPos (a : BitVec 2) (u : HuffTree) (s : State) : (setSlot a u s).inPos = s.inPos := rfl
@[simp] theorem setSlot_outPos (a : BitVec 2) (u : HuffTree) (s : State) : (setSlot a u s).outPos = s.outPos := rfl
@[simp] theorem setSlot_rcLow (a : BitVec 2) (u : HuffTree) (s : State) : (setSlot a u s).rcLow = s.rcLow := rfl
@[simp] theorem setSlot_rcHigh (a : BitVec 2) (u : HuffTree) (s : State) : (setSlot a u s).rcHigh = s.rcHigh := rfl
@[simp] theorem setSlot_rcCode (a : BitVec 2) (u : HuffTree) (s : State) : (setSlot a u s).rcCode = s.rcCode := rfl
@[simp] theorem setSlot_rcUnderflow (a : BitVec 2) (u : HuffTree) (s : State) : (setSlot a u s).rcUnderflow = s.rcUnderflow := rfl
@[simp] theorem setSlot_rcMode (a : BitVec 2) (u : HuffTree) (s : State) : (setSlot a u s).rcMode = s.rcMode := rfl
@[simp] theorem setSlot_vtDepth (a : BitVec 2) (u : HuffTree) (s : State) : (setSlot a u s).vtDepth = s.vtDepth := rfl
@[simp] theorem setSlot_vtCeil (a : BitVec 2) (u : HuffTree) (s : State) : (setSlot a u s).vtCeil = s.vtCeil := rfl
@[simp] theorem setSlot_vtTag (a : BitVec 2) (u : HuffTree) (s : State) : (setSlot a u s).vtTag = s.vtTag := rfl
@[simp] theorem setSlot_vtValid (a : BitVec 2) (u : HuffTree) (s : State) : (setSlot a u s).vtValid = s.vtValid := rfl
@[simp] theorem setSlot_present (a : BitVec 2) (u : HuffTree) (s : State) : (setSlot a u s).present = s.present := rfl
@[simp] theorem setSlot_fwd (a : BitVec 2) (u : HuffTree) (s : State) : (setSlot a u s).fwd = s.fwd := rfl
@[simp] theorem setSlot_inv (a : BitVec 2) (u : HuffTree) (s : State) : (setSlot a u s).inv = s.inv := rfl
@[simp] theorem setSlot_ft (a : BitVec 2) (u : HuffTree) (s : State) : (setSlot a u s).ft = s.ft := rfl
@[simp] theorem setSlot_inbuf (a : BitVec 2) (u : HuffTree) (s : State) : (setSlot a u s).inbuf = s.inbuf := rfl
@[simp] theorem setSlot_outbuf (a : BitVec 2) (u : HuffTree) (s : State) : (setSlot a u s).outbuf = s.outbuf := rfl

/-! ## setResult -/

@[simp] theorem setResult_cfg (v : Nat) (s : State) : (setResult v s).cfg = s.cfg := rfl
@[simp] theorem setResult_schedule (v : Nat) (s : State) : (setResult v s).schedule = s.schedule := rfl
@[simp] theorem setResult_bus (v : Nat) (s : State) : (setResult v s).bus = s.bus := rfl
@[simp] theorem setResult_draws (v : Nat) (s : State) : (setResult v s).draws = s.draws := rfl
@[simp] theorem setResult_inSeed (v : Nat) (s : State) : (setResult v s).inSeed = s.inSeed := rfl
@[simp] theorem setResult_outSeed (v : Nat) (s : State) : (setResult v s).outSeed = s.outSeed := rfl
@[simp] theorem setResult_pending (v : Nat) (s : State) : (setResult v s).pending = s.pending := rfl
@[simp] theorem setResult_fault (v : Nat) (s : State) : (setResult v s).fault = s.fault := rfl
@[simp] theorem setResult_data (v : Nat) (s : State) : (setResult v s).data = s.data := rfl
@[simp] theorem setResult_result (v : Nat) (s : State) : (setResult v s).result = BitVec.ofNat 32 v := rfl
@[simp] theorem setResult_cmdCount (v : Nat) (s : State) : (setResult v s).cmdCount = s.cmdCount := rfl
@[simp] theorem setResult_irqEn (v : Nat) (s : State) : (setResult v s).irqEn = s.irqEn := rfl
@[simp] theorem setResult_irqStatus (v : Nat) (s : State) : (setResult v s).irqStatus = s.irqStatus := rfl
@[simp] theorem setResult_inLen (v : Nat) (s : State) : (setResult v s).inLen = s.inLen := rfl
@[simp] theorem setResult_inPos (v : Nat) (s : State) : (setResult v s).inPos = s.inPos := rfl
@[simp] theorem setResult_outPos (v : Nat) (s : State) : (setResult v s).outPos = s.outPos := rfl
@[simp] theorem setResult_rcLow (v : Nat) (s : State) : (setResult v s).rcLow = s.rcLow := rfl
@[simp] theorem setResult_rcHigh (v : Nat) (s : State) : (setResult v s).rcHigh = s.rcHigh := rfl
@[simp] theorem setResult_rcCode (v : Nat) (s : State) : (setResult v s).rcCode = s.rcCode := rfl
@[simp] theorem setResult_rcUnderflow (v : Nat) (s : State) : (setResult v s).rcUnderflow = s.rcUnderflow := rfl
@[simp] theorem setResult_rcMode (v : Nat) (s : State) : (setResult v s).rcMode = s.rcMode := rfl
@[simp] theorem setResult_vtDepth (v : Nat) (s : State) : (setResult v s).vtDepth = s.vtDepth := rfl
@[simp] theorem setResult_vtCeil (v : Nat) (s : State) : (setResult v s).vtCeil = s.vtCeil := rfl
@[simp] theorem setResult_vtTag (v : Nat) (s : State) : (setResult v s).vtTag = s.vtTag := rfl
@[simp] theorem setResult_vtValid (v : Nat) (s : State) : (setResult v s).vtValid = s.vtValid := rfl
@[simp] theorem setResult_present (v : Nat) (s : State) : (setResult v s).present = s.present := rfl
@[simp] theorem setResult_fwd (v : Nat) (s : State) : (setResult v s).fwd = s.fwd := rfl
@[simp] theorem setResult_inv (v : Nat) (s : State) : (setResult v s).inv = s.inv := rfl
@[simp] theorem setResult_ft (v : Nat) (s : State) : (setResult v s).ft = s.ft := rfl
@[simp] theorem setResult_ht (v : Nat) (s : State) : (setResult v s).ht = s.ht := rfl
@[simp] theorem setResult_inbuf (v : Nat) (s : State) : (setResult v s).inbuf = s.inbuf := rfl
@[simp] theorem setResult_outbuf (v : Nat) (s : State) : (setResult v s).outbuf = s.outbuf := rfl

/-! ## buildTranslation -/

@[simp] theorem buildTranslation_cfg (vs : List Nat) (s : State) : (buildTranslation vs s).cfg = s.cfg := rfl
@[simp] theorem buildTranslation_schedule (vs : List Nat) (s : State) : (buildTranslation vs s).schedule = s.schedule := rfl
@[simp] theorem buildTranslation_bus (vs : List Nat) (s : State) : (buildTranslation vs s).bus = s.bus := rfl
@[simp] theorem buildTranslation_draws (vs : List Nat) (s : State) : (buildTranslation vs s).draws = s.draws := rfl
@[simp] theorem buildTranslation_inSeed (vs : List Nat) (s : State) : (buildTranslation vs s).inSeed = s.inSeed := rfl
@[simp] theorem buildTranslation_outSeed (vs : List Nat) (s : State) : (buildTranslation vs s).outSeed = s.outSeed := rfl
@[simp] theorem buildTranslation_pending (vs : List Nat) (s : State) : (buildTranslation vs s).pending = s.pending := rfl
@[simp] theorem buildTranslation_fault (vs : List Nat) (s : State) : (buildTranslation vs s).fault = s.fault := rfl
@[simp] theorem buildTranslation_data (vs : List Nat) (s : State) : (buildTranslation vs s).data = s.data := rfl
@[simp] theorem buildTranslation_result (vs : List Nat) (s : State) : (buildTranslation vs s).result = s.result := rfl
@[simp] theorem buildTranslation_cmdCount (vs : List Nat) (s : State) : (buildTranslation vs s).cmdCount = s.cmdCount := rfl
@[simp] theorem buildTranslation_irqEn (vs : List Nat) (s : State) : (buildTranslation vs s).irqEn = s.irqEn := rfl
@[simp] theorem buildTranslation_irqStatus (vs : List Nat) (s : State) : (buildTranslation vs s).irqStatus = s.irqStatus := rfl
@[simp] theorem buildTranslation_inLen (vs : List Nat) (s : State) : (buildTranslation vs s).inLen = s.inLen := rfl
@[simp] theorem buildTranslation_inPos (vs : List Nat) (s : State) : (buildTranslation vs s).inPos = s.inPos := rfl
@[simp] theorem buildTranslation_outPos (vs : List Nat) (s : State) : (buildTranslation vs s).outPos = s.outPos := rfl
@[simp] theorem buildTranslation_rcLow (vs : List Nat) (s : State) : (buildTranslation vs s).rcLow = s.rcLow := rfl
@[simp] theorem buildTranslation_rcHigh (vs : List Nat) (s : State) : (buildTranslation vs s).rcHigh = s.rcHigh := rfl
@[simp] theorem buildTranslation_rcCode (vs : List Nat) (s : State) : (buildTranslation vs s).rcCode = s.rcCode := rfl
@[simp] theorem buildTranslation_rcUnderflow (vs : List Nat) (s : State) : (buildTranslation vs s).rcUnderflow = s.rcUnderflow := rfl
@[simp] theorem buildTranslation_rcMode (vs : List Nat) (s : State) : (buildTranslation vs s).rcMode = s.rcMode := rfl
@[simp] theorem buildTranslation_vtDepth (vs : List Nat) (s : State) : (buildTranslation vs s).vtDepth = s.vtDepth := rfl
@[simp] theorem buildTranslation_vtCeil (vs : List Nat) (s : State) : (buildTranslation vs s).vtCeil = vs.length := rfl
@[simp] theorem buildTranslation_vtTag (vs : List Nat) (s : State) : (buildTranslation vs s).vtTag = s.vtTag := rfl
@[simp] theorem buildTranslation_vtValid (vs : List Nat) (s : State) : (buildTranslation vs s).vtValid = true := rfl
@[simp] theorem buildTranslation_present (vs : List Nat) (s : State) : (buildTranslation vs s).present = s.present := rfl
@[simp] theorem buildTranslation_ft (vs : List Nat) (s : State) : (buildTranslation vs s).ft = s.ft := rfl
@[simp] theorem buildTranslation_ht (vs : List Nat) (s : State) : (buildTranslation vs s).ht = s.ht := rfl
@[simp] theorem buildTranslation_inbuf (vs : List Nat) (s : State) : (buildTranslation vs s).inbuf = s.inbuf := rfl
@[simp] theorem buildTranslation_outbuf (vs : List Nat) (s : State) : (buildTranslation vs s).outbuf = s.outbuf := rfl

/-! ## loseResult -/

@[simp] theorem loseResult_cfg (s : State) : (loseResult s).cfg = s.cfg := rfl
@[simp] theorem loseResult_schedule (s : State) : (loseResult s).schedule = s.schedule := rfl
@[simp] theorem loseResult_bus (s : State) : (loseResult s).bus = s.bus := rfl
@[simp] theorem loseResult_inSeed (s : State) : (loseResult s).inSeed = s.inSeed := rfl
@[simp] theorem loseResult_outSeed (s : State) : (loseResult s).outSeed = s.outSeed := rfl
@[simp] theorem loseResult_pending (s : State) : (loseResult s).pending = s.pending := rfl
@[simp] theorem loseResult_fault (s : State) : (loseResult s).fault = s.fault := rfl
@[simp] theorem loseResult_data (s : State) : (loseResult s).data = s.data := rfl
@[simp] theorem loseResult_cmdCount (s : State) : (loseResult s).cmdCount = s.cmdCount := rfl
@[simp] theorem loseResult_irqEn (s : State) : (loseResult s).irqEn = s.irqEn := rfl
@[simp] theorem loseResult_irqStatus (s : State) : (loseResult s).irqStatus = s.irqStatus := rfl
@[simp] theorem loseResult_inLen (s : State) : (loseResult s).inLen = s.inLen := rfl
@[simp] theorem loseResult_inPos (s : State) : (loseResult s).inPos = s.inPos := rfl
@[simp] theorem loseResult_outPos (s : State) : (loseResult s).outPos = s.outPos := rfl
@[simp] theorem loseResult_rcLow (s : State) : (loseResult s).rcLow = s.rcLow := rfl
@[simp] theorem loseResult_rcHigh (s : State) : (loseResult s).rcHigh = s.rcHigh := rfl
@[simp] theorem loseResult_rcCode (s : State) : (loseResult s).rcCode = s.rcCode := rfl
@[simp] theorem loseResult_rcUnderflow (s : State) : (loseResult s).rcUnderflow = s.rcUnderflow := rfl
@[simp] theorem loseResult_rcMode (s : State) : (loseResult s).rcMode = s.rcMode := rfl
@[simp] theorem loseResult_vtDepth (s : State) : (loseResult s).vtDepth = s.vtDepth := rfl
@[simp] theorem loseResult_vtCeil (s : State) : (loseResult s).vtCeil = s.vtCeil := rfl
@[simp] theorem loseResult_vtTag (s : State) : (loseResult s).vtTag = s.vtTag := rfl
@[simp] theorem loseResult_vtValid (s : State) : (loseResult s).vtValid = s.vtValid := rfl
@[simp] theorem loseResult_present (s : State) : (loseResult s).present = s.present := rfl
@[simp] theorem loseResult_fwd (s : State) : (loseResult s).fwd = s.fwd := rfl
@[simp] theorem loseResult_inv (s : State) : (loseResult s).inv = s.inv := rfl
@[simp] theorem loseResult_ft (s : State) : (loseResult s).ft = s.ft := rfl
@[simp] theorem loseResult_ht (s : State) : (loseResult s).ht = s.ht := rfl
@[simp] theorem loseResult_inbuf (s : State) : (loseResult s).inbuf = s.inbuf := rfl
@[simp] theorem loseResult_outbuf (s : State) : (loseResult s).outbuf = s.outbuf := rfl

/-! ## loseInPos -/

@[simp] theorem loseInPos_cfg (s : State) : (loseInPos s).cfg = s.cfg := rfl
@[simp] theorem loseInPos_schedule (s : State) : (loseInPos s).schedule = s.schedule := rfl
@[simp] theorem loseInPos_bus (s : State) : (loseInPos s).bus = s.bus := rfl
@[simp] theorem loseInPos_inSeed (s : State) : (loseInPos s).inSeed = s.inSeed := rfl
@[simp] theorem loseInPos_outSeed (s : State) : (loseInPos s).outSeed = s.outSeed := rfl
@[simp] theorem loseInPos_pending (s : State) : (loseInPos s).pending = s.pending := rfl
@[simp] theorem loseInPos_fault (s : State) : (loseInPos s).fault = s.fault := rfl
@[simp] theorem loseInPos_data (s : State) : (loseInPos s).data = s.data := rfl
@[simp] theorem loseInPos_result (s : State) : (loseInPos s).result = s.result := rfl
@[simp] theorem loseInPos_cmdCount (s : State) : (loseInPos s).cmdCount = s.cmdCount := rfl
@[simp] theorem loseInPos_irqEn (s : State) : (loseInPos s).irqEn = s.irqEn := rfl
@[simp] theorem loseInPos_irqStatus (s : State) : (loseInPos s).irqStatus = s.irqStatus := rfl
@[simp] theorem loseInPos_inLen (s : State) : (loseInPos s).inLen = s.inLen := rfl
@[simp] theorem loseInPos_inPos (s : State) : (loseInPos s).inPos = Config.freeNat s.draws % (8 * s.inLen + 1) := rfl
@[simp] theorem loseInPos_outPos (s : State) : (loseInPos s).outPos = s.outPos := rfl
@[simp] theorem loseInPos_rcLow (s : State) : (loseInPos s).rcLow = s.rcLow := rfl
@[simp] theorem loseInPos_rcHigh (s : State) : (loseInPos s).rcHigh = s.rcHigh := rfl
@[simp] theorem loseInPos_rcCode (s : State) : (loseInPos s).rcCode = s.rcCode := rfl
@[simp] theorem loseInPos_rcUnderflow (s : State) : (loseInPos s).rcUnderflow = s.rcUnderflow := rfl
@[simp] theorem loseInPos_rcMode (s : State) : (loseInPos s).rcMode = s.rcMode := rfl
@[simp] theorem loseInPos_vtDepth (s : State) : (loseInPos s).vtDepth = s.vtDepth := rfl
@[simp] theorem loseInPos_vtCeil (s : State) : (loseInPos s).vtCeil = s.vtCeil := rfl
@[simp] theorem loseInPos_vtTag (s : State) : (loseInPos s).vtTag = s.vtTag := rfl
@[simp] theorem loseInPos_vtValid (s : State) : (loseInPos s).vtValid = s.vtValid := rfl
@[simp] theorem loseInPos_present (s : State) : (loseInPos s).present = s.present := rfl
@[simp] theorem loseInPos_fwd (s : State) : (loseInPos s).fwd = s.fwd := rfl
@[simp] theorem loseInPos_inv (s : State) : (loseInPos s).inv = s.inv := rfl
@[simp] theorem loseInPos_ft (s : State) : (loseInPos s).ft = s.ft := rfl
@[simp] theorem loseInPos_ht (s : State) : (loseInPos s).ht = s.ht := rfl
@[simp] theorem loseInPos_inbuf (s : State) : (loseInPos s).inbuf = s.inbuf := rfl
@[simp] theorem loseInPos_outbuf (s : State) : (loseInPos s).outbuf = s.outbuf := rfl

/-! ## loseOutput -/

@[simp] theorem loseOutput_cfg (s : State) : (loseOutput s).cfg = s.cfg := rfl
@[simp] theorem loseOutput_schedule (s : State) : (loseOutput s).schedule = s.schedule := rfl
@[simp] theorem loseOutput_bus (s : State) : (loseOutput s).bus = s.bus := rfl
@[simp] theorem loseOutput_inSeed (s : State) : (loseOutput s).inSeed = s.inSeed := rfl
@[simp] theorem loseOutput_pending (s : State) : (loseOutput s).pending = s.pending := rfl
@[simp] theorem loseOutput_fault (s : State) : (loseOutput s).fault = s.fault := rfl
@[simp] theorem loseOutput_data (s : State) : (loseOutput s).data = s.data := rfl
@[simp] theorem loseOutput_result (s : State) : (loseOutput s).result = s.result := rfl
@[simp] theorem loseOutput_cmdCount (s : State) : (loseOutput s).cmdCount = s.cmdCount := rfl
@[simp] theorem loseOutput_irqEn (s : State) : (loseOutput s).irqEn = s.irqEn := rfl
@[simp] theorem loseOutput_irqStatus (s : State) : (loseOutput s).irqStatus = s.irqStatus := rfl
@[simp] theorem loseOutput_inLen (s : State) : (loseOutput s).inLen = s.inLen := rfl
@[simp] theorem loseOutput_inPos (s : State) : (loseOutput s).inPos = s.inPos := rfl
@[simp] theorem loseOutput_outPos (s : State) : (loseOutput s).outPos = Config.freeNat (s.draws + 1) % (8 * s.cfg.outBytes + 1) := rfl
@[simp] theorem loseOutput_rcLow (s : State) : (loseOutput s).rcLow = s.rcLow := rfl
@[simp] theorem loseOutput_rcHigh (s : State) : (loseOutput s).rcHigh = s.rcHigh := rfl
@[simp] theorem loseOutput_rcCode (s : State) : (loseOutput s).rcCode = s.rcCode := rfl
@[simp] theorem loseOutput_rcUnderflow (s : State) : (loseOutput s).rcUnderflow = s.rcUnderflow := rfl
@[simp] theorem loseOutput_rcMode (s : State) : (loseOutput s).rcMode = s.rcMode := rfl
@[simp] theorem loseOutput_vtDepth (s : State) : (loseOutput s).vtDepth = s.vtDepth := rfl
@[simp] theorem loseOutput_vtCeil (s : State) : (loseOutput s).vtCeil = s.vtCeil := rfl
@[simp] theorem loseOutput_vtTag (s : State) : (loseOutput s).vtTag = s.vtTag := rfl
@[simp] theorem loseOutput_vtValid (s : State) : (loseOutput s).vtValid = s.vtValid := rfl
@[simp] theorem loseOutput_present (s : State) : (loseOutput s).present = s.present := rfl
@[simp] theorem loseOutput_fwd (s : State) : (loseOutput s).fwd = s.fwd := rfl
@[simp] theorem loseOutput_inv (s : State) : (loseOutput s).inv = s.inv := rfl
@[simp] theorem loseOutput_ft (s : State) : (loseOutput s).ft = s.ft := rfl
@[simp] theorem loseOutput_ht (s : State) : (loseOutput s).ht = s.ht := rfl
@[simp] theorem loseOutput_inbuf (s : State) : (loseOutput s).inbuf = s.inbuf := rfl
@[simp] theorem loseOutput_outbuf (s : State) : (loseOutput s).outbuf = [] := rfl

/-! ## loseInterval -/

@[simp] theorem loseInterval_cfg (s : State) : (loseInterval s).cfg = s.cfg := rfl
@[simp] theorem loseInterval_schedule (s : State) : (loseInterval s).schedule = s.schedule := rfl
@[simp] theorem loseInterval_bus (s : State) : (loseInterval s).bus = s.bus := rfl
@[simp] theorem loseInterval_inSeed (s : State) : (loseInterval s).inSeed = s.inSeed := rfl
@[simp] theorem loseInterval_outSeed (s : State) : (loseInterval s).outSeed = s.outSeed := rfl
@[simp] theorem loseInterval_pending (s : State) : (loseInterval s).pending = s.pending := rfl
@[simp] theorem loseInterval_fault (s : State) : (loseInterval s).fault = s.fault := rfl
@[simp] theorem loseInterval_data (s : State) : (loseInterval s).data = s.data := rfl
@[simp] theorem loseInterval_result (s : State) : (loseInterval s).result = s.result := rfl
@[simp] theorem loseInterval_cmdCount (s : State) : (loseInterval s).cmdCount = s.cmdCount := rfl
@[simp] theorem loseInterval_irqEn (s : State) : (loseInterval s).irqEn = s.irqEn := rfl
@[simp] theorem loseInterval_irqStatus (s : State) : (loseInterval s).irqStatus = s.irqStatus := rfl
@[simp] theorem loseInterval_inLen (s : State) : (loseInterval s).inLen = s.inLen := rfl
@[simp] theorem loseInterval_inPos (s : State) : (loseInterval s).inPos = s.inPos := rfl
@[simp] theorem loseInterval_outPos (s : State) : (loseInterval s).outPos = s.outPos := rfl
@[simp] theorem loseInterval_rcCode (s : State) : (loseInterval s).rcCode = s.rcCode := rfl
@[simp] theorem loseInterval_rcUnderflow (s : State) : (loseInterval s).rcUnderflow = s.rcUnderflow := rfl
@[simp] theorem loseInterval_rcMode (s : State) : (loseInterval s).rcMode = s.rcMode := rfl
@[simp] theorem loseInterval_vtDepth (s : State) : (loseInterval s).vtDepth = s.vtDepth := rfl
@[simp] theorem loseInterval_vtCeil (s : State) : (loseInterval s).vtCeil = s.vtCeil := rfl
@[simp] theorem loseInterval_vtTag (s : State) : (loseInterval s).vtTag = s.vtTag := rfl
@[simp] theorem loseInterval_vtValid (s : State) : (loseInterval s).vtValid = s.vtValid := rfl
@[simp] theorem loseInterval_present (s : State) : (loseInterval s).present = s.present := rfl
@[simp] theorem loseInterval_fwd (s : State) : (loseInterval s).fwd = s.fwd := rfl
@[simp] theorem loseInterval_inv (s : State) : (loseInterval s).inv = s.inv := rfl
@[simp] theorem loseInterval_ft (s : State) : (loseInterval s).ft = s.ft := rfl
@[simp] theorem loseInterval_ht (s : State) : (loseInterval s).ht = s.ht := rfl
@[simp] theorem loseInterval_inbuf (s : State) : (loseInterval s).inbuf = s.inbuf := rfl
@[simp] theorem loseInterval_outbuf (s : State) : (loseInterval s).outbuf = s.outbuf := rfl

/-! ## loseRcCode -/

@[simp] theorem loseRcCode_cfg (s : State) : (loseRcCode s).cfg = s.cfg := rfl
@[simp] theorem loseRcCode_schedule (s : State) : (loseRcCode s).schedule = s.schedule := rfl
@[simp] theorem loseRcCode_bus (s : State) : (loseRcCode s).bus = s.bus := rfl
@[simp] theorem loseRcCode_inSeed (s : State) : (loseRcCode s).inSeed = s.inSeed := rfl
@[simp] theorem loseRcCode_outSeed (s : State) : (loseRcCode s).outSeed = s.outSeed := rfl
@[simp] theorem loseRcCode_pending (s : State) : (loseRcCode s).pending = s.pending := rfl
@[simp] theorem loseRcCode_fault (s : State) : (loseRcCode s).fault = s.fault := rfl
@[simp] theorem loseRcCode_data (s : State) : (loseRcCode s).data = s.data := rfl
@[simp] theorem loseRcCode_result (s : State) : (loseRcCode s).result = s.result := rfl
@[simp] theorem loseRcCode_cmdCount (s : State) : (loseRcCode s).cmdCount = s.cmdCount := rfl
@[simp] theorem loseRcCode_irqEn (s : State) : (loseRcCode s).irqEn = s.irqEn := rfl
@[simp] theorem loseRcCode_irqStatus (s : State) : (loseRcCode s).irqStatus = s.irqStatus := rfl
@[simp] theorem loseRcCode_inLen (s : State) : (loseRcCode s).inLen = s.inLen := rfl
@[simp] theorem loseRcCode_inPos (s : State) : (loseRcCode s).inPos = s.inPos := rfl
@[simp] theorem loseRcCode_outPos (s : State) : (loseRcCode s).outPos = s.outPos := rfl
@[simp] theorem loseRcCode_rcLow (s : State) : (loseRcCode s).rcLow = s.rcLow := rfl
@[simp] theorem loseRcCode_rcHigh (s : State) : (loseRcCode s).rcHigh = s.rcHigh := rfl
@[simp] theorem loseRcCode_rcUnderflow (s : State) : (loseRcCode s).rcUnderflow = s.rcUnderflow := rfl
@[simp] theorem loseRcCode_rcMode (s : State) : (loseRcCode s).rcMode = s.rcMode := rfl
@[simp] theorem loseRcCode_vtDepth (s : State) : (loseRcCode s).vtDepth = s.vtDepth := rfl
@[simp] theorem loseRcCode_vtCeil (s : State) : (loseRcCode s).vtCeil = s.vtCeil := rfl
@[simp] theorem loseRcCode_vtTag (s : State) : (loseRcCode s).vtTag = s.vtTag := rfl
@[simp] theorem loseRcCode_vtValid (s : State) : (loseRcCode s).vtValid = s.vtValid := rfl
@[simp] theorem loseRcCode_present (s : State) : (loseRcCode s).present = s.present := rfl
@[simp] theorem loseRcCode_fwd (s : State) : (loseRcCode s).fwd = s.fwd := rfl
@[simp] theorem loseRcCode_inv (s : State) : (loseRcCode s).inv = s.inv := rfl
@[simp] theorem loseRcCode_ft (s : State) : (loseRcCode s).ft = s.ft := rfl
@[simp] theorem loseRcCode_ht (s : State) : (loseRcCode s).ht = s.ht := rfl
@[simp] theorem loseRcCode_inbuf (s : State) : (loseRcCode s).inbuf = s.inbuf := rfl
@[simp] theorem loseRcCode_outbuf (s : State) : (loseRcCode s).outbuf = s.outbuf := rfl

/-! ## loseUnderflow -/

@[simp] theorem loseUnderflow_cfg (s : State) : (loseUnderflow s).cfg = s.cfg := rfl
@[simp] theorem loseUnderflow_schedule (s : State) : (loseUnderflow s).schedule = s.schedule := rfl
@[simp] theorem loseUnderflow_bus (s : State) : (loseUnderflow s).bus = s.bus := rfl
@[simp] theorem loseUnderflow_inSeed (s : State) : (loseUnderflow s).inSeed = s.inSeed := rfl
@[simp] theorem loseUnderflow_outSeed (s : State) : (loseUnderflow s).outSeed = s.outSeed := rfl
@[simp] theorem loseUnderflow_pending (s : State) : (loseUnderflow s).pending = s.pending := rfl
@[simp] theorem loseUnderflow_fault (s : State) : (loseUnderflow s).fault = s.fault := rfl
@[simp] theorem loseUnderflow_data (s : State) : (loseUnderflow s).data = s.data := rfl
@[simp] theorem loseUnderflow_result (s : State) : (loseUnderflow s).result = s.result := rfl
@[simp] theorem loseUnderflow_cmdCount (s : State) : (loseUnderflow s).cmdCount = s.cmdCount := rfl
@[simp] theorem loseUnderflow_irqEn (s : State) : (loseUnderflow s).irqEn = s.irqEn := rfl
@[simp] theorem loseUnderflow_irqStatus (s : State) : (loseUnderflow s).irqStatus = s.irqStatus := rfl
@[simp] theorem loseUnderflow_inLen (s : State) : (loseUnderflow s).inLen = s.inLen := rfl
@[simp] theorem loseUnderflow_inPos (s : State) : (loseUnderflow s).inPos = s.inPos := rfl
@[simp] theorem loseUnderflow_outPos (s : State) : (loseUnderflow s).outPos = s.outPos := rfl
@[simp] theorem loseUnderflow_rcLow (s : State) : (loseUnderflow s).rcLow = s.rcLow := rfl
@[simp] theorem loseUnderflow_rcHigh (s : State) : (loseUnderflow s).rcHigh = s.rcHigh := rfl
@[simp] theorem loseUnderflow_rcCode (s : State) : (loseUnderflow s).rcCode = s.rcCode := rfl
@[simp] theorem loseUnderflow_rcMode (s : State) : (loseUnderflow s).rcMode = s.rcMode := rfl
@[simp] theorem loseUnderflow_vtDepth (s : State) : (loseUnderflow s).vtDepth = s.vtDepth := rfl
@[simp] theorem loseUnderflow_vtCeil (s : State) : (loseUnderflow s).vtCeil = s.vtCeil := rfl
@[simp] theorem loseUnderflow_vtTag (s : State) : (loseUnderflow s).vtTag = s.vtTag := rfl
@[simp] theorem loseUnderflow_vtValid (s : State) : (loseUnderflow s).vtValid = s.vtValid := rfl
@[simp] theorem loseUnderflow_present (s : State) : (loseUnderflow s).present = s.present := rfl
@[simp] theorem loseUnderflow_fwd (s : State) : (loseUnderflow s).fwd = s.fwd := rfl
@[simp] theorem loseUnderflow_inv (s : State) : (loseUnderflow s).inv = s.inv := rfl
@[simp] theorem loseUnderflow_ft (s : State) : (loseUnderflow s).ft = s.ft := rfl
@[simp] theorem loseUnderflow_ht (s : State) : (loseUnderflow s).ht = s.ht := rfl
@[simp] theorem loseUnderflow_inbuf (s : State) : (loseUnderflow s).inbuf = s.inbuf := rfl
@[simp] theorem loseUnderflow_outbuf (s : State) : (loseUnderflow s).outbuf = s.outbuf := rfl

/-! ## loseRcMode -/

@[simp] theorem loseRcMode_cfg (s : State) : (loseRcMode s).cfg = s.cfg := rfl
@[simp] theorem loseRcMode_schedule (s : State) : (loseRcMode s).schedule = s.schedule := rfl
@[simp] theorem loseRcMode_bus (s : State) : (loseRcMode s).bus = s.bus := rfl
@[simp] theorem loseRcMode_inSeed (s : State) : (loseRcMode s).inSeed = s.inSeed := rfl
@[simp] theorem loseRcMode_outSeed (s : State) : (loseRcMode s).outSeed = s.outSeed := rfl
@[simp] theorem loseRcMode_pending (s : State) : (loseRcMode s).pending = s.pending := rfl
@[simp] theorem loseRcMode_fault (s : State) : (loseRcMode s).fault = s.fault := rfl
@[simp] theorem loseRcMode_data (s : State) : (loseRcMode s).data = s.data := rfl
@[simp] theorem loseRcMode_result (s : State) : (loseRcMode s).result = s.result := rfl
@[simp] theorem loseRcMode_cmdCount (s : State) : (loseRcMode s).cmdCount = s.cmdCount := rfl
@[simp] theorem loseRcMode_irqEn (s : State) : (loseRcMode s).irqEn = s.irqEn := rfl
@[simp] theorem loseRcMode_irqStatus (s : State) : (loseRcMode s).irqStatus = s.irqStatus := rfl
@[simp] theorem loseRcMode_inLen (s : State) : (loseRcMode s).inLen = s.inLen := rfl
@[simp] theorem loseRcMode_inPos (s : State) : (loseRcMode s).inPos = s.inPos := rfl
@[simp] theorem loseRcMode_outPos (s : State) : (loseRcMode s).outPos = s.outPos := rfl
@[simp] theorem loseRcMode_rcLow (s : State) : (loseRcMode s).rcLow = s.rcLow := rfl
@[simp] theorem loseRcMode_rcHigh (s : State) : (loseRcMode s).rcHigh = s.rcHigh := rfl
@[simp] theorem loseRcMode_rcCode (s : State) : (loseRcMode s).rcCode = s.rcCode := rfl
@[simp] theorem loseRcMode_rcUnderflow (s : State) : (loseRcMode s).rcUnderflow = s.rcUnderflow := rfl
@[simp] theorem loseRcMode_vtDepth (s : State) : (loseRcMode s).vtDepth = s.vtDepth := rfl
@[simp] theorem loseRcMode_vtCeil (s : State) : (loseRcMode s).vtCeil = s.vtCeil := rfl
@[simp] theorem loseRcMode_vtTag (s : State) : (loseRcMode s).vtTag = s.vtTag := rfl
@[simp] theorem loseRcMode_vtValid (s : State) : (loseRcMode s).vtValid = s.vtValid := rfl
@[simp] theorem loseRcMode_present (s : State) : (loseRcMode s).present = s.present := rfl
@[simp] theorem loseRcMode_fwd (s : State) : (loseRcMode s).fwd = s.fwd := rfl
@[simp] theorem loseRcMode_inv (s : State) : (loseRcMode s).inv = s.inv := rfl
@[simp] theorem loseRcMode_ft (s : State) : (loseRcMode s).ft = s.ft := rfl
@[simp] theorem loseRcMode_ht (s : State) : (loseRcMode s).ht = s.ht := rfl
@[simp] theorem loseRcMode_inbuf (s : State) : (loseRcMode s).inbuf = s.inbuf := rfl
@[simp] theorem loseRcMode_outbuf (s : State) : (loseRcMode s).outbuf = s.outbuf := rfl

/-! ## loseTranslation -/

@[simp] theorem loseTranslation_cfg (s : State) : (loseTranslation s).cfg = s.cfg := rfl
@[simp] theorem loseTranslation_schedule (s : State) : (loseTranslation s).schedule = s.schedule := rfl
@[simp] theorem loseTranslation_bus (s : State) : (loseTranslation s).bus = s.bus := rfl
@[simp] theorem loseTranslation_inSeed (s : State) : (loseTranslation s).inSeed = s.inSeed := rfl
@[simp] theorem loseTranslation_outSeed (s : State) : (loseTranslation s).outSeed = s.outSeed := rfl
@[simp] theorem loseTranslation_pending (s : State) : (loseTranslation s).pending = s.pending := rfl
@[simp] theorem loseTranslation_fault (s : State) : (loseTranslation s).fault = s.fault := rfl
@[simp] theorem loseTranslation_data (s : State) : (loseTranslation s).data = s.data := rfl
@[simp] theorem loseTranslation_result (s : State) : (loseTranslation s).result = s.result := rfl
@[simp] theorem loseTranslation_cmdCount (s : State) : (loseTranslation s).cmdCount = s.cmdCount := rfl
@[simp] theorem loseTranslation_irqEn (s : State) : (loseTranslation s).irqEn = s.irqEn := rfl
@[simp] theorem loseTranslation_irqStatus (s : State) : (loseTranslation s).irqStatus = s.irqStatus := rfl
@[simp] theorem loseTranslation_inLen (s : State) : (loseTranslation s).inLen = s.inLen := rfl
@[simp] theorem loseTranslation_inPos (s : State) : (loseTranslation s).inPos = s.inPos := rfl
@[simp] theorem loseTranslation_outPos (s : State) : (loseTranslation s).outPos = s.outPos := rfl
@[simp] theorem loseTranslation_rcLow (s : State) : (loseTranslation s).rcLow = s.rcLow := rfl
@[simp] theorem loseTranslation_rcHigh (s : State) : (loseTranslation s).rcHigh = s.rcHigh := rfl
@[simp] theorem loseTranslation_rcCode (s : State) : (loseTranslation s).rcCode = s.rcCode := rfl
@[simp] theorem loseTranslation_rcUnderflow (s : State) : (loseTranslation s).rcUnderflow = s.rcUnderflow := rfl
@[simp] theorem loseTranslation_rcMode (s : State) : (loseTranslation s).rcMode = s.rcMode := rfl
@[simp] theorem loseTranslation_vtDepth (s : State) : (loseTranslation s).vtDepth = s.vtDepth := rfl
@[simp] theorem loseTranslation_vtCeil (s : State) : (loseTranslation s).vtCeil = Config.freeNat s.draws % 513 := rfl
@[simp] theorem loseTranslation_present (s : State) : (loseTranslation s).present = s.present := rfl
@[simp] theorem loseTranslation_ft (s : State) : (loseTranslation s).ft = s.ft := rfl
@[simp] theorem loseTranslation_ht (s : State) : (loseTranslation s).ht = s.ht := rfl
@[simp] theorem loseTranslation_inbuf (s : State) : (loseTranslation s).inbuf = s.inbuf := rfl
@[simp] theorem loseTranslation_outbuf (s : State) : (loseTranslation s).outbuf = s.outbuf := rfl

/-! ## losePresence -/

@[simp] theorem losePresence_cfg (s : State) : (losePresence s).cfg = s.cfg := rfl
@[simp] theorem losePresence_schedule (s : State) : (losePresence s).schedule = s.schedule := rfl
@[simp] theorem losePresence_bus (s : State) : (losePresence s).bus = s.bus := rfl
@[simp] theorem losePresence_inSeed (s : State) : (losePresence s).inSeed = s.inSeed := rfl
@[simp] theorem losePresence_outSeed (s : State) : (losePresence s).outSeed = s.outSeed := rfl
@[simp] theorem losePresence_pending (s : State) : (losePresence s).pending = s.pending := rfl
@[simp] theorem losePresence_fault (s : State) : (losePresence s).fault = s.fault := rfl
@[simp] theorem losePresence_data (s : State) : (losePresence s).data = s.data := rfl
@[simp] theorem losePresence_result (s : State) : (losePresence s).result = s.result := rfl
@[simp] theorem losePresence_cmdCount (s : State) : (losePresence s).cmdCount = s.cmdCount := rfl
@[simp] theorem losePresence_irqEn (s : State) : (losePresence s).irqEn = s.irqEn := rfl
@[simp] theorem losePresence_irqStatus (s : State) : (losePresence s).irqStatus = s.irqStatus := rfl
@[simp] theorem losePresence_inLen (s : State) : (losePresence s).inLen = s.inLen := rfl
@[simp] theorem losePresence_inPos (s : State) : (losePresence s).inPos = s.inPos := rfl
@[simp] theorem losePresence_outPos (s : State) : (losePresence s).outPos = s.outPos := rfl
@[simp] theorem losePresence_rcLow (s : State) : (losePresence s).rcLow = s.rcLow := rfl
@[simp] theorem losePresence_rcHigh (s : State) : (losePresence s).rcHigh = s.rcHigh := rfl
@[simp] theorem losePresence_rcCode (s : State) : (losePresence s).rcCode = s.rcCode := rfl
@[simp] theorem losePresence_rcUnderflow (s : State) : (losePresence s).rcUnderflow = s.rcUnderflow := rfl
@[simp] theorem losePresence_rcMode (s : State) : (losePresence s).rcMode = s.rcMode := rfl
@[simp] theorem losePresence_vtDepth (s : State) : (losePresence s).vtDepth = Config.freeNat s.draws % 10 := rfl
@[simp] theorem losePresence_vtCeil (s : State) : (losePresence s).vtCeil = s.vtCeil := rfl
@[simp] theorem losePresence_vtTag (s : State) : (losePresence s).vtTag = s.vtTag := rfl
@[simp] theorem losePresence_vtValid (s : State) : (losePresence s).vtValid = s.vtValid := rfl
@[simp] theorem losePresence_fwd (s : State) : (losePresence s).fwd = s.fwd := rfl
@[simp] theorem losePresence_inv (s : State) : (losePresence s).inv = s.inv := rfl
@[simp] theorem losePresence_ft (s : State) : (losePresence s).ft = s.ft := rfl
@[simp] theorem losePresence_ht (s : State) : (losePresence s).ht = s.ht := rfl
@[simp] theorem losePresence_inbuf (s : State) : (losePresence s).inbuf = s.inbuf := rfl
@[simp] theorem losePresence_outbuf (s : State) : (losePresence s).outbuf = s.outbuf := rfl

/-! ## loseSlot -/

@[simp] theorem loseSlot_cfg (a : BitVec 2) (s : State) : (loseSlot a s).cfg = s.cfg := rfl
@[simp] theorem loseSlot_schedule (a : BitVec 2) (s : State) : (loseSlot a s).schedule = s.schedule := rfl
@[simp] theorem loseSlot_bus (a : BitVec 2) (s : State) : (loseSlot a s).bus = s.bus := rfl
@[simp] theorem loseSlot_inSeed (a : BitVec 2) (s : State) : (loseSlot a s).inSeed = s.inSeed := rfl
@[simp] theorem loseSlot_outSeed (a : BitVec 2) (s : State) : (loseSlot a s).outSeed = s.outSeed := rfl
@[simp] theorem loseSlot_pending (a : BitVec 2) (s : State) : (loseSlot a s).pending = s.pending := rfl
@[simp] theorem loseSlot_fault (a : BitVec 2) (s : State) : (loseSlot a s).fault = s.fault := rfl
@[simp] theorem loseSlot_data (a : BitVec 2) (s : State) : (loseSlot a s).data = s.data := rfl
@[simp] theorem loseSlot_result (a : BitVec 2) (s : State) : (loseSlot a s).result = s.result := rfl
@[simp] theorem loseSlot_cmdCount (a : BitVec 2) (s : State) : (loseSlot a s).cmdCount = s.cmdCount := rfl
@[simp] theorem loseSlot_irqEn (a : BitVec 2) (s : State) : (loseSlot a s).irqEn = s.irqEn := rfl
@[simp] theorem loseSlot_irqStatus (a : BitVec 2) (s : State) : (loseSlot a s).irqStatus = s.irqStatus := rfl
@[simp] theorem loseSlot_inLen (a : BitVec 2) (s : State) : (loseSlot a s).inLen = s.inLen := rfl
@[simp] theorem loseSlot_inPos (a : BitVec 2) (s : State) : (loseSlot a s).inPos = s.inPos := rfl
@[simp] theorem loseSlot_outPos (a : BitVec 2) (s : State) : (loseSlot a s).outPos = s.outPos := rfl
@[simp] theorem loseSlot_rcLow (a : BitVec 2) (s : State) : (loseSlot a s).rcLow = s.rcLow := rfl
@[simp] theorem loseSlot_rcHigh (a : BitVec 2) (s : State) : (loseSlot a s).rcHigh = s.rcHigh := rfl
@[simp] theorem loseSlot_rcCode (a : BitVec 2) (s : State) : (loseSlot a s).rcCode = s.rcCode := rfl
@[simp] theorem loseSlot_rcUnderflow (a : BitVec 2) (s : State) : (loseSlot a s).rcUnderflow = s.rcUnderflow := rfl
@[simp] theorem loseSlot_rcMode (a : BitVec 2) (s : State) : (loseSlot a s).rcMode = s.rcMode := rfl
@[simp] theorem loseSlot_vtDepth (a : BitVec 2) (s : State) : (loseSlot a s).vtDepth = s.vtDepth := rfl
@[simp] theorem loseSlot_vtCeil (a : BitVec 2) (s : State) : (loseSlot a s).vtCeil = s.vtCeil := rfl
@[simp] theorem loseSlot_vtTag (a : BitVec 2) (s : State) : (loseSlot a s).vtTag = s.vtTag := rfl
@[simp] theorem loseSlot_vtValid (a : BitVec 2) (s : State) : (loseSlot a s).vtValid = s.vtValid := rfl
@[simp] theorem loseSlot_present (a : BitVec 2) (s : State) : (loseSlot a s).present = s.present := rfl
@[simp] theorem loseSlot_fwd (a : BitVec 2) (s : State) : (loseSlot a s).fwd = s.fwd := rfl
@[simp] theorem loseSlot_inv (a : BitVec 2) (s : State) : (loseSlot a s).inv = s.inv := rfl
@[simp] theorem loseSlot_ft (a : BitVec 2) (s : State) : (loseSlot a s).ft = s.ft := rfl
@[simp] theorem loseSlot_inbuf (a : BitVec 2) (s : State) : (loseSlot a s).inbuf = s.inbuf := rfl
@[simp] theorem loseSlot_outbuf (a : BitVec 2) (s : State) : (loseSlot a s).outbuf = s.outbuf := rfl

/-! ## writeInWord -/

@[simp] theorem writeInWord_cfg (i : Nat) (v : Word) (s : State) : (writeInWord i v s).cfg = s.cfg := rfl
@[simp] theorem writeInWord_schedule (i : Nat) (v : Word) (s : State) : (writeInWord i v s).schedule = s.schedule := rfl
@[simp] theorem writeInWord_bus (i : Nat) (v : Word) (s : State) : (writeInWord i v s).bus = s.bus := rfl
@[simp] theorem writeInWord_draws (i : Nat) (v : Word) (s : State) : (writeInWord i v s).draws = s.draws := rfl
@[simp] theorem writeInWord_inSeed (i : Nat) (v : Word) (s : State) : (writeInWord i v s).inSeed = s.inSeed := rfl
@[simp] theorem writeInWord_outSeed (i : Nat) (v : Word) (s : State) : (writeInWord i v s).outSeed = s.outSeed := rfl
@[simp] theorem writeInWord_pending (i : Nat) (v : Word) (s : State) : (writeInWord i v s).pending = s.pending := rfl
@[simp] theorem writeInWord_fault (i : Nat) (v : Word) (s : State) : (writeInWord i v s).fault = s.fault := rfl
@[simp] theorem writeInWord_data (i : Nat) (v : Word) (s : State) : (writeInWord i v s).data = s.data := rfl
@[simp] theorem writeInWord_result (i : Nat) (v : Word) (s : State) : (writeInWord i v s).result = s.result := rfl
@[simp] theorem writeInWord_cmdCount (i : Nat) (v : Word) (s : State) : (writeInWord i v s).cmdCount = s.cmdCount := rfl
@[simp] theorem writeInWord_irqEn (i : Nat) (v : Word) (s : State) : (writeInWord i v s).irqEn = s.irqEn := rfl
@[simp] theorem writeInWord_irqStatus (i : Nat) (v : Word) (s : State) : (writeInWord i v s).irqStatus = s.irqStatus := rfl
@[simp] theorem writeInWord_inLen (i : Nat) (v : Word) (s : State) : (writeInWord i v s).inLen = s.inLen := rfl
@[simp] theorem writeInWord_inPos (i : Nat) (v : Word) (s : State) : (writeInWord i v s).inPos = s.inPos := rfl
@[simp] theorem writeInWord_outPos (i : Nat) (v : Word) (s : State) : (writeInWord i v s).outPos = s.outPos := rfl
@[simp] theorem writeInWord_rcLow (i : Nat) (v : Word) (s : State) : (writeInWord i v s).rcLow = s.rcLow := rfl
@[simp] theorem writeInWord_rcHigh (i : Nat) (v : Word) (s : State) : (writeInWord i v s).rcHigh = s.rcHigh := rfl
@[simp] theorem writeInWord_rcCode (i : Nat) (v : Word) (s : State) : (writeInWord i v s).rcCode = s.rcCode := rfl
@[simp] theorem writeInWord_rcUnderflow (i : Nat) (v : Word) (s : State) : (writeInWord i v s).rcUnderflow = s.rcUnderflow := rfl
@[simp] theorem writeInWord_rcMode (i : Nat) (v : Word) (s : State) : (writeInWord i v s).rcMode = s.rcMode := rfl
@[simp] theorem writeInWord_vtDepth (i : Nat) (v : Word) (s : State) : (writeInWord i v s).vtDepth = s.vtDepth := rfl
@[simp] theorem writeInWord_vtCeil (i : Nat) (v : Word) (s : State) : (writeInWord i v s).vtCeil = s.vtCeil := rfl
@[simp] theorem writeInWord_vtTag (i : Nat) (v : Word) (s : State) : (writeInWord i v s).vtTag = s.vtTag := rfl
@[simp] theorem writeInWord_vtValid (i : Nat) (v : Word) (s : State) : (writeInWord i v s).vtValid = s.vtValid := rfl
@[simp] theorem writeInWord_present (i : Nat) (v : Word) (s : State) : (writeInWord i v s).present = s.present := rfl
@[simp] theorem writeInWord_fwd (i : Nat) (v : Word) (s : State) : (writeInWord i v s).fwd = s.fwd := rfl
@[simp] theorem writeInWord_inv (i : Nat) (v : Word) (s : State) : (writeInWord i v s).inv = s.inv := rfl
@[simp] theorem writeInWord_ft (i : Nat) (v : Word) (s : State) : (writeInWord i v s).ft = s.ft := rfl
@[simp] theorem writeInWord_ht (i : Nat) (v : Word) (s : State) : (writeInWord i v s).ht = s.ht := rfl
@[simp] theorem writeInWord_outbuf (i : Nat) (v : Word) (s : State) : (writeInWord i v s).outbuf = s.outbuf := rfl

end Sys2Proof.Machine
end

