-- ==== Sys2Proof/Laws/Stream.lean ====
section
/-! SUPPORT. What the stream primitives do, once: OutBit and emission (`spec/20_memory.md` R66), InBit and field reads
(R67), InBitZ (R68). -/

namespace Sys2Proof.Machine

/-! ## Output -/

theorem outBit_ok_iff (b : Bool) (s t : State) :
    outBit b s = .ok t ↔ s.outPos ≠ 8 * s.cfg.outBytes ∧ t = { s with
      outbuf := memWrite s.outbuf (s.outPos / 8)
        (setByteBit (outByte s (s.outPos / 8)) (7 - s.outPos % 8) b)
      outPos := s.outPos + 1 } := by
  unfold outBit
  split
  · simp_all
  · rename_i h
    simp only [Except.ok.injEq]
    exact ⟨fun e => ⟨h, e.symm⟩, fun e => e.2.symm⟩

theorem outBit_error (b : Bool) (s : State) (c : FaultCode) (h : outBit b s = .error c) :
    c = .outOverflow ∧ s.outPos = 8 * s.cfg.outBytes := by
  unfold outBit at h
  split at h
  · simp_all
  · simp at h

/-- One output bit with room for it: the bit is at the old OUTPOS and nothing else of the stream changes. -/
theorem outBit_appended (b : Bool) (s t : State) (h : outBit b s = .ok t) :
    t = { s with outbuf := t.outbuf, outPos := s.outPos + 1 } ∧ Appended s t [b] := by
  obtain ⟨-, rfl⟩ := (outBit_ok_iff b s t).1 h
  refine ⟨rfl, rfl, ?_, ?_, ?_⟩
  · intro i hi
    simp only [List.length_cons, List.length_nil, Nat.lt_one_iff, zero_add] at hi
    subst hi
    simp only [outBitAt, outByte, Nat.add_zero, memRead_memWrite, if_true, Option.getD_some]
    rw [setByteBit_getLsbD _ _ _ _ (by omega)]
    simp
  · intro a ha
    have : a ≠ s.outPos / 8 := by simp at ha; omega
    simp [outByte, memRead_memWrite, this]
  · intro p hp
    simp only [List.length_cons, List.length_nil] at hp
    simp only [outBitAt, outByte, memRead_memWrite]
    split
    · rename_i he
      rw [Option.getD_some, setByteBit_getLsbD _ _ _ _ (by omega), if_neg (by omega), he]
    · rfl

/-- What emission changes, where every bit fits. -/
theorem emit_frame (bs : List Bool) (s t : State) (h : emit bs s = .ok t) :
    t = { s with outbuf := t.outbuf, outPos := s.outPos + bs.length } := by
  induction bs generalizing s with
  | nil => simp only [emit, Except.ok.injEq] at h; subst h; simp
  | cons b bs ih =>
    simp only [emit] at h
    split at h
    · simp at h
    · rename_i u hu
      have h1 := (outBit_appended b s u hu).1
      have h2 := ih u h
      rw [h1] at h2
      simp only [] at h2
      rw [h2]
      simp only [List.length_cons]
      congr 1
      omega

theorem emit_error (bs : List Bool) (s : State) (c : FaultCode) (h : emit bs s = .error c) : c = .outOverflow := by
  induction bs generalizing s with
  | nil => simp [emit] at h
  | cons b bs ih =>
    simp only [emit] at h
    split at h
    · rename_i hu
      simp only [Except.error.injEq] at h
      subst h
      exact (outBit_error b s _ hu).1
    · exact ih _ h

/-- A byte an output bit lists stays listed. -/
theorem outBit_listed (b : Bool) (s t : State) (h : outBit b s = .ok t) (a : Nat)
    (ha : (memRead s.outbuf a).isSome ∨ a = s.outPos / 8) : (memRead t.outbuf a).isSome := by
  obtain ⟨-, rfl⟩ := (outBit_ok_iff b s t).1 h
  simp only [memRead_memWrite]
  split
  · rfl
  · rename_i hne
    exact ha.resolve_right hne

/-- Emission appends its bits to the output stream. -/
theorem emit_appended (bs : List Bool) (s t : State) (h : emit bs s = .ok t) : Appended s t bs := by
  induction bs generalizing s with
  | nil =>
    simp only [emit, Except.ok.injEq] at h
    subst h
    exact ⟨by simp, fun i hi => by simp at hi, fun _ _ => rfl, fun _ _ => rfl⟩
  | cons b bs ih =>
    simp only [emit] at h
    split at h
    · simp at h
    rename_i u hu
    obtain ⟨hpos, hnew, hfar, hold⟩ := (outBit_appended b s u hu).2
    obtain ⟨hpos', hnew', hfar', hold'⟩ := ih u h
    simp only [List.length_cons, List.length_nil] at hpos hpos' hfar hfar' hold ⊢
    refine ⟨by simp only [List.length_cons]; omega, ?_, ?_, ?_⟩
    · intro i hi
      cases i with
      | zero =>
        have h0 := hold' s.outPos (.inl (by omega))
        rw [Nat.add_zero, h0]
        have := hnew 0 (by simp)
        simpa using this
      | succ i =>
        have := hnew' i (by simpa using hi)
        rw [hpos] at this
        have e : s.outPos + (i + 1) = s.outPos + (0 + 1) + i := by omega
        rw [e, this]
        simp
    · intro a ha
      simp only [List.length_cons] at ha
      rw [hfar' a (by omega), hfar a (by omega)]
    · intro p hp
      simp only [List.length_cons] at hp
      rw [hold' p (by omega), hold p (by omega)]

/-- Emission with room for every bit ends without a fault. -/
theorem emit_room (bs : List Bool) (s : State) (h : OutputRoom s bs.length) : ∃ t, emit bs s = .ok t := by
  induction bs generalizing s with
  | nil => exact ⟨s, rfl⟩
  | cons b bs ih =>
    simp only [OutputRoom, List.length_cons] at h
    have hne : s.outPos ≠ 8 * s.cfg.outBytes := by omega
    have hb := (outBit_ok_iff b s _).2 ⟨hne, rfl⟩
    simp only [emit, hb]
    exact ih _ (by simp only [OutputRoom]; omega)

/-- Emission from a stream position in range stays in range, so what it wrote had room. -/
theorem emit_in_room (bs : List Bool) (s t : State) (h : emit bs s = .ok t) (hr : s.outPos ≤ 8 * s.cfg.outBytes) :
    OutputRoom s bs.length := by
  induction bs generalizing s with
  | nil => simpa [OutputRoom] using hr
  | cons b bs ih =>
    simp only [emit] at h
    split at h
    · simp at h
    rename_i u hu
    obtain ⟨hne, rfl⟩ := (outBit_ok_iff b s u).1 hu
    have := ih _ h (by simp only []; omega)
    simp only [OutputRoom, List.length_cons] at this ⊢
    omega

/-- Emission keeps the buffers' form. -/
theorem emit_formed (bs : List Bool) (s t : State) (h : emit bs s = .ok t) (hr : s.outPos ≤ 8 * s.cfg.outBytes)
    (hf : BuffersFormed s) : BuffersFormed t := by
  induction bs generalizing s with
  | nil => simp only [emit, Except.ok.injEq] at h; subst h; exact hf
  | cons b bs ih =>
    simp only [emit] at h
    split at h
    · simp at h
    rename_i u hu
    obtain ⟨hne, rfl⟩ := (outBit_ok_iff b s u).1 hu
    refine ih _ h (by simp only []; omega) ⟨hf.1, memWrite_wf _ _ _ hf.2.1, hf.2.2.1, ?_⟩
    exact memWrite_bound _ _ _ _ (by simp only []; omega) hf.2.2.2

/-- Emission keeps every byte below OUTPOS written. -/
theorem emit_written (bs : List Bool) (s t : State) (h : emit bs s = .ok t) (hw : OutputWritten s) :
    OutputWritten t := by
  induction bs generalizing s with
  | nil => simp only [emit, Except.ok.injEq] at h; subst h; exact hw
  | cons b bs ih =>
    simp only [emit] at h
    split at h
    · simp at h
    rename_i u hu
    refine ih _ h fun a ha => outBit_listed b s u hu a ?_
    have hp := (outBit_appended b s u hu).2.1
    simp only [List.length_cons, List.length_nil] at hp
    by_cases h8 : 8 * a < s.outPos
    · exact .inl (hw a h8)
    · exact .inr (by omega)

theorem emit_append (xs ys : List Bool) (s : State) :
    emit (xs ++ ys) s = match emit xs s with
      | .error c => .error c
      | .ok t => emit ys t := by
  induction xs generalizing s with
  | nil => rfl
  | cons b xs ih =>
    simp only [List.cons_append, emit]
    cases outBit b s with
    | error c => rfl
    | ok t => exact ih t

theorem emitRepeated_eq (b : Bool) (n : Nat) (s : State) : emitRepeated b n s = emit (List.replicate n b) s := by
  induction n generalizing s with
  | zero => rfl
  | succ n ih =>
    simp only [emitRepeated, List.replicate_succ, emit]
    cases outBit b s with
    | error c => rfl
    | ok t => exact ih t

/-! ## Input -/

theorem inputHolds_nil (s : State) (p : Nat) (h : p ≤ 8 * s.inLen) : InputHolds s p [] :=
  ⟨by simpa using h, fun i hi => by simp at hi⟩

theorem inputHolds_cons (s : State) (p : Nat) (b : Bool) (bs : List Bool) :
    InputHolds s p (b :: bs) ↔ p < 8 * s.inLen ∧ inBitAt s p = b ∧ InputHolds s (p + 1) bs := by
  constructor
  · rintro ⟨hl, hb⟩
    simp only [List.length_cons] at hl hb
    refine ⟨by omega, by simpa using hb 0 (by omega), by omega, fun i hi => ?_⟩
    have := hb (i + 1) (by omega)
    simpa [Nat.add_assoc, Nat.add_comm 1 i] using this
  · rintro ⟨hl, hb, hl', hbs⟩
    refine ⟨by simp only [List.length_cons]; omega, fun i hi => ?_⟩
    cases i with
    | zero => simpa using hb
    | succ i =>
      have := hbs i (by simpa using hi)
      simpa [Nat.add_assoc, Nat.add_comm 1 i] using this

theorem inputHolds_append (s : State) (p : Nat) (xs ys : List Bool) :
    InputHolds s p (xs ++ ys) ↔ InputHolds s p xs ∧ InputHolds s (p + xs.length) ys := by
  induction xs generalizing p with
  | nil =>
    refine ⟨fun h => ⟨inputHolds_nil s p ?_, by simpa using h⟩, fun h => by simpa using h.2⟩
    have := h.1
    omega
  | cons b xs ih =>
    simp only [List.cons_append, inputHolds_cons, ih, List.length_cons]
    have e : p + 1 + xs.length = p + (xs.length + 1) := by omega
    rw [e]
    tauto

/-- InBit reads the bit the input stream holds. -/
theorem inBit_holds {s : State} {p : Nat} {b : Bool} {bs : List Bool} (h : InputHolds s p (b :: bs)) :
    inBit s p = .ok (b, p + 1) := by
  obtain ⟨hl, hb, -⟩ := (inputHolds_cons s p b bs).1 h
  rw [inBit, if_neg (by omega), hb]

/-- A field read gives the number the input stream holds. -/
theorem inBits_holds {s : State} {bs : List Bool} {v p : Nat} (h : InputHolds s p bs) :
    inBits s bs.length v p = .ok (bitsNat v bs, p + bs.length) := by
  induction bs generalizing v p with
  | nil => rfl
  | cons b bs ih =>
    simp only [List.length_cons, inBits, inBit_holds h, ih ((inputHolds_cons s p b bs).1 h).2.2]
    simp [bitsNat, Nat.add_comm, Nat.add_left_comm]

/-- Every strict read answers a position in the input stream, or that the input is truncated. -/
theorem inBit_cases (s : State) (p : Nat) (hp : p ≤ 8 * s.inLen) :
    inBit s p = .error .fmtTruncated ∨ (p + 1 ≤ 8 * s.inLen ∧ inBit s p = .ok (inBitAt s p, p + 1)) := by
  unfold inBit
  split
  · exact .inl rfl
  · exact .inr ⟨by omega, rfl⟩

theorem inBits_pos (s : State) (n v p w q : Nat) (hp : p ≤ 8 * s.inLen) (h : inBits s n v p = .ok (w, q)) :
    q = p + n ∧ q ≤ 8 * s.inLen := by
  induction n generalizing v p with
  | zero => simp only [inBits, Except.ok.injEq, Prod.mk.injEq] at h; omega
  | succ n ih =>
    rw [inBits] at h
    rcases inBit_cases s p hp with hb | ⟨hq, hb⟩ <;> rw [hb] at h
    · simp at h
    · have := ih _ (p + 1) hq h
      omega

theorem inBits_error (s : State) (n v p : Nat) (c : FaultCode) (h : inBits s n v p = .error c) : c = .fmtTruncated := by
  induction n generalizing v p with
  | zero => simp [inBits] at h
  | succ n ih =>
    rw [inBits] at h
    unfold inBit at h
    split at h
    · rename_i hb
      split at hb
      · simp_all
      · simp at hb
    · exact ih _ _ h

/-- InBitZ never leaves the input stream. -/
theorem inBitZ_pos (s : State) (p : Nat) (hp : p ≤ 8 * s.inLen) :
    p ≤ (inBitZ s p).2 ∧ (inBitZ s p).2 ≤ 8 * s.inLen := by
  unfold inBitZ
  split <;> simp only [] <;> omega

end Sys2Proof.Machine
end

