-- ==== Sys2Proof/Laws/RangeCoder.lean ====
section
/-! SUPPORT. The interval arithmetic of the range coder over Nat, and what renormalization does to the interval
(`spec/41_range_coder.md` R123, R124, R135): it ends, within its bounds, in a valid interval. -/

namespace Sys2Proof.Machine

/-! ## 31-bit arithmetic -/

theorem rcHalf_getLsbD : ∀ i < 31, rcHalf.getLsbD i = decide (i = 30) := by decide

theorem rcQuarter_getLsbD : ∀ i < 31, rcQuarter.getLsbD i = decide (i = 29) := by decide

/-- Bit 30 says whether a 31-bit value is at least HALF. -/
theorem bit30_iff (v : BitVec 31) : v.getLsbD 30 = decide (2 ^ 30 ≤ v.toNat) := by
  have hv := v.isLt
  rw [← BitVec.testBit_toNat, Nat.testBit_eq_decide_div_mod_eq]
  apply decide_eq_decide.2
  omega

theorem bit29_iff (v : BitVec 31) : v.getLsbD 29 = decide (v.toNat / 2 ^ 29 % 2 = 1) := by
  rw [← BitVec.testBit_toNat, Nat.testBit_eq_decide_div_mod_eq]

/-- The first loop's condition (R123): both values are below HALF, or neither is. -/
theorem sameTop_iff (l h : BitVec 31) :
    (l ^^^ h) &&& rcHalf = 0 ↔ (2 ^ 30 ≤ l.toNat ↔ 2 ^ 30 ≤ h.toNat) := by
  have key : (l ^^^ h) &&& rcHalf = 0 ↔ l.getLsbD 30 = h.getLsbD 30 := by
    constructor
    · intro e
      have := congrArg (fun v => v.getLsbD 30) e
      simp only [BitVec.getLsbD_and, BitVec.getLsbD_xor, rcHalf_getLsbD 30 (by omega)] at this
      revert this
      cases l.getLsbD 30 <;> cases h.getLsbD 30 <;> simp
    · intro e
      apply BitVec.eq_of_getLsbD_eq
      intro i hi
      simp only [BitVec.getLsbD_and, BitVec.getLsbD_xor, rcHalf_getLsbD i hi]
      by_cases h30 : i = 30
      · subst h30
        rw [e]
        cases h.getLsbD 30 <;> rfl
      · simp [h30]
  rw [key, bit30_iff, bit30_iff, decide_eq_decide]

/-- The second loop's condition (R124): bit 29 is 1 in low and 0 in high. -/
theorem straddles_iff (l h : BitVec 31) :
    l &&& ~~~h &&& rcQuarter ≠ 0 ↔ (l.toNat / 2 ^ 29 % 2 = 1 ∧ h.toNat / 2 ^ 29 % 2 = 0) := by
  have key : l &&& ~~~h &&& rcQuarter = 0 ↔ (l.getLsbD 29 && !h.getLsbD 29) = false := by
    constructor
    · intro e
      have := congrArg (fun v => v.getLsbD 29) e
      simp only [BitVec.getLsbD_and, BitVec.getLsbD_not, rcQuarter_getLsbD 29 (by omega)] at this
      revert this
      cases l.getLsbD 29 <;> cases h.getLsbD 29 <;> simp
    · intro e
      apply BitVec.eq_of_getLsbD_eq
      intro i hi
      simp only [BitVec.getLsbD_and, BitVec.getLsbD_not, rcQuarter_getLsbD i hi]
      by_cases h29 : i = 29
      · subst h29
        revert e
        cases l.getLsbD 29 <;> cases h.getLsbD 29 <;> simp
      · simp [h29]
  rw [ne_eq, not_congr key, bit29_iff, bit29_iff]
  simp

theorem shl1_toNat (v : BitVec 31) : (v <<< 1).toNat = 2 * v.toNat % 2 ^ 31 := by
  simp [BitVec.toNat_shiftLeft, Nat.shiftLeft_eq, Nat.mul_comm]

/-- Or-ing a bit into a value with bit 0 clear adds it. -/
theorem shl1_or_toNat (v : BitVec 31) (b : Bool) :
    (v <<< 1 ||| (BitVec.ofBool b).setWidth 31).toNat = 2 * v.toNat % 2 ^ 31 + b.toNat := by
  cases b
  · simp [BitVec.toNat_shiftLeft, Nat.shiftLeft_eq, Nat.mul_comm]
  · have h : (v <<< 1 ||| (BitVec.ofBool true).setWidth 31) = v <<< 1 + 1 := by
      rw [show ((BitVec.ofBool true).setWidth 31 : BitVec 31) = 1 from rfl]
      symm
      apply BitVec.add_eq_or_of_and_eq_zero
      apply BitVec.eq_of_getLsbD_eq
      intro i hi
      cases i <;> simp
    rw [h, BitVec.toNat_add, shl1_toNat]
    simp
    omega

theorem shl1_or_one_toNat (v : BitVec 31) : (v <<< 1 ||| 1).toNat = 2 * v.toNat % 2 ^ 31 + 1 := shl1_or_toNat v true

/-- Flipping bit 30. -/
theorem xor_half_toNat (v : BitVec 31) :
    (v ^^^ rcHalf).toNat = if 2 ^ 30 ≤ v.toNat then v.toNat - 2 ^ 30 else v.toNat + 2 ^ 30 := by
  have hv := v.isLt
  split
  · rename_i h
    have e : v ^^^ rcHalf = v - rcHalf := by
      have : v = (v - rcHalf) + rcHalf := by simp
      have hz : (v - rcHalf) &&& rcHalf = 0 := by
        apply BitVec.eq_of_getLsbD_eq
        intro i hi
        simp only [BitVec.getLsbD_and, rcHalf_getLsbD i hi]
        by_cases h30 : i = 30
        · subst h30
          rw [bit30_iff]
          have : (v - rcHalf).toNat = v.toNat - 2 ^ 30 := by
            rw [BitVec.toNat_sub]; simp [rcHalf]; omega
          rw [this]
          simp
          omega
        · simp [h30]
      have ho := BitVec.add_eq_or_of_and_eq_zero _ _ hz
      apply BitVec.eq_of_getLsbD_eq
      intro i hi
      have h1 := congrArg (fun w => w.getLsbD i) this
      have h2 := congrArg (fun w => w.getLsbD i) ho
      have h3 := congrArg (fun w => w.getLsbD i) hz
      simp only [BitVec.getLsbD_or, BitVec.getLsbD_and] at h1 h2 h3
      rw [BitVec.getLsbD_xor, h1, h2]
      revert h3
      cases (v - rcHalf).getLsbD i <;> cases rcHalf.getLsbD i <;> simp
    rw [e, BitVec.toNat_sub]
    simp [rcHalf]
    omega
  · rename_i h
    have hz : v &&& rcHalf = 0 := by
      apply BitVec.eq_of_getLsbD_eq
      intro i hi
      simp only [BitVec.getLsbD_and, rcHalf_getLsbD i hi]
      by_cases h30 : i = 30
      · subst h30; rw [bit30_iff]; simp; omega
      · simp [h30]
    have e : v ^^^ rcHalf = v + rcHalf := by
      rw [BitVec.add_eq_or_of_and_eq_zero _ _ hz]
      apply BitVec.eq_of_getLsbD_eq
      intro i hi
      have h3 := congrArg (fun w => w.getLsbD i) hz
      simp only [BitVec.getLsbD_and] at h3
      simp only [BitVec.getLsbD_xor, BitVec.getLsbD_or]
      revert h3
      cases v.getLsbD i <;> cases rcHalf.getLsbD i <;> simp
    rw [e, BitVec.toNat_add]
    simp [rcHalf]
    omega

/-- Setting bit 30. -/
theorem or_half_toNat (v : BitVec 31) (h : v.toNat < 2 ^ 30) : (v ||| rcHalf).toNat = v.toNat + 2 ^ 30 := by
  have hz : v &&& rcHalf = 0 := by
    apply BitVec.eq_of_getLsbD_eq
    intro i hi
    simp only [BitVec.getLsbD_and, rcHalf_getLsbD i hi]
    by_cases h30 : i = 30
    · subst h30; rw [bit30_iff]; simp; omega
    · simp [h30]
  rw [← BitVec.add_eq_or_of_and_eq_zero _ _ hz, BitVec.toNat_add]
  simp [rcHalf]
  omega

/-! ## One iteration of each loop, over Nat -/

/-- The interval a first-loop iteration leaves (R123). -/
theorem shift_interval (l h : BitVec 31) :
    (l <<< 1).toNat = 2 * l.toNat % 2 ^ 31 ∧ (h <<< 1 ||| 1).toNat = 2 * h.toNat % 2 ^ 31 + 1 :=
  ⟨shl1_toNat l, shl1_or_one_toNat h⟩

/-- The interval a second-loop iteration leaves (R124), from low in [QUARTER, HALF) and high in [HALF, 3·QUARTER). -/
theorem underflow_interval (l h : BitVec 31) (hl : 2 ^ 29 ≤ l.toNat ∧ l.toNat < 2 ^ 30)
    (hh : 2 ^ 30 ≤ h.toNat ∧ h.toNat < 3 * 2 ^ 29) :
    (l <<< 1 ^^^ rcHalf).toNat = 2 * l.toNat - 2 ^ 30 ∧
      ((h ^^^ rcHalf) <<< 1 ||| rcHalf ||| 1).toNat = 2 * h.toNat - 2 ^ 30 + 1 := by
  constructor
  · rw [xor_half_toNat, shl1_toNat]
    split <;> omega
  · have hx : (h ^^^ rcHalf).toNat = h.toNat - 2 ^ 30 := by rw [xor_half_toNat, if_pos hh.1]
    have hs : ((h ^^^ rcHalf) <<< 1 ||| 1).toNat = 2 * (h.toNat - 2 ^ 30) + 1 := by
      rw [shl1_or_one_toNat, hx]; omega
    have e : (h ^^^ rcHalf) <<< 1 ||| rcHalf ||| (1 : BitVec 31) = ((h ^^^ rcHalf) <<< 1 ||| (1 : BitVec 31)) ||| rcHalf := by
      rw [BitVec.or_assoc, BitVec.or_comm rcHalf, ← BitVec.or_assoc]
    rw [e, or_half_toNat _ (by omega), hs]
    omega

/-! ## Renormalization -/

/-- An action of the coder that leaves the interval alone, as every action of R125-R128 does. -/
def KeepsInterval (act : State → Except FaultCode State) : Prop :=
  ∀ s t, act s = .ok t → t.rcLow = s.rcLow ∧ t.rcHigh = s.rcHigh

/-- The first loop ends with bit 30 different (R123, R135): an interval of width w doubles its width each iteration, so
`n` iterations with `2^31 ≤ w·2^n` are enough. -/
theorem rcShiftLoop_interval (act : State → Except FaultCode State) (ha : KeepsInterval act) (n : Nat) (s t : State)
    (h : rcShiftLoop act n s = .ok t) (hle : s.rcLow.toNat ≤ s.rcHigh.toNat)
    (hw : 2 ^ 31 ≤ (s.rcHigh.toNat - s.rcLow.toNat + 1) * 2 ^ n) :
    t.rcLow.toNat < 2 ^ 30 ∧ 2 ^ 30 ≤ t.rcHigh.toNat := by
  induction n generalizing s with
  | zero =>
    simp only [rcShiftLoop, Except.ok.injEq] at h
    subst h
    have := s.rcHigh.isLt
    omega
  | succ n ih =>
    rw [rcShiftLoop] at h
    split at h
    · rename_i hc
      rw [sameTop_iff] at hc
      split at h
      · simp at h
      · rename_i u hu
        obtain ⟨e1, e2⟩ := ha s u hu
        obtain ⟨i1, i2⟩ := shift_interval s.rcLow s.rcHigh
        have hL := s.rcLow.isLt
        have hH := s.rcHigh.isLt
        refine ih _ h ?_ ?_
        · simp only []
          rw [e1, e2, i1, i2]
          omega
        · simp only []
          rw [e1, e2, i1, i2]
          have hd : 2 * s.rcHigh.toNat % 2 ^ 31 + 1 - 2 * s.rcLow.toNat % 2 ^ 31 + 1
              = 2 * (s.rcHigh.toNat - s.rcLow.toNat + 1) := by omega
          rw [hd, Nat.mul_comm 2, Nat.mul_assoc, ← Nat.pow_succ']
          exact hw
    · rename_i hc
      rw [sameTop_iff] at hc
      simp only [Except.ok.injEq] at h
      subst h
      omega

/-- The second loop ends with bit 29 not straddling (R124, R135). -/
theorem rcUnderflowLoop_interval (act : State → Except FaultCode State) (ha : KeepsInterval act) (n : Nat) (s t : State)
    (h : rcUnderflowLoop act n s = .ok t) (hl : s.rcLow.toNat < 2 ^ 30) (hh : 2 ^ 30 ≤ s.rcHigh.toNat)
    (hw : 2 ^ 31 ≤ (s.rcHigh.toNat - s.rcLow.toNat + 1) * 2 ^ n) :
    t.rcLow.toNat < 2 ^ 30 ∧ 2 ^ 30 ≤ t.rcHigh.toNat ∧ (t.rcLow.toNat < 2 ^ 29 ∨ 3 * 2 ^ 29 ≤ t.rcHigh.toNat) := by
  induction n generalizing s with
  | zero =>
    simp only [rcUnderflowLoop, Except.ok.injEq] at h
    subst h
    have := s.rcHigh.isLt
    omega
  | succ n ih =>
    rw [rcUnderflowLoop] at h
    split at h
    · rename_i hc
      rw [straddles_iff] at hc
      split at h
      · simp at h
      · rename_i u hu
        obtain ⟨e1, e2⟩ := ha s u hu
        have hH := s.rcHigh.isLt
        obtain ⟨i1, i2⟩ := underflow_interval s.rcLow s.rcHigh (by omega) (by omega)
        refine ih _ h ?_ ?_ ?_
        · simp only []; rw [e1, i1]; omega
        · simp only []; rw [e2, i2]; omega
        · simp only []
          rw [e1, e2, i1, i2]
          have hd : 2 * s.rcHigh.toNat - 2 ^ 30 + 1 - (2 * s.rcLow.toNat - 2 ^ 30) + 1
              = 2 * (s.rcHigh.toNat - s.rcLow.toNat + 1) := by omega
          rw [hd, Nat.mul_comm 2, Nat.mul_assoc, ← Nat.pow_succ']
          exact hw
    · rename_i hc
      rw [straddles_iff] at hc
      simp only [Except.ok.injEq] at h
      subst h
      have hH := s.rcHigh.isLt
      omega

/-- Renormalization of any interval with `low ≤ high` that ends without a fault ends in an interval whose range is legal
(R135). -/
theorem rcRenormalize_interval (shift underflow : State → Except FaultCode State) (hs : KeepsInterval shift)
    (hu : KeepsInterval underflow) (s t : State) (h : rcRenormalize shift underflow s = .ok t)
    (hle : s.rcLow.toNat ≤ s.rcHigh.toNat) :
    t.rcLow.toNat < t.rcHigh.toNat ∧ rcMinRange ≤ rcRange t ∧ rcRange t ≤ rcFull := by
  rw [rcRenormalize] at h
  split at h
  · simp at h
  · rename_i u hu'
    obtain ⟨a1, a2⟩ := rcShiftLoop_interval shift hs 31 s u hu' hle (by omega)
    obtain ⟨b1, b2, b3⟩ := rcUnderflowLoop_interval underflow hu 30 u t h a1 a2 (by omega)
    have hH := t.rcHigh.isLt
    simp only [rcRange, rcMinRange, rcFull]
    omega

/-! ## The actions -/

/-- What the encoder's Shift writes (R125): the top bit, then the pending complements. -/
theorem encShift_spec (s t : State) (h : encShift s = .ok t) :
    let bs := s.rcLow.getLsbD 30 :: List.replicate s.rcUnderflow.toNat (!s.rcLow.getLsbD 30)
    t = { s with outbuf := t.outbuf, outPos := s.outPos + bs.length, rcUnderflow := 0 } ∧
      ∃ u, emit bs s = .ok u ∧ t = { u with rcUnderflow := 0 } := by
  simp only [encShift, emitRepeated_eq] at h
  have he : emit (s.rcLow.getLsbD 30 :: List.replicate s.rcUnderflow.toNat (!s.rcLow.getLsbD 30)) s =
      match outBit (s.rcLow.getLsbD 30) s with
      | .error c => .error c
      | .ok t => emit (List.replicate s.rcUnderflow.toNat (!s.rcLow.getLsbD 30)) t := rfl
  split at h
  · simp at h
  · rename_i v hv
    split at h
    · simp at h
    · rename_i u hu
      simp only [Except.ok.injEq] at h
      subst h
      have hvu : (emit (s.rcLow.getLsbD 30 :: List.replicate s.rcUnderflow.toNat (!s.rcLow.getLsbD 30)) s) = .ok u := by
        rw [he, hv]; exact hu
      have hf := emit_frame _ _ _ hvu
      refine ⟨?_, u, hvu, rfl⟩
      rw [hf]

theorem encShift_keeps : KeepsInterval encShift := by
  intro s t h
  have := (encShift_spec s t h).1
  rw [this]
  exact ⟨rfl, rfl⟩

theorem encUnderflow_spec (s t : State) (h : encUnderflow s = .ok t) :
    s.rcUnderflow.toNat ≠ 2 ^ 32 - 1 ∧ t = { s with rcUnderflow := s.rcUnderflow + 1 } := by
  unfold encUnderflow at h
  split at h
  · simp at h
  · rename_i hn
    simp only [Except.ok.injEq] at h
    exact ⟨hn, h.symm⟩

theorem encUnderflow_keeps : KeepsInterval encUnderflow := by
  intro s t h
  rw [(encUnderflow_spec s t h).2]
  exact ⟨rfl, rfl⟩

theorem decShift_keeps : KeepsInterval decShift := by
  intro s t h
  simp only [decShift, Except.ok.injEq] at h
  subst h
  exact ⟨rfl, rfl⟩

theorem decUnderflow_keeps : KeepsInterval decUnderflow := by
  intro s t h
  simp only [decUnderflow, Except.ok.injEq] at h
  subst h
  exact ⟨rfl, rfl⟩

end Sys2Proof.Machine
end

