-- ==== Sys2Proof/Laws/RangeDecoder.lean ====
section
/-! SUPPORT. The range decoder keeps `low ≤ code ≤ high` through narrowing and renormalization
(`spec/41_range_coder.md` R133, R135), and the arithmetic of narrowing (R122, R134). -/

namespace Sys2Proof.Machine

/-! ## Sums of counts (R100) -/

theorem sumCounts_append (xs ys : List Word) : sumCounts (xs ++ ys) = sumCounts xs + sumCounts ys := by
  simp [sumCounts]

theorem sumCounts_take_succ (l : List Word) (x : Nat) :
    sumCounts (l.take (x + 1)) = sumCounts (l.take x) + (l[x]?.getD 0).toNat := by
  rw [List.take_add_one, sumCounts_append]
  cases l[x]? <;> simp [sumCounts]

theorem sumCounts_take_le (c : List Word) (x : Nat) : sumCounts (c.take x) ≤ sumCounts c := by
  conv_rhs => rw [← List.take_append_drop x c, sumCounts_append]
  omega

/-- `High(t, x) = Low(t, x + 1)`. -/
theorem high_eq_low_succ (s : State) (t : BitVec 2) (x : Nat) : high s t x = low s t (x + 1) := by
  rw [low, sumCounts_take_succ]
  rfl

theorem low_le_high (s : State) (t : BitVec 2) (x : Nat) : low s t x ≤ high s t x := by simp [high]

theorem high_le_total (s : State) (t : BitVec 2) (x : Nat) : high s t x ≤ total s t := by
  rw [high_eq_low_succ]
  exact sumCounts_take_le _ _

theorem low_mono (s : State) (t : BitVec 2) {x y : Nat} (h : x ≤ y) : low s t x ≤ low s t y := by
  induction h with
  | refl => exact Nat.le_refl _
  | step _ ih => exact ih.trans (by rw [← high_eq_low_succ]; exact low_le_high _ _ _)

theorem low_limit (s : State) (t : BitVec 2) : low s t (limit s t) = total s t := by
  simp [low, limit, total]

/-- Every value below Total is in the interval of one symbol below the limit (R138). -/
theorem exists_symbol (s : State) (t : BitVec 2) (v : Nat) (h : v < total s t) :
    ∃ x, x < limit s t ∧ low s t x ≤ v ∧ v < high s t x := by
  have aux : ∀ n, v < low s t n → ∃ x, x < n ∧ low s t x ≤ v ∧ v < high s t x := by
    intro n
    induction n with
    | zero => intro hn; simp [low, sumCounts] at hn
    | succ n ih =>
      intro hn
      by_cases hv : v < low s t n
      · obtain ⟨x, hx, h1⟩ := ih hv
        exact ⟨x, by omega, h1⟩
      · exact ⟨n, by omega, by omega, by rw [high_eq_low_succ]; exact hn⟩
  exact aux _ (by rw [low_limit]; exact h)

/-- No value is in two symbols' intervals (R138). -/
theorem symbol_unique (s : State) (t : BitVec 2) (v x y : Nat) (hx : low s t x ≤ v ∧ v < high s t x)
    (hy : low s t y ≤ v ∧ v < high s t y) : x = y := by
  rcases Nat.lt_trichotomy x y with h | h | h
  · have := low_mono s t (show x + 1 ≤ y from h)
    rw [← high_eq_low_succ] at this
    omega
  · exact h
  · have := low_mono s t (show y + 1 ≤ x from h)
    rw [← high_eq_low_succ] at this
    omega

/-- The symbol search finds the symbol whose interval holds the value (R133, R138). -/
theorem symbolAt_eq (s : State) (t : BitVec 2) (v : Nat) (x : Nat) (hx : x < limit s t)
    (h : low s t x ≤ v ∧ v < high s t x) : symbolAt t (v : Int) s = some x := by
  have hp : ∀ y, ((low s t y : Int) ≤ (v : Int) ∧ (v : Int) < (high s t y : Int)) ↔
      (low s t y ≤ v ∧ v < high s t y) := by intro y; omega
  rw [symbolAt]
  simp only [hp]
  cases hf : (List.range (limit s t)).find? (fun y => decide (low s t y ≤ v ∧ v < high s t y)) with
  | none =>
    rw [List.find?_eq_none] at hf
    exact absurd h (by simpa using hf x (List.mem_range.2 hx))
  | some y =>
    have := List.find?_some hf
    simp only [decide_eq_true_eq] at this
    rw [symbol_unique s t v y x this h]

/-! ## Narrowing (R122) -/

/-- A 31-bit value is within MASK. -/
theorem and_rcMask (v : BitVec 31) : v.toNat &&& rcMask.toNat = v.toNat := by
  have h : rcMask.toNat = 2 ^ 31 - 1 := by decide
  rw [h, Nat.and_two_pow_sub_one_eq_mod, Nat.mod_eq_of_lt v.isLt]

/-- The checks of R121 pass in a valid state. -/
theorem rcCheckState_valid (s : State) (h : CoderValid s) : rcCheckState s = none := by
  obtain ⟨h1, h2, h3, -⟩ := h
  unfold rcCheckState
  rw [if_neg (by omega), if_neg (by simp only [and_rcMask]; simp), if_neg (by tauto)]

/-- The narrowed interval: inside the old one, and not empty (R134, R135). -/
theorem narrow_bounds {lo hi rng sl sh tot : Nat} (hr : rng = hi - lo + 1) (hlh : lo ≤ hi) (h1 : sl < sh) (h2 : sh ≤ tot)
    (h3 : tot ≤ rng) :
    lo + sl * rng / tot ≤ lo + sh * rng / tot - 1 ∧ lo + sh * rng / tot - 1 ≤ hi := by
  have ht : 0 < tot := by omega
  have ha : sh * rng / tot ≤ rng := by
    calc sh * rng / tot ≤ tot * rng / tot := Nat.div_le_div_right (Nat.mul_le_mul_right _ h2)
      _ = rng := Nat.mul_div_cancel_left _ ht
  have hb : sl * rng / tot + 1 ≤ sh * rng / tot := by
    have : sl * rng + tot ≤ sh * rng := by
      calc sl * rng + tot ≤ sl * rng + rng := by omega
        _ = (sl + 1) * rng := by ring
        _ ≤ sh * rng := Nat.mul_le_mul_right _ h1
    calc sl * rng / tot + 1 = (sl * rng + tot) / tot := by rw [Nat.add_div_right _ ht]
      _ ≤ sh * rng / tot := Nat.div_le_div_right this
  omega

/-- `RcUpdate`'s checks and narrowing, from a valid state, for a symbol with a count and a total below MAXTOTAL. -/
theorem rcNarrow_valid (s : State) (t : BitVec 2) (x : Nat) (h : CoderValid s) (hc : count s t x ≠ 0)
    (ht : total s t < rcMaxTotal) :
    ∃ u, rcNarrow t x s = .ok u ∧ u = { s with rcLow := u.rcLow, rcHigh := u.rcHigh } ∧
      u.rcLow.toNat = s.rcLow.toNat + low s t x * rcRange s / total s t ∧
      u.rcHigh.toNat = s.rcLow.toNat + high s t x * rcRange s / total s t - 1 ∧
      u.rcLow.toNat ≤ u.rcHigh.toNat ∧ u.rcHigh.toNat ≤ s.rcHigh.toNat := by
  have hv := h
  obtain ⟨h1, h2, h3, -⟩ := h
  have hlt : low s t x < high s t x := by simp [high]; omega
  have hrng : rcRange s = s.rcHigh.toNat - s.rcLow.toNat + 1 := rfl
  have hmr : rcMinRange = rcMaxTotal := rfl
  obtain ⟨b1, b2⟩ := narrow_bounds hrng (by omega) hlt (high_le_total s t x) (by omega)
  have hH := s.rcHigh.isLt
  refine ⟨{ s with
      rcLow := BitVec.ofNat 31 (s.rcLow.toNat + low s t x * rcRange s / total s t)
      rcHigh := BitVec.ofNat 31 (s.rcLow.toNat + high s t x * rcRange s / total s t - 1) }, ?_, rfl, ?_, ?_, ?_, ?_⟩
  · rw [rcNarrow, rcCheckState_valid s hv]
    simp only []
    rw [if_neg (by omega), if_neg (by omega)]
  all_goals simp only [BitVec.toNat_ofNat]
  · rw [Nat.mod_eq_of_lt (by omega)]
  · rw [Nat.mod_eq_of_lt (by omega)]
  · rw [Nat.mod_eq_of_lt (by omega), Nat.mod_eq_of_lt (by omega)]; exact b1
  · rw [Nat.mod_eq_of_lt (by omega)]; exact b2

/-! ## The decoder's actions -/

theorem decShift_spec (s : State) :
    ∃ t, decShift s = .ok t ∧ t = { s with rcCode := t.rcCode, inPos := t.inPos } ∧
      (∃ b : Bool, t.rcCode.toNat = 2 * s.rcCode.toNat % 2 ^ 31 + b.toNat) ∧
      (s.inPos ≤ 8 * s.inLen → s.inPos ≤ t.inPos ∧ t.inPos ≤ 8 * s.inLen) := by
  refine ⟨_, rfl, rfl, ⟨(inBitZ s s.inPos).1, ?_⟩, inBitZ_pos s s.inPos⟩
  exact shl1_or_toNat _ _

/-- DecUnderflow's new code (R128), for a code in [QUARTER, 3·QUARTER). -/
theorem underflow_code (v : BitVec 31) (b : Bool) (h1 : 2 ^ 29 ≤ v.toNat) (h2 : v.toNat < 3 * 2 ^ 29) :
    (v &&& rcHalf ||| v <<< 1 &&& rcMask >>> 1 ||| (BitVec.ofBool b).setWidth 31).toNat
      = 2 * v.toNat - 2 ^ 30 + b.toNat := by
  have hm : (rcMask >>> 1).toNat = 2 ^ 30 - 1 := by decide
  have hlow : (v <<< 1 &&& rcMask >>> 1).toNat = 2 * v.toNat % 2 ^ 30 := by
    rw [BitVec.toNat_and, hm, Nat.and_two_pow_sub_one_eq_mod, shl1_toNat]
    omega
  have hbit : (v <<< 1 &&& rcMask >>> 1 ||| (BitVec.ofBool b).setWidth 31).toNat = 2 * v.toNat % 2 ^ 30 + b.toNat := by
    cases b
    · rw [show ((BitVec.ofBool false).setWidth 31 : BitVec 31) = 0 from rfl]
      simpa using hlow
    · have hz : (v <<< 1 &&& rcMask >>> 1) &&& (1 : BitVec 31) = 0 := by
        apply BitVec.eq_of_getLsbD_eq
        intro i hi
        cases i <;> simp
      rw [show ((BitVec.ofBool true).setWidth 31 : BitVec 31) = 1 from rfl, ← BitVec.add_eq_or_of_and_eq_zero _ _ hz,
        BitVec.toNat_add, hlow]
      simp
      omega
  have hhalf : ∀ w : BitVec 31, w.toNat < 2 ^ 30 →
      (v &&& rcHalf ||| w).toNat = (if 2 ^ 30 ≤ v.toNat then 2 ^ 30 else 0) + w.toNat := by
    intro w hw
    have hand : v &&& rcHalf = if 2 ^ 30 ≤ v.toNat then rcHalf else 0 := by
      apply BitVec.eq_of_getLsbD_eq
      intro i hi
      rw [BitVec.getLsbD_and, rcHalf_getLsbD i hi]
      by_cases h30 : i = 30
      · subst h30
        rw [bit30_iff]
        split
        · rename_i h
          rw [decide_eq_true h]
          rfl
        · rename_i h
          rw [decide_eq_false h]
          rfl
      · split
        · simp [h30, rcHalf_getLsbD i hi]
        · simp [h30]
    rw [hand]
    split
    · rw [BitVec.or_comm, or_half_toNat w hw]; omega
    · simp
  rw [BitVec.or_assoc, hhalf _ (by rw [hbit]; cases b <;> simp <;> omega), hbit]
  split <;> omega

theorem decUnderflow_spec (s : State) (h1 : 2 ^ 29 ≤ s.rcCode.toNat) (h2 : s.rcCode.toNat < 3 * 2 ^ 29) :
    ∃ t, decUnderflow s = .ok t ∧ t = { s with rcCode := t.rcCode, inPos := t.inPos } ∧
      (∃ b : Bool, t.rcCode.toNat = 2 * s.rcCode.toNat - 2 ^ 30 + b.toNat) ∧
      (s.inPos ≤ 8 * s.inLen → s.inPos ≤ t.inPos ∧ t.inPos ≤ 8 * s.inLen) := by
  refine ⟨_, rfl, rfl, ⟨(inBitZ s s.inPos).1, ?_⟩, inBitZ_pos s s.inPos⟩
  exact underflow_code _ _ h1 h2

/-- What the decoder's loops change: the interval, the code and INPOS, which stays in the input stream. -/
def DecoderMoved (s t : State) : Prop :=
  t = { s with rcLow := t.rcLow, rcHigh := t.rcHigh, rcCode := t.rcCode, inPos := t.inPos } ∧
    (s.inPos ≤ 8 * s.inLen → s.inPos ≤ t.inPos ∧ t.inPos ≤ 8 * s.inLen)

theorem DecoderMoved.trans {s t u : State} (h1 : DecoderMoved s t) (h2 : DecoderMoved t u) : DecoderMoved s u := by
  obtain ⟨e1, p1⟩ := h1
  obtain ⟨e2, p2⟩ := h2
  have hl : t.inLen = s.inLen := by rw [e1]
  refine ⟨?_, fun h => ?_⟩
  · rw [e2, e1]
  · have := p1 h
    have := p2 (by omega)
    omega

/-- The first loop of the decoder always ends, with the code still in the interval. -/
theorem decShiftLoop_spec (n : Nat) (s : State) (h : s.rcLow.toNat ≤ s.rcCode.toNat ∧ s.rcCode.toNat ≤ s.rcHigh.toNat) :
    ∃ t, rcShiftLoop decShift n s = .ok t ∧ DecoderMoved s t ∧
      t.rcLow.toNat ≤ t.rcCode.toNat ∧ t.rcCode.toNat ≤ t.rcHigh.toNat := by
  induction n generalizing s with
  | zero => exact ⟨s, rfl, ⟨rfl, fun hp => ⟨Nat.le_refl _, hp⟩⟩, h⟩
  | succ n ih =>
    rw [rcShiftLoop]
    split
    · rename_i hc
      rw [sameTop_iff] at hc
      obtain ⟨u, hu, eu, ⟨b, hb⟩, hp⟩ := decShift_spec s
      rw [hu]
      simp only []
      obtain ⟨i1, i2⟩ := shift_interval s.rcLow s.rcHigh
      have e1 : u.rcLow = s.rcLow := by rw [eu]
      have e2 : u.rcHigh = s.rcHigh := by rw [eu]
      have hL := s.rcLow.isLt
      have hH := s.rcHigh.isLt
      have hC := s.rcCode.isLt
      obtain ⟨t, ht, hm, hin⟩ := ih { u with rcLow := u.rcLow <<< 1, rcHigh := u.rcHigh <<< 1 ||| 1 } (by
        simp only []
        rw [e1, e2, i1, i2, hb]
        have : b.toNat ≤ 1 := Bool.toNat_le b
        omega)
      refine ⟨t, ht, DecoderMoved.trans ⟨?_, ?_⟩ hm, hin⟩
      · rw [eu]
      · simpa using hp
    · exact ⟨s, rfl, ⟨rfl, fun hp => ⟨Nat.le_refl _, hp⟩⟩, h⟩

/-- The second loop of the decoder always ends, with the code still in the interval. -/
theorem decUnderflowLoop_spec (n : Nat) (s : State) (hl : s.rcLow.toNat < 2 ^ 30) (hh : 2 ^ 30 ≤ s.rcHigh.toNat)
    (h : s.rcLow.toNat ≤ s.rcCode.toNat ∧ s.rcCode.toNat ≤ s.rcHigh.toNat) :
    ∃ t, rcUnderflowLoop decUnderflow n s = .ok t ∧ DecoderMoved s t ∧
      t.rcLow.toNat ≤ t.rcCode.toNat ∧ t.rcCode.toNat ≤ t.rcHigh.toNat := by
  induction n generalizing s with
  | zero => exact ⟨s, rfl, ⟨rfl, fun hp => ⟨Nat.le_refl _, hp⟩⟩, h⟩
  | succ n ih =>
    rw [rcUnderflowLoop]
    split
    · rename_i hc
      rw [straddles_iff] at hc
      have hH := s.rcHigh.isLt
      obtain ⟨u, hu, eu, ⟨b, hb⟩, hp⟩ := decUnderflow_spec s (by omega) (by omega)
      rw [hu]
      simp only []
      obtain ⟨i1, i2⟩ := underflow_interval s.rcLow s.rcHigh (by omega) (by omega)
      have e1 : u.rcLow = s.rcLow := by rw [eu]
      have e2 : u.rcHigh = s.rcHigh := by rw [eu]
      have hb1 : b.toNat ≤ 1 := Bool.toNat_le b
      obtain ⟨t, ht, hm, hin⟩ := ih { u with
          rcLow := u.rcLow <<< 1 ^^^ rcHalf, rcHigh := (u.rcHigh ^^^ rcHalf) <<< 1 ||| rcHalf ||| 1 }
        (by simp only []; rw [e1, i1]; omega)
        (by simp only []; rw [e2, i2]; omega)
        (by simp only []; rw [e1, e2, i1, i2, hb]; omega)
      refine ⟨t, ht, DecoderMoved.trans ⟨?_, ?_⟩ hm, hin⟩
      · rw [eu]
      · simpa using hp
    · exact ⟨s, rfl, ⟨rfl, fun hp => ⟨Nat.le_refl _, hp⟩⟩, h⟩

/-- The decoder's renormalization of an interval that holds the code: it ends, the code is still in the interval, and the
interval is valid. -/
theorem decRenormalize_spec (s : State) (h : s.rcLow.toNat ≤ s.rcCode.toNat ∧ s.rcCode.toNat ≤ s.rcHigh.toNat) :
    ∃ t, rcRenormalize decShift decUnderflow s = .ok t ∧ DecoderMoved s t ∧
      (t.rcLow.toNat ≤ t.rcCode.toNat ∧ t.rcCode.toNat ≤ t.rcHigh.toNat) ∧
      t.rcLow.toNat < t.rcHigh.toNat ∧ rcMinRange ≤ rcRange t ∧ rcRange t ≤ rcFull := by
  obtain ⟨u, hu, mu, iu⟩ := decShiftLoop_spec 31 s h
  obtain ⟨a1, a2⟩ := rcShiftLoop_interval decShift decShift_keeps 31 s u hu (by omega) (by omega)
  obtain ⟨t, ht, mt, it⟩ := decUnderflowLoop_spec 30 u a1 a2 iu
  have hr : rcRenormalize decShift decUnderflow s = .ok t := by rw [rcRenormalize, hu]; exact ht
  exact ⟨t, hr, mu.trans mt, it,
    rcRenormalize_interval decShift decUnderflow decShift_keeps decUnderflow_keeps s t hr (by omega)⟩

/-! ## The decoder's value (R133) -/

/-- The value of a valid decoder state: below the total, and the narrowed interval of its symbol holds the code (R135). -/
theorem rcValue_spec (s : State) (t : BitVec 2) (h : CoderValid s) (hm : s.rcMode = .dec) (h0 : total s t ≠ 0) :
    ∃ v : Nat, rcValue t s = v ∧ v < total s t ∧
      ∀ x, low s t x ≤ v → v < high s t x →
        s.rcLow.toNat + low s t x * rcRange s / total s t ≤ s.rcCode.toNat ∧
        s.rcCode.toNat ≤ s.rcLow.toNat + high s t x * rcRange s / total s t - 1 := by
  obtain ⟨h1, h2, h3, h4⟩ := h
  obtain ⟨c1, c2⟩ := h4 hm
  have hrng : rcRange s = s.rcHigh.toNat - s.rcLow.toNat + 1 := rfl
  have hr0 : 0 < rcRange s := by omega
  set o := s.rcCode.toNat - s.rcLow.toNat with ho
  set T := total s t with hT
  set R := rcRange s with hR
  have hoT : 1 ≤ (o + 1) * T := Nat.mul_pos (by omega) (by omega)
  refine ⟨((o + 1) * T - 1) / R, ?_, ?_, ?_⟩
  · rw [rcValue, ← hT, ← hR]
    have e1 : ((s.rcCode.toNat : Int) - s.rcLow.toNat + 1) = ((o + 1 : Nat) : Int) := by omega
    rw [e1]
    push_cast
    rw [Nat.cast_sub hoT]
    push_cast
    rfl
  · apply Nat.div_lt_of_lt_mul
    have : (o + 1) * T ≤ R * T := Nat.mul_le_mul_right _ (by omega)
    omega
  · intro x hx1 hx2
    have k1 : low s t x * R ≤ (o + 1) * T - 1 := by
      calc low s t x * R ≤ ((o + 1) * T - 1) / R * R := Nat.mul_le_mul_right _ hx1
        _ ≤ _ := Nat.div_mul_le_self _ _
    have k2 : (o + 1) * T ≤ high s t x * R := by
      have : (o + 1) * T - 1 < high s t x * R := by
        rw [← Nat.div_lt_iff_lt_mul hr0]; exact hx2
      omega
    have j1 : low s t x * R / T < o + 1 := by
      rw [Nat.div_lt_iff_lt_mul (by omega)]; omega
    have j2 : o + 1 ≤ high s t x * R / T := by
      rw [Nat.le_div_iff_mul_le (by omega)]; exact k2
    omega

end Sys2Proof.Machine
end

