-- ==== Sys2Proof/Laws/Exec.lean ====
section
/-! SUPPORT. What executing a command can do, once for every command: it completes having written its "Writes" list at
most, or it raises one of its faults precisely, or it raises one of its imprecise faults over an unspecified write set.
Every frame and fault statement about commands follows from this. -/

namespace Sys2Proof.Machine

/-! ## Banks and slots under an update -/

theorem counts_setBank (a b : BitVec 2) (l : List Word) (s : State) :
    counts (setBank a l s) b = if b = a then l else counts s b := by
  simp only [counts, setBank]
  rw [Vector.getElem_set]
  by_cases h : a = b
  · subst h; simp
  · have : a.toNat ≠ b.toNat := fun e => h (BitVec.eq_of_toNat_eq e)
    simp [this, Ne.symm h]

theorem slot_setSlot (a b : BitVec 2) (u : HuffTree) (s : State) :
    slot (setSlot a u s) b = if b = a then some u else slot s b := by
  simp only [slot, setSlot]
  rw [Vector.getElem_set]
  by_cases h : a = b
  · subst h; simp
  · have : a.toNat ≠ b.toNat := fun e => h (BitVec.eq_of_toNat_eq e)
    simp [this, Ne.symm h]

theorem slot_loseSlot_other (a b : BitVec 2) (s : State) (h : b ≠ a) : slot (loseSlot a s) b = slot s b := by
  simp only [slot, loseSlot]
  rw [Vector.getElem_set]
  have : a.toNat ≠ b.toNat := fun e => h (BitVec.eq_of_toNat_eq e.symm)
  simp [this]

/-! ## Frames -/

theorem OnlyChanges.refl (ps : List Part) (s : State) : OnlyChanges ps s s := by
  intro p _
  cases p <;> simp [Part.Same]

theorem Part.Same.trans {p : Part} {s t u : State} (h1 : p.Same s t) (h2 : p.Same t u) : p.Same s u := by
  cases p <;> simp only [Part.Same] at * <;> first | exact h2.trans h1 | exact fun a => (h2 a).trans (h1 a)

theorem OnlyChanges.trans {ps : List Part} {s t u : State} (h1 : OnlyChanges ps s t) (h2 : OnlyChanges ps t u) :
    OnlyChanges ps s u := fun p hp => (h1 p hp).trans (h2 p hp)

theorem OnlyChanges.mono {ps qs : List Part} {s t : State} (h : OnlyChanges ps s t) (hs : ps ⊆ qs) :
    OnlyChanges qs s t := fun p hp => h p fun hin => hp (hs hin)

theorem complete_onlyChanges (s : State) : OnlyChanges completionParts s (complete s) := by
  intro p hp
  cases p <;> simp_all [Part.Same, completionParts, counts, slot, inByte, outByte]

theorem enterFault_onlyChanges (c : FaultCode) (s : State) : OnlyChanges faultParts s (enterFault c s) := by
  intro p hp
  cases p <;> simp_all [Part.Same, faultParts, counts, slot, inByte, outByte]

theorem setResult_onlyChanges (v : Nat) (s : State) : OnlyChanges [.result] s (setResult v s) := by
  intro p hp
  cases p <;> simp_all [Part.Same, counts, slot, inByte, outByte]

theorem setBank_onlyChanges (a : BitVec 2) (l : List Word) (s : State) : OnlyChanges [.bank a] s (setBank a l s) := by
  intro p hp
  cases p <;> simp_all [Part.Same, counts_setBank, slot, inByte, outByte]

theorem setSlot_onlyChanges (a : BitVec 2) (u : HuffTree) (s : State) : OnlyChanges [.slot a] s (setSlot a u s) := by
  intro p hp
  cases p <;> simp_all [Part.Same, counts, slot_setSlot, inByte, outByte]

theorem buildTranslation_onlyChanges (vs : List Nat) (s : State) :
    OnlyChanges [.vtCeil, .fwd, .inv, .vtValid] s (buildTranslation vs s) := by
  intro p hp
  cases p <;> simp_all [Part.Same, counts, slot, inByte, outByte]

theorem setInPos_onlyChanges (q : Nat) (s : State) : OnlyChanges [.inPos] s { s with inPos := q } := by
  intro p hp
  cases p <;> simp_all [Part.Same, counts, slot, inByte, outByte]

/-- Emission writes OUTBUF and OUTPOS. -/
theorem emit_onlyChanges {bs : List Bool} {s t : State} (h : emit bs s = .ok t) :
    OnlyChanges [.outbuf, .outPos] s t := by
  rw [emit_frame bs s t h]
  intro p hp
  cases p <;> simp_all [Part.Same, counts, slot, inByte]

/-! ## The coder's loops -/

/-- A coder action changes the listed parts at most. -/
def Within (ps : List Part) (act : State → Except FaultCode State) : Prop := ∀ s t, act s = .ok t → OnlyChanges ps s t

theorem setInterval_onlyChanges (l h : BitVec 31) (s : State) :
    OnlyChanges [.rcLow, .rcHigh] s { s with rcLow := l, rcHigh := h } := by
  intro p hp
  cases p <;> simp_all [Part.Same, counts, slot, inByte, outByte]

theorem rcShiftLoop_within {ps : List Part} {act : State → Except FaultCode State} (ha : Within ps act)
    (hi : [.rcLow, .rcHigh] ⊆ ps) (n : Nat) : Within ps (rcShiftLoop act n) := by
  induction n with
  | zero =>
    intro s t h
    simp only [rcShiftLoop, Except.ok.injEq] at h
    subst h
    exact OnlyChanges.refl _ _
  | succ n ih =>
    intro s t h
    rw [rcShiftLoop] at h
    split at h
    · split at h
      · simp at h
      · rename_i u hu
        exact ((ha s u hu).trans ((setInterval_onlyChanges _ _ _).mono hi)).trans (ih _ _ h)
    · simp only [Except.ok.injEq] at h
      subst h
      exact OnlyChanges.refl _ _

theorem rcUnderflowLoop_within {ps : List Part} {act : State → Except FaultCode State} (ha : Within ps act)
    (hi : [.rcLow, .rcHigh] ⊆ ps) (n : Nat) : Within ps (rcUnderflowLoop act n) := by
  induction n with
  | zero =>
    intro s t h
    simp only [rcUnderflowLoop, Except.ok.injEq] at h
    subst h
    exact OnlyChanges.refl _ _
  | succ n ih =>
    intro s t h
    rw [rcUnderflowLoop] at h
    split at h
    · split at h
      · simp at h
      · rename_i u hu
        exact ((ha s u hu).trans ((setInterval_onlyChanges _ _ _).mono hi)).trans (ih _ _ h)
    · simp only [Except.ok.injEq] at h
      subst h
      exact OnlyChanges.refl _ _

theorem rcRenormalize_within {ps : List Part} {shift underflow : State → Except FaultCode State} (hs : Within ps shift)
    (hu : Within ps underflow) (hi : [.rcLow, .rcHigh] ⊆ ps) : Within ps (rcRenormalize shift underflow) := by
  intro s t h
  rw [rcRenormalize] at h
  split at h
  · simp at h
  · rename_i u he
    exact (rcShiftLoop_within hs hi 31 s u he).trans (rcUnderflowLoop_within hu hi 30 u t h)

theorem encShift_within : Within [.rcLow, .rcHigh, .rcUnderflow, .outbuf, .outPos] encShift := by
  intro s t h
  obtain ⟨-, u, hu, rfl⟩ := encShift_spec s t h
  refine ((emit_onlyChanges hu).mono (by simp)).trans ?_
  intro p hp
  cases p <;> simp_all [Part.Same, counts, slot, inByte]

theorem encUnderflow_within : Within [.rcLow, .rcHigh, .rcUnderflow, .outbuf, .outPos] encUnderflow := by
  intro s t h
  obtain ⟨-, rfl⟩ := encUnderflow_spec s t h
  intro p hp
  cases p <;> simp_all [Part.Same, counts, slot, inByte]

theorem decShift_within : Within [.rcLow, .rcHigh, .rcCode, .inPos] decShift := by
  intro s t h
  simp only [decShift, Except.ok.injEq] at h
  subst h
  intro p hp
  cases p <;> simp_all [Part.Same, counts, slot, inByte, outByte]

theorem decUnderflow_within : Within [.rcLow, .rcHigh, .rcCode, .inPos] decUnderflow := by
  intro s t h
  simp only [decUnderflow, Except.ok.injEq] at h
  subst h
  intro p hp
  cases p <;> simp_all [Part.Same, counts, slot, inByte, outByte]

theorem rcNarrow_within (a : BitVec 2) (x : Nat) : Within [.rcLow, .rcHigh] (rcNarrow a x) := by
  intro s t h
  rw [rcNarrow] at h
  split at h
  · simp at h
  · split at h
    · simp at h
    · split at h
      · simp at h
      · simp only [Except.ok.injEq] at h
        subst h
        exact setInterval_onlyChanges _ _ _

theorem fillCode_onlyChanges (n : Nat) (s : State) : OnlyChanges [.rcCode, .inPos] s (fillCode n s) := by
  induction n generalizing s with
  | zero => exact OnlyChanges.refl _ _
  | succ n ih =>
    refine OnlyChanges.trans ?_ (ih _)
    intro p hp
    cases p <;> simp_all [Part.Same, counts, slot, inByte, outByte]

/-! ## Faults the shared operations raise -/

theorem rcCheckState_code (s : State) (c : FaultCode) (h : rcCheckState s = some c) :
    c = .rcLowGeHigh ∨ c = .rcStateMask ∨ c = .rcRange := by
  unfold rcCheckState at h
  repeat' split at h
  all_goals simp_all

theorem rcNarrow_code (a : BitVec 2) (x : Nat) (s : State) (c : FaultCode) (h : rcNarrow a x s = .error c) :
    c ∈ [FaultCode.rcLowGeHigh, .rcStateMask, .rcRange, .rcZeroFreq, .rcTotal] := by
  unfold rcNarrow at h
  split at h
  · rename_i d hd
    simp only [Except.error.injEq] at h
    subst h
    rcases rcCheckState_code s _ hd with e | e | e <;> simp [e]
  · repeat' split at h
    all_goals simp_all

theorem encShift_error (s : State) (c : FaultCode) (h : encShift s = .error c) : c = .outOverflow := by
  simp only [encShift, emitRepeated_eq] at h
  split at h
  · rename_i hb
    simp only [Except.error.injEq] at h
    subst h
    exact (outBit_error _ _ _ hb).1
  · split at h
    · rename_i hb
      simp only [Except.error.injEq] at h
      subst h
      exact emit_error _ _ _ hb
    · simp at h

theorem encUnderflow_error (s : State) (c : FaultCode) (h : encUnderflow s = .error c) : c = .rcUnderflowOvf := by
  unfold encUnderflow at h
  split at h <;> simp_all

theorem rcShiftLoop_error {act : State → Except FaultCode State} {d : FaultCode} (ha : ∀ s c, act s = .error c → c = d)
    (n : Nat) (s : State) (c : FaultCode) (h : rcShiftLoop act n s = .error c) : c = d := by
  induction n generalizing s with
  | zero => simp [rcShiftLoop] at h
  | succ n ih =>
    rw [rcShiftLoop] at h
    split at h
    · split at h
      · rename_i he
        simp only [Except.error.injEq] at h
        subst h
        exact ha _ _ he
      · exact ih _ h
    · simp at h

theorem rcUnderflowLoop_error {act : State → Except FaultCode State} {d : FaultCode}
    (ha : ∀ s c, act s = .error c → c = d) (n : Nat) (s : State) (c : FaultCode)
    (h : rcUnderflowLoop act n s = .error c) : c = d := by
  induction n generalizing s with
  | zero => simp [rcUnderflowLoop] at h
  | succ n ih =>
    rw [rcUnderflowLoop] at h
    split at h
    · split at h
      · rename_i he
        simp only [Except.error.injEq] at h
        subst h
        exact ha _ _ he
      · exact ih _ h
    · simp at h

theorem encRenormalize_error (s : State) (c : FaultCode) (h : rcRenormalize encShift encUnderflow s = .error c) :
    c = .outOverflow ∨ c = .rcUnderflowOvf := by
  rw [rcRenormalize] at h
  split at h
  · rename_i he
    simp only [Except.error.injEq] at h
    subst h
    exact .inl (rcShiftLoop_error encShift_error 31 s _ he)
  · exact .inr (rcUnderflowLoop_error encUnderflow_error 30 _ c h)

theorem decRenormalize_ok (s : State) : ∃ t, rcRenormalize decShift decUnderflow s = .ok t := by
  have h1 : ∀ n s, ∃ t, rcShiftLoop decShift n s = .ok t := by
    intro n
    induction n with
    | zero => exact fun s => ⟨s, rfl⟩
    | succ n ih =>
      intro s
      rw [rcShiftLoop]
      split
      · exact ih _
      · exact ⟨s, rfl⟩
  have h2 : ∀ n s, ∃ t, rcUnderflowLoop decUnderflow n s = .ok t := by
    intro n
    induction n with
    | zero => exact fun s => ⟨s, rfl⟩
    | succ n ih =>
      intro s
      rw [rcUnderflowLoop]
      split
      · exact ih _
      · exact ⟨s, rfl⟩
  obtain ⟨t, ht⟩ := h1 31 s
  rw [rcRenormalize, ht]
  exact h2 30 t

/-- A padding of zero bits to a byte boundary always fits (R213). -/
theorem emit_padding (s : State) : ∃ t, emit (List.replicate (bitsToByte s.outPos) false) s = .ok t := by
  have aux : ∀ n (s : State), (∀ j, j < n → (s.outPos + j) % 8 ≠ 0) → ∃ t, emit (List.replicate n false) s = .ok t := by
    intro n
    induction n with
    | zero => exact fun s _ => ⟨s, rfl⟩
    | succ n ih =>
      intro s hs
      have h0 := hs 0 (by omega)
      have hb := (outBit_ok_iff false s _).2 ⟨by omega, rfl⟩
      simp only [List.replicate_succ, emit, hb]
      refine ih _ fun j hj => ?_
      have := hs (j + 1) (by omega)
      simp only []
      omega
  refine aux _ s fun j hj => ?_
  simp only [bitsToByte] at hj
  omega

theorem huffWalk_error (s : State) (t : Tree) (p : Nat) (c : FaultCode) (h : huffWalk s t p = .error c) :
    c = .fmtTruncated := by
  induction t generalizing p with
  | leaf x => simp [huffWalk] at h
  | node c0 c1 ih0 ih1 =>
    rw [huffWalk] at h
    split at h
    · rename_i hb
      unfold inBit at hb
      split at hb <;> simp_all
    · exact ih0 _ h
    · exact ih1 _ h

theorem huffDeserialize_error (s : State) (A n : Nat) (d : DesState) (c : FaultCode)
    (h : huffDeserialize s A n d = .error c) : c = .fmtTruncated ∨ c = .fmtHtTree := by
  induction n generalizing d with
  | zero => simp_all [huffDeserialize]
  | succ n ih =>
    rw [huffDeserialize] at h
    split at h
    · rename_i hb
      unfold inBit at hb
      split at hb <;> simp_all
    · split at h
      · simp_all
      · split at h
        · rename_i he
          simp only [Except.error.injEq] at h
          subst h
          exact ih _ he
        · split at h
          · rename_i he
            simp only [Except.error.injEq] at h
            subst h
            exact ih _ he
          · simp at h
    · split at h
      · rename_i he
        simp only [Except.error.injEq] at h
        subst h
        exact .inl (inBits_error _ _ _ _ _ he)
      · split at h <;> simp_all

theorem readBitmap_error (s : State) (n i p : Nat) (c : FaultCode) (h : readBitmap s n i p = .error c) :
    c = .fmtTruncated := by
  induction n generalizing i p with
  | zero => simp [readBitmap] at h
  | succ n ih =>
    rw [readBitmap] at h
    split at h
    · rename_i hb
      unfold inBit at hb
      split at hb <;> simp_all
    · split at h
      · rename_i he
        simp only [Except.error.injEq] at h
        subst h
        exact ih _ _ he
      · simp at h

theorem readDelta_error (s : State) (t : Tree) (m n next p : Nat) (c : FaultCode)
    (h : readDelta s t m n next p = .error c) : c = .fmtTruncated ∨ c = .fmtVtPayload := by
  induction n generalizing next p with
  | zero => simp_all [readDelta]
  | succ n ih =>
    rw [readDelta] at h
    split at h
    · rename_i he
      simp only [Except.error.injEq] at h
      subst h
      exact .inl (huffWalk_error _ _ _ _ he)
    · repeat' split at h
      all_goals first
        | (simp at h; done)
        | (simp at h; exact .inr h.symm)
        | (rename_i he; simp only [Except.error.injEq] at h; subst h; exact ih _ _ he)

theorem readRuns_error (s : State) (t : Tree) (m n i sum p : Nat) (c : FaultCode)
    (h : readRuns s t m n i sum p = .error c) : c = .fmtTruncated ∨ c = .fmtVtPayload := by
  induction n generalizing i sum p with
  | zero =>
    rw [readRuns] at h
    split at h <;> simp_all
  | succ n ih =>
    rw [readRuns] at h
    split at h
    · rename_i he
      simp only [Except.error.injEq] at h
      subst h
      exact .inl (huffWalk_error _ _ _ _ he)
    · repeat' split at h
      all_goals first
        | (simp at h; done)
        | (simp at h; exact .inr h.symm)
        | (rename_i he; simp only [Except.error.injEq] at h; subst h; exact ih _ _ _ he)

theorem readTable_error (s : State) (m p : Nat) (c : FaultCode) (h : readTable s m p = .error c) :
    c = .fmtTruncated ∨ c = .fmtVtTag ∨ c = .fmtVtPayload := by
  rw [readTable] at h
  split at h
  · rename_i he
    simp only [Except.error.injEq] at h
    subst h
    exact .inl (inBits_error _ _ _ _ _ he)
  · split at h
    · rename_i he
      simp only [Except.error.injEq] at h
      subst h
      split at he
      · exact .inl (readBitmap_error _ _ _ _ _ he)
      · rcases readDelta_error _ _ _ _ _ _ _ he with e | e <;> simp [e]
      · rw [readRange] at he
        split at he
        · rename_i hw
          simp only [Except.error.injEq] at he
          subst he
          exact .inl (huffWalk_error _ _ _ _ hw)
        · rcases readRuns_error _ _ _ _ _ _ _ _ he with e | e <;> simp [e]
      · simp only [Except.error.injEq] at he
        simp [← he]
    · simp at h

theorem slotCode_error (s : State) (a : BitVec 2) (x : Nat) (c : FaultCode) (h : slotCode s a x = .error c) :
    c = .htEmpty ∨ c = .htSymbol := by
  unfold slotCode at h
  repeat' split at h
  all_goals simp_all

end Sys2Proof.Machine
end

