-- ==== Sys2Proof/Laws/Ended.lean ====
section
/-! SUPPORT. The inversion lemma of `exec`: every command answers a next state, and that state is one of three. -/

namespace Sys2Proof.Machine

/-- The state with a command's write set unspecified (`spec/60_exceptions.md` R233). -/
def loseWrites : Instr → State → State
  | .rcEncWrite _ _, s => loseEncWrite s
  | .rcEncFinish, s => loseEncFinish s
  | .rcDecRead _, s => loseDecRead s
  | .vtEncode, s => loseVtEncode s
  | .vtDecode _, s => loseVtDecode s
  | .htSerialize _, s => loseEmission s
  | .htDeserialize a _, s => loseDeserialize a s
  | .htEncode _ _, s => loseEmission s
  | .htDecode _, s => loseDecode s
  | _, s => s

/-- How a command ends. -/
inductive Ended (i : Instr) (s : State) : State → Prop
  /-- It completes, having written its "Writes" list at most. -/
  | completed (u : State) (h : OnlyChanges (writes i) s u) : Ended i s (complete u)
  /-- It raises one of its faults with no other effect. -/
  | precise (c : FaultCode) (h : c ∈ raisedBy i) (hp : c ∈ impreciseOf i → c = .rcSync) : Ended i s (enterFault c s)
  /-- It raises one of its imprecise faults over an unspecified write set. -/
  | imprecise (c : FaultCode) (h : c ∈ impreciseOf i) : Ended i s (enterFault c (loseWrites i s))

/-- A command outcome that is a next state of one of the three kinds. -/
def EndsIn (i : Instr) (s : State) (o : Host.Outcome State Fault Refusal) : Prop := ∃ t, o = .next t ∧ Ended i s t

theorem ends_done {i : Instr} {s u : State} (h : OnlyChanges (writes i) s u) : EndsIn i s (done u) :=
  ⟨_, rfl, .completed u h⟩

theorem ends_raise {i : Instr} {s : State} {c : FaultCode} (h : c ∈ raisedBy i)
    (hp : c ∈ impreciseOf i → c = .rcSync) : EndsIn i s (raise c s) := ⟨_, rfl, .precise c h hp⟩

theorem ends_lost {i : Instr} {s : State} {c : FaultCode} (h : c ∈ impreciseOf i) :
    EndsIn i s (raise c (loseWrites i s)) := ⟨_, rfl, .imprecise c h⟩

theorem setCount_onlyChanges (a : BitVec 2) (x : Nat) (v : Word) (s : State) :
    OnlyChanges [.bank a] s (setCount a x v s) := setBank_onlyChanges _ _ _

theorem ends_readSymbol {i : Instr} (s : State) (v : Nat) (a : BitVec 2) (x : BitVec 16) (hw : writes i = [.result])
    (hr : raisedBy i = [.ftSymbol]) (hi : impreciseOf i = []) : EndsIn i s (readSymbol v a x s) := by
  unfold readSymbol
  split
  · exact ends_raise (by simp [hr]) (by simp [hi])
  · exact ends_done (by rw [hw]; exact setResult_onlyChanges _ _)

theorem ends_emitCounted {i : Instr} (s : State) (bs : List Bool) (hw : writes i = [.outbuf, .outPos, .result])
    (hi : .outOverflow ∈ impreciseOf i) (hl : loseWrites i s = loseEmission s) : EndsIn i s (emitCounted bs s) := by
  unfold emitCounted
  split
  · rename_i c hc
    rw [emit_error _ _ _ hc, ← hl]
    exact ends_lost hi
  · rename_i t ht
    refine ends_done ?_
    rw [hw]
    exact ((emit_onlyChanges ht).mono (by simp)).trans ((setResult_onlyChanges _ _).mono (by simp))

/-- Every command answers a next state, and that state is one of the three of `Ended`. -/
theorem exec_ends (i : Instr) (s : State) : EndsIn i s (exec i s) := by
  cases i with
  | nop => exact ends_done (OnlyChanges.refl _ _)
  | ftClear a x =>
    simp only [exec, execFtClear]
    split
    · exact ends_raise (by simp [raisedBy]) (by simp [impreciseOf])
    · exact ends_done (setBank_onlyChanges _ _ _)
  | ftSet a x =>
    simp only [exec, execFtSet]
    repeat' split
    · exact ends_raise (by simp [raisedBy]) (by simp [impreciseOf])
    · exact ends_raise (by simp [raisedBy]) (by simp [impreciseOf])
    · exact ends_done (setCount_onlyChanges _ _ _ _)
  | ftInc a x =>
    simp only [exec, execFtInc]
    repeat' split
    · exact ends_raise (by simp [raisedBy]) (by simp [impreciseOf])
    · exact ends_raise (by simp [raisedBy]) (by simp [impreciseOf])
    · exact ends_done (setCount_onlyChanges _ _ _ _)
  | ftGet a x => exact ends_readSymbol _ _ _ _ rfl rfl rfl
  | ftTotal a => exact ends_done (setResult_onlyChanges _ _)
  | ftLow a x => exact ends_readSymbol _ _ _ _ rfl rfl rfl
  | ftHigh a x => exact ends_readSymbol _ _ _ _ rfl rfl rfl
  | ftLimit a => exact ends_done (setResult_onlyChanges _ _)
  | rcEncInit =>
    refine ends_done fun p hp => ?_
    cases p <;> simp_all [Part.Same, writes, counts, slot, inByte, outByte]
  | rcEncWrite a x =>
    simp only [exec, execRcEncWrite]
    split
    · exact ends_raise (by simp [raisedBy]) (by simp [impreciseOf])
    split
    · exact ends_raise (by simp [raisedBy]) (by simp [impreciseOf])
    split
    · rename_i c hc
      have := rcNarrow_code _ _ _ _ hc
      simp only [List.mem_cons, List.not_mem_nil, or_false] at this
      rcases this with e | e | e | e | e <;> subst e <;>
        exact ends_raise (by simp [raisedBy]) (by simp [impreciseOf])
    · rename_i t ht
      split
      · rename_i c hc
        refine ends_lost (i := .rcEncWrite a x) (s := s) ?_
        rcases encRenormalize_error _ _ hc with e | e <;> simp [e, impreciseOf]
      · rename_i u hu
        exact ends_done (((rcNarrow_within _ _ _ _ ht).mono (by simp [writes])).trans
          (rcRenormalize_within encShift_within encUnderflow_within (by simp) _ _ hu))
  | rcEncFinish =>
    simp only [exec, execRcEncFinish]
    split
    · exact ends_raise (by simp [raisedBy]) (by simp [impreciseOf])
    split
    · rename_i c hc
      rw [emit_error _ _ _ hc]
      exact ends_lost (i := .rcEncFinish) (s := s) (by simp [impreciseOf])
    · rename_i t ht
      refine ends_done (((emit_onlyChanges ht).mono (by simp [writes])).trans fun p hp => ?_)
      cases p <;> simp_all [Part.Same, writes, counts, slot, inByte]
  | rcDecInit =>
    simp only [exec, execRcDecInit]
    refine ends_done ?_
    refine OnlyChanges.trans (t := { s with rcLow := 0, rcHigh := rcMask, rcUnderflow := 0, rcCode := 0 }) ?_
      (((fillCode_onlyChanges 31 _).mono (by simp [writes])).trans ?_)
    · intro p hp
      cases p <;> simp_all [Part.Same, writes, counts, slot, inByte, outByte]
    · intro p hp
      cases p <;> simp_all [Part.Same, writes, counts, slot, inByte, outByte]
  | rcDecRead a =>
    simp only [exec, execRcDecRead]
    split
    · exact ends_raise (by simp [raisedBy]) (by simp [impreciseOf])
    split
    · rename_i c hc
      rcases rcCheckState_code _ _ hc with e | e | e <;> subst e <;>
        exact ends_raise (by simp [raisedBy]) (by simp [impreciseOf])
    split
    · exact ends_raise (by simp [raisedBy]) (by simp [impreciseOf])
    split
    · exact ends_raise (by simp [raisedBy]) (by simp [impreciseOf])
    split
    · exact ends_raise (by simp [raisedBy]) (by simp)
    split
    · exact ends_raise (by simp [raisedBy]) (by simp)
    split
    · rename_i c hc
      have := rcNarrow_code _ _ _ _ hc
      simp only [List.mem_cons, List.not_mem_nil, or_false] at this
      rcases this with e | e | e | e | e <;> subst e <;>
        exact ends_raise (by simp [raisedBy]) (by simp [impreciseOf])
    · rename_i t ht
      split
      · rename_i c hc
        obtain ⟨v, hv⟩ := decRenormalize_ok t
        rw [hv] at hc
        simp at hc
      · rename_i u hu
        split
        · refine ends_done ?_
          exact (((rcNarrow_within _ _ _ _ ht).mono (by simp [writes])).trans
            ((rcRenormalize_within decShift_within decUnderflow_within (by simp) _ _ hu).mono (by simp [writes]))).trans
            ((setResult_onlyChanges _ _).mono (by simp [writes]))
        · exact ends_lost (i := .rcDecRead a) (s := s) (by simp [impreciseOf])
  | vtClear k =>
    simp only [exec, execVtClear]
    split
    · exact ends_raise (by simp [raisedBy]) (by simp [impreciseOf])
    · refine ends_done fun p hp => ?_
      cases p <;> simp_all [Part.Same, writes, counts, slot, inByte, outByte]
  | vtMark x =>
    simp only [exec, execVtMark]
    repeat' split
    · exact ends_raise (by simp [raisedBy]) (by simp [impreciseOf])
    · exact ends_raise (by simp [raisedBy]) (by simp [impreciseOf])
    · refine ends_done fun p hp => ?_
      cases p <;> simp_all [Part.Same, writes, counts, slot, inByte, outByte]
  | vtEncode =>
    simp only [exec, execVtEncode]
    split
    · exact ends_raise (by simp [raisedBy]) (by simp [impreciseOf])
    split
    · rename_i c hc
      rw [emit_error _ _ _ hc]
      exact ends_lost (i := .vtEncode) (s := s) (by simp [impreciseOf])
    · rename_i t ht
      refine ends_done ?_
      refine ((emit_onlyChanges ht).mono (by simp [writes])).trans (OnlyChanges.trans (t := { t with vtTag := _ }) ?_
        (((buildTranslation_onlyChanges _ _).mono (by simp [writes])).trans
          ((setResult_onlyChanges _ _).mono (by simp [writes]))))
      intro p hp
      cases p <;> simp_all [Part.Same, writes, counts, slot, inByte]
  | vtDecode k =>
    simp only [exec, execVtDecode]
    split
    · exact ends_raise (by simp [raisedBy]) (by simp [impreciseOf])
    split
    · rename_i c hc
      refine ends_lost (i := .vtDecode k) (s := s) ?_
      rcases readTable_error _ _ _ _ hc with e | e | e <;> simp [e, impreciseOf]
    · rename_i tag vs p hp
      refine ends_done ?_
      refine OnlyChanges.trans (t := { s with vtDepth := k.toNat, present := presenceOf vs, vtTag := BitVec.ofNat 2 tag, inPos := p }) ?_
        (((buildTranslation_onlyChanges _ _).mono (by simp [writes])).trans
          ((setResult_onlyChanges _ _).mono (by simp [writes])))
      intro q hq
      cases q <;> simp_all [Part.Same, writes, counts, slot, inByte, outByte]
  | vtFwd x =>
    simp only [exec, execVtFwd]
    repeat' split
    · exact ends_raise (by simp [raisedBy]) (by simp [impreciseOf])
    · exact ends_raise (by simp [raisedBy]) (by simp [impreciseOf])
    · exact ends_raise (by simp [raisedBy]) (by simp [impreciseOf])
    · exact ends_done (setResult_onlyChanges _ _)
  | vtInv x =>
    simp only [exec, execVtInv]
    repeat' split
    · exact ends_raise (by simp [raisedBy]) (by simp [impreciseOf])
    · exact ends_raise (by simp [raisedBy]) (by simp [impreciseOf])
    · exact ends_done (setResult_onlyChanges _ _)
  | htBuild a b =>
    simp only [exec, execHtBuild]
    split
    · exact ends_raise (by simp [raisedBy]) (by simp [impreciseOf])
    · exact ends_done (((setSlot_onlyChanges _ _ _).mono (by simp [writes])).trans
        ((setResult_onlyChanges _ _).mono (by simp [writes])))
  | htSerialize a =>
    simp only [exec, execHtSerialize]
    split
    · exact ends_raise (by simp [raisedBy]) (by simp [impreciseOf])
    · exact ends_emitCounted _ _ rfl (by simp [impreciseOf]) rfl
  | htDeserialize a x =>
    simp only [exec, execHtDeserialize]
    split
    · exact ends_raise (by simp [raisedBy]) (by simp [impreciseOf])
    split
    · rename_i c hc
      refine ends_lost (i := .htDeserialize a x) (s := s) ?_
      rcases huffDeserialize_error _ _ _ _ _ hc with e | e <;> simp [e, impreciseOf]
    · exact ends_done (((setSlot_onlyChanges _ _ _).mono (by simp [writes])).trans
        (((setInPos_onlyChanges _ _).mono (by simp [writes])).trans ((setResult_onlyChanges _ _).mono (by simp [writes]))))
  | htEncode a x =>
    simp only [exec, execHtEncode]
    split
    · rename_i c hc
      rcases slotCode_error _ _ _ _ hc with e | e <;> subst e <;>
        exact ends_raise (by simp [raisedBy]) (by simp [impreciseOf])
    · exact ends_emitCounted _ _ rfl (by simp [impreciseOf]) rfl
  | htDecode a =>
    simp only [exec, execHtDecode]
    split
    · exact ends_raise (by simp [raisedBy]) (by simp [impreciseOf])
    split
    · rename_i c hc
      rw [huffWalk_error _ _ _ _ hc]
      exact ends_lost (i := .htDecode a) (s := s) (by simp [impreciseOf])
    · exact ends_done (((setInPos_onlyChanges _ _).mono (by simp [writes])).trans
        ((setResult_onlyChanges _ _).mono (by simp [writes])))
  | htLen a x =>
    simp only [exec, execHtLen]
    split
    · rename_i c hc
      rcases slotCode_error _ _ _ _ hc with e | e <;> subst e <;>
        exact ends_raise (by simp [raisedBy]) (by simp [impreciseOf])
    · exact ends_done (setResult_onlyChanges _ _)
  | bsPut k =>
    simp only [exec, execBsPut]
    split
    · exact ends_raise (by simp [raisedBy]) (by simp [impreciseOf])
    split
    · rename_i c hc
      rw [emit_error _ _ _ hc]
      exact ends_raise (by simp [raisedBy]) (by simp [impreciseOf])
    · rename_i t ht
      exact ends_done (emit_onlyChanges ht)
  | bsGet k =>
    simp only [exec, execBsGet]
    split
    · exact ends_raise (by simp [raisedBy]) (by simp [impreciseOf])
    split
    · rename_i c hc
      rw [inBits_error _ _ _ _ _ hc]
      exact ends_raise (by simp [raisedBy]) (by simp [impreciseOf])
    · exact ends_done (((setInPos_onlyChanges _ _).mono (by simp [writes])).trans
        ((setResult_onlyChanges _ _).mono (by simp [writes])))
  | bsOutAlign =>
    simp only [exec, execBsOutAlign]
    obtain ⟨t, ht⟩ := emit_padding s
    rw [ht]
    exact ends_done (((emit_onlyChanges ht).mono (by simp [writes])).trans
      ((setResult_onlyChanges _ _).mono (by simp [writes])))
  | bsInAlign => exact ends_done (setInPos_onlyChanges _ _)
  | bsOutReset =>
    refine ends_done fun p hp => ?_
    cases p <;> simp_all [Part.Same, writes, counts, slot, inByte, outByte]
  | bsInSeek =>
    simp only [exec, execBsInSeek]
    split
    · exact ends_raise (by simp [raisedBy]) (by simp [impreciseOf])
    · exact ends_done (setInPos_onlyChanges _ _)

end Sys2Proof.Machine
end

