-- ==== Sys2Proof/Laws/Huffman.lean ====
section
/-! SUPPORT. Huffman trees: codes are walked back, a serialized tree is read back, a built tree's leaves are the symbols of
its table (`spec/43_huffman.md` R181-R190). -/

namespace Sys2Proof.Machine

/-! ## Codes (R183, R190) -/

/-- A symbol has a code exactly when it is a leaf. -/
theorem huffCode_isSome (t : Tree) (x : Nat) : (huffCode t x).isSome ↔ x ∈ huffSymbols t := by
  induction t with
  | leaf y =>
    simp only [huffCode, huffSymbols, List.mem_singleton]
    split <;> simp_all [eq_comm]
  | node c0 c1 ih0 ih1 =>
    simp only [huffCode, huffSymbols, List.mem_append, ← ih0, ← ih1]
    cases huffCode c0 x <;> cases huffCode c1 x <;> simp

/-- The tree walk over a symbol's code reaches the symbol. -/
theorem huffWalk_code {s : State} {t : Tree} {x q : Nat} {p : List Bool} (h : huffCode t x = some p)
    (hi : InputHolds s q p) : huffWalk s t q = .ok (x, q + p.length) := by
  induction t generalizing p q with
  | leaf y =>
    simp only [huffCode] at h
    split at h
    · rename_i e
      simp only [Option.some.injEq] at h
      subst h e
      rfl
    · simp at h
  | node c0 c1 ih0 ih1 =>
    simp only [huffCode] at h
    split at h
    · rename_i r hr
      simp only [Option.some.injEq] at h
      subst h
      rw [huffWalk, inBit_holds hi]
      simp only []
      rw [ih0 hr ((inputHolds_cons _ _ _ _).1 hi).2.2]
      simp [Nat.add_comm, Nat.add_left_comm]
    · split at h
      · rename_i r hr
        simp only [Option.some.injEq] at h
        subst h
        rw [huffWalk, inBit_holds hi]
        simp only []
        rw [ih1 hr ((inputHolds_cons _ _ _ _).1 hi).2.2]
        simp [Nat.add_comm, Nat.add_left_comm]
      · simp at h

/-- A tree walk that ends stays in the input stream, and ends at a leaf. -/
theorem huffWalk_pos (s : State) (t : Tree) (p x q : Nat) (hp : p ≤ 8 * s.inLen) (h : huffWalk s t p = .ok (x, q)) :
    p ≤ q ∧ q ≤ 8 * s.inLen ∧ x ∈ huffSymbols t := by
  induction t generalizing p with
  | leaf y =>
    simp only [huffWalk, Except.ok.injEq, Prod.mk.injEq] at h
    simp [huffSymbols]
    omega
  | node c0 c1 ih0 ih1 =>
    rw [huffWalk] at h
    rcases inBit_cases s p hp with hb | ⟨hq, hb⟩ <;> rw [hb] at h
    · simp at h
    · cases hv : inBitAt s p <;> rw [hv] at h <;> dsimp only at h
      · obtain ⟨a, b, m⟩ := ih0 (p + 1) hq h
        exact ⟨by omega, b, by simp [huffSymbols, m]⟩
      · obtain ⟨a, b, m⟩ := ih1 (p + 1) hq h
        exact ⟨by omega, b, by simp [huffSymbols, m]⟩

/-- A tree walk that ends has read the code of the symbol it ends at, where the leaves are distinct. -/
theorem huffWalk_holds {s : State} {t : Tree} {p x q : Nat} (hp : p ≤ 8 * s.inLen) (hnd : (huffSymbols t).Nodup)
    (h : huffWalk s t p = .ok (x, q)) : ∃ c, huffCode t x = some c ∧ InputHolds s p c ∧ q = p + c.length := by
  induction t generalizing p with
  | leaf y =>
    simp only [huffWalk, Except.ok.injEq, Prod.mk.injEq] at h
    obtain ⟨rfl, rfl⟩ := h
    exact ⟨[], by simp [huffCode], inputHolds_nil _ _ hp, rfl⟩
  | node c0 c1 ih0 ih1 =>
    obtain ⟨n0, n1, hd⟩ := List.nodup_append.1 (show (huffSymbols c0 ++ huffSymbols c1).Nodup from hnd)
    rw [huffWalk] at h
    rcases inBit_cases s p hp with hb | ⟨hq, hb⟩ <;> rw [hb] at h
    · simp at h
    · cases hv : inBitAt s p <;> rw [hv] at h <;> dsimp only at h
      · obtain ⟨c, h1, h2, h3⟩ := ih0 hq n0 h
        refine ⟨false :: c, by simp [huffCode, h1], (inputHolds_cons _ _ _ _).2 ⟨by omega, hv, h2⟩, ?_⟩
        rw [h3, List.length_cons]; omega
      · obtain ⟨c, h1, h2, h3⟩ := ih1 hq n1 h
        have hx : x ∈ huffSymbols c1 := (huffCode_isSome c1 x).1 (by rw [h1]; rfl)
        have h0 : huffCode c0 x = none := by
          cases hc : huffCode c0 x with
          | none => rfl
          | some d => exact absurd rfl (hd x ((huffCode_isSome c0 x).1 (by rw [hc]; rfl)) x hx)
        refine ⟨true :: c, by simp [huffCode, h0, h1], (inputHolds_cons _ _ _ _).2 ⟨by omega, hv, h2⟩, ?_⟩
        rw [h3, List.length_cons]; omega

/-! ## Serialization (R184, R185, R188) -/

/-- Every symbol below A fits the leaf width (R184). -/
theorem lt_two_pow_leafWidth {A x : Nat} (h : x < A) : x < 2 ^ leafWidth A := by
  unfold leafWidth
  split
  · simp; omega
  · have h1 : A - 1 < 2 ^ ((A - 1).log2 + 1) := Nat.lt_log2_self
    omega

/-- The leaf width is the smallest that fits A values (R184). -/
theorem leafWidth_least {A w : Nat} (h : A ≤ 2 ^ w) : leafWidth A ≤ w := by
  unfold leafWidth
  split
  · omega
  · have h1 : 2 ^ (A - 1).log2 ≤ A - 1 := Nat.log2_self_le (by omega)
    have : 2 ^ (A - 1).log2 < 2 ^ w := by omega
    have := (Nat.pow_lt_pow_iff_right (by omega : 1 < 2)).1 this
    omega

/-- How many internal nodes a tree has: one fewer than leaves. -/
def internalNodes : Tree → Nat
  | .leaf _ => 0
  | .node c0 c1 => internalNodes c0 + internalNodes c1 + 1

theorem length_huffSymbols (t : Tree) : (huffSymbols t).length = internalNodes t + 1 := by
  induction t with
  | leaf x => rfl
  | node c0 c1 ih0 ih1 => simp only [huffSymbols, List.length_append, ih0, ih1, internalNodes]; omega

/-- The length of a serialization, `(2L − 1) + L·w` (R185). -/
theorem huffSerialize_length (w : Nat) (t : Tree) :
    (huffSerialize w t).length = 2 * (huffSymbols t).length - 1 + (huffSymbols t).length * w := by
  induction t with
  | leaf x => simp [huffSerialize, huffSymbols]; omega
  | node c0 c1 ih0 ih1 =>
    simp only [huffSerialize, huffSymbols, List.length_cons, List.length_append, ih0, ih1]
    have h0 := length_huffSymbols c0
    have h1 := length_huffSymbols c1
    rw [Nat.add_mul]
    omega

/-- Reading back a serialized tree (R188): from enough depth, with room for its internal nodes and none of its leaves
used, `Des()` gives the tree and the position after it. -/
theorem huffDeserialize_serialize {s : State} {A n : Nat} {t : Tree} {d : DesState}
    (hn : internalNodes t < n) (hint : d.internal + internalNodes t ≤ A - 1) (hlt : ∀ x ∈ huffSymbols t, x < A)
    (hnd : (huffSymbols t).Nodup) (hused : ∀ x ∈ huffSymbols t, x ∉ d.used)
    (hi : InputHolds s d.pos (huffSerialize (leafWidth A) t)) :
    ∃ e, huffDeserialize s A n d = .ok (t, e) ∧ e.pos = d.pos + (huffSerialize (leafWidth A) t).length ∧
      e.internal = d.internal + internalNodes t ∧ ∀ x, x ∈ e.used ↔ x ∈ huffSymbols t ∨ x ∈ d.used := by
  induction t generalizing n d with
  | leaf x =>
    obtain ⟨n, rfl⟩ : ∃ k, n = k + 1 := ⟨n - 1, by simp [internalNodes] at hn; omega⟩
    simp only [huffSerialize] at hi
    have hx : x < A := hlt x (by simp [huffSymbols])
    have hu : x ∉ d.used := hused x (by simp [huffSymbols])
    have hi' := ((inputHolds_cons _ _ _ _).1 hi).2.2
    have hb := inBits_holds (v := 0) hi'
    rw [msbBits_length, bitsNat_msbBits_zero (lt_two_pow_leafWidth hx)] at hb
    rw [huffDeserialize, inBit_holds hi]
    simp only [hb]
    rw [if_neg (by simp [hu]; omega)]
    refine ⟨_, rfl, ?_, ?_, ?_⟩
    · simp [huffSerialize]; omega
    · simp [internalNodes]
    · simp [huffSymbols]
  | node c0 c1 ih0 ih1 =>
    simp only [internalNodes, huffSymbols, List.mem_append] at hn hint hlt hused
    rw [huffSymbols, List.nodup_append] at hnd
    obtain ⟨n0, n1, hdis⟩ := hnd
    obtain ⟨n, rfl⟩ : ∃ k, n = k + 1 := ⟨n - 1, by omega⟩
    simp only [huffSerialize] at hi
    have hi' := ((inputHolds_cons _ _ _ _).1 hi).2.2
    rw [inputHolds_append] at hi'
    rw [huffDeserialize, inBit_holds hi]
    simp only []
    rw [if_neg (by omega)]
    obtain ⟨e0, h0, p0, i0, u0⟩ := ih0 (n := n) (d := { d with pos := d.pos + 1, internal := d.internal + 1 })
      (by omega) (by simp only []; omega) (fun x hx => hlt x (.inl hx)) n0 (fun x hx => hused x (.inl hx)) hi'.1
    simp only [] at p0 i0 u0
    rw [h0]
    simp only []
    obtain ⟨e1, h1, p1, i1, u1⟩ := ih1 (n := n) (d := e0) (by omega) (by omega) (fun x hx => hlt x (.inr hx)) n1
      (by
        intro x hx hin
        rcases (u0 x).1 hin with h | h
        · exact hdis x h x hx rfl
        · exact hused x (.inr hx) h)
      (by rw [p0]; exact hi'.2)
    rw [h1]
    refine ⟨e1, rfl, ?_, ?_, ?_⟩
    · rw [p1, p0]
      simp [huffSerialize]
      omega
    · rw [i1, i0, internalNodes]; omega
    · intro x
      rw [u1, u0, huffSymbols, List.mem_append]
      tauto

/-- What `Des()` reads (R188): leaves below A, distinct, none of them used before; a position in the input stream. -/
theorem huffDeserialize_formed {s : State} {A n : Nat} {d e : DesState} {t : Tree}
    (hp : d.pos ≤ 8 * s.inLen) (h : huffDeserialize s A n d = .ok (t, e)) :
    (∀ x ∈ huffSymbols t, x < A) ∧ (huffSymbols t).Nodup ∧ (∀ x ∈ huffSymbols t, x ∉ d.used) ∧
      (∀ x, x ∈ e.used ↔ x ∈ huffSymbols t ∨ x ∈ d.used) ∧ d.pos ≤ e.pos ∧ e.pos ≤ 8 * s.inLen := by
  induction n generalizing d e t with
  | zero => simp [huffDeserialize] at h
  | succ n ih =>
    rw [huffDeserialize] at h
    rcases inBit_cases s d.pos hp with hb | ⟨hq, hb⟩ <;> rw [hb] at h
    · simp at h
    · cases hv : inBitAt s d.pos <;> rw [hv] at h <;> dsimp only at h
      · split at h
        · simp at h
        · rename_i x q hx
          split at h
          · simp at h
          · rename_i hok
            simp only [Except.ok.injEq, Prod.mk.injEq] at h
            obtain ⟨rfl, rfl⟩ := h
            have := inBits_pos s _ _ _ _ _ hq hx
            simp only [huffSymbols, List.mem_cons, List.not_mem_nil, or_false, forall_eq]
            refine ⟨by omega, by simp, by tauto, by tauto, by omega, by omega⟩
      · split at h
        · simp at h
        · split at h
          · simp at h
          · rename_i c0 d0 h0
            split at h
            · simp at h
            · rename_i c1 d1 h1
              simp only [Except.ok.injEq, Prod.mk.injEq] at h
              obtain ⟨rfl, rfl⟩ := h
              obtain ⟨a0, b0, f0, u0, p0, q0⟩ := ih (by simp only []; exact hq) h0
              obtain ⟨a1, b1, f1, u1, p1, q1⟩ := ih q0 h1
              simp only [] at f0 u0 p0
              simp only [huffSymbols, List.mem_append]
              refine ⟨?_, ?_, ?_, ?_, by omega, q1⟩
              · rintro x (hx | hx)
                · exact a0 x hx
                · exact a1 x hx
              · rw [List.nodup_append]
                refine ⟨b0, b1, ?_⟩
                intro x hx y hy e
                subst e
                exact f1 x hy ((u0 x).2 (.inl hx))
              · rintro x (hx | hx)
                · exact f0 x hx
                · exact fun hd => f1 x hx ((u0 x).2 (.inr hd))
              · intro x
                rw [u1, u0]
                tauto

/-! ## Building (R181, R182) -/

/-- The symbols of a pool's nodes. -/
def poolSymbols (pool : List PoolEntry) : List Nat := pool.flatMap fun e => huffSymbols e.node

/-- Taking the smallest element takes one element of the pool and leaves the others. -/
theorem poolTakeMin_perm {pool rest : List PoolEntry} {x : PoolEntry} (h : poolTakeMin pool = some (x, rest)) :
    (x :: rest).Perm pool := by
  induction pool generalizing x rest with
  | nil => simp [poolTakeMin] at h
  | cons e r ih =>
    rw [poolTakeMin] at h
    split at h
    · rename_i hn
      simp only [Option.some.injEq, Prod.mk.injEq] at h
      obtain ⟨rfl, rfl⟩ := h
      cases r with
      | nil => exact List.Perm.refl _
      | cons e' r' =>
        rw [poolTakeMin] at hn
        repeat' split at hn
        all_goals simp at hn
    · rename_i m r' hm
      split at h
      · simp only [Option.some.injEq, Prod.mk.injEq] at h
        obtain ⟨rfl, rfl⟩ := h
        exact List.Perm.refl _
      · simp only [Option.some.injEq, Prod.mk.injEq] at h
        obtain ⟨rfl, rfl⟩ := h
        exact (List.Perm.swap e m r').trans (List.Perm.cons e (ih hm))

theorem poolTakeMin_none {pool : List PoolEntry} (h : poolTakeMin pool = none) : pool = [] := by
  cases pool with
  | nil => rfl
  | cons e r =>
    rw [poolTakeMin] at h
    repeat' split at h
    all_goals simp at h

/-- The element taken has the smallest (weight, seq). -/
theorem poolTakeMin_min {pool rest : List PoolEntry} {x : PoolEntry} (h : poolTakeMin pool = some (x, rest)) :
    ∀ e ∈ rest, x.weight < e.weight ∨ (x.weight = e.weight ∧ x.seq ≤ e.seq) := by
  induction pool generalizing x rest with
  | nil => simp [poolTakeMin] at h
  | cons e r ih =>
    rw [poolTakeMin] at h
    split at h
    · simp only [Option.some.injEq, Prod.mk.injEq] at h
      obtain ⟨rfl, rfl⟩ := h
      simp
    · rename_i m r' hm
      have hmin := ih hm
      have hperm := poolTakeMin_perm hm
      split at h
      · rename_i hb
        simp only [Option.some.injEq, Prod.mk.injEq] at h
        obtain ⟨rfl, rfl⟩ := h
        simp only [poolBefore, Bool.or_eq_true, decide_eq_true_eq, Bool.and_eq_true, beq_iff_eq] at hb
        intro f hf
        have : f ∈ m :: r' := hperm.mem_iff.2 hf
        rcases List.mem_cons.1 this with rfl | hf'
        · omega
        · have := hmin f hf'; omega
      · rename_i hb
        simp only [Option.some.injEq, Prod.mk.injEq] at h
        obtain ⟨rfl, rfl⟩ := h
        simp only [poolBefore, Bool.or_eq_true, decide_eq_true_eq, Bool.and_eq_true, beq_iff_eq, not_or, not_and] at hb
        intro f hf
        rcases List.mem_cons.1 hf with rfl | hf'
        · omega
        · exact hmin f hf'

/-- The merge loop of a non-empty pool, given as many rounds as the pool has elements, ends in a tree with the pool's
symbols. -/
theorem poolMerge_symbols (n next : Nat) (pool : List PoolEntry) (hn : pool.length ≤ n) (hne : pool ≠ []) :
    ∃ t, poolMerge n next pool = some t ∧ (huffSymbols t).Perm (poolSymbols pool) := by
  induction n generalizing next pool with
  | zero =>
    have : pool = [] := List.length_eq_zero_iff.1 (by omega)
    exact absurd this hne
  | succ n ih =>
    rw [poolMerge]
    cases hx : poolTakeMin pool with
    | none => exact absurd (poolTakeMin_none hx) hne
    | some r =>
      obtain ⟨x, rest⟩ := r
      have hp := poolTakeMin_perm hx
      have hlen := hp.length_eq
      simp only [List.length_cons] at hlen
      simp only []
      cases hy : poolTakeMin rest with
      | none =>
        have hr := poolTakeMin_none hy
        subst hr
        refine ⟨x.node, rfl, ?_⟩
        have := hp.flatMap_right (fun e => huffSymbols e.node)
        simpa [poolSymbols] using this
      | some r' =>
        obtain ⟨y, rest'⟩ := r'
        have hp' := poolTakeMin_perm hy
        have hlen' := hp'.length_eq
        simp only [List.length_cons] at hlen'
        simp only []
        obtain ⟨t, ht, hs⟩ := ih (next + 1)
          ({ weight := x.weight + y.weight, seq := next, node := .node x.node y.node } :: rest')
          (by simp only [List.length_cons]; omega) (by simp)
        refine ⟨t, ht, hs.trans ?_⟩
        have h1 := hp.flatMap_right (fun e => huffSymbols e.node)
        have h2 := hp'.flatMap_right (fun e => huffSymbols e.node)
        simp only [List.flatMap_cons] at h1 h2
        simp only [poolSymbols, List.flatMap_cons, huffSymbols, List.append_assoc]
        exact (List.Perm.append_left _ h2).trans h1

theorem poolSymbols_huffPool (leaves : List (Nat × Nat)) : poolSymbols (huffPool leaves) = leaves.map Prod.fst := by
  have aux : ∀ k, poolSymbols ((leaves.zipIdx k).map fun p =>
      ({ weight := p.1.2, seq := p.2, node := .leaf p.1.1 } : PoolEntry)) = leaves.map Prod.fst := by
    induction leaves with
    | nil => intro k; rfl
    | cons a l ih =>
      intro k
      have := ih (k + 1)
      simp only [poolSymbols, List.zipIdx_cons, List.map_cons, List.flatMap_cons, huffSymbols] at this ⊢
      rw [this]
      rfl
  exact aux 0

/-- The leaves of a built tree are the symbols of the table's leaves, each once. -/
theorem huffBuild_symbols (c : List Nat) :
    (huffSymbols (huffBuild c)).Perm ((huffLeavesOrZero c).map Prod.fst) := by
  have hne : huffLeavesOrZero c ≠ [] := by
    unfold huffLeavesOrZero
    split
    · simp
    · rename_i h; exact h
  have hlen : (huffPool (huffLeavesOrZero c)).length = (huffLeavesOrZero c).length := by simp [huffPool]
  obtain ⟨t, ht, hs⟩ := poolMerge_symbols _ (huffPool (huffLeavesOrZero c)).length (huffPool (huffLeavesOrZero c))
    (Nat.le_refl _) (by
      intro e
      have := congrArg List.length e
      rw [hlen] at this
      exact hne (List.length_eq_zero_iff.1 this))
  have hb : huffBuild c = t := by simp only [huffBuild, ht, Option.getD_some]
  rw [hb]
  rwa [poolSymbols_huffPool] at hs

/-- The leaves of a table with a count above 0: the symbols with one, in rising order. -/
theorem huffLeaves_symbols (v : List Nat) :
    (huffLeaves v).map Prod.fst = (List.range v.length).filter fun x => decide (0 < v[x]?.getD 0) := by
  have aux : ∀ (l : List Nat) k, (((l.zipIdx k).filter fun p => decide (0 < p.1)).map fun p => (p.2, p.1)).map Prod.fst
      = (List.range' k l.length).filter fun x => decide (0 < l[x - k]?.getD 0) := by
    intro l
    induction l with
    | nil => intro k; rfl
    | cons a l ih =>
      intro k
      have hrest : (List.range' (k + 1) l.length).filter (fun x => decide (0 < (a :: l)[x - k]?.getD 0))
          = (List.range' (k + 1) l.length).filter fun x => decide (0 < l[x - (k + 1)]?.getD 0) := by
        apply List.filter_congr
        intro x hx
        have := (List.mem_range'_1.1 hx).1
        rw [show x - k = (x - (k + 1)) + 1 by omega, List.getElem?_cons_succ]
      simp only [List.zipIdx_cons, List.length_cons, List.range'_succ, List.filter_cons]
      have hk : (a :: l)[k - k]?.getD 0 = a := by simp
      simp only [hk, hrest, ← ih (k + 1)]
      by_cases ha : 0 < a <;> simp [ha]
  have h := aux v 0
  simp only [Nat.sub_zero] at h
  rw [List.range_eq_range']
  exact h

/-- The merge loop, given as many rounds as the pool has elements, is the pseudocode's loop. -/
theorem poolMerge_builds (n next : Nat) (pool : List PoolEntry) (hn : pool.length ≤ n) (hne : pool ≠ []) :
    ∃ t, poolMerge n next pool = some t ∧ Builds next pool t := by
  induction n generalizing next pool with
  | zero =>
    have : pool = [] := List.length_eq_zero_iff.1 (by omega)
    exact absurd this hne
  | succ n ih =>
    rw [poolMerge]
    cases hx : poolTakeMin pool with
    | none => exact absurd (poolTakeMin_none hx) hne
    | some r =>
      obtain ⟨x, rest⟩ := r
      have hp := poolTakeMin_perm hx
      have hlen := hp.length_eq
      simp only [List.length_cons] at hlen
      simp only []
      cases hy : poolTakeMin rest with
      | none =>
        have hr := poolTakeMin_none hy
        subst hr
        have hpool : pool = [x] := List.perm_singleton.1 hp.symm
        subst hpool
        exact ⟨x.node, rfl, .last next x⟩
      | some r' =>
        obtain ⟨y, rest'⟩ := r'
        have hp' := poolTakeMin_perm hy
        have hlen' := hp'.length_eq
        simp only [List.length_cons] at hlen'
        obtain ⟨t, ht, hb⟩ := ih (next + 1)
          ({ weight := x.weight + y.weight, seq := next, node := .node x.node y.node } :: rest')
          (by simp only [List.length_cons]; omega) (by simp)
        refine ⟨t, ht, .merge next x y (hp.symm.trans (List.Perm.cons x hp'.symm)) ?_ (poolTakeMin_min hy) hb⟩
        intro e he
        exact poolTakeMin_min hx e (hp'.mem_iff.1 he)

/-- The leaves with their weights: the symbols with a count, in rising order, each with its count. -/
theorem huffLeaves_eq (v : List Nat) : huffLeaves v =
    ((List.range v.length).filter fun x => decide (0 < v[x]?.getD 0)).map fun x => (x, v[x]?.getD 0) := by
  rw [← huffLeaves_symbols, List.map_map]
  have hid : ∀ p ∈ huffLeaves v, ((fun x => (x, v[x]?.getD 0)) ∘ Prod.fst) p = id p := by
    intro p hp
    simp only [huffLeaves, List.mem_map, List.mem_filter] at hp
    obtain ⟨q, ⟨hq, -⟩, rfl⟩ := hp
    have := List.mem_zipIdx_iff_getElem?.1 hq
    simp only [Function.comp, this, Option.getD_some, id]
  rw [List.map_congr_left hid, List.map_id]

/-- The leaves HuffBuild starts with, with symbol 0 alone where no symbol has a count (R182). -/
theorem huffLeavesOrZero_eq (v : List Nat) : huffLeavesOrZero v =
    (if (List.range v.length).filter (fun x => decide (0 < v[x]?.getD 0)) = [] then [0]
      else (List.range v.length).filter fun x => decide (0 < v[x]?.getD 0)).map fun x => (x, max 1 (v[x]?.getD 0)) := by
  unfold huffLeavesOrZero
  rw [huffLeaves_eq]
  by_cases h : (List.range v.length).filter (fun x => decide (0 < v[x]?.getD 0)) = []
  · have h0 : v[0]?.getD 0 = 0 := by
      cases v with
      | nil => rfl
      | cons a l =>
        have := List.filter_eq_nil_iff.1 h 0 (by simp)
        simpa using this
    simp [h, h0]
  · rw [if_neg h]
    split
    · rename_i hn
      exact absurd (List.map_eq_nil_iff.1 hn) h
    · apply List.map_congr_left
      intro x hx
      have : 0 < v[x]?.getD 0 := by simpa using (List.mem_filter.1 hx).2
      rw [Nat.max_eq_right this]

/-- HuffBuild of a bank's counts is the pseudocode's loop, run from its starting pool. -/
theorem huffBuild_builds (s : State) (b : BitVec 2) :
    Builds (builtSymbols s b).length (startPool s b) (huffBuild ((counts s b).map BitVec.toNat)) := by
  have hv : ∀ x, ((counts s b).map BitVec.toNat)[x]?.getD 0 = count s b x := by
    intro x
    simp only [count, List.getElem?_map]
    cases (counts s b)[x]? <;> rfl
  have hleaves : huffLeavesOrZero ((counts s b).map BitVec.toNat) =
      (builtSymbols s b).map fun x => (x, max 1 (count s b x)) := by
    rw [huffLeavesOrZero_eq]
    simp only [hv, List.length_map]
    rfl
  have hpool : huffPool (huffLeavesOrZero ((counts s b).map BitVec.toNat)) = startPool s b := by
    rw [hleaves, huffPool, startPool, List.zipIdx_map, List.map_map]
    rfl
  have hlen : (startPool s b).length = (builtSymbols s b).length := by simp [startPool]
  have hne : startPool s b ≠ [] := by
    intro h
    have : (builtSymbols s b).length = 0 := by rw [← hlen, h]; rfl
    have := List.length_eq_zero_iff.1 this
    unfold builtSymbols at this
    simp only [] at this
    split at this
    · simp at this
    · contradiction
  obtain ⟨t, ht, hb⟩ := poolMerge_builds _ (startPool s b).length (startPool s b) (Nat.le_refl _) hne
  have : huffBuild ((counts s b).map BitVec.toNat) = t := by
    simp only [huffBuild, hpool, ht, Option.getD_some]
  rw [this, ← hlen]
  exact hb

end Sys2Proof.Machine
end

