-- ==== Sys2Proof/Laws/ValueTable.lean ====
section
/-! SUPPORT. The value table: the reference tree has a leaf for every symbol, each of the three payloads is read back to the
values it was made from, what a payload is read to is in rising order, and the translation of such values
(`spec/42_value_table.md` R150-R161, R164). -/

namespace Sys2Proof.Machine

/-! ## The reference code (R151) -/

theorem refWeight_pos (j : Nat) : 0 < refWeight j := by
  unfold refWeight
  split
  · exact Nat.pow_pos (by omega)
  · omega

/-- The leaves of `RefCode(M)` are the symbols 0..M, each once. -/
theorem refTree_symbols (m : Nat) : (huffSymbols (refTree m)).Perm (List.range (m + 1)) := by
  have hs := huffLeaves_symbols ((List.range (m + 1)).map refWeight)
  have hall : ((List.range ((List.range (m + 1)).map refWeight).length).filter fun x =>
      decide (0 < ((List.range (m + 1)).map refWeight)[x]?.getD 0)) = List.range (m + 1) := by
    rw [List.length_map, List.length_range]
    apply List.filter_eq_self.2
    intro x hx
    have hx' := List.mem_range.1 hx
    simp [List.getElem?_map, List.getElem?_range hx', refWeight_pos]
  rw [hall] at hs
  have hz : huffLeavesOrZero ((List.range (m + 1)).map refWeight) = huffLeaves ((List.range (m + 1)).map refWeight) := by
    unfold huffLeavesOrZero
    split
    · rename_i he
      rw [he] at hs
      simp [List.range_succ] at hs
    · rfl
  have := huffBuild_symbols ((List.range (m + 1)).map refWeight)
  rwa [hz, hs] at this

theorem mem_refTree (m x : Nat) (h : x ≤ m) : x ∈ huffSymbols (refTree m) := by
  rw [(refTree_symbols m).mem_iff, List.mem_range]
  omega

theorem codeAll_cons (t : Tree) (x : Nat) (xs : List Nat) : codeAll t (x :: xs) = (huffCode t x).getD [] ++ codeAll t xs := by
  simp [codeAll]

/-- One symbol of a coded list is walked back. -/
theorem huffWalk_codeAll {s : State} {t : Tree} {x p : Nat} {xs : List Nat} (hx : x ∈ huffSymbols t)
    (h : InputHolds s p (codeAll t (x :: xs))) :
    huffWalk s t p = .ok (x, p + ((huffCode t x).getD []).length) ∧
      InputHolds s (p + ((huffCode t x).getD []).length) (codeAll t xs) := by
  rw [codeAll_cons, inputHolds_append] at h
  obtain ⟨c, hc⟩ := Option.isSome_iff_exists.1 ((huffCode_isSome t x).2 hx)
  refine ⟨?_, h.2⟩
  have := h.1
  rw [hc, Option.getD_some] at this ⊢
  exact huffWalk_code hc this

/-! ## Values in rising order -/

/-- The values are strictly rising, at least `k` and below `m`, and `k` is at most `m`. -/
def RisingIn (m : Nat) : Nat → List Nat → Prop
  | k, [] => k ≤ m
  | k, v :: vs => k ≤ v ∧ v < m ∧ RisingIn m (v + 1) vs

theorem RisingIn.le {m k : Nat} {vs : List Nat} (h : RisingIn m k vs) : k ≤ m := by
  cases vs with
  | nil => exact h
  | cons v vs => exact le_of_lt (lt_of_le_of_lt h.1 h.2.1)

theorem RisingIn.mono {m j k : Nat} {vs : List Nat} (hjk : j ≤ k) (h : RisingIn m k vs) : RisingIn m j vs := by
  cases vs with
  | nil => exact hjk.trans h
  | cons v vs => exact ⟨hjk.trans h.1, h.2⟩

theorem RisingIn.mem {m k : Nat} {vs : List Nat} (h : RisingIn m k vs) : ∀ v ∈ vs, k ≤ v ∧ v < m := by
  induction vs generalizing k with
  | nil => simp
  | cons w vs ih =>
    obtain ⟨h1, h2, h3⟩ := h
    intro v hv
    rcases List.mem_cons.1 hv with rfl | hv
    · exact ⟨h1, h2⟩
    · have := ih h3 v hv
      omega

theorem RisingIn.nodup {m k : Nat} {vs : List Nat} (h : RisingIn m k vs) : vs.Nodup := by
  induction vs generalizing k with
  | nil => simp
  | cons w vs ih =>
    rw [List.nodup_cons]
    exact ⟨fun hw => by have := h.2.2.mem w hw; omega, ih h.2.2⟩

theorem RisingIn.length_le {m k : Nat} {vs : List Nat} (h : RisingIn m k vs) : vs.length ≤ m - k := by
  induction vs generalizing k with
  | nil => simp
  | cons w vs ih =>
    have := ih h.2.2
    have := h.1
    have := h.2.1
    simp only [List.length_cons]
    omega

/-- A run of values before rising values. -/
theorem RisingIn.append_range {m k l : Nat} {vs : List Nat} (h : RisingIn m (k + l) vs) :
    RisingIn m k (List.range' k l ++ vs) := by
  induction l generalizing k with
  | zero => simpa using h
  | succ l ih =>
    have := h.le
    rw [List.range'_succ, List.cons_append]
    exact ⟨Nat.le_refl _, by omega, ih (by rw [show k + 1 + l = k + (l + 1) by omega]; exact h)⟩

/-- Filtering a range keeps it rising. -/
theorem risingIn_filter (f : Nat → Bool) (k n : Nat) : RisingIn (k + n) k ((List.range' k n).filter f) := by
  induction n generalizing k with
  | zero => simp [RisingIn]
  | succ n ih =>
    have h := ih (k + 1)
    rw [show k + 1 + n = k + (n + 1) by omega] at h
    rw [List.range'_succ, List.filter_cons]
    split
    · exact ⟨Nat.le_refl _, by omega, h⟩
    · exact h.mono (by omega)

theorem risingIn_occupied (s : State) (m : Nat) : RisingIn m 0 (occupied s m) := by
  have := risingIn_filter (presentAt s) 0 m
  rwa [Nat.zero_add, ← List.range_eq_range'] at this

/-- Rising values are the members among the values of their range, in order. -/
theorem RisingIn.filter_mem {m k : Nat} {vs : List Nat} (h : RisingIn m k vs) :
    (List.range' k (m - k)).filter (fun v => decide (v ∈ vs)) = vs := by
  induction vs generalizing k with
  | nil => simp
  | cons w vs ih =>
    obtain ⟨h1, h2, h3⟩ := h
    have e : List.range' k (m - k) = List.range' k (w - k) ++ w :: List.range' (w + 1) (m - (w + 1)) := by
      rw [← List.range'_succ, show m - k = (w - k) + (m - (w + 1) + 1) by omega, ← List.range'_append_1]
      congr 1
      rw [show k + (w - k) = w by omega]
    rw [e, List.filter_append, List.filter_cons]
    have hpre : (List.range' k (w - k)).filter (fun v => decide (v ∈ w :: vs)) = [] := by
      apply List.filter_eq_nil_iff.2
      intro v hv
      have hv' := List.mem_range'_1.1 hv
      simp only [List.mem_cons, decide_eq_true_eq, not_or]
      exact ⟨by omega, fun hin => by have := h3.mem v hin; omega⟩
    have hpost : (List.range' (w + 1) (m - (w + 1))).filter (fun v => decide (v ∈ w :: vs))
        = (List.range' (w + 1) (m - (w + 1))).filter (fun v => decide (v ∈ vs)) := by
      apply List.filter_congr
      intro v hv
      have hv' := List.mem_range'_1.1 hv
      have : v ≠ w := by omega
      simp [this]
    rw [hpre, hpost, ih h3]
    simp

/-! ## Reading back a payload -/

/-- The bitmap payload is read back (R153). -/
theorem readBitmap_holds {s : State} (f : Nat → Bool) {k n p : Nat} (h : InputHolds s p ((List.range' k n).map f)) :
    readBitmap s n k p = .ok ((List.range' k n).filter f, p + n) := by
  induction n generalizing k p with
  | zero => rfl
  | succ n ih =>
    rw [List.range'_succ, List.map_cons] at h
    rw [readBitmap, inBit_holds h]
    simp only []
    rw [ih ((inputHolds_cons _ _ _ _).1 h).2.2, List.range'_succ, List.filter_cons]
    simp [Nat.add_comm, Nat.add_left_comm]

/-- The delta payload is read back (R154): `n` rounds are enough for fewer than `n` values. -/
theorem readDelta_holds {s : State} {m n next p : Nat} {vs : List Nat} (hr : RisingIn m next vs) (hn : vs.length < n)
    (h : InputHolds s p (codeAll (refTree m) (gapsFrom m next vs))) :
    readDelta s (refTree m) m n next p = .ok (vs, p + (codeAll (refTree m) (gapsFrom m next vs)).length) := by
  induction vs generalizing n next p with
  | nil =>
    obtain ⟨n, rfl⟩ : ∃ k, n = k + 1 := ⟨n - 1, by simp at hn; omega⟩
    simp only [gapsFrom] at h ⊢
    have hle : next ≤ m := hr
    obtain ⟨hw, -⟩ := huffWalk_codeAll (mem_refTree m (m - next) (by omega)) h
    rw [readDelta, hw]
    simp only []
    rw [if_pos (by omega)]
    simp [codeAll]
  | cons v vs ih =>
    obtain ⟨n, rfl⟩ : ∃ k, n = k + 1 := ⟨n - 1, by simp at hn; omega⟩
    simp only [gapsFrom] at h ⊢
    obtain ⟨h1, h2, h3⟩ := hr
    obtain ⟨hw, hi⟩ := huffWalk_codeAll (mem_refTree m (v - next) (by omega)) h
    have e : next + (v - next) = v := by omega
    rw [readDelta, hw]
    simp only [e]
    rw [if_neg (by omega), if_neg (by omega), ih h3 (by simp at hn; omega) hi, codeAll_cons]
    simp [Nat.add_assoc]

/-- The runs of a bit list are at most one more than its bits. -/
theorem runLengths_length (cur : Bool) (n : Nat) (bs : List Bool) :
    1 ≤ (runLengths cur n bs).length ∧ (runLengths cur n bs).length ≤ bs.length + 1 := by
  induction bs generalizing cur n with
  | nil => simp [runLengths]
  | cons b bs ih =>
    rw [runLengths]
    split
    · have := ih cur (n + 1)
      simp only [List.length_cons]
      omega
    · have := ih b 1
      simp only [List.length_cons]
      omega

/-- The range payload's runs are read back (R155). -/
theorem readRuns_holds {s : State} (f : Nat → Bool) {m i sum a len n p : Nat} {cur : Bool}
    (ha : a = sum + n) (hm : m = a + len) (hi : (i % 2 = 1) = (cur = true)) (hn : 1 ≤ i → 1 ≤ n)
    (h : InputHolds s p (codeAll (refTree m) (runLengths cur n ((List.range' a len).map f)))) :
    readRuns s (refTree m) m (runLengths cur n ((List.range' a len).map f)).length i sum p =
      .ok ((if cur then List.range' sum n else []) ++ (List.range' a len).filter f,
        p + (codeAll (refTree m) (runLengths cur n ((List.range' a len).map f))).length) := by
  induction len generalizing i sum a n p cur with
  | zero =>
    simp only [List.range'_zero, List.map_nil, runLengths] at h ⊢
    obtain ⟨hw, -⟩ := huffWalk_codeAll (mem_refTree m n (by omega)) h
    simp only [List.length_cons, List.length_nil, readRuns]
    rw [hw]
    simp only []
    rw [if_neg (by omega), if_neg (by omega), if_pos (by omega)]
    simp only [hi]
    simp [codeAll]
  | succ len ih =>
    simp only [List.range'_succ, List.map_cons, runLengths] at h ⊢
    split at h
    · rename_i hc
      rw [if_pos hc]
      rw [ih (by omega) (by omega) hi (by omega) h]
      rw [List.filter_cons, hc]
      cases cur
      · simp
      · simp only [if_true]
        have e : List.range' sum (n + 1) = List.range' sum n ++ [a] := by
          rw [List.range'_1_concat, ha]
        rw [e]
        simp
    · rename_i hc
      rw [if_neg hc]
      obtain ⟨hw, hin⟩ := huffWalk_codeAll (mem_refTree m n (by omega)) h
      have hb : f a = !cur := by revert hc; cases f a <;> cases cur <;> simp
      have hi' : ((i + 1) % 2 = 1) = (f a = true) := by
        rw [hb]
        cases cur <;> simp at hi ⊢ <;> omega
      have := ih (i := i + 1) (sum := sum + n) (a := a + 1) (n := 1) (cur := f a)
        (p := p + ((huffCode (refTree m) n).getD []).length) (by omega) (by omega) hi' (by omega) hin
      simp only [List.length_cons, readRuns]
      rw [hw]
      simp only []
      rw [if_neg (by omega), if_neg (by omega), this]
      simp only [hi, List.filter_cons, codeAll_cons, List.length_append]
      have : ∀ x y z : Nat, x + y + z = x + (y + z) := by omega
      rw [this]
      congr 2
      cases hfa : f a
      · simp
      · simp [ha]

theorem occupied_eq (s : State) (m : Nat) : occupied s m = (List.range' 0 m).filter (presentAt s) := by
  rw [occupied, List.range_eq_range']

theorem bitmapBits_eq (s : State) (m : Nat) : bitmapBits s m = (List.range' 0 m).map (presentAt s) := by
  rw [bitmapBits, List.range_eq_range']

theorem occupied_length_le (s : State) (m : Nat) : (occupied s m).length ≤ m := by
  have := (risingIn_occupied s m).length_le
  omega

theorem bestTag_le (a b c : Nat) : bestTag a b c ≤ 2 := by
  unfold bestTag
  repeat' split
  all_goals omega

/-- Whatever tag is chosen, the table read back is the table written (R156, R164): the values present below `m`. -/
theorem readTable_holds {s t : State} {m p tag : Nat} (htag : tag ≤ 2)
    (h : InputHolds t p (msbBits 2 tag ++ payload s m tag)) :
    readTable t m p = .ok (tag, occupied s m, p + (2 + (payload s m tag).length)) := by
  rw [inputHolds_append, msbBits_length] at h
  obtain ⟨h1, h2⟩ := h
  have hb := inBits_holds (v := 0) h1
  rw [msbBits_length, bitsNat_msbBits_zero (by omega)] at hb
  have e : ∀ n, p + 2 + n = p + (2 + n) := fun n => Nat.add_assoc _ _ _
  rw [readTable, hb]
  simp only []
  rcases (by omega : tag = 0 ∨ tag = 1 ∨ tag = 2) with rfl | rfl | rfl
  · simp only [payload] at h2 ⊢
    rw [bitmapBits_eq] at h2 ⊢
    rw [readBitmap_holds _ h2]
    simp [occupied_eq, e]
  · simp only [payload, deltaSymbols] at h2 ⊢
    rw [readDelta_holds (risingIn_occupied s m) (by have := occupied_length_le s m; omega) h2]
    simp [e]
  · simp only [payload, rangeSymbols, presenceRuns] at h2 ⊢
    rw [bitmapBits_eq] at h2 ⊢
    have hl := runLengths_length false 0 ((List.range' 0 m).map (presentAt s))
    simp only [List.length_map, List.length_range'] at hl
    obtain ⟨hw, hi⟩ := huffWalk_codeAll (mem_refTree m _ (by omega)) h2
    have := readRuns_holds (s := t) (presentAt s) (m := m) (i := 0) (sum := 0) (a := 0) (len := m) (n := 0)
      (cur := false) (by omega) (by omega) (by simp) (by omega) hi
    rw [readRange, hw]
    simp only []
    rw [show ((runLengths false 0 ((List.range' 0 m).map (presentAt s))).length - 1) + 1
      = (runLengths false 0 ((List.range' 0 m).map (presentAt s))).length by omega, this]
    simp [occupied_eq, codeAll_cons, e, Nat.add_assoc]

/-! ## What is read is in rising order, at a position in the input stream -/

theorem readBitmap_rising {s : State} {n i p r : Nat} {vs : List Nat} (hp : p ≤ 8 * s.inLen)
    (h : readBitmap s n i p = .ok (vs, r)) : RisingIn (i + n) i vs ∧ p ≤ r ∧ r ≤ 8 * s.inLen := by
  induction n generalizing i p r vs with
  | zero =>
    simp only [readBitmap, Except.ok.injEq, Prod.mk.injEq] at h
    obtain ⟨rfl, rfl⟩ := h
    exact ⟨by simp [RisingIn], Nat.le_refl _, hp⟩
  | succ n ih =>
    rw [readBitmap] at h
    rcases inBit_cases s p hp with hb | ⟨hq, hb⟩ <;> rw [hb] at h
    · simp at h
    · dsimp only at h
      split at h
      · simp at h
      · rename_i ws q hw
        simp only [Except.ok.injEq, Prod.mk.injEq] at h
        obtain ⟨rfl, rfl⟩ := h
        obtain ⟨h1, h2, h3⟩ := ih hq hw
        rw [show i + 1 + n = i + (n + 1) by omega] at h1
        refine ⟨?_, by omega, h3⟩
        split
        · exact ⟨Nat.le_refl _, by omega, h1⟩
        · exact h1.mono (by omega)

theorem readDelta_rising {s : State} {t : Tree} {m n next p r : Nat} {vs : List Nat} (hp : p ≤ 8 * s.inLen)
    (hm : next ≤ m) (h : readDelta s t m n next p = .ok (vs, r)) : RisingIn m next vs ∧ p ≤ r ∧ r ≤ 8 * s.inLen := by
  induction n generalizing next p r vs with
  | zero => simp [readDelta] at h
  | succ n ih =>
    rw [readDelta] at h
    split at h
    · simp at h
    · rename_i g q hw
      obtain ⟨hpq, hq, -⟩ := huffWalk_pos _ _ _ _ _ hp hw
      split at h
      · simp only [Except.ok.injEq, Prod.mk.injEq] at h
        obtain ⟨rfl, rfl⟩ := h
        exact ⟨hm, hpq, hq⟩
      · split at h
        · simp at h
        · split at h
          · simp at h
          · rename_i ws q' hr
            simp only [Except.ok.injEq, Prod.mk.injEq] at h
            obtain ⟨rfl, rfl⟩ := h
            obtain ⟨h1, h2, h3⟩ := ih hq (by omega) hr
            exact ⟨⟨by omega, by omega, h1⟩, by omega, h3⟩

theorem readRuns_rising {s : State} {t : Tree} {m n i sum p r : Nat} {vs : List Nat} (hp : p ≤ 8 * s.inLen)
    (hm : sum ≤ m) (h : readRuns s t m n i sum p = .ok (vs, r)) : RisingIn m sum vs ∧ p ≤ r ∧ r ≤ 8 * s.inLen := by
  induction n generalizing i sum p r vs with
  | zero =>
    rw [readRuns] at h
    split at h
    · simp only [Except.ok.injEq, Prod.mk.injEq] at h
      obtain ⟨rfl, rfl⟩ := h
      exact ⟨hm, Nat.le_refl _, hp⟩
    · simp at h
  | succ n ih =>
    rw [readRuns] at h
    split at h
    · simp at h
    · rename_i l q hw
      obtain ⟨hpq, hq, -⟩ := huffWalk_pos _ _ _ _ _ hp hw
      split at h
      · simp at h
      · split at h
        · simp at h
        · split at h
          · simp at h
          · rename_i ws q' hr
            simp only [Except.ok.injEq, Prod.mk.injEq] at h
            obtain ⟨rfl, rfl⟩ := h
            obtain ⟨h1, h2, h3⟩ := ih hq (by omega) hr
            refine ⟨?_, by omega, h3⟩
            split
            · exact h1.append_range
            · exact h1.mono (by omega)

/-- The values a table is read to are rising and below `m`, the tag is 0, 1 or 2, and the position is in the input. -/
theorem readTable_rising {s : State} {m p r tag : Nat} {vs : List Nat} (hp : p ≤ 8 * s.inLen)
    (h : readTable s m p = .ok (tag, vs, r)) : RisingIn m 0 vs ∧ tag ≤ 2 ∧ p ≤ r ∧ r ≤ 8 * s.inLen := by
  rw [readTable] at h
  split at h
  · simp at h
  · rename_i tg q hb
    obtain ⟨hq1, hq2⟩ := inBits_pos _ _ _ _ _ _ hp hb
    split at h
    · simp at h
    · rename_i ws r' hr
      simp only [Except.ok.injEq, Prod.mk.injEq] at h
      obtain ⟨rfl, rfl, rfl⟩ := h
      split at hr
      · have := readBitmap_rising hq2 hr
        rw [Nat.zero_add] at this
        exact ⟨this.1, by omega, by omega, this.2.2⟩
      · have := readDelta_rising hq2 (Nat.zero_le _) hr
        exact ⟨this.1, by omega, by omega, this.2.2⟩
      · rw [readRange] at hr
        split at hr
        · simp at hr
        · rename_i c q' hw
          obtain ⟨hpq, hq', -⟩ := huffWalk_pos _ _ _ _ _ hq2 hw
          have := readRuns_rising hq' (Nat.zero_le _) hr
          exact ⟨this.1, by omega, by omega, this.2.2⟩
      · simp at hr

/-! ## What is read is the payload of the values read -/

theorem refTree_nodup (m : Nat) : (huffSymbols (refTree m)).Nodup :=
  (refTree_symbols m).nodup_iff.2 List.nodup_range

theorem readBitmap_payload {s : State} {n i p r : Nat} {vs : List Nat} (hp : p ≤ 8 * s.inLen)
    (h : readBitmap s n i p = .ok (vs, r)) :
    InputHolds s p ((List.range' i n).map fun v => decide (v ∈ vs)) ∧ r = p + n := by
  induction n generalizing i p r vs with
  | zero =>
    simp only [readBitmap, Except.ok.injEq, Prod.mk.injEq] at h
    obtain ⟨rfl, rfl⟩ := h
    exact ⟨inputHolds_nil _ _ hp, rfl⟩
  | succ n ih =>
    rw [readBitmap] at h
    rcases inBit_cases s p hp with hb | ⟨hq, hb⟩ <;> rw [hb] at h
    · simp at h
    · dsimp only at h
      split at h
      · simp at h
      · rename_i ws q hw
        simp only [Except.ok.injEq, Prod.mk.injEq] at h
        obtain ⟨rfl, rfl⟩ := h
        obtain ⟨h1, h2⟩ := ih hq hw
        have hmem := (readBitmap_rising hq hw).1.mem
        have hi : i ∉ ws := fun hi => absurd (hmem i hi).1 (by omega)
        have hcons : (List.range' i (n + 1)).map (fun v => decide (v ∈ if inBitAt s p = true then i :: ws else ws)) =
            inBitAt s p :: (List.range' (i + 1) n).map fun v => decide (v ∈ ws) := by
          rw [List.range'_succ, List.map_cons]
          congr 1
          · cases inBitAt s p <;> simp [hi]
          · apply List.map_congr_left
            intro v hv
            have := (List.mem_range'_1.1 hv).1
            have hne : v ≠ i := by omega
            cases inBitAt s p <;> simp [hne]
        rw [hcons]
        exact ⟨(inputHolds_cons _ _ _ _).2 ⟨by omega, rfl, h1⟩, by omega⟩

theorem readDelta_payload {s : State} {m n next p r : Nat} {vs : List Nat} (hp : p ≤ 8 * s.inLen) (hm : next ≤ m)
    (h : readDelta s (refTree m) m n next p = .ok (vs, r)) :
    InputHolds s p (codeAll (refTree m) (gapsFrom m next vs)) ∧ r = p + (codeAll (refTree m) (gapsFrom m next vs)).length := by
  induction n generalizing next p r vs with
  | zero => simp [readDelta] at h
  | succ n ih =>
    rw [readDelta] at h
    split at h
    · simp at h
    · rename_i g q hw
      obtain ⟨c, hc, hi, rfl⟩ := huffWalk_holds hp (refTree_nodup m) hw
      obtain ⟨hpq, hq, -⟩ := huffWalk_pos _ _ _ _ _ hp hw
      split at h
      · rename_i he
        simp only [Except.ok.injEq, Prod.mk.injEq] at h
        obtain ⟨rfl, rfl⟩ := h
        have hg : m - next = g := by omega
        simp only [gapsFrom, hg, codeAll_cons, hc, Option.getD_some]
        simpa [codeAll] using hi
      · split at h
        · simp at h
        · split at h
          · simp at h
          · rename_i ws q' hr
            simp only [Except.ok.injEq, Prod.mk.injEq] at h
            obtain ⟨rfl, rfl⟩ := h
            obtain ⟨h1, h2⟩ := ih hq (by omega) hr
            have hg : next + g - next = g := by omega
            simp only [gapsFrom, hg, codeAll_cons, hc, Option.getD_some, List.length_append]
            exact ⟨(inputHolds_append _ _ _ _).2 ⟨hi, h1⟩, by omega⟩

theorem runLengths_replicate (cur : Bool) (k l : Nat) (bs : List Bool) :
    runLengths cur k (List.replicate l cur ++ bs) = runLengths cur (k + l) bs := by
  induction l generalizing k with
  | zero => rfl
  | succ l ih =>
    rw [List.replicate_succ, List.cons_append, runLengths, if_pos rfl, ih]
    congr 1
    omega

/-- The runs read are the runs of the values read: `cur` is the bit of the next run, number `i`. -/
theorem readRuns_payload {s : State} {m n i sum p r : Nat} {vs : List Nat} (hp : p ≤ 8 * s.inLen) (hm : sum ≤ m)
    (h : readRuns s (refTree m) m n i sum p = .ok (vs, r)) :
    ∃ ls, ls.length = n ∧ InputHolds s p (codeAll (refTree m) ls) ∧ r = p + (codeAll (refTree m) ls).length ∧
      (n = 0 → sum = m) ∧
      ∀ cur : Bool, ((i % 2 = 1) ↔ cur = true) → 1 ≤ n →
        runLengths cur 0 ((List.range' sum (m - sum)).map fun v => decide (v ∈ vs)) = ls ∧
        (1 ≤ i → ∃ bs, (List.range' sum (m - sum)).map (fun v => decide (v ∈ vs)) = cur :: bs) := by
  induction n generalizing i sum p r vs with
  | zero =>
    rw [readRuns] at h
    split at h
    · rename_i hs
      simp only [Except.ok.injEq, Prod.mk.injEq] at h
      obtain ⟨rfl, rfl⟩ := h
      exact ⟨[], rfl, inputHolds_nil _ _ hp, rfl, fun _ => hs, fun _ _ h1 => absurd h1 (by omega)⟩
    · simp at h
  | succ n ih =>
    rw [readRuns] at h
    split at h
    · simp at h
    · rename_i l q hw
      obtain ⟨c, hc, hi, rfl⟩ := huffWalk_holds hp (refTree_nodup m) hw
      obtain ⟨hpq, hq, -⟩ := huffWalk_pos _ _ _ _ _ hp hw
      split at h
      · simp at h
      · rename_i hz
        split at h
        · simp at h
        · split at h
          · simp at h
          · rename_i ws q' hr
            simp only [Except.ok.injEq, Prod.mk.injEq] at h
            obtain ⟨rfl, rfl⟩ := h
            obtain ⟨ls, h1, h2, h3, h4, h5⟩ := ih hq (by omega) hr
            have hmem := (readRuns_rising hq (by omega) hr).1.mem
            refine ⟨l :: ls, by simp [h1], ?_, ?_, fun h => absurd h (by omega), fun cur hcur _ => ?_⟩
            · rw [codeAll_cons, hc, Option.getD_some]
              exact (inputHolds_append _ _ _ _).2 ⟨hi, h2⟩
            · rw [codeAll_cons, hc, Option.getD_some, List.length_append]
              omega
            · have hbits : (List.range' sum (m - sum)).map
                  (fun v => decide (v ∈ (if i % 2 = 1 then List.range' sum l else []) ++ ws)) =
                  List.replicate l cur ++ (List.range' (sum + l) (m - (sum + l))).map fun v => decide (v ∈ ws) := by
                have hsplit : List.range' sum (m - sum) = List.range' sum l ++ List.range' (sum + l) (m - (sum + l)) := by
                  rw [show m - sum = l + (m - (sum + l)) by omega, ← List.range'_append_1]
                rw [hsplit, List.map_append]
                congr 1
                · rw [List.eq_replicate_iff]
                  refine ⟨by simp, fun b hb => ?_⟩
                  obtain ⟨v, hv, rfl⟩ := List.mem_map.1 hb
                  have hv' := List.mem_range'_1.1 hv
                  have hn : v ∉ ws := fun hv => absurd (hmem v hv).1 (by omega)
                  by_cases ho : i % 2 = 1
                  · rw [hcur.1 ho]
                    simp [ho, hv'.1, hv'.2]
                  · have : cur = false := by
                      cases cur
                      · rfl
                      · exact absurd (hcur.2 rfl) ho
                    rw [this]
                    simp [ho, hn]
                · apply List.map_congr_left
                  intro v hv
                  have hv' := (List.mem_range'_1.1 hv).1
                  have hn : v ∉ (if i % 2 = 1 then List.range' sum l else []) := by
                    split
                    · intro hv2
                      have := (List.mem_range'_1.1 hv2).2
                      omega
                    · simp
                  simp [hn]
              rw [hbits, runLengths_replicate, Nat.zero_add]
              refine ⟨?_, fun h1i => ?_⟩
              · cases n with
                | zero =>
                  have hls : ls = [] := List.length_eq_zero_iff.1 h1
                  rw [hls, show m - (sum + l) = 0 by have := h4 rfl; omega]
                  rfl
                | succ n =>
                  have hnext : ((i + 1) % 2 = 1) ↔ (!cur) = true := by
                    cases cur <;> simp at hcur ⊢ <;> omega
                  obtain ⟨k1, k2⟩ := h5 (!cur) hnext (by omega)
                  obtain ⟨bs, hbs⟩ := k2 (by omega)
                  rw [hbs] at k1 ⊢
                  rw [runLengths, if_pos rfl] at k1
                  rw [runLengths, if_neg (by cases cur <;> simp), ← k1]
              · obtain ⟨k, rfl⟩ : ∃ k, l = k + 1 := ⟨l - 1, by omega⟩
                exact ⟨_, by rw [List.replicate_succ, List.cons_append]⟩

theorem readRange_payload {s t : State} {m p r : Nat} {vs : List Nat} (hp : p ≤ 8 * s.inLen)
    (hbits : bitmapBits t m = (List.range' 0 m).map fun v => decide (v ∈ vs)) (h : readRange s (refTree m) m p = .ok (vs, r)) :
    InputHolds s p (codeAll (refTree m) (rangeSymbols t m)) ∧ r = p + (codeAll (refTree m) (rangeSymbols t m)).length := by
  rw [readRange] at h
  split at h
  · simp at h
  · rename_i c q hw
    obtain ⟨d, hd, hi, rfl⟩ := huffWalk_holds hp (refTree_nodup m) hw
    obtain ⟨-, hq, -⟩ := huffWalk_pos _ _ _ _ _ hp hw
    obtain ⟨ls, h1, h2, h3, -, h5⟩ := readRuns_payload hq (Nat.zero_le _) h
    have hruns : presenceRuns t m = ls := by
      rw [presenceRuns, hbits]
      exact (h5 false (by simp) (by omega)).1
    rw [rangeSymbols, hruns, h1, codeAll_cons, Nat.add_sub_cancel, hd, Option.getD_some, List.length_append]
    exact ⟨(inputHolds_append _ _ _ _).2 ⟨hi, h2⟩, by omega⟩

/-- A table that is read was there: the input held its tag and the payload of the values read (R156, R161). -/
theorem readTable_payload {s t : State} {m p r tag : Nat} {vs : List Nat} (hp : p ≤ 8 * s.inLen)
    (h : readTable s m p = .ok (tag, vs, r)) (ht : ∀ v, v < m → presentAt t v = decide (v ∈ vs)) :
    InputHolds s p (msbBits 2 tag ++ payload t m tag) ∧ r = p + (2 + (payload t m tag).length) := by
  have hrise := (readTable_rising hp h).1
  have hocc : occupied t m = vs := by
    rw [occupied_eq, List.filter_congr (q := fun v => decide (v ∈ vs))]
    · have := hrise.filter_mem
      simpa using this
    · intro v hv
      exact ht v (by have := (List.mem_range'_1.1 hv).2; omega)
  have hbits : bitmapBits t m = (List.range' 0 m).map fun v => decide (v ∈ vs) := by
    rw [bitmapBits_eq]
    exact List.map_congr_left fun v hv => ht v (by have := (List.mem_range'_1.1 hv).2; omega)
  rw [readTable] at h
  split at h
  · simp at h
  · rename_i tg q hb
    -- the two bits of the tag
    have htag : InputHolds s p (msbBits 2 tg) ∧ q = p + 2 ∧ q ≤ 8 * s.inLen := by
      rw [inBits] at hb
      rcases inBit_cases s p hp with h0 | ⟨h1, h0⟩ <;> rw [h0] at hb <;> dsimp only at hb
      · simp at hb
      · rw [inBits] at hb
        rcases inBit_cases s (p + 1) h1 with h2 | ⟨h3, h2⟩ <;> rw [h2] at hb <;> dsimp only at hb
        · simp at hb
        · simp only [inBits, Except.ok.injEq, Prod.mk.injEq] at hb
          obtain ⟨rfl, rfl⟩ := hb
          have hm : msbBits 2 (2 * (2 * 0 + (inBitAt s p).toNat) + (inBitAt s (p + 1)).toNat) =
              [inBitAt s p, inBitAt s (p + 1)] := by
            cases inBitAt s p <;> cases inBitAt s (p + 1) <;> rfl
          rw [hm]
          exact ⟨(inputHolds_cons _ _ _ _).2 ⟨by omega, rfl, (inputHolds_cons _ _ _ _).2 ⟨by omega, rfl, inputHolds_nil _ _ h3⟩⟩,
            rfl, h3⟩
    obtain ⟨ht1, rfl, hq⟩ := htag
    split at h
    · simp at h
    · rename_i ws r' hr
      simp only [Except.ok.injEq, Prod.mk.injEq] at h
      obtain ⟨rfl, rfl, rfl⟩ := h
      rw [inputHolds_append, msbBits_length]
      refine ⟨⟨ht1, ?_⟩, ?_⟩ <;> split at hr
      · simp only [payload]
        rw [hbits]
        exact (readBitmap_payload hq hr).1
      · simp only [payload, deltaSymbols, hocc]
        exact (readDelta_payload hq (Nat.zero_le _) hr).1
      · simp only [payload]
        exact (readRange_payload hq hbits hr).1
      · simp at hr
      · have := (readBitmap_payload hq hr).2
        simp only [payload, hbits, List.length_map, List.length_range']
        omega
      · have := (readDelta_payload hq (Nat.zero_le _) hr).2
        simp only [payload, deltaSymbols, hocc]
        omega
      · simp only [payload]
        have := (readRange_payload hq hbits hr).2
        omega
      · simp at hr

/-! ## The presence bitmap and the translation (R46, R152) -/

theorem foldl_set_true (vs : List Nat) (p : Vector Bool 512) (v : Nat) :
    ((vs.foldl (fun q w => q.setIfInBounds w true) p)[v]?).getD false =
      (decide (v < 512 ∧ v ∈ vs) || (p[v]?).getD false) := by
  induction vs generalizing p with
  | nil => simp
  | cons w vs ih =>
    rw [List.foldl_cons, ih, Vector.getElem?_setIfInBounds]
    by_cases hw : w = v
    · subst hw
      by_cases h5 : w < 512
      · simp [h5]
      · simp [h5]
    · simp [hw, Ne.symm hw]

/-- The bitmap of a list of values marks exactly them. -/
theorem presenceOf_get (vs : List Nat) (v : Nat) : ((presenceOf vs)[v]?).getD false = decide (v < 512 ∧ v ∈ vs) := by
  rw [presenceOf, foldl_set_true]
  by_cases h : v < 512 <;> simp [h]

/-- The values present in the bitmap of rising values are those values. -/
theorem occupied_presenceOf {s : State} {m : Nat} {vs : List Nat} (hm : m ≤ 512) (h : RisingIn m 0 vs)
    (hp : s.present = presenceOf vs) : occupied s m = vs := by
  rw [occupied_eq]
  conv_rhs => rw [← h.filter_mem, Nat.sub_zero]
  apply List.filter_congr
  intro v hv
  have hv' := List.mem_range'_1.1 hv
  rw [presentAt, hp, presenceOf_get]
  simp only [show v < 512 by omega, true_and]

theorem fwd_fold {vs : List Nat} (k : Nat) (hk : k + vs.length ≤ 1024) (hnd : vs.Nodup) (f : Vector (BitVec 10) 512) (i : Nat)
    (hi : i < vs.length) (h5 : vs[i] < 512) :
    (((vs.zipIdx k).foldl (fun g p => g.setIfInBounds p.1 (BitVec.ofNat 10 p.2)) f)[vs[i]]?.getD 0).toNat = k + i := by
  have keep : ∀ (ws : List Nat) (k : Nat) (g : Vector (BitVec 10) 512) (v : Nat), v ∉ ws →
      ((ws.zipIdx k).foldl (fun g p => g.setIfInBounds p.1 (BitVec.ofNat 10 p.2)) g)[v]? = g[v]? := by
    intro ws
    induction ws with
    | nil => intros; rfl
    | cons w ws ih =>
      intro k g v hv
      rw [List.mem_cons, not_or] at hv
      rw [List.zipIdx_cons, List.foldl_cons, ih _ _ _ hv.2, Vector.getElem?_setIfInBounds, if_neg (Ne.symm hv.1)]
  induction vs generalizing k f i with
  | nil => simp at hi
  | cons w vs ih =>
    rw [List.nodup_cons] at hnd
    rw [List.zipIdx_cons, List.foldl_cons]
    cases i with
    | zero =>
      simp only [List.getElem_cons_zero] at h5 ⊢
      rw [keep _ _ _ _ hnd.1, Vector.getElem?_setIfInBounds, if_pos rfl, if_pos h5]
      simp only [List.length_cons] at hk
      simp only [Option.getD_some, BitVec.toNat_ofNat]
      omega
    | succ i =>
      simp only [List.getElem_cons_succ, List.length_cons] at h5 hi hk ⊢
      rw [ih (k + 1) (by omega) hnd.2 _ i (by omega) h5]
      omega

theorem inv_fold {vs : List Nat} (k : Nat) (hk : k + vs.length ≤ 512) (f : Vector (BitVec 9) 512) (i : Nat)
    (hi : i < vs.length) (h5 : vs[i] < 512) :
    (((vs.zipIdx k).foldl (fun g p => g.setIfInBounds p.2 (BitVec.ofNat 9 p.1)) f)[k + i]?.getD 0).toNat = vs[i] := by
  have keep : ∀ (ws : List Nat) (k : Nat) (g : Vector (BitVec 9) 512) (v : Nat), v < k →
      ((ws.zipIdx k).foldl (fun g p => g.setIfInBounds p.2 (BitVec.ofNat 9 p.1)) g)[v]? = g[v]? := by
    intro ws
    induction ws with
    | nil => intros; rfl
    | cons w ws ih =>
      intro k g v hv
      rw [List.zipIdx_cons, List.foldl_cons, ih _ _ _ (by omega), Vector.getElem?_setIfInBounds, if_neg (by simp only []; omega)]
  induction vs generalizing k f i with
  | nil => simp at hi
  | cons w vs ih =>
    rw [List.zipIdx_cons, List.foldl_cons]
    simp only [List.length_cons] at hk
    cases i with
    | zero =>
      simp only [List.getElem_cons_zero, Nat.add_zero] at h5 ⊢
      rw [keep _ _ _ _ (by omega), Vector.getElem?_setIfInBounds, if_pos rfl, if_pos (by omega)]
      simp only [Option.getD_some, BitVec.toNat_ofNat]
      omega
    | succ i =>
      simp only [List.getElem_cons_succ, List.length_cons] at h5 hi ⊢
      have := ih (k + 1) (by omega) (f.setIfInBounds k (BitVec.ofNat 9 w)) i (by omega) h5
      rw [show k + (i + 1) = k + 1 + i by omega]
      exact this

/-- The translation of rising values below 512 (R152): each value to its rank, each rank back to its value. -/
theorem buildTranslation_spec {m : Nat} {vs : List Nat} (s : State) (hm : m ≤ 512) (h : RisingIn m 0 vs) (i : Nat)
    (hi : i < vs.length) :
    fwdAt (buildTranslation vs s) vs[i] = i ∧ invAt (buildTranslation vs s) i = vs[i] := by
  have hl := h.length_le
  have h5 := h.mem vs[i] (List.getElem_mem hi)
  constructor
  · have := fwd_fold 0 (by omega) h.nodup s.fwd i hi (by omega)
    rw [Nat.zero_add] at this
    exact this
  · have := inv_fold 0 (by omega) s.inv i hi (by omega)
    rw [Nat.zero_add] at this
    exact this

/-- The member of rising values at its own rank: the values below it are the ones before it. -/
theorem RisingIn.rank {m : Nat} {vs : List Nat} {k : Nat} (h : RisingIn m k vs) (i : Nat) (hi : i < vs.length) :
    (vs.filter fun w => decide (w < vs[i])).length = i := by
  induction vs generalizing k i with
  | nil => simp at hi
  | cons w vs ih =>
    obtain ⟨h1, h2, h3⟩ := h
    cases i with
    | zero =>
      rw [List.getElem_cons_zero, List.filter_cons, if_neg (by simp), List.length_eq_zero_iff, List.filter_eq_nil_iff]
      intro v hv
      have := h3.mem v hv
      simp only [decide_eq_true_eq]
      omega
    | succ i =>
      simp only [List.getElem_cons_succ, List.length_cons] at hi ⊢
      have hb := h3.mem vs[i] (List.getElem_mem (by omega))
      rw [List.filter_cons, if_pos (by simp; omega), List.length_cons, ih h3 i (by omega)]

/-- The present values below `v` are the present values of `[0, m)` that are below `v`. -/
theorem occupied_filter_lt (s : State) {m v : Nat} (hv : v ≤ m) :
    (occupied s m).filter (fun w => decide (w < v)) = occupied s v := by
  rw [occupied, List.filter_filter, occupied]
  have e : List.range m = List.range v ++ List.range' v (m - v) := by
    rw [List.range_eq_range', List.range_eq_range', show m = v + (m - v) by omega, ← List.range'_append_1]
    simp
  rw [e, List.filter_append]
  have h1 : (List.range' v (m - v)).filter (fun w => decide (w < v) && presentAt s w) = [] := by
    apply List.filter_eq_nil_iff.2
    intro w hw
    have := List.mem_range'_1.1 hw
    simp only [Bool.and_eq_true, decide_eq_true_eq, not_and]
    omega
  rw [h1, List.append_nil]
  apply List.filter_congr
  intro w hw
  simp [List.mem_range.1 hw]

/-- The translation of the present values is the one VT_VALID promises (R46): each to its rank and back. -/
theorem buildTranslation_rank {s t : State} {m v : Nat} (hm : m ≤ 512) (hv : v < m) (hp : presentAt s v = true) :
    fwdAt (buildTranslation (occupied s m) t) v = rankOf s v ∧
      invAt (buildTranslation (occupied s m) t) (rankOf s v) = v := by
  have hmem : v ∈ occupied s m := by
    rw [occupied, List.mem_filter]
    exact ⟨List.mem_range.2 hv, hp⟩
  obtain ⟨i, hi, rfl⟩ := List.getElem_of_mem hmem
  have hr := (risingIn_occupied s m).rank i hi
  rw [occupied_filter_lt s (by omega)] at hr
  rw [rankOf, hr]
  exact buildTranslation_spec t hm (risingIn_occupied s m) i hi

end Sys2Proof.Machine
end

