-- ==== Sys2Proof/Laws/Claims.lean ====
section
/-! SUPPORT. From the equation of a meaning to what claims say: completing, faulting precisely and faulting imprecisely
(`Completes`, `FaultsPrecisely`, `FaultsImprecisely`), and small lemmas of what claims read off a state. -/

namespace Sys2Proof.Machine

/-! ## Reading an updated state -/

@[simp] theorem counts_complete (s : State) (a : BitVec 2) : counts (complete s) a = counts s a := rfl
@[simp] theorem limit_complete (s : State) (a : BitVec 2) : limit (complete s) a = limit s a := rfl
@[simp] theorem count_complete (s : State) (a : BitVec 2) (x : Nat) : count (complete s) a x = count s a x := rfl
@[simp] theorem slot_complete (s : State) (a : BitVec 2) : slot (complete s) a = slot s a := rfl
@[simp] theorem presentAt_complete (s : State) (v : Nat) : presentAt (complete s) v = presentAt s v := rfl
@[simp] theorem fwdAt_complete (s : State) (v : Nat) : fwdAt (complete s) v = fwdAt s v := rfl
@[simp] theorem invAt_complete (s : State) (v : Nat) : invAt (complete s) v = invAt s v := rfl
@[simp] theorem occupied_complete (s : State) (m : Nat) : occupied (complete s) m = occupied s m := rfl
@[simp] theorem rankOf_complete (s : State) (v : Nat) : rankOf (complete s) v = rankOf s v := rfl
@[simp] theorem inByte_complete (s : State) (a : Nat) : inByte (complete s) a = inByte s a := rfl
@[simp] theorem outByte_complete (s : State) (a : Nat) : outByte (complete s) a = outByte s a := rfl
@[simp] theorem counts_setResult (n : Nat) (s : State) (a : BitVec 2) : counts (setResult n s) a = counts s a := rfl
@[simp] theorem slot_setResult (n : Nat) (s : State) (a : BitVec 2) : slot (setResult n s) a = slot s a := rfl
@[simp] theorem presentAt_setResult (n : Nat) (s : State) (v : Nat) : presentAt (setResult n s) v = presentAt s v := rfl
@[simp] theorem fwdAt_setResult (n : Nat) (s : State) (v : Nat) : fwdAt (setResult n s) v = fwdAt s v := rfl
@[simp] theorem invAt_setResult (n : Nat) (s : State) (v : Nat) : invAt (setResult n s) v = invAt s v := rfl
@[simp] theorem occupied_setResult (n : Nat) (s : State) (m : Nat) : occupied (setResult n s) m = occupied s m := rfl
@[simp] theorem rankOf_setResult (n : Nat) (s : State) (v : Nat) : rankOf (setResult n s) v = rankOf s v := rfl

/-- RESULT holds a number that fits it. -/
theorem setResult_toNat {n : Nat} (s : State) (h : n < 2 ^ 32) : (setResult n s).result.toNat = n := by
  show (BitVec.ofNat 32 n).toNat = n
  rw [BitVec.toNat_ofNat, Nat.mod_eq_of_lt h]

/-- Appending is seen through the completion effects. -/
theorem appended_complete {s t : State} {bs : List Bool} (h : Appended s t bs) : Appended s (complete t) bs := h

theorem appended_setResult {s t : State} {bs : List Bool} (n : Nat) (h : Appended s t bs) :
    Appended s (setResult n t) bs := h

/-! ## Completing -/

/-- What completion and fault entry write, no command's rule writes besides. -/
theorem bookkeeping_not_written (i : Instr) :
    Part.fault ∉ writes i ∧ Part.pending ∉ writes i ∧ Part.cmdCount ∉ writes i ∧ Part.irqStatus ∉ writes i ∧
      Part.cfg ∉ writes i ∧ Part.draws ∉ writes i ∧ Part.schedule ∉ writes i := by
  cases i <;> simp [writes]

/-- A meaning that ends in `done u`, having written its list at most, completes. -/
theorem completes_of_done {i : Instr} {s u : State} {P : State → Prop} (he : exec i s = done u)
    (hu : OnlyChanges (writes i) s u) (hP : P (complete u)) : Completes i s P := by
  obtain ⟨h1, -, h3, h4, -⟩ := bookkeeping_not_written i
  refine ⟨complete u, he, hu .fault h1, rfl, ?_, ?_, ?_, hP⟩
  · rw [complete_cmdCount, show u.cmdCount = s.cmdCount from hu .cmdCount h3]
  · rw [complete_irqStatus, show u.irqStatus = s.irqStatus from hu .irqStatus h4]
  · exact (hu.mono (List.subset_append_left _ _)).trans
      ((complete_onlyChanges u).mono (List.subset_append_right _ _))

/-- A completing command wrote its list at most: what is left to show is what the rule says of the new state. -/
theorem completes_of_exec {i : Instr} {s t : State} {P : State → Prop} (he : exec i s = .next t)
    (ht : t.fault = none) (hP : P t) : Completes i s P := by
  obtain ⟨t', h, e⟩ := exec_ends i s
  rw [he] at h
  simp only [Host.Outcome.next.injEq] at h
  subst h
  cases e with
  | completed u hu =>
    obtain ⟨h1, -, h3, h4, -⟩ := bookkeeping_not_written i
    refine ⟨complete u, he, hu .fault h1, rfl, ?_, ?_, ?_, hP⟩
    · rw [complete_cmdCount, show u.cmdCount = s.cmdCount from hu .cmdCount h3]
    · rw [complete_irqStatus, show u.irqStatus = s.irqStatus from hu .irqStatus h4]
    · exact (hu.mono (List.subset_append_left _ _)).trans
        ((complete_onlyChanges u).mono (List.subset_append_right _ _))
  | precise c => simp at ht
  | imprecise c => simp at ht

/-- What a completing command leaves: the state of a `done`, with the listed parts written at most. -/
theorem completed_of_exec {i : Instr} {s t : State} (he : exec i s = .next t) (ht : t.fault = none) :
    ∃ u, t = complete u ∧ OnlyChanges (writes i) s u := by
  obtain ⟨t', h, e⟩ := exec_ends i s
  rw [he] at h
  simp only [Host.Outcome.next.injEq] at h
  subst h
  cases e with
  | completed u hu => exact ⟨u, rfl, hu⟩
  | precise c => simp at ht
  | imprecise c => simp at ht

/-! ## Faulting -/

theorem faulted_enterFault {c : FaultCode} {s : State} (hs : s.fault = none) : Faulted s (enterFault c s) c := by
  simp [Faulted, enterFault, hs]

/-- A meaning that ends in `raise c s` faults precisely. -/
theorem faultsPrecisely_of_raise {i : Instr} {s : State} {c : FaultCode} (he : exec i s = raise c s)
    (hs : s.fault = none) : FaultsPrecisely i s c :=
  ⟨enterFault c s, he, faulted_enterFault hs, enterFault_onlyChanges c s⟩

theorem loseResult_onlyChanges (s : State) : OnlyChanges [.result, .draws] s (loseResult s) := by
  intro p hp
  cases p <;> simp_all [Part.Same, counts, slot, inByte, outByte]

theorem loseInPos_onlyChanges (s : State) : OnlyChanges [.inPos, .draws] s (loseInPos s) := by
  intro p hp
  cases p <;> simp_all [Part.Same, counts, slot, inByte, outByte]

theorem loseOutput_onlyChanges (s : State) : OnlyChanges [.outbuf, .outPos, .draws] s (loseOutput s) := by
  intro p hp
  cases p <;> simp_all [Part.Same, counts, slot, inByte]

theorem loseInterval_onlyChanges (s : State) : OnlyChanges [.rcLow, .rcHigh, .draws] s (loseInterval s) := by
  intro p hp
  cases p <;> simp_all [Part.Same, counts, slot, inByte, outByte]

theorem loseRcCode_onlyChanges (s : State) : OnlyChanges [.rcCode, .draws] s (loseRcCode s) := by
  intro p hp
  cases p <;> simp_all [Part.Same, counts, slot, inByte, outByte]

theorem loseUnderflow_onlyChanges (s : State) : OnlyChanges [.rcUnderflow, .draws] s (loseUnderflow s) := by
  intro p hp
  cases p <;> simp_all [Part.Same, counts, slot, inByte, outByte]

theorem loseRcMode_onlyChanges (s : State) : OnlyChanges [.rcMode, .draws] s (loseRcMode s) := by
  intro p hp
  cases p <;> simp_all [Part.Same, counts, slot, inByte, outByte]

theorem loseTranslation_onlyChanges (s : State) : OnlyChanges [.vtCeil, .vtTag, .vtValid, .fwd, .inv, .draws] s (loseTranslation s) := by
  intro p hp
  cases p <;> simp_all [Part.Same, counts, slot, inByte, outByte]

theorem losePresence_onlyChanges (s : State) : OnlyChanges [.vtDepth, .present, .draws] s (losePresence s) := by
  intro p hp
  cases p <;> simp_all [Part.Same, counts, slot, inByte, outByte]

theorem loseSlot_onlyChanges (a : BitVec 2) (s : State) : OnlyChanges [.slot a, .draws] s (loseSlot a s) := by
  intro p hp
  cases p <;> simp_all [Part.Same, counts, slot_loseSlot_other, inByte, outByte]

/-- Losing a write set changes that write set, and draws, at most. -/
theorem loseWrites_onlyChanges (i : Instr) (s : State) : OnlyChanges (writes i ++ [.draws]) s (loseWrites i s) := by
  cases i with
  | rcEncWrite a x =>
    exact ((loseOutput_onlyChanges s).mono (by simp [writes])).trans
      (((loseUnderflow_onlyChanges _).mono (by simp [writes])).trans ((loseInterval_onlyChanges _).mono (by simp [writes])))
  | rcEncFinish =>
    exact ((loseOutput_onlyChanges s).mono (by simp [writes])).trans
      (((loseUnderflow_onlyChanges _).mono (by simp [writes])).trans ((loseRcMode_onlyChanges _).mono (by simp [writes])))
  | rcDecRead a =>
    exact ((loseResult_onlyChanges s).mono (by simp [writes])).trans
      (((loseInPos_onlyChanges _).mono (by simp [writes])).trans
        (((loseRcCode_onlyChanges _).mono (by simp [writes])).trans ((loseInterval_onlyChanges _).mono (by simp [writes]))))
  | vtEncode =>
    exact ((loseOutput_onlyChanges s).mono (by simp [writes])).trans
      (((loseResult_onlyChanges _).mono (by simp [writes])).trans ((loseTranslation_onlyChanges _).mono (by simp [writes])))
  | vtDecode k =>
    exact ((loseInPos_onlyChanges s).mono (by simp [writes])).trans
      (((loseResult_onlyChanges _).mono (by simp [writes])).trans
        (((loseTranslation_onlyChanges _).mono (by simp [writes])).trans ((losePresence_onlyChanges _).mono (by simp [writes]))))
  | htSerialize a =>
    exact ((loseOutput_onlyChanges s).mono (by simp [writes])).trans ((loseResult_onlyChanges _).mono (by simp [writes]))
  | htDeserialize a x =>
    exact ((loseInPos_onlyChanges s).mono (by simp [writes])).trans
      (((loseResult_onlyChanges _).mono (by simp [writes])).trans ((loseSlot_onlyChanges a _).mono (by simp [writes])))
  | htEncode a x =>
    exact ((loseOutput_onlyChanges s).mono (by simp [writes])).trans ((loseResult_onlyChanges _).mono (by simp [writes]))
  | htDecode a =>
    exact ((loseInPos_onlyChanges s).mono (by simp [writes])).trans ((loseResult_onlyChanges _).mono (by simp [writes]))
  | _ => exact OnlyChanges.refl _ _

/-- A meaning that ends in `raise c` over its lost write set faults imprecisely. -/
theorem faultsImprecisely_of_raise {i : Instr} {s : State} {c : FaultCode}
    (he : exec i s = raise c (loseWrites i s)) (hs : s.fault = none) : FaultsImprecisely i s c := by
  have hl := loseWrites_onlyChanges i s
  obtain ⟨h1, h2, -, h4, -⟩ := bookkeeping_not_written i
  have k1 : (loseWrites i s).fault = s.fault := hl .fault (by simp [h1])
  have k2 : (loseWrites i s).pending = s.pending := hl .pending (by simp [h2])
  have k4 : (loseWrites i s).irqStatus = s.irqStatus := hl .irqStatus (by simp [h4])
  refine ⟨_, he, ?_, (hl.mono ?_).trans ((enterFault_onlyChanges c _).mono ?_)⟩
  · simp [Faulted, enterFault, k1, k2, k4, hs]
  · intro p hp
    simp only [List.mem_append] at hp ⊢
    tauto
  · intro p hp
    simp only [List.mem_append] at hp ⊢
    tauto

theorem FaultsPrecisely.imprecisely {i : Instr} {s : State} {c : FaultCode} (h : FaultsPrecisely i s c) :
    FaultsImprecisely i s c := by
  obtain ⟨t, he, hf, ho⟩ := h
  refine ⟨t, he, hf, ho.mono ?_⟩
  intro p hp
  simp only [List.mem_append]
  tauto

end Sys2Proof.Machine
end

