-- ==== Sys2Proof/Laws/Coder.lean ====
section
/-! SUPPORT. The coder of the pseudocode: one lemma per field per update, true by rfl, and that a loop has one outcome. -/

namespace Sys2Proof.Machine

/-! ## shifted -/

@[simp] theorem shifted_low (c : Coder) : (shifted c).low = 2 * c.low % 2 ^ 31 := rfl
@[simp] theorem shifted_high (c : Coder) : (shifted c).high = 2 * c.high % 2 ^ 31 + 1 := rfl
@[simp] theorem shifted_code (c : Coder) : (shifted c).code = c.code := rfl
@[simp] theorem shifted_uf (c : Coder) : (shifted c).uf = c.uf := rfl
@[simp] theorem shifted_pos (c : Coder) : (shifted c).pos = c.pos := rfl
@[simp] theorem shifted_out (c : Coder) : (shifted c).out = c.out := rfl

/-! ## cancelled -/

@[simp] theorem cancelled_low (c : Coder) : (cancelled c).low = 2 * c.low % 2 ^ 30 := rfl
@[simp] theorem cancelled_high (c : Coder) : (cancelled c).high = 2 ^ 30 + 2 * c.high % 2 ^ 30 + 1 := rfl
@[simp] theorem cancelled_code (c : Coder) : (cancelled c).code = c.code := rfl
@[simp] theorem cancelled_uf (c : Coder) : (cancelled c).uf = c.uf := rfl
@[simp] theorem cancelled_pos (c : Coder) : (cancelled c).pos = c.pos := rfl
@[simp] theorem cancelled_out (c : Coder) : (cancelled c).out = c.out := rfl

/-! ## coderEncShift -/

@[simp] theorem coderEncShift_low (c : Coder) : (coderEncShift c).low = c.low := rfl
@[simp] theorem coderEncShift_high (c : Coder) : (coderEncShift c).high = c.high := rfl
@[simp] theorem coderEncShift_code (c : Coder) : (coderEncShift c).code = c.code := rfl
@[simp] theorem coderEncShift_uf (c : Coder) : (coderEncShift c).uf = 0 := rfl
@[simp] theorem coderEncShift_pos (c : Coder) : (coderEncShift c).pos = c.pos := rfl
@[simp] theorem coderEncShift_out (c : Coder) : (coderEncShift c).out = c.out ++ decide (2 ^ 30 ≤ c.low) :: List.replicate c.uf (!decide (2 ^ 30 ≤ c.low)) := rfl

/-! ## coderEncUnderflow -/

@[simp] theorem coderEncUnderflow_low (c : Coder) : (coderEncUnderflow c).low = c.low := rfl
@[simp] theorem coderEncUnderflow_high (c : Coder) : (coderEncUnderflow c).high = c.high := rfl
@[simp] theorem coderEncUnderflow_code (c : Coder) : (coderEncUnderflow c).code = c.code := rfl
@[simp] theorem coderEncUnderflow_uf (c : Coder) : (coderEncUnderflow c).uf = c.uf + 1 := rfl
@[simp] theorem coderEncUnderflow_pos (c : Coder) : (coderEncUnderflow c).pos = c.pos := rfl
@[simp] theorem coderEncUnderflow_out (c : Coder) : (coderEncUnderflow c).out = c.out := rfl

/-! ## coderDecShift -/

@[simp] theorem coderDecShift_low (s : State) (c : Coder) : (coderDecShift s c).low = c.low := rfl
@[simp] theorem coderDecShift_high (s : State) (c : Coder) : (coderDecShift s c).high = c.high := rfl
@[simp] theorem coderDecShift_code (s : State) (c : Coder) : (coderDecShift s c).code = 2 * c.code % 2 ^ 31 + (bitOrZero s c.pos).toNat := rfl
@[simp] theorem coderDecShift_uf (s : State) (c : Coder) : (coderDecShift s c).uf = c.uf := rfl
@[simp] theorem coderDecShift_pos (s : State) (c : Coder) : (coderDecShift s c).pos = min (c.pos + 1) (8 * s.inLen) := rfl
@[simp] theorem coderDecShift_out (s : State) (c : Coder) : (coderDecShift s c).out = c.out := rfl

/-! ## coderDecUnderflow -/

@[simp] theorem coderDecUnderflow_low (s : State) (c : Coder) : (coderDecUnderflow s c).low = c.low := rfl
@[simp] theorem coderDecUnderflow_high (s : State) (c : Coder) : (coderDecUnderflow s c).high = c.high := rfl
@[simp] theorem coderDecUnderflow_code (s : State) (c : Coder) : (coderDecUnderflow s c).code = c.code / 2 ^ 30 * 2 ^ 30 + 2 * c.code % 2 ^ 30 + (bitOrZero s c.pos).toNat := rfl
@[simp] theorem coderDecUnderflow_uf (s : State) (c : Coder) : (coderDecUnderflow s c).uf = c.uf := rfl
@[simp] theorem coderDecUnderflow_pos (s : State) (c : Coder) : (coderDecUnderflow s c).pos = min (c.pos + 1) (8 * s.inLen) := rfl
@[simp] theorem coderDecUnderflow_out (s : State) (c : Coder) : (coderDecUnderflow s c).out = c.out := rfl

/-! ## narrowed -/

@[simp] theorem narrowed_low (s : State) (a : BitVec 2) (x : Nat) (c : Coder) : (narrowed s a x c).low = c.low + low s a x * (c.high - c.low + 1) / total s a := rfl
@[simp] theorem narrowed_high (s : State) (a : BitVec 2) (x : Nat) (c : Coder) : (narrowed s a x c).high = c.low + high s a x * (c.high - c.low + 1) / total s a - 1 := rfl
@[simp] theorem narrowed_code (s : State) (a : BitVec 2) (x : Nat) (c : Coder) : (narrowed s a x c).code = c.code := rfl
@[simp] theorem narrowed_uf (s : State) (a : BitVec 2) (x : Nat) (c : Coder) : (narrowed s a x c).uf = c.uf := rfl
@[simp] theorem narrowed_pos (s : State) (a : BitVec 2) (x : Nat) (c : Coder) : (narrowed s a x c).pos = c.pos := rfl
@[simp] theorem narrowed_out (s : State) (a : BitVec 2) (x : Nat) (c : Coder) : (narrowed s a x c).out = c.out := rfl

/-! ## coderOf -/

@[simp] theorem coderOf_low (s : State) : (coderOf s).low = s.rcLow.toNat := rfl
@[simp] theorem coderOf_high (s : State) : (coderOf s).high = s.rcHigh.toNat := rfl
@[simp] theorem coderOf_code (s : State) : (coderOf s).code = s.rcCode.toNat := rfl
@[simp] theorem coderOf_uf (s : State) : (coderOf s).uf = s.rcUnderflow.toNat := rfl
@[simp] theorem coderOf_pos (s : State) : (coderOf s).pos = s.inPos := rfl
@[simp] theorem coderOf_out (s : State) : (coderOf s).out = [] := rfl

/-! ## Loops -/

/-- A loop has one outcome. -/
theorem While.det {α : Type} {cond : α → Prop} {body : α → α} {c d e : α} (h1 : While cond body c d)
    (h2 : While cond body c e) : d = e := by
  induction h1 with
  | stop h =>
    cases h2 with
    | stop _ => rfl
    | again h' _ => exact absurd h' h
  | again h _ ih =>
    cases h2 with
    | stop h' => exact absurd h h'
    | again _ r => exact ih r

theorem Renormalizes.det {f g : Coder → Coder} {c d e : Coder} (h1 : Renormalizes f g c d) (h2 : Renormalizes f g c e) :
    d = e := by
  obtain ⟨m, a1, b1⟩ := h1
  obtain ⟨n, a2, b2⟩ := h2
  have := a1.det a2
  subst this
  exact b1.det b2

end Sys2Proof.Machine
end

