-- ==== Sys2Proof/Laws/Decode.lean ====
section
/-! SUPPORT. The fields of a command word (`spec/30_encoding.md` R80, R81): each field of an assembled word is the field
put in, and a word is assembled from its own fields. -/

namespace Sys2Proof

/-- Every bit of an assembled word, by the field it is in. -/
theorem commandWord_getLsbD (op : BitVec 6) (a b : BitVec 2) (k : BitVec 6) (x : BitVec 16) (i : Nat) :
    (commandWord op a b k x).getLsbD i =
      if i < 16 then x.getLsbD i else if i < 22 then k.getLsbD (i - 16) else if i < 24 then b.getLsbD (i - 22)
      else if i < 26 then a.getLsbD (i - 24) else op.getLsbD (i - 26) := by
  simp only [commandWord, BitVec.getLsbD_append]
  repeat' split
  all_goals first | rfl | omega

@[simp] theorem opField_commandWord (op : BitVec 6) (a b : BitVec 2) (k : BitVec 6) (x : BitVec 16) :
    opField (commandWord op a b k x) = op := by
  apply BitVec.eq_of_getLsbD_eq
  intro i hi
  simp only [opField, BitVec.getLsbD_extractLsb', commandWord_getLsbD, hi]
  rw [if_neg (by omega), if_neg (by omega), if_neg (by omega), if_neg (by omega), Nat.add_sub_cancel_left]
  simp

@[simp] theorem aField_commandWord (op : BitVec 6) (a b : BitVec 2) (k : BitVec 6) (x : BitVec 16) :
    aField (commandWord op a b k x) = a := by
  apply BitVec.eq_of_getLsbD_eq
  intro i hi
  simp only [aField, BitVec.getLsbD_extractLsb', commandWord_getLsbD, hi]
  rw [if_neg (by omega), if_neg (by omega), if_neg (by omega), if_pos (by omega), Nat.add_sub_cancel_left]
  simp

@[simp] theorem bField_commandWord (op : BitVec 6) (a b : BitVec 2) (k : BitVec 6) (x : BitVec 16) :
    bField (commandWord op a b k x) = b := by
  apply BitVec.eq_of_getLsbD_eq
  intro i hi
  simp only [bField, BitVec.getLsbD_extractLsb', commandWord_getLsbD, hi]
  rw [if_neg (by omega), if_neg (by omega), if_pos (by omega), Nat.add_sub_cancel_left]
  simp

@[simp] theorem kField_commandWord (op : BitVec 6) (a b : BitVec 2) (k : BitVec 6) (x : BitVec 16) :
    kField (commandWord op a b k x) = k := by
  apply BitVec.eq_of_getLsbD_eq
  intro i hi
  simp only [kField, BitVec.getLsbD_extractLsb', commandWord_getLsbD, hi]
  rw [if_neg (by omega), if_pos (by omega), Nat.add_sub_cancel_left]
  simp

@[simp] theorem sField_commandWord (op : BitVec 6) (a b : BitVec 2) (k : BitVec 6) (x : BitVec 16) :
    sField (commandWord op a b k x) = x := by
  apply BitVec.eq_of_getLsbD_eq
  intro i hi
  simp only [sField, BitVec.getLsbD_extractLsb', commandWord_getLsbD, hi]
  rw [if_pos (by omega)]
  simp

/-- A word is assembled from its own fields. -/
theorem commandWord_fields (w : Word) : commandWord (opField w) (aField w) (bField w) (kField w) (sField w) = w := by
  apply BitVec.eq_of_getLsbD_eq
  intro i hi
  simp only [commandWord_getLsbD, opField, aField, bField, kField, sField, BitVec.getLsbD_extractLsb']
  split
  · simp [*]
  split
  · rw [decide_eq_true (by omega), Bool.true_and]; congr 1; omega
  split
  · rw [decide_eq_true (by omega), Bool.true_and]; congr 1; omega
  split
  · rw [decide_eq_true (by omega), Bool.true_and]; congr 1; omega
  · rw [decide_eq_true (by omega), Bool.true_and]; congr 1; omega

/-- And-ing two assembled words ands their fields: a mask and a match test field by field. -/
theorem commandWord_and (op op' : BitVec 6) (a a' b b' : BitVec 2) (k k' : BitVec 6) (x x' : BitVec 16) :
    commandWord op a b k x &&& commandWord op' a' b' k' x' =
      commandWord (op &&& op') (a &&& a') (b &&& b') (k &&& k') (x &&& x') := by
  apply BitVec.eq_of_getLsbD_eq
  intro i hi
  simp only [BitVec.getLsbD_and, commandWord_getLsbD]
  repeat' split
  all_goals rfl

/-- Assembled words are equal exactly when all their fields are. -/
theorem commandWord_inj (op op' : BitVec 6) (a a' b b' : BitVec 2) (k k' : BitVec 6) (x x' : BitVec 16) :
    commandWord op a b k x = commandWord op' a' b' k' x' ↔ op = op' ∧ a = a' ∧ b = b' ∧ k = k' ∧ x = x' := by
  constructor
  · intro h
    refine ⟨?_, ?_, ?_, ?_, ?_⟩
    · simpa using congrArg opField h
    · simpa using congrArg aField h
    · simpa using congrArg bField h
    · simpa using congrArg kField h
    · simpa using congrArg sField h
  · rintro ⟨rfl, rfl, rfl, rfl, rfl⟩
    rfl

end Sys2Proof
end

