-- ==== Sys2Proof/Laws/Decoder.lean ====
section
/-! SUPPORT. The decoder's renormalization is the pseudocode's two loops over the integers, reading the input bits they read
(`spec/41_range_coder.md` R123, R124, R127, R128). -/

namespace Sys2Proof.Machine

/-- `s` holds the coder's interval, code and input position, and reads the input of `s0`. -/
def HoldsDecoder (s0 s : State) (c : Coder) : Prop :=
  s.rcLow.toNat = c.low ∧ s.rcHigh.toNat = c.high ∧ s.rcCode.toNat = c.code ∧ s.inPos = c.pos ∧
    s.inPos ≤ 8 * s0.inLen ∧ s = { s0 with rcLow := s.rcLow, rcHigh := s.rcHigh, rcCode := s.rcCode, inPos := s.inPos }

/-- `InBitZ()` is the next input bit, or 0 at the end, where the position stays (R68). -/
theorem inBitZ_eq (s : State) (p : Nat) (h : p ≤ 8 * s.inLen) :
    inBitZ s p = (bitOrZero s p, min (p + 1) (8 * s.inLen)) := by
  unfold inBitZ bitOrZero
  split
  · rename_i hp
    subst hp
    simp
  · have : p < 8 * s.inLen := by omega
    simp [this]

theorem bitOrZero_of_input {s t : State} (h1 : t.inLen = s.inLen) (h2 : t.inbuf = s.inbuf) (h3 : t.inSeed = s.inSeed) (p : Nat) :
    bitOrZero t p = bitOrZero s p := by
  simp [bitOrZero, inBitAt, inByte, h1, h2, h3]

theorem HoldsDecoder.inBitZ {s0 s : State} {c : Coder} (h : HoldsDecoder s0 s c) :
    inBitZ s s.inPos = (bitOrZero s0 c.pos, min (c.pos + 1) (8 * s0.inLen)) := by
  obtain ⟨-, -, -, h4, h5, h6⟩ := h
  have e1 : s.inLen = s0.inLen := by rw [h6]
  rw [inBitZ_eq s _ (by omega), bitOrZero_of_input e1 (by rw [h6]) (by rw [h6]), h4, e1]

/-- The decoder's first loop (R123, R127) is the pseudocode's loop over the integers. -/
theorem decShiftLoop_coder (s0 : State) (n : Nat) (s : State) (c : Coder) (hc : HoldsDecoder s0 s c)
    (hle : s.rcLow.toNat ≤ s.rcHigh.toNat) (hw : 2 ^ 31 ≤ (s.rcHigh.toNat - s.rcLow.toNat + 1) * 2 ^ n) :
    ∃ t d, rcShiftLoop decShift n s = .ok t ∧ While SameTopBit (fun c => shifted (coderDecShift s0 c)) c d ∧
      HoldsDecoder s0 t d := by
  induction n generalizing s c with
  | zero =>
    refine ⟨s, c, rfl, .stop ?_, hc⟩
    have hH := s.rcHigh.isLt
    simp only [SameTopBit, ← hc.1, ← hc.2.1]
    omega
  | succ n ih =>
    by_cases hs : (s.rcLow ^^^ s.rcHigh) &&& rcHalf = 0
    · have hs' := (sameTop_iff _ _).1 hs
      have hz := hc.inBitZ
      obtain ⟨h1, h2, h3, h4, h5, h6⟩ := hc
      obtain ⟨i1, i2⟩ := shift_interval s.rcLow s.rcHigh
      have hL := s.rcLow.isLt
      have hH := s.rcHigh.isLt
      obtain ⟨t, d, t1, t2, t3⟩ := ih
        { s with
          rcCode := s.rcCode <<< 1 ||| (BitVec.ofBool (inBitZ s s.inPos).1).setWidth 31
          inPos := (inBitZ s s.inPos).2
          rcLow := s.rcLow <<< 1
          rcHigh := s.rcHigh <<< 1 ||| 1 }
        (shifted (coderDecShift s0 c))
        (by
          refine ⟨by simp only []; rw [i1, h1]; rfl, by simp only []; rw [i2, h2]; rfl, ?_, by simp only []; rw [hz]; rfl,
            by simp only []; rw [hz]; exact Nat.min_le_right _ _, ?_⟩
          · simp only []
            rw [shl1_or_toNat, hz, h3]
            rfl
          · rw [h6])
        (by simp only []; rw [i1, i2]; omega)
        (by
          simp only []
          have hd : 2 * s.rcHigh.toNat % 2 ^ 31 + 1 - 2 * s.rcLow.toNat % 2 ^ 31 + 1
              = 2 * (s.rcHigh.toNat - s.rcLow.toNat + 1) := by omega
          rw [i1, i2, hd, Nat.mul_comm 2, Nat.mul_assoc, ← Nat.pow_succ']
          exact hw)
      refine ⟨t, d, ?_, .again ?_ t2, t3⟩
      · rw [rcShiftLoop, if_pos hs]
        exact t1
      · simp only [SameTopBit, ← h1, ← h2]; exact hs'
    · refine ⟨s, c, by rw [rcShiftLoop, if_neg hs], .stop ?_, hc⟩
      have hs' := mt (sameTop_iff _ _).2 hs
      simp only [SameTopBit, ← hc.1, ← hc.2.1]; exact hs'

/-- The decoder's second loop (R124, R128) is the pseudocode's loop over the integers, from a code in the interval. -/
theorem decUnderflowLoop_coder (s0 : State) (n : Nat) (s : State) (c : Coder) (hc : HoldsDecoder s0 s c)
    (hl : s.rcLow.toNat < 2 ^ 30) (hh : 2 ^ 30 ≤ s.rcHigh.toNat)
    (hin : s.rcLow.toNat ≤ s.rcCode.toNat ∧ s.rcCode.toNat ≤ s.rcHigh.toNat)
    (hw : 2 ^ 31 ≤ (s.rcHigh.toNat - s.rcLow.toNat + 1) * 2 ^ n) :
    ∃ t d, rcUnderflowLoop decUnderflow n s = .ok t ∧ While StraddlesMiddle (fun c => cancelled (coderDecUnderflow s0 c)) c d ∧
      HoldsDecoder s0 t d := by
  induction n generalizing s c with
  | zero =>
    refine ⟨s, c, rfl, .stop ?_, hc⟩
    have hH := s.rcHigh.isLt
    simp only [StraddlesMiddle, ← hc.1, ← hc.2.1]
    omega
  | succ n ih =>
    by_cases hs : s.rcLow &&& ~~~s.rcHigh &&& rcQuarter ≠ 0
    · have hs' := (straddles_iff _ _).1 hs
      have hz := hc.inBitZ
      obtain ⟨h1, h2, h3, h4, h5, h6⟩ := hc
      have hH := s.rcHigh.isLt
      obtain ⟨i1, i2⟩ := underflow_interval s.rcLow s.rcHigh (by omega) (by omega)
      have hcode := underflow_code s.rcCode (inBitZ s s.inPos).1 (by omega) (by omega)
      have hb1 : (inBitZ s s.inPos).1.toNat ≤ 1 := Bool.toNat_le _
      obtain ⟨t, d, t1, t2, t3⟩ := ih
        { s with
          rcCode := s.rcCode &&& rcHalf ||| s.rcCode <<< 1 &&& rcMask >>> 1 |||
            (BitVec.ofBool (inBitZ s s.inPos).1).setWidth 31
          inPos := (inBitZ s s.inPos).2
          rcLow := s.rcLow <<< 1 ^^^ rcHalf
          rcHigh := (s.rcHigh ^^^ rcHalf) <<< 1 ||| rcHalf ||| 1 }
        (cancelled (coderDecUnderflow s0 c))
        (by
          refine ⟨by simp only [cancelled_low, coderDecUnderflow_low]; omega,
            by simp only [cancelled_high, coderDecUnderflow_high]; omega, ?_, by simp only []; rw [hz]; rfl,
            by simp only []; rw [hz]; exact Nat.min_le_right _ _, ?_⟩
          · simp only [cancelled_code, coderDecUnderflow_code]
            rw [hcode, hz, h3]
            simp only []
            omega
          · rw [h6])
        (by simp only []; rw [i1]; omega) (by simp only []; rw [i2]; omega)
        (by simp only []; rw [i1, i2, hcode]; omega)
        (by
          simp only []
          have hd : 2 * s.rcHigh.toNat - 2 ^ 30 + 1 - (2 * s.rcLow.toNat - 2 ^ 30) + 1
              = 2 * (s.rcHigh.toNat - s.rcLow.toNat + 1) := by omega
          rw [i1, i2, hd, Nat.mul_comm 2, Nat.mul_assoc, ← Nat.pow_succ']
          exact hw)
      refine ⟨t, d, ?_, .again ?_ t2, t3⟩
      · rw [rcUnderflowLoop, if_pos hs]
        exact t1
      · simp only [StraddlesMiddle, ← h1, ← h2]; exact hs'
    · refine ⟨s, c, by rw [rcUnderflowLoop, if_neg hs], .stop ?_, hc⟩
      have hs' := mt (straddles_iff _ _).2 hs
      simp only [StraddlesMiddle, ← hc.1, ← hc.2.1]; exact hs'

/-- The decoder's renormalization of an interval that holds the code. -/
theorem decRenormalize_coder (s : State) (c : Coder) (hc : HoldsDecoder s s c)
    (h : s.rcLow.toNat ≤ s.rcCode.toNat ∧ s.rcCode.toNat ≤ s.rcHigh.toNat) :
    ∃ t e, rcRenormalize decShift decUnderflow s = .ok t ∧ Renormalizes (coderDecShift s) (coderDecUnderflow s) c e ∧
      HoldsDecoder s t e ∧ (t.rcLow.toNat ≤ t.rcCode.toNat ∧ t.rcCode.toNat ≤ t.rcHigh.toNat) ∧
      t.rcLow.toNat < t.rcHigh.toNat ∧ rcMinRange ≤ rcRange t ∧ rcRange t ≤ rcFull := by
  obtain ⟨u, m, hu, w1, hm⟩ := decShiftLoop_coder s 31 s c hc (by omega) (by omega)
  obtain ⟨u', hu', -, hi⟩ := decShiftLoop_spec 31 s h
  have he : u' = u := by rw [hu] at hu'; exact (Except.ok.inj hu').symm
  subst he
  obtain ⟨a1, a2⟩ := rcShiftLoop_interval decShift decShift_keeps 31 s u' hu (by omega) (by omega)
  obtain ⟨t, e, ht, w2, hd⟩ := decUnderflowLoop_coder s 30 u' m hm a1 a2 hi (by omega)
  have hr : rcRenormalize decShift decUnderflow s = .ok t := by rw [rcRenormalize, hu]; exact ht
  obtain ⟨t', ht', -, ht2, ht3⟩ := decRenormalize_spec s h
  have he : t' = t := by rw [hr] at ht'; exact (Except.ok.inj ht').symm
  subst he
  exact ⟨t', e, hr, ⟨m, w1, w2⟩, hd, ht2, ht3⟩

end Sys2Proof.Machine
end

