-- ==== Sys2Proof/Laws/Emission.lean ====
section
/-! SUPPORT. Emissions one after the other: what was put out before stays, and the bits put out add up
(`spec/20_memory.md` R66). -/

namespace Sys2Proof.Machine

/-- `t` is `s` with the bits `bs` appended, and every byte they fall in is listed. -/
def Emitted (s t : State) (bs : List Bool) : Prop :=
  Appended s t bs ∧ (∀ a, (memRead s.outbuf a).isSome → (memRead t.outbuf a).isSome) ∧
  ∀ a, 8 * a < t.outPos → s.outPos < 8 * a + 8 → s.outPos < t.outPos → (memRead t.outbuf a).isSome

theorem emit_listed (bs : List Bool) (s t : State) (h : emit bs s = .ok t) :
    (∀ a, (memRead s.outbuf a).isSome → (memRead t.outbuf a).isSome) ∧
    ∀ a, 8 * a < t.outPos → s.outPos < 8 * a + 8 → (memRead s.outbuf a).isSome ∨ s.outPos < t.outPos →
      (memRead t.outbuf a).isSome := by
  induction bs generalizing s with
  | nil =>
    simp only [emit, Except.ok.injEq] at h
    subst h
    exact ⟨fun _ h => h, fun a _ _ h => h.resolve_right (by omega)⟩
  | cons b bs ih =>
    simp only [emit] at h
    split at h
    · simp at h
    rename_i u hu
    obtain ⟨k1, k2⟩ := ih u h
    have hp := (outBit_appended b s u hu).2.1
    simp only [List.length_cons, List.length_nil] at hp
    refine ⟨fun a ha => k1 a (outBit_listed b s u hu a (.inl ha)), fun a h1 h2 h3 => ?_⟩
    by_cases hc : a = s.outPos / 8
    · exact k1 a (outBit_listed b s u hu a (.inr hc))
    · exact k2 a h1 (by omega) (.inr (by omega))

/-- An emission that ends without a fault. -/
theorem Emitted.of_emit {bs : List Bool} {s t : State} (h : emit bs s = .ok t) : Emitted s t bs :=
  ⟨emit_appended _ _ _ h, (emit_listed _ _ _ h).1, fun a h1 h2 h3 => (emit_listed _ _ _ h).2 a h1 h2 (.inr h3)⟩

theorem Emitted.refl (s : State) : Emitted s s [] := Emitted.of_emit rfl

/-- Bits appended after bits appended. -/
theorem Appended.trans {s t u : State} {xs ys : List Bool} (h1 : Appended s t xs) (h2 : Appended t u ys) :
    Appended s u (xs ++ ys) := by
  obtain ⟨a1, a2, a3, a4⟩ := h1
  obtain ⟨b1, b2, b3, b4⟩ := h2
  refine ⟨by simp; omega, ?_, ?_, ?_⟩
  · intro j hj
    by_cases h : j < xs.length
    · rw [List.getElem_append_left h, ← a2 j h, b4 _ (by omega)]
    · rw [List.getElem_append_right (by omega)]
      have := b2 (j - xs.length) (by simp at hj; omega)
      rw [← this, a1]
      congr 1
      omega
  · intro a ha
    simp only [List.length_append] at ha
    rw [b3 a (by omega), a3 a (by omega)]
  · intro p hp
    simp only [List.length_append] at hp
    rw [b4 p (by omega), a4 p (by omega)]

theorem Emitted.trans {s t u : State} {xs ys : List Bool} (h1 : Emitted s t xs) (h2 : Emitted t u ys) :
    Emitted s u (xs ++ ys) := by
  obtain ⟨a1, a2, a3⟩ := h1
  obtain ⟨b1, b2, b3⟩ := h2
  have ea := a1.1
  have eb := b1.1
  refine ⟨a1.trans b1, fun a h => b2 a (a2 a h), fun a h1 h2 h3 => ?_⟩
  by_cases h8 : 8 * a < t.outPos ∧ s.outPos < t.outPos
  · exact b2 a (a3 a h8.1 h2 h8.2)
  · exact b3 a h1 (by omega) (by omega)

/-- An output stream written up to OUTPOS stays so. -/
theorem Emitted.written {s t : State} {bs : List Bool} (h : Emitted s t bs) (hw : OutputWritten s) : OutputWritten t := by
  obtain ⟨a1, a2, a3⟩ := h
  intro a ha
  by_cases h8 : 8 * a < s.outPos
  · exact a2 a (hw a h8)
  · exact a3 a ha (by omega) (by omega)

end Sys2Proof.Machine
end

