-- ==== Sys2Proof/Laws/Encoder.lean ====
section
/-! SUPPORT. The encoder's renormalization is the pseudocode's two loops over the integers, and puts out the bits they put
out (`spec/41_range_coder.md` R123-R126). -/

namespace Sys2Proof.Machine

/-! ## The encoder -/

/-- The state holds the coder's interval and counter. -/
def HoldsEncoder (s : State) (c : Coder) : Prop :=
  s.rcLow.toNat = c.low ∧ s.rcHigh.toNat = c.high ∧ s.rcUnderflow.toNat = c.uf

/-- What the encoder's loops change. -/
def EncoderFrame (s t : State) : Prop :=
  t = { s with rcLow := t.rcLow, rcHigh := t.rcHigh, rcUnderflow := t.rcUnderflow, outbuf := t.outbuf, outPos := t.outPos }

theorem EncoderFrame.trans {s t u : State} (h1 : EncoderFrame s t) (h2 : EncoderFrame t u) : EncoderFrame s u := by
  unfold EncoderFrame at *
  rw [h2, h1]

/-- The bits a first-loop iteration puts out. -/
def shiftBits (s : State) : List Bool :=
  s.rcLow.getLsbD 30 :: List.replicate s.rcUnderflow.toNat (!s.rcLow.getLsbD 30)

theorem encShift_eq (s : State) : encShift s = match emit (shiftBits s) s with
    | .error c => .error c
    | .ok u => .ok { u with rcUnderflow := 0 } := by
  simp only [encShift, emitRepeated_eq, shiftBits, emit]
  cases outBit (s.rcLow.getLsbD 30) s with
  | error c => rfl
  | ok t => rfl

/-- Emission without room for every bit overflows. -/
theorem emit_no_room (bs : List Bool) (s : State) (h : ¬ OutputRoom s bs.length) (hp : s.outPos ≤ 8 * s.cfg.outBytes) :
    emit bs s = .error .outOverflow := by
  cases he : emit bs s with
  | ok t => exact absurd (emit_in_room bs s t he hp) h
  | error c => rw [emit_error _ _ _ he]

/-- The encoder's first loop (R123, R125): it is the pseudocode's loop over the integers, it puts out the bits that loop
puts out where there is room for them, and it overflows where there is not. -/
theorem encShiftLoop_spec (n : Nat) (s : State) (c : Coder) (hc : HoldsEncoder s c)
    (hle : s.rcLow.toNat ≤ s.rcHigh.toNat) (hw : 2 ^ 31 ≤ (s.rcHigh.toNat - s.rcLow.toNat + 1) * 2 ^ n) :
    ∃ d bs, While SameTopBit (fun c => shifted (coderEncShift c)) c d ∧ d.out = c.out ++ bs ∧
      bs.length ≤ n + c.uf ∧ d.uf ≤ c.uf ∧ d.low < 2 ^ 30 ∧ 2 ^ 30 ≤ d.high ∧ d.high < 2 ^ 31 ∧
      s.rcHigh.toNat - s.rcLow.toNat ≤ d.high - d.low ∧
      (OutputRoom s bs.length → ∃ t, rcShiftLoop encShift n s = .ok t ∧ HoldsEncoder t d ∧ Emitted s t bs ∧
        EncoderFrame s t) ∧
      (s.outPos ≤ 8 * s.cfg.outBytes → ¬ OutputRoom s bs.length → rcShiftLoop encShift n s = .error .outOverflow) := by
  induction n generalizing s c with
  | zero =>
    obtain ⟨h1, h2, h3⟩ := hc
    have hH := s.rcHigh.isLt
    refine ⟨c, [], .stop ?_, by simp, by simp, Nat.le_refl _, by omega, by omega, by omega, by omega,
      fun _ => ⟨s, rfl, ⟨h1, h2, h3⟩, .refl s, rfl⟩, fun hp hr => absurd (by simpa [OutputRoom] using hp) hr⟩
    simp only [SameTopBit]
    omega
  | succ n ih =>
    have hc' := hc
    obtain ⟨h1, h2, h3⟩ := hc
    have hL := s.rcLow.isLt
    have hH := s.rcHigh.isLt
    by_cases hs : (s.rcLow ^^^ s.rcHigh) &&& rcHalf = 0
    · have hs' := (sameTop_iff _ _).1 hs
      have hbit : s.rcLow.getLsbD 30 = decide (2 ^ 30 ≤ c.low) := by rw [bit30_iff, h1]
      have hbits : shiftBits s = decide (2 ^ 30 ≤ c.low) :: List.replicate c.uf (!decide (2 ^ 30 ≤ c.low)) := by
        rw [shiftBits, hbit, h3]
      obtain ⟨i1, i2⟩ := shift_interval s.rcLow s.rcHigh
      -- the state after one iteration, if its bits fit
      let u : State := { s with rcLow := s.rcLow <<< 1, rcHigh := s.rcHigh <<< 1 ||| 1, rcUnderflow := 0 }
      have hu : ∀ v, emit (shiftBits s) s = .ok v →
          ({ v with rcUnderflow := 0, rcLow := v.rcLow <<< 1, rcHigh := v.rcHigh <<< 1 ||| 1 } : State) =
            { u with outbuf := v.outbuf, outPos := v.outPos } := by
        intro v hv
        have hfr := emit_frame _ _ _ hv
        rw [hfr]
      have hd : 2 * s.rcHigh.toNat % 2 ^ 31 + 1 - 2 * s.rcLow.toNat % 2 ^ 31 + 1
          = 2 * (s.rcHigh.toNat - s.rcLow.toNat + 1) := by omega
      -- the rest of the loop, from any output position
      have hrest : ∀ ob op, _ := fun ob op => ih ({ u with outbuf := ob, outPos := op } : State) (shifted (coderEncShift c))
        ⟨by simp only [u, shifted, coderEncShift]; rw [i1, h1], by simp only [u, shifted, coderEncShift]; rw [i2, h2],
          by simp [u, shifted, coderEncShift]⟩
        (by simp only [u]; rw [i1, i2]; omega)
        (by
          simp only [u]
          rw [i1, i2, hd, Nat.mul_comm 2, Nat.mul_assoc, ← Nat.pow_succ']
          exact hw)
      obtain ⟨d, bs, w1, w2, w3, w4, w5, w6, w7, w8, -, -⟩ := hrest s.outbuf s.outPos
      have hrest' : ∀ ob op,
          (OutputRoom { u with outbuf := ob, outPos := op } bs.length →
            ∃ t, rcShiftLoop encShift n { u with outbuf := ob, outPos := op } = .ok t ∧ HoldsEncoder t d ∧
              Emitted { u with outbuf := ob, outPos := op } t bs ∧ EncoderFrame { u with outbuf := ob, outPos := op } t) ∧
          (op ≤ 8 * u.cfg.outBytes → ¬ OutputRoom { u with outbuf := ob, outPos := op } bs.length →
            rcShiftLoop encShift n { u with outbuf := ob, outPos := op } = .error .outOverflow) := by
        intro ob op
        obtain ⟨d', bs', v1, v2, -, -, -, -, -, -, v9, v10⟩ := hrest ob op
        have e := w1.det v1
        subst e
        have e2 : bs = bs' := List.append_cancel_left (w2.symm.trans v2)
        subst e2
        exact ⟨v9, v10⟩
      have hout : (shifted (coderEncShift c)).out = c.out ++ shiftBits s := by rw [hbits]; rfl
      have hlen : (shiftBits s).length = 1 + c.uf := by rw [hbits]; simp; omega
      have huf : (shifted (coderEncShift c)).uf = 0 := rfl
      refine ⟨d, shiftBits s ++ bs, .again ?_ w1, by rw [w2, hout, List.append_assoc],
        by rw [List.length_append, hlen]; omega, by omega, w5, w6, w7, ?_, ?_, ?_⟩
      · simp only [SameTopBit, ← h1, ← h2]; exact hs'
      · simp only [u] at w8
        rw [i1, i2] at w8
        omega
      · intro hr
        simp only [OutputRoom, List.length_append] at hr
        obtain ⟨v, hv⟩ := emit_room (shiftBits s) s (by simp only [OutputRoom]; omega)
        have hvp : v.outPos = s.outPos + (shiftBits s).length := (emit_appended _ _ _ hv).1
        obtain ⟨t, t1, t2, t3, t4⟩ := (hrest' v.outbuf v.outPos).1 (by simp only [OutputRoom, u]; omega)
        refine ⟨t, ?_, t2, Emitted.trans (Emitted.of_emit hv) ?_, ?_⟩
        · rw [rcShiftLoop, if_pos hs, encShift_eq, hv]
          simp only []
          rw [hu v hv]
          exact t1
        · have hfr := emit_frame _ _ _ hv
          have hseed : v.outSeed = s.outSeed := by rw [hfr]
          have heq : ∀ a, outByte ({ u with outbuf := v.outbuf, outPos := v.outPos } : State) a = outByte v a := by
            intro a; simp [outByte, u, hseed]
          obtain ⟨⟨k1, k2, k3, k4⟩, k5, k6⟩ := t3
          exact ⟨⟨k1, k2, fun a ha => (k3 a ha).trans (heq a), fun p hp => (k4 p hp).trans (by
            simp only [outBitAt, heq])⟩, k5, k6⟩
        · unfold EncoderFrame at t4 ⊢
          rw [t4]
      · intro hp hr
        rw [rcShiftLoop, if_pos hs, encShift_eq]
        by_cases hroom : OutputRoom s (shiftBits s).length
        · obtain ⟨v, hv⟩ := emit_room _ s hroom
          have hvp : v.outPos = s.outPos + (shiftBits s).length := (emit_appended _ _ _ hv).1
          rw [hv]
          simp only []
          rw [hu v hv]
          simp only [OutputRoom, List.length_append] at hr hroom
          exact (hrest' v.outbuf v.outPos).2 (by simp only [u]; omega) (by simp only [OutputRoom, u]; omega)
        · rw [emit_no_room _ _ hroom hp]
    · have hs' := mt (sameTop_iff _ _).2 hs
      refine ⟨c, [], .stop ?_, by simp, by simp, Nat.le_refl _, by omega, by omega, by omega, by omega,
        fun _ => ⟨s, by rw [rcShiftLoop, if_neg hs], hc', .refl s, rfl⟩,
        fun hp hr => absurd (by simpa [OutputRoom] using hp) hr⟩
      simp only [SameTopBit, ← h1, ← h2]; exact hs'

/-- The encoder's second loop (R124, R126): it is the pseudocode's loop over the integers where the counter fits 32 bits,
and overflows where it does not. -/
theorem encUnderflowLoop_spec (n : Nat) (s : State) (c : Coder) (hc : HoldsEncoder s c)
    (hl : s.rcLow.toNat < 2 ^ 30) (hh : 2 ^ 30 ≤ s.rcHigh.toNat)
    (hw : 2 ^ 31 ≤ (s.rcHigh.toNat - s.rcLow.toNat + 1) * 2 ^ n) :
    ∃ d, While StraddlesMiddle (fun c => cancelled (coderEncUnderflow c)) c d ∧ d.out = c.out ∧ c.uf ≤ d.uf ∧
      d.uf ≤ c.uf + n ∧ d.low < 2 ^ 30 ∧ 2 ^ 30 ≤ d.high ∧
      (d.uf < 2 ^ 32 → ∃ t, rcUnderflowLoop encUnderflow n s = .ok t ∧ HoldsEncoder t d ∧
        t = { s with rcLow := t.rcLow, rcHigh := t.rcHigh, rcUnderflow := t.rcUnderflow }) ∧
      (2 ^ 32 ≤ d.uf → rcUnderflowLoop encUnderflow n s = .error .rcUnderflowOvf) := by
  induction n generalizing s c with
  | zero =>
    obtain ⟨h1, h2, h3⟩ := hc
    have hH := s.rcHigh.isLt
    have hU := s.rcUnderflow.isLt
    refine ⟨c, .stop ?_, rfl, Nat.le_refl _, Nat.le_refl _, by omega, by omega, fun _ => ⟨s, rfl, ⟨h1, h2, h3⟩, rfl⟩,
      fun h => by omega⟩
    simp only [StraddlesMiddle]
    omega
  | succ n ih =>
    have hc' := hc
    obtain ⟨h1, h2, h3⟩ := hc
    have hH := s.rcHigh.isLt
    have hU := s.rcUnderflow.isLt
    by_cases hs : s.rcLow &&& ~~~s.rcHigh &&& rcQuarter ≠ 0
    · have hs' := (straddles_iff _ _).1 hs
      obtain ⟨i1, i2⟩ := underflow_interval s.rcLow s.rcHigh (by omega) (by omega)
      by_cases hov : s.rcUnderflow.toNat = 4294967295
      · -- the counter is full: whatever the loop goes on to, it ends past 32 bits
        obtain ⟨d, w1, w2, w3, w4, w5, w6, -, -⟩ := ih
          ({ s with
              rcLow := s.rcLow <<< 1 ^^^ rcHalf, rcHigh := (s.rcHigh ^^^ rcHalf) <<< 1 ||| rcHalf ||| 1
              rcUnderflow := 0 } : State)
          { (cancelled (coderEncUnderflow c)) with uf := 0 }
          ⟨by simp only [cancelled_low, coderEncUnderflow_low]; omega, by simp only [cancelled_high, coderEncUnderflow_high]; omega,
            rfl⟩
          (by simp only []; rw [i1]; omega) (by simp only []; rw [i2]; omega)
          (by
            simp only []
            rw [i1, i2]
            have hd : 2 * s.rcHigh.toNat - 2 ^ 30 + 1 - (2 * s.rcLow.toNat - 2 ^ 30) + 1
                = 2 * (s.rcHigh.toNat - s.rcLow.toNat + 1) := by omega
            rw [hd, Nat.mul_comm 2, Nat.mul_assoc, ← Nat.pow_succ']
            exact hw)
        have hshift : ∀ (e f : Coder), While StraddlesMiddle (fun c => cancelled (coderEncUnderflow c)) e f → ∀ k,
            While StraddlesMiddle (fun c => cancelled (coderEncUnderflow c)) { e with uf := e.uf + k }
              { f with uf := f.uf + k } := by
          intro e f hef k
          induction hef with
          | stop h => exact .stop h
          | again h _ ih =>
            refine .again h ?_
            have e2 : ∀ a : Coder, ({ (cancelled (coderEncUnderflow a)) with uf := (cancelled (coderEncUnderflow a)).uf + k } : Coder)
                = cancelled (coderEncUnderflow { a with uf := a.uf + k }) := by
              intro a; simp only [cancelled, coderEncUnderflow, Nat.add_right_comm]
            rw [← e2]
            exact ih
        have hgo := hshift _ _ w1 (c.uf + 1)
        simp only [Nat.zero_add] at hgo w3 w4
        refine ⟨{ d with uf := d.uf + (c.uf + 1) }, .again ?_ hgo, w2, by simp only []; omega, by simp only []; omega, w5, w6,
          fun h => by simp only [] at h; omega, fun _ => ?_⟩
        · simp only [StraddlesMiddle, ← h1, ← h2]; exact hs'
        · rw [rcUnderflowLoop, if_pos hs, encUnderflow, if_pos (by omega)]
      · have hinc : (s.rcUnderflow + 1).toNat = c.uf + 1 := by
          rw [BitVec.toNat_add]
          simp
          omega
        obtain ⟨d, w1, w2, w3, w4, w5, w6, w7, w8⟩ := ih
          ({ s with
              rcLow := s.rcLow <<< 1 ^^^ rcHalf, rcHigh := (s.rcHigh ^^^ rcHalf) <<< 1 ||| rcHalf ||| 1
              rcUnderflow := s.rcUnderflow + 1 } : State)
          (cancelled (coderEncUnderflow c))
          ⟨by simp only [cancelled_low, coderEncUnderflow_low]; omega, by simp only [cancelled_high, coderEncUnderflow_high]; omega,
            by simp only [cancelled_uf, coderEncUnderflow_uf]; rw [hinc]⟩
          (by simp only []; rw [i1]; omega) (by simp only []; rw [i2]; omega)
          (by
            simp only []
            rw [i1, i2]
            have hd : 2 * s.rcHigh.toNat - 2 ^ 30 + 1 - (2 * s.rcLow.toNat - 2 ^ 30) + 1
                = 2 * (s.rcHigh.toNat - s.rcLow.toNat + 1) := by omega
            rw [hd, Nat.mul_comm 2, Nat.mul_assoc, ← Nat.pow_succ']
            exact hw)
        have huf : (cancelled (coderEncUnderflow c)).uf = c.uf + 1 := rfl
        have hl' : rcUnderflowLoop encUnderflow (n + 1) s = rcUnderflowLoop encUnderflow n
            { s with
              rcLow := s.rcLow <<< 1 ^^^ rcHalf, rcHigh := (s.rcHigh ^^^ rcHalf) <<< 1 ||| rcHalf ||| 1
              rcUnderflow := s.rcUnderflow + 1 } := by
          rw [rcUnderflowLoop, if_pos hs, encUnderflow, if_neg (by simpa using hov)]
        refine ⟨d, .again ?_ w1, w2, by omega, by omega, w5, w6, fun h => ?_, fun h => by rw [hl']; exact w8 h⟩
        · simp only [StraddlesMiddle, ← h1, ← h2]; exact hs'
        · obtain ⟨t, t1, t2, t3⟩ := w7 h
          refine ⟨t, by rw [hl']; exact t1, t2, ?_⟩
          rw [t3]
    · have hs' := mt (straddles_iff _ _).2 hs
      refine ⟨c, .stop ?_, rfl, Nat.le_refl _, by omega, by omega, by omega,
        fun _ => ⟨s, by rw [rcUnderflowLoop, if_neg hs], hc', rfl⟩, fun h => by omega⟩
      simp only [StraddlesMiddle, ← h1, ← h2]; exact hs'

/-- The encoder's renormalization of an interval with `low ≤ high`. -/
theorem encRenormalize_spec (s : State) (c : Coder) (hc : HoldsEncoder s c) (hle : s.rcLow.toNat ≤ s.rcHigh.toNat)
    (ho : c.out = []) :
    ∃ e, Renormalizes coderEncShift coderEncUnderflow c e ∧ e.out.length ≤ 31 + c.uf ∧ e.uf ≤ c.uf + 30 ∧
      (OutputRoom s e.out.length → e.uf < 2 ^ 32 →
        ∃ t, rcRenormalize encShift encUnderflow s = .ok t ∧ HoldsEncoder t e ∧ Emitted s t e.out ∧ EncoderFrame s t) ∧
      (s.outPos ≤ 8 * s.cfg.outBytes → ¬ OutputRoom s e.out.length →
        rcRenormalize encShift encUnderflow s = .error .outOverflow) ∧
      (OutputRoom s e.out.length → 2 ^ 32 ≤ e.uf →
        rcRenormalize encShift encUnderflow s = .error .rcUnderflowOvf) := by
  obtain ⟨m, bs, a1, a2, a3, a4, a5, a6, a7, a8, a9, a10⟩ := encShiftLoop_spec 31 s c hc hle (by omega)
  rw [ho, List.nil_append] at a2
  -- the second loop, from any state that holds `m`
  have hsecond : ∀ t : State, HoldsEncoder t m → _ := fun t ht => encUnderflowLoop_spec 30 t m ht
    (by rw [ht.1]; exact a5) (by rw [ht.2.1]; exact a6) (by rw [ht.1, ht.2.1]; omega)
  -- one such state exists whether or not the first loop's bits fit
  have hm : ∃ t : State, HoldsEncoder t m := by
    have hU := s.rcUnderflow.isLt
    have := hc.2.2
    refine ⟨{ s with rcLow := BitVec.ofNat 31 m.low, rcHigh := BitVec.ofNat 31 m.high, rcUnderflow := BitVec.ofNat 32 m.uf },
      ?_, ?_, ?_⟩ <;> simp only [BitVec.toNat_ofNat] <;> omega
  obtain ⟨t0, ht0⟩ := hm
  obtain ⟨e, b1, b2, b3, b4, b5, b6, -, -⟩ := hsecond t0 ht0
  refine ⟨e, ⟨m, a1, b1⟩, by rw [b2, a2]; omega, by omega, ?_, ?_, ?_⟩
  · intro hr hu
    rw [b2, a2] at hr
    obtain ⟨t, t1, t2, t3, t4⟩ := a9 hr
    obtain ⟨e', c1, -, -, -, -, -, c7, -⟩ := hsecond t t2
    have he := b1.det c1
    subst he
    obtain ⟨u, u1, u2, u3⟩ := c7 hu
    refine ⟨u, by rw [rcRenormalize, t1]; exact u1, u2, ?_, t4.trans ?_⟩
    · rw [b2, a2]
      obtain ⟨⟨k1, k2, k3, k4⟩, k5, k6⟩ := t3
      have e1 : u.outPos = t.outPos := by rw [u3]
      have e2 : u.outbuf = t.outbuf := by rw [u3]
      have e3 : ∀ a, outByte u a = outByte t a := by intro a; rw [u3]; rfl
      have e4 : ∀ p, outBitAt u p = outBitAt t p := by intro p; simp only [outBitAt, e3]
      refine ⟨⟨by rw [e1]; exact k1, fun j hj => (e4 _).trans (k2 j hj), fun a ha => (e3 a).trans (k3 a ha),
        fun p hp => (e4 p).trans (k4 p hp)⟩, by rw [e2]; exact k5, by rw [e1, e2]; exact k6⟩
    · unfold EncoderFrame
      rw [u3]
  · intro hp hr
    rw [b2, a2] at hr
    rw [rcRenormalize, a10 hp hr]
  · intro hr hu
    rw [b2, a2] at hr
    obtain ⟨t, t1, t2, -, -⟩ := a9 hr
    obtain ⟨e', c1, -, -, -, -, -, -, c8⟩ := hsecond t t2
    have he := b1.det c1
    subst he
    rw [rcRenormalize, t1]
    exact c8 hu

end Sys2Proof.Machine
end

