-- ==== Sys2Proof/Laws/Host.lean ====
section
/-! SUPPORT. Host accesses, once: where an aligned offset lands, which words a read answers, and what a write does to the
fault latch (`spec/20_memory.md` R60-R62, R71, `spec/60_exceptions.md` R236). -/

namespace Sys2Proof.Machine

theorem blockOffset_aligned (s : State) (off : Nat) (h : off % 4 = 0) (hb : off < 0x3000000) :
    blockOffset s (s.cfg.base + off) = some off := by
  unfold blockOffset blockBytes
  rw [if_pos (by omega)]
  congr 1
  omega

theorem hostWrite_aligned (s : State) (off : Nat) (v : Word) (h : off % 4 = 0) (hb : off < 0x3000000) :
    hostWrite (s.cfg.base + off) v s = .next (writeOffset off v s) := by
  simp [hostWrite, blockOffset_aligned s off h hb]

/-- A read whose word does not depend on a free value answers that word. -/
theorem readsAs_of_value (s : State) (off : Nat) (v : Word) (h : off % 4 = 0) (hb : off < 0x3000000)
    (hv : ∀ f, readValue s off f = v) : ReadsAs s off v := by
  refine ⟨{ s with bus := v, draws := s.draws + 1 }, by simp [hostRead, blockOffset_aligned s off h hb, hv], rfl, ?_⟩
  intro p hp
  cases p <;> simp_all [Part.Same, counts, slot, inByte, outByte]

theorem hostRead_fault {s t : State} {a : Nat} (h : hostRead a s = .next t) : t.fault = s.fault := by
  unfold hostRead at h
  split at h
  · cases h
  · cases h; rfl

/-- A refused write enters PROTOCOL, a made one leaves the latch as the write does. -/
theorem unlessBusy_fault (s t : State) (hs : s.fault = none) (ht : t.fault = none) :
    (unlessBusy s t).fault = s.pending.map fun w => { code := .protocol, cmd := w } := by
  cases hp : s.pending with
  | none => simp [unlessBusy, busy, hp, ht]
  | some w => simp [unlessBusy, busy, hp, hs, enterFault]

/-- What a write does to a clear fault latch: at a guarded offset with a command pending it enters PROTOCOL, and at every
other it leaves the latch clear (R236). -/
theorem writeOffset_fault (s : State) (off : Nat) (v : Word) (hs : s.fault = none) :
    (BusyGuarded s off → (writeOffset off v s).fault = s.pending.map fun w => { code := .protocol, cmd := w }) ∧
    (¬ BusyGuarded s off → (writeOffset off v s).fault = none) := by
  have hcmd : (writeCmd v s).fault = s.pending.map fun w => { code := .protocol, cmd := w } := by
    rw [writeCmd, if_neg (by simp [faulted, hs])]
    exact unlessBusy_fault s _ hs hs
  unfold writeOffset
  split
  · exact ⟨fun h => by simp [BusyGuarded, inWindow] at h, fun _ => by unfold writeCtrl; split <;> simp [hs, resetState, State.reset]⟩
  · exact ⟨fun _ => hcmd, fun h => absurd (.inl rfl) h⟩
  · exact ⟨fun _ => unlessBusy_fault s _ hs hs, fun h => absurd (.inr (.inl rfl)) h⟩
  · exact ⟨fun h => by simp [BusyGuarded, inWindow] at h, fun _ => hs⟩
  · exact ⟨fun h => by simp [BusyGuarded, inWindow] at h, fun _ => hs⟩
  · exact ⟨fun _ => unlessBusy_fault s _ hs hs, fun h => absurd (.inr (.inr (.inl rfl))) h⟩
  · rename_i h1 h2 h3 h4 h5 h6
    by_cases hw : inInWindow s off = true
    · have hw' : inWindow ≤ off ∧ off < inWindow + s.cfg.inBytes := by simpa [inInWindow] using hw
      rw [if_pos hw]
      exact ⟨fun _ => unlessBusy_fault s _ hs hs, fun h => absurd (.inr (.inr (.inr hw'))) h⟩
    · rw [if_neg hw]
      refine ⟨?_, fun _ => hs⟩
      rintro (rfl | rfl | rfl | h)
      · exact absurd rfl h2
      · exact absurd rfl h3
      · exact absurd rfl h6
      · exact absurd (by simpa [inInWindow] using h) hw

end Sys2Proof.Machine
end

