-- ==== Sys2Proof/Laws/Parse.lean ====
section
/-! SUPPORT. Where the parses of VT_DECODE, HT_DESERIALIZE and HT_DECODE stop, and with which fault (`spec/42_value_table.md`
R154, R155, R161, `spec/43_huffman.md` R188, R190): each fault answers one form of input, and every other input is read. -/

namespace Sys2Proof.Machine

/-! ## Codes (R190) -/

/-- A walk ends at a leaf, or the input ends inside a code. -/
theorem huffWalk_cases {s : State} {t : Tree} {p : Nat} (hp : p ≤ 8 * s.inLen) (hnd : (huffSymbols t).Nodup) :
    (∃ r, huffWalk s t p = .ok r) ∨ (huffWalk s t p = .error .fmtTruncated ∧ EndsInCode s t p) := by
  induction t generalizing p with
  | leaf y => exact .inl ⟨_, rfl⟩
  | node c0 c1 ih0 ih1 =>
    obtain ⟨n0, n1, hd⟩ := List.nodup_append.1 (show (huffSymbols c0 ++ huffSymbols c1).Nodup from hnd)
    rw [huffWalk]
    by_cases he : p = 8 * s.inLen
    · refine .inr ⟨by simp [inBit, he], ?_⟩
      obtain ⟨x, hx⟩ : ∃ x, x ∈ huffSymbols (.node c0 c1) :=
        List.exists_mem_of_length_pos (by rw [length_huffSymbols]; omega)
      obtain ⟨c, hc⟩ := Option.isSome_iff_exists.1 ((huffCode_isSome _ x).2 hx)
      refine ⟨x, [], c, hc, ?_, inputHolds_nil _ _ hp, by simpa using he⟩
      rintro rfl
      simp only [huffCode] at hc
      split at hc
      · simp at hc
      · split at hc <;> simp at hc
    · have hb : inBit s p = .ok (inBitAt s p, p + 1) := by rw [inBit, if_neg he]
      rw [hb]
      cases hv : inBitAt s p <;> dsimp only
      · rcases ih0 (p := p + 1) (by omega) n0 with h | ⟨h, x, q, r, h1, h2, h3, h4⟩
        · exact .inl h
        · refine .inr ⟨h, x, false :: q, r, by simp [huffCode, h1], h2, (inputHolds_cons _ _ _ _).2 ⟨by omega, hv, h3⟩, ?_⟩
          rw [List.length_cons]; omega
      · rcases ih1 (p := p + 1) (by omega) n1 with h | ⟨h, x, q, r, h1, h2, h3, h4⟩
        · exact .inl h
        · have hx : x ∈ huffSymbols c1 := (huffCode_isSome c1 x).1 (by rw [h1]; rfl)
          have h0 : huffCode c0 x = none := by
            cases hc : huffCode c0 x with
            | none => rfl
            | some d => exact absurd rfl (hd x ((huffCode_isSome c0 x).1 (by rw [hc]; rfl)) x hx)
          refine .inr ⟨h, x, true :: q, r, by simp [huffCode, h0, h1], h2,
            (inputHolds_cons _ _ _ _).2 ⟨by omega, hv, h3⟩, ?_⟩
          rw [List.length_cons]; omega

/-- Where the input ends inside a code, the walk is truncated. -/
theorem huffWalk_truncated {s : State} {t : Tree} {p : Nat} (h : EndsInCode s t p) :
    huffWalk s t p = .error .fmtTruncated := by
  obtain ⟨x, q, r, h1, h2, h3, h4⟩ := h
  induction t generalizing p q with
  | leaf y =>
    simp only [huffCode] at h1
    split at h1
    · simp only [Option.some.injEq] at h1
      simp [(List.append_eq_nil_iff.1 h1.symm).2] at h2
    · simp at h1
  | node c0 c1 ih0 ih1 =>
    rw [huffWalk]
    cases q with
    | nil => simp only [List.length_nil, Nat.add_zero] at h4; simp [inBit, h4]
    | cons b q =>
      rw [inBit_holds h3]
      have h3' := ((inputHolds_cons _ _ _ _).1 h3).2.2
      rw [List.length_cons] at h4
      simp only [huffCode] at h1
      split at h1
      · rename_i d hd
        simp only [Option.some.injEq, List.cons_append, List.cons.injEq] at h1
        obtain ⟨rfl, rfl⟩ := h1
        exact ih0 q hd h3' (by omega)
      · split at h1
        · rename_i d hd
          simp only [Option.some.injEq, List.cons_append, List.cons.injEq] at h1
          obtain ⟨rfl, rfl⟩ := h1
          exact ih1 q hd h3' (by omega)
        · simp at h1

/-- A walk that ends, over the codes of a list of symbols. -/
theorem symbolsHeld_cons {s : State} {t : Tree} {p x : Nat} {xs : List Nat} :
    SymbolsHeld s t p (x :: xs) ↔
      SymbolsHeld s t p [x] ∧ SymbolsHeld s t (p + (codeAll t [x]).length) xs := by
  have e : codeAll t (x :: xs) = codeAll t [x] ++ codeAll t xs := by simp [codeAll]
  simp only [SymbolsHeld, e, inputHolds_append, List.mem_cons, List.not_mem_nil, or_false, forall_eq_or_imp, forall_eq]
  tauto

theorem codeAll_append (t : Tree) (xs ys : List Nat) : codeAll t (xs ++ ys) = codeAll t xs ++ codeAll t ys := by
  simp [codeAll]

theorem codeAll_length_cons (t : Tree) (x : Nat) (xs : List Nat) :
    (codeAll t (x :: xs)).length = (codeAll t [x]).length + (codeAll t xs).length := by
  simp [codeAll]

theorem symbolsHeld_append {s : State} {t : Tree} {p : Nat} {xs ys : List Nat} :
    SymbolsHeld s t p (xs ++ ys) ↔ SymbolsHeld s t p xs ∧ SymbolsHeld s t (p + (codeAll t xs).length) ys := by
  simp only [SymbolsHeld, codeAll_append, inputHolds_append, List.mem_append, or_imp, forall_and]
  tauto

theorem huffWalk_symbol {s : State} {t : Tree} {p x : Nat} (h : SymbolsHeld s t p [x]) :
    huffWalk s t p = .ok (x, p + (codeAll t [x]).length) := by
  have := (huffWalk_codeAll (h.1 x (by simp)) h.2).1
  rw [this]
  simp [codeAll]

theorem symbolsHeld_of_walk {s : State} {t : Tree} {p x q : Nat} (hp : p ≤ 8 * s.inLen) (hnd : (huffSymbols t).Nodup)
    (h : huffWalk s t p = .ok (x, q)) : SymbolsHeld s t p [x] ∧ q = p + (codeAll t [x]).length ∧ q ≤ 8 * s.inLen := by
  obtain ⟨c, hc, hi, rfl⟩ := huffWalk_holds hp hnd h
  obtain ⟨-, hq, hm⟩ := huffWalk_pos _ _ _ _ _ hp h
  have e : codeAll t [x] = c := by simp [codeAll, hc]
  exact ⟨⟨by simpa using hm, by rwa [e]⟩, by rw [e], hq⟩

/-! ## Delta payloads (R154) -/

/-- Gaps after which another is to come are read past. -/
theorem readDelta_open {s : State} {t : Tree} {m n next p : Nat} {c : FaultCode} {gs : List Nat}
    (ho : next + gs.sum + gs.length ≤ m) (hs : SymbolsHeld s t p gs)
    (h : readDelta s t m n (next + gs.sum + gs.length) (p + (codeAll t gs).length) = .error c) :
    readDelta s t m (gs.length + n) next p = .error c := by
  induction gs generalizing next p with
  | nil => simpa [codeAll] using h
  | cons g gs ih =>
    obtain ⟨h1, h2⟩ := symbolsHeld_cons.1 hs
    simp only [List.sum_cons, List.length_cons] at ho h ⊢
    rw [show gs.length + 1 + n = (gs.length + n) + 1 by omega, readDelta, huffWalk_symbol h1]
    dsimp only
    rw [if_neg (by omega), if_neg (by omega)]
    have := ih (next := next + g + 1) (by omega) h2 (by
      rw [show next + g + 1 + gs.sum + gs.length = next + (g + gs.sum) + (gs.length + 1) by omega]
      rwa [codeAll_length_cons, ← Nat.add_assoc p] at h)
    rw [this]

/-- Where a delta payload is not read, it overshoots M or the input ends inside it. -/
theorem readDelta_stops {s : State} {t : Tree} {m n next p : Nat} {c : FaultCode} (hnd : (huffSymbols t).Nodup)
    (hp : p ≤ 8 * s.inLen) (hn : m < next + n) (hm : next ≤ m) (h : readDelta s t m n next p = .error c) :
    (c = .fmtVtPayload ∧ ∃ gs g, next + gs.sum + gs.length ≤ m ∧ m < next + gs.sum + gs.length + g ∧
      SymbolsHeld s t p (gs ++ [g])) ∨
    (c = .fmtTruncated ∧ ∃ gs, next + gs.sum + gs.length ≤ m ∧ SymbolsHeld s t p gs ∧
      EndsInCode s t (p + (codeAll t gs).length)) := by
  induction n generalizing next p with
  | zero => omega
  | succ n ih =>
    rw [readDelta] at h
    rcases huffWalk_cases hp hnd with ⟨⟨g, q⟩, hw⟩ | ⟨hw, he⟩
    · rw [hw] at h
      obtain ⟨hs, rfl, hq⟩ := symbolsHeld_of_walk hp hnd hw
      dsimp only at h
      split at h
      · simp at h
      · split at h
        · simp only [Except.error.injEq] at h
          exact .inl ⟨h.symm, [], g, by simpa using hm, by simpa, by simpa using hs⟩
        · split at h
          · rename_i d hd
            simp only [Except.error.injEq] at h
            subst h
            have e (gs : List Nat) : next + (g :: gs).sum + (g :: gs).length = next + g + 1 + gs.sum + gs.length := by
              simp only [List.sum_cons, List.length_cons]; omega
            rcases ih hq (by omega) (by omega) hd with ⟨hc, gs, g', h1, h2, h3⟩ | ⟨hc, gs, h1, h2, h3⟩
            · exact .inl ⟨hc, g :: gs, g', by rw [e]; exact h1, by rw [e]; exact h2, symbolsHeld_cons.2 ⟨hs, h3⟩⟩
            · refine .inr ⟨hc, g :: gs, by rw [e]; exact h1, symbolsHeld_cons.2 ⟨hs, h2⟩, ?_⟩
              rw [codeAll_length_cons, ← Nat.add_assoc]
              exact h3
          · simp at h
    · rw [hw] at h
      simp only [Except.error.injEq] at h
      exact .inr ⟨h.symm, [], by simpa using hm, ⟨by simp, inputHolds_nil _ _ hp⟩, by simpa [codeAll] using he⟩

/-! ## Range payloads (R155) -/

/-- Runs after which another is to come are read past. -/
theorem readRuns_open {s : State} {t : Tree} {m n i sum p : Nat} {c : FaultCode} {ls : List Nat}
    (ho : sum + ls.sum ≤ m) (hz : ∀ l ∈ (if i = 0 then ls.tail else ls), l ≠ 0) (hs : SymbolsHeld s t p ls)
    (h : readRuns s t m n (i + ls.length) (sum + ls.sum) (p + (codeAll t ls).length) = .error c) :
    readRuns s t m (ls.length + n) i sum p = .error c := by
  induction ls generalizing i sum p with
  | nil => simpa [codeAll] using h
  | cons l ls ih =>
    obtain ⟨h1, h2⟩ := symbolsHeld_cons.1 hs
    simp only [List.sum_cons, List.length_cons] at ho h ⊢
    have hl : ¬ (1 ≤ i ∧ l = 0) := by
      rintro ⟨hi, hl0⟩
      rw [if_neg (by omega)] at hz
      exact hz l (by simp) hl0
    rw [show ls.length + 1 + n = (ls.length + n) + 1 by omega, readRuns, huffWalk_symbol h1]
    dsimp only
    rw [if_neg hl, if_neg (by omega)]
    have := ih (i := i + 1) (sum := sum + l) (by omega) (by
        rw [if_neg (by omega)]
        intro x hx
        refine hz x ?_
        split
        · simpa using hx
        · exact List.mem_cons_of_mem _ hx) h2 (by
      rw [show i + 1 + ls.length = i + (ls.length + 1) by omega, show sum + l + ls.sum = sum + (l + ls.sum) by omega]
      rwa [codeAll_length_cons, ← Nat.add_assoc p] at h)
    rw [this]

/-- Where `n ≥ 1` runs are not read, one is 0 but not the first, overshoots M, or is the last and misses M; or the input ends
inside them. -/
theorem readRuns_stops {s : State} {t : Tree} {m n i sum p : Nat} {c : FaultCode} (hnd : (huffSymbols t).Nodup)
    (hp : p ≤ 8 * s.inLen) (hm : sum ≤ m) (h : readRuns s t m (n + 1) i sum p = .error c) :
    (c = .fmtVtPayload ∧ ∃ ls l, ls.length ≤ n ∧ (∀ x ∈ (if i = 0 then ls.tail else ls), x ≠ 0) ∧ sum + ls.sum ≤ m ∧
      ((1 ≤ i + ls.length ∧ l = 0) ∨ m < sum + ls.sum + l ∨ (ls.length = n ∧ sum + ls.sum + l ≠ m)) ∧
      SymbolsHeld s t p (ls ++ [l])) ∨
    (c = .fmtTruncated ∧ ∃ ls, ls.length ≤ n ∧ (∀ x ∈ (if i = 0 then ls.tail else ls), x ≠ 0) ∧ sum + ls.sum ≤ m ∧
      SymbolsHeld s t p ls ∧ EndsInCode s t (p + (codeAll t ls).length)) := by
  induction n generalizing i sum p with
  | zero =>
    rw [readRuns] at h
    rcases huffWalk_cases hp hnd with ⟨⟨l, q⟩, hw⟩ | ⟨hw, he⟩
    · rw [hw] at h
      obtain ⟨hs, rfl, hq⟩ := symbolsHeld_of_walk hp hnd hw
      refine .inl ⟨?_, [], l, by simp, by simp, by simpa using hm, ?_, by simpa using hs⟩
      · dsimp only at h
        simp only [readRuns] at h
        split at h
        · simpa using h.symm
        · split at h
          · simpa using h.symm
          · split at h
            · rename_i d hd
              split at hd <;> simp_all
            · simp at h
      · simp only [List.length_nil, List.sum_nil, Nat.add_zero, true_and]
        dsimp only at h
        simp only [readRuns] at h
        split at h
        · rename_i h'; exact .inl h'
        · split at h
          · rename_i h'; exact .inr (.inl h')
          · split at h
            · rename_i d hd
              split at hd
              · simp at hd
              · rename_i h'; exact .inr (.inr h')
            · simp at h
    · rw [hw] at h
      simp only [Except.error.injEq] at h
      exact .inr ⟨h.symm, [], by simp, by simp, by simpa using hm, ⟨by simp, inputHolds_nil _ _ hp⟩,
        by simpa [codeAll] using he⟩
  | succ n ih =>
    rw [readRuns] at h
    rcases huffWalk_cases hp hnd with ⟨⟨l, q⟩, hw⟩ | ⟨hw, he⟩
    · rw [hw] at h
      obtain ⟨hs, rfl, hq⟩ := symbolsHeld_of_walk hp hnd hw
      dsimp only at h
      split at h
      · rename_i h'
        simp only [Except.error.injEq] at h
        exact .inl ⟨h.symm, [], l, by simp, by simp, by simpa using hm, .inl (by simpa using h'), by simpa using hs⟩
      · rename_i h0
        split at h
        · rename_i h'
          simp only [Except.error.injEq] at h
          exact .inl ⟨h.symm, [], l, by simp, by simp, by simpa using hm, .inr (.inl (by simpa using h')), by simpa using hs⟩
        · split at h
          · rename_i d hd
            simp only [Except.error.injEq] at h
            subst h
            have hz (ls : List Nat) (hl : ∀ x ∈ (if i + 1 = 0 then ls.tail else ls), x ≠ 0) :
                ∀ x ∈ (if i = 0 then (l :: ls).tail else l :: ls), x ≠ 0 := by
              rw [if_neg (by omega)] at hl
              intro x hx
              split at hx
              · exact hl x (by simpa using hx)
              · rcases List.mem_cons.1 hx with rfl | hx
                · intro hx0; exact h0 ⟨by omega, hx0⟩
                · exact hl x hx
            rcases ih hq (by omega) hd with ⟨hc, ls, l', h1, h2, h3, h4, h5⟩ | ⟨hc, ls, h1, h2, h3, h4, h5⟩
            · refine .inl ⟨hc, l :: ls, l', by simp only [List.length_cons]; omega, hz ls h2,
                by simp only [List.sum_cons]; omega, ?_, symbolsHeld_cons.2 ⟨hs, h5⟩⟩
              simp only [List.length_cons, List.sum_cons]
              omega
            · refine .inr ⟨hc, l :: ls, by simp only [List.length_cons]; omega, hz ls h2,
                by simp only [List.sum_cons]; omega, symbolsHeld_cons.2 ⟨hs, h4⟩, ?_⟩
              rw [codeAll_length_cons, ← Nat.add_assoc]
              exact h5
          · simp at h
    · rw [hw] at h
      simp only [Except.error.injEq] at h
      exact .inr ⟨h.symm, [], by simp, by simp, by simpa using hm, ⟨by simp, inputHolds_nil _ _ hp⟩,
        by simpa [codeAll] using he⟩

/-! ## Value tables (R161) -/

/-- A tag the input holds is read (R156). -/
theorem readTag_holds {s : State} {p : Nat} {b c : Bool} (h : InputHolds s p [b, c]) :
    inBits s 2 0 p = .ok (2 * b.toNat + c.toNat, p + 2) := by
  have := inBits_holds (v := 0) h
  simpa [bitsNat] using this

theorem readTable_reserved {s : State} {m : Nat} (h : InputHolds s s.inPos [true, true]) :
    readTable s m s.inPos = .error .fmtVtTag := by
  rw [readTable, readTag_holds h]
  rfl

/-- What a table reads after each of the three tags. -/
theorem readTable_bitmap {s : State} {m : Nat} (h : InputHolds s s.inPos [false, false]) :
    readTable s m s.inPos = match readBitmap s m 0 (s.inPos + 2) with
      | .error c => .error c
      | .ok (vs, r) => .ok (0, vs, r) := by
  rw [readTable, readTag_holds h]
  rfl

theorem readTable_delta {s : State} {m : Nat} (h : InputHolds s s.inPos [false, true]) :
    readTable s m s.inPos = match readDelta s (refTree m) m (m + 1) 0 (s.inPos + 2) with
      | .error c => .error c
      | .ok (vs, r) => .ok (1, vs, r) := by
  rw [readTable, readTag_holds h]
  rfl

theorem readTable_range {s : State} {m : Nat} (h : InputHolds s s.inPos [true, false]) :
    readTable s m s.inPos = match readRange s (refTree m) m (s.inPos + 2) with
      | .error c => .error c
      | .ok (vs, r) => .ok (2, vs, r) := by
  rw [readTable, readTag_holds h]
  rfl

theorem readBitmap_truncated {s : State} {n i p : Nat} (hp : p ≤ 8 * s.inLen) (h : 8 * s.inLen < p + n) :
    readBitmap s n i p = .error .fmtTruncated := by
  induction n generalizing i p with
  | zero => omega
  | succ n ih =>
    rw [readBitmap, inBit]
    by_cases he : p = 8 * s.inLen
    · simp [he]
    · rw [if_neg he]
      dsimp only
      rw [ih (by omega) (by omega)]

theorem readBitmap_room {s : State} {n i p : Nat} (h : p + n ≤ 8 * s.inLen) : ∃ r, readBitmap s n i p = .ok r := by
  induction n generalizing i p with
  | zero => exact ⟨_, rfl⟩
  | succ n ih =>
    obtain ⟨r, hr⟩ := ih (i := i + 1) (p := p + 1) (by omega)
    rw [readBitmap, inBit, if_neg (by omega)]
    dsimp only
    rw [hr]
    exact ⟨_, rfl⟩

/-- A payload that overshoots or misses M is refused (R154, R155). -/
theorem readTable_bad {s : State} {m : Nat} (h : BadPayload s m) : readTable s m s.inPos = .error .fmtVtPayload := by
  rcases h with ⟨gs, g, ho, hg, ht, hs⟩ | ⟨c, ls, l, ⟨h1, h2, h3⟩, hl, ht, hs⟩
  · suffices hr : readDelta s (refTree m) m (m + 1) 0 (s.inPos + 2) = .error .fmtVtPayload by rw [readTable_delta ht, hr]
    obtain ⟨hs1, hs2⟩ := symbolsHeld_append.1 hs
    simp only [GapsOpen] at ho
    rw [show m + 1 = gs.length + (m - gs.length + 1) by omega]
    refine readDelta_open (by omega) hs1 ?_
    rw [readDelta, huffWalk_symbol hs2]
    dsimp only
    rw [if_neg (by omega), if_pos (by omega)]
  · suffices hr : readRange s (refTree m) m (s.inPos + 2) = .error .fmtVtPayload by rw [readTable_range ht, hr]
    obtain ⟨hc, hs⟩ := symbolsHeld_cons.1 (show SymbolsHeld s (refTree m) (s.inPos + 2) (c :: (ls ++ [l])) from hs)
    obtain ⟨hs1, hs2⟩ := symbolsHeld_append.1 hs
    rw [readRange, huffWalk_symbol hc]
    dsimp only
    rw [show c + 1 = ls.length + (c - ls.length + 1) by omega]
    refine readRuns_open (by omega) (by simpa using h2) hs1 ?_
    rw [readRuns, huffWalk_symbol hs2]
    dsimp only
    by_cases k1 : 1 ≤ 0 + ls.length ∧ l = 0
    · rw [if_pos k1]
    · rw [if_neg k1]
      by_cases k2 : m < 0 + ls.sum + l
      · rw [if_pos k2]
      · rw [if_neg k2]
        have : ls ≠ [] → 1 ≤ ls.length := List.length_pos_iff.2
        have k3 : ls.length = c ∧ ls.sum + l ≠ m := by
          rcases hl with ⟨a, b⟩ | a | a
          · exact absurd ⟨by have := this a; omega, b⟩ k1
          · omega
          · exact a
        rw [show c - ls.length = 0 by omega, readRuns, if_neg (by omega)]

/-- An input that ends inside the tag or the payload is truncated. -/
theorem readTable_truncated {s : State} {m : Nat} (hp : s.inPos ≤ 8 * s.inLen) (h : EndsInTable s m) :
    readTable s m s.inPos = .error .fmtTruncated := by
  rcases h with h | ⟨ht, h⟩ | ⟨ht, gs, ho, hs, he⟩ | ⟨ht, he | ⟨c, ls, ⟨h1, h2, h3⟩, hs, he⟩⟩
  · rw [readTable]
    have : inBits s 2 0 s.inPos = .error .fmtTruncated := by
      rw [inBits, inBit]
      by_cases he : s.inPos = 8 * s.inLen
      · rw [if_pos he]
      · rw [if_neg he]
        dsimp only
        rw [inBits, inBit, if_pos (by omega)]
    rw [this]
  · rw [readTable_bitmap ht, readBitmap_truncated (show s.inPos + 2 ≤ 8 * s.inLen from ht.1) h]
  · suffices hr : readDelta s (refTree m) m (m + 1) 0 (s.inPos + 2) = .error .fmtTruncated by rw [readTable_delta ht, hr]
    simp only [GapsOpen] at ho
    rw [show m + 1 = gs.length + (m - gs.length + 1) by omega]
    refine readDelta_open (by omega) hs ?_
    rw [readDelta, huffWalk_truncated he]
  · suffices hr : readRange s (refTree m) m (s.inPos + 2) = .error .fmtTruncated by rw [readTable_range ht, hr]
    rw [readRange, huffWalk_truncated he]
  · suffices hr : readRange s (refTree m) m (s.inPos + 2) = .error .fmtTruncated by rw [readTable_range ht, hr]
    obtain ⟨hc, hs⟩ := symbolsHeld_cons.1 hs
    rw [readRange, huffWalk_symbol hc]
    dsimp only
    rw [show c + 1 = ls.length + (c - ls.length + 1) by omega]
    refine readRuns_open (by omega) (by simpa using h2) hs ?_
    rw [codeAll_length_cons, ← Nat.add_assoc] at he
    rw [readRuns, huffWalk_truncated he]

/-- Every input is a table, or has the reserved tag, a payload that goes wrong, or too few bits. -/
theorem readTable_cases (s : State) (m : Nat) :
    (∃ r, readTable s m s.inPos = .ok r) ∨ InputHolds s s.inPos [true, true] ∨ BadPayload s m ∨ EndsInTable s m := by
  have hnd := refTree_nodup m
  by_cases h2 : 8 * s.inLen < s.inPos + 2
  · exact .inr (.inr (.inr (.inl h2)))
  have ht : InputHolds s s.inPos [inBitAt s s.inPos, inBitAt s (s.inPos + 1)] := by
    refine (inputHolds_cons _ _ _ _).2 ⟨by omega, rfl, (inputHolds_cons _ _ _ _).2 ⟨by omega, rfl, ?_⟩⟩
    exact inputHolds_nil _ _ (by omega)
  have hq : s.inPos + 2 ≤ 8 * s.inLen := by omega
  cases hr : readTable s m s.inPos with
  | ok r => exact .inl ⟨r, rfl⟩
  | error e =>
    refine .inr ?_
    cases h1 : inBitAt s s.inPos <;> cases h0 : inBitAt s (s.inPos + 1) <;> rw [h1, h0] at ht
    · refine .inr (.inr (.inr (.inl ⟨ht, ?_⟩)))
      by_contra hn
      obtain ⟨r, hb⟩ := readBitmap_room (s := s) (n := m) (i := 0) (p := s.inPos + 2) (by omega)
      rw [readTable_bitmap ht, hb] at hr
      simp at hr
    · cases hd : readDelta s (refTree m) m (m + 1) 0 (s.inPos + 2) with
      | ok r =>
        rw [readTable_delta ht, hd] at hr
        simp at hr
      | error c =>
        rcases readDelta_stops hnd hq (by omega) (Nat.zero_le _) hd with ⟨-, gs, g, a, b, d⟩ | ⟨-, gs, a, b, d⟩
        · exact .inr (.inl (.inl ⟨gs, g, by simpa [GapsOpen] using a, by omega, ht, d⟩))
        · exact .inr (.inr (.inr (.inr (.inl ⟨ht, gs, by simpa [GapsOpen] using a, b, d⟩))))
    · cases hd : readRange s (refTree m) m (s.inPos + 2) with
      | ok r =>
        rw [readTable_range ht, hd] at hr
        simp at hr
      | error c =>
        rw [readRange] at hd
        rcases huffWalk_cases hq hnd with ⟨⟨n, q⟩, hw⟩ | ⟨hw, he⟩
        · rw [hw] at hd
          obtain ⟨hs, rfl, hq'⟩ := symbolsHeld_of_walk hq hnd hw
          dsimp only at hd
          rcases readRuns_stops hnd hq' (Nat.zero_le _) hd with ⟨-, ls, l, a1, a2, a3, a4, a5⟩ | ⟨-, ls, a1, a2, a3, a4, a5⟩
          · refine .inr (.inl (.inr ⟨n, ls, l, ⟨a1, by simpa using a2, by omega⟩, ?_, ht, symbolsHeld_cons.2 ⟨hs, a5⟩⟩))
            rcases a4 with ⟨b1, b2⟩ | b | ⟨b1, b2⟩
            · exact .inl ⟨List.length_pos_iff.1 (by omega), b2⟩
            · exact .inr (.inl (by omega))
            · exact .inr (.inr ⟨b1, by omega⟩)
          · refine .inr (.inr (.inr (.inr (.inr ⟨ht, .inr ⟨n, ls, ⟨a1, by simpa using a2, by omega⟩,
              symbolsHeld_cons.2 ⟨hs, a4⟩, ?_⟩⟩))))
            rw [codeAll_length_cons, ← Nat.add_assoc]
            exact a5
        · exact .inr (.inr (.inr (.inr (.inr ⟨ht, .inl he⟩))))
    · exact .inl ht

/-! ## Serialized trees (R188) -/

theorem bitsNat_eq (v : Nat) (bs : List Bool) : bitsNat v bs = 2 ^ bs.length * v + bitsNat 0 bs := by
  induction bs generalizing v with
  | nil => simp [bitsNat]
  | cons b bs ih =>
    show bitsNat (2 * v + b.toNat) bs = _ + bitsNat (2 * 0 + b.toNat) bs
    rw [ih, ih (2 * 0 + b.toNat), List.length_cons]
    ring

/-- Bits are the field of the number they make. -/
theorem msbBits_bitsNat (bs : List Bool) : bitsNat 0 bs < 2 ^ bs.length ∧ msbBits bs.length (bitsNat 0 bs) = bs := by
  induction bs with
  | nil => simp [bitsNat, msbBits]
  | cons b bs ih =>
    have e : bitsNat 0 (b :: bs) = 2 ^ bs.length * b.toNat + bitsNat 0 bs := by
      show bitsNat (2 * 0 + b.toNat) bs = _
      rw [bitsNat_eq, Nat.mul_zero, Nat.zero_add]
    have hb := Bool.toNat_le b
    have hm := Nat.mul_le_mul_left (2 ^ bs.length) hb
    refine ⟨by rw [e, List.length_cons, Nat.pow_succ]; omega, ?_⟩
    rw [List.length_cons, msbBits, e, Nat.testBit_two_pow_mul_add _ ih.1, if_neg (by omega), Nat.sub_self]
    congr 1
    · cases b <;> rfl
    · conv_rhs => rw [← ih.2]
      apply List.ext_getElem (by simp)
      intro i h1 h2
      rw [msbBits_length] at h1
      rw [msbBits_getElem, msbBits_getElem, Nat.testBit_two_pow_mul_add _ ih.1, if_pos (by omega)]

/-- A field read with room for it ends. -/
theorem inBits_room {s : State} {n v p : Nat} (h : p + n ≤ 8 * s.inLen) : ∃ r, inBits s n v p = .ok r := by
  induction n generalizing v p with
  | zero => exact ⟨_, rfl⟩
  | succ n ih =>
    rw [inBits, inBit, if_neg (by omega)]
    exact ih (by omega)

/-- A field that is read was there, most significant bit first. -/
theorem inBits_msbBits {s : State} {n p x q : Nat} (hp : p ≤ 8 * s.inLen) (h : inBits s n 0 p = .ok (x, q)) :
    x < 2 ^ n ∧ InputHolds s p (msbBits n x) ∧ q = p + n := by
  obtain ⟨hq, hq'⟩ := inBits_pos _ _ _ _ _ _ hp h
  -- the bits that are there
  have hh : InputHolds s p ((List.range n).map fun j => inBitAt s (p + j)) :=
    ⟨by simp; omega, fun i hi => by simp⟩
  have hb := inBits_holds (v := 0) hh
  rw [List.length_map, List.length_range, h] at hb
  simp only [Except.ok.injEq, Prod.mk.injEq] at hb
  obtain ⟨h1, h2⟩ := msbBits_bitsNat ((List.range n).map fun j => inBitAt s (p + j))
  rw [List.length_map, List.length_range, ← hb.1] at h1 h2
  exact ⟨h1, h2 ▸ hh, hq⟩

theorem tokenBits_append (w : Nat) (ts us : List TreeToken) : tokenBits w (ts ++ us) = tokenBits w ts ++ tokenBits w us := by
  simp [tokenBits]

theorem tokenLeaves_append (ts us : List TreeToken) : tokenLeaves (ts ++ us) = tokenLeaves ts ++ tokenLeaves us := by
  simp [tokenLeaves]

@[simp] theorem tokenBits_nil (w : Nat) : tokenBits w [] = [] := rfl
@[simp] theorem tokenLeaves_nil : tokenLeaves [] = [] := rfl
@[simp] theorem tokenBits_node (w : Nat) : tokenBits w [.node] = [true] := rfl
@[simp] theorem tokenBits_leaf (w x : Nat) : tokenBits w [.leaf x] = false :: msbBits w x := by simp [tokenBits]
@[simp] theorem tokenLeaves_node : tokenLeaves [.node] = [] := rfl
@[simp] theorem tokenLeaves_leaf (x : Nat) : tokenLeaves [.leaf x] = [x] := rfl

/-- Neither a leaf nor the number of inner nodes is one the parse refuses. -/
def TokensFit (A : Nat) (ts : List TreeToken) : Prop :=
  ts.count .node ≤ A - 1 ∧ (tokenLeaves ts).Nodup ∧ ∀ x ∈ tokenLeaves ts, x < A

/-- No beginning of the tokens is a whole tree. -/
def TokensBegin (ts : List TreeToken) : Prop :=
  ∀ n ≤ ts.length, (tokenLeaves (ts.take n)).length ≤ (ts.take n).count .node

theorem tokensOpen_iff (A : Nat) (ts : List TreeToken) : TokensOpen A ts ↔ TokensBegin ts ∧ TokensFit A ts := Iff.rfl

theorem TokensBegin.le {ts : List TreeToken} (h : TokensBegin ts) : (tokenLeaves ts).length ≤ ts.count .node := by
  simpa using h ts.length (Nat.le_refl _)

theorem TokensBegin.prefix {ts us : List TreeToken} (h : TokensBegin (ts ++ us)) : TokensBegin ts := by
  intro n hn
  have := h n (by simp; omega)
  rwa [List.take_append_of_le_length hn] at this

theorem TokensBegin.snoc {ts : List TreeToken} {u : TreeToken} (h : TokensBegin ts)
    (hu : (tokenLeaves (ts ++ [u])).length ≤ (ts ++ [u]).count .node) : TokensBegin (ts ++ [u]) := by
  intro n hn
  by_cases hl : n ≤ ts.length
  · rw [List.take_append_of_le_length hl]
    exact h n hl
  · rw [List.take_of_length_le (by simp; simp at hn; omega)]
    exact hu

theorem TokensFit.prefix {A : Nat} {ts us : List TreeToken} (h : TokensFit A (ts ++ us)) : TokensFit A ts := by
  obtain ⟨h1, h2, h3⟩ := h
  rw [tokenLeaves_append] at h2 h3
  rw [List.count_append] at h1
  exact ⟨by omega, (List.nodup_append.1 h2).1, fun x hx => h3 x (List.mem_append_left _ hx)⟩

/-- The leaves' numbers are within the leaf width. -/
def TokensEncodable (w : Nat) (ts : List TreeToken) : Prop := ∀ x ∈ tokenLeaves ts, x < 2 ^ w

theorem TokensFit.encodable {A : Nat} {ts : List TreeToken} (h : TokensFit A ts) : TokensEncodable (leafWidth A) ts :=
  fun x hx => lt_two_pow_leafWidth (h.2.2 x hx)

/-- Two lists of tokens that one input holds: one begins the other. -/
theorem tokens_comparable {s : State} {w p : Nat} {ts us : List TreeToken} (h1 : InputHolds s p (tokenBits w ts))
    (h2 : InputHolds s p (tokenBits w us)) (e1 : TokensEncodable w ts) (e2 : TokensEncodable w us) :
    (∃ v, us = ts ++ v) ∨ ∃ v, ts = us ++ v := by
  induction ts generalizing p us with
  | nil => exact .inl ⟨us, rfl⟩
  | cons t ts ih =>
    cases us with
    | nil => exact .inr ⟨t :: ts, rfl⟩
    | cons u us =>
      rw [show t :: ts = [t] ++ ts from rfl] at h1 e1
      rw [show u :: us = [u] ++ us from rfl] at h2 e2
      rw [tokenBits_append, inputHolds_append] at h1 h2
      simp only [TokensEncodable, tokenLeaves_append, List.mem_append, or_imp, forall_and] at e1 e2
      have htu : t = u := by
        cases t with
        | node =>
          cases u with
          | node => rfl
          | leaf y =>
            have a := ((inputHolds_cons _ _ _ _).1 (by simpa using h1.1)).2.1
            have b := ((inputHolds_cons _ _ _ _).1 (show InputHolds s p (false :: msbBits w y) by simpa using h2.1)).2.1
            rw [a] at b
            cases b
        | leaf x =>
          have a := (inputHolds_cons _ _ _ _).1 (show InputHolds s p (false :: msbBits w x) by simpa using h1.1)
          cases u with
          | node =>
            have b := ((inputHolds_cons _ _ _ _).1 (show InputHolds s p [true] by simpa using h2.1)).2.1
            rw [a.2.1] at b
            cases b
          | leaf y =>
            have b := (inputHolds_cons _ _ _ _).1 (show InputHolds s p (false :: msbBits w y) by simpa using h2.1)
            have c1 := inBits_holds (v := 0) a.2.2
            have c2 := inBits_holds (v := 0) b.2.2
            rw [msbBits_length, bitsNat_msbBits_zero (e1.1 x (by simp))] at c1
            rw [msbBits_length, bitsNat_msbBits_zero (e2.1 y (by simp)), c1] at c2
            simp only [Except.ok.injEq, Prod.mk.injEq, and_true] at c2
            rw [c2]
      subst htu
      rcases ih h1.2 h2.2 e1.2 e2.2 with ⟨v, rfl⟩ | ⟨v, rfl⟩
      · exact .inl ⟨v, rfl⟩
      · exact .inr ⟨v, rfl⟩

/-- The parse has read these tokens from INPOS on. -/
def TokensRead (s : State) (A : Nat) (ts : List TreeToken) (d : DesState) : Prop :=
  TokensFit A ts ∧ InputHolds s s.inPos (tokenBits (leafWidth A) ts) ∧
  d.pos = s.inPos + (tokenBits (leafWidth A) ts).length ∧ d.internal = ts.count .node ∧ ∀ x, x ∈ d.used ↔ x ∈ tokenLeaves ts

theorem TokensRead.pos {s : State} {A : Nat} {ts : List TreeToken} {d : DesState} (h : TokensRead s A ts d) :
    d.pos ≤ 8 * s.inLen := by
  rw [h.2.2.1]
  exact h.2.1.1

/-- What one call of `Des` does after the tokens `ts`: it reads on over one tree, or stops as BadTree or EndsInTree says. -/
theorem huffDeserialize_tokens {s : State} {A n : Nat} {ts : List TreeToken} {d : DesState} (hA : 1 ≤ A)
    (hb : TokensBegin ts) (hr : TokensRead s A ts d) (hn : A ≤ n + ts.count .node) :
    match huffDeserialize s A n d with
    | .error c => (c = .fmtHtTree ∧ BadTree s A) ∨ (c = .fmtTruncated ∧ EndsInTree s A)
    | .ok (_, e) => ∃ us, TokensRead s A (ts ++ us) e ∧
        (tokenLeaves (ts ++ us)).length + ts.count .node = (tokenLeaves ts).length + 1 + (ts ++ us).count .node ∧
        ((tokenLeaves ts).length + 1 ≤ ts.count .node → TokensBegin (ts ++ us)) := by
  induction n generalizing ts d with
  | zero => have := hr.1.1; omega
  | succ n ih =>
    obtain ⟨hf, hi, hpos, hint, hused⟩ := id hr
    have hp := hr.pos
    have hopen : TokensOpen A ts := (tokensOpen_iff A ts).2 ⟨hb, hf⟩
    rw [huffDeserialize]
    rcases Nat.lt_or_ge d.pos (8 * s.inLen) with hlt | hge
    swap
    · rw [inBit, if_pos (by omega)]
      exact .inr ⟨rfl, ts, hopen, hi, .inl (by omega)⟩
    have hbit : inBit s d.pos = .ok (inBitAt s d.pos, d.pos + 1) := by rw [inBit, if_neg (by omega)]
    have hone : InputHolds s d.pos [inBitAt s d.pos] := (inputHolds_cons _ _ _ _).2 ⟨hlt, rfl, inputHolds_nil _ _ (by omega)⟩
    rw [hbit]
    cases hv : inBitAt s d.pos <;> rw [hv] at hone <;> dsimp only
    · -- a leaf
      have hfalse : InputHolds s s.inPos (tokenBits (leafWidth A) ts ++ [false]) :=
        (inputHolds_append _ _ _ _).2 ⟨hi, by rwa [← hpos]⟩
      cases hx : inBits s (leafWidth A) 0 (d.pos + 1) with
      | error c =>
        refine .inr ⟨inBits_error _ _ _ _ _ hx, ts, hopen, hi, .inr ⟨hfalse, ?_⟩⟩
        by_contra hroom
        obtain ⟨r, hr⟩ := inBits_room (s := s) (n := leafWidth A) (v := 0) (p := d.pos + 1) (by omega)
        rw [hx] at hr
        cases hr
      | ok r =>
        obtain ⟨x, q⟩ := r
        obtain ⟨hxlt, hxi, hq⟩ := inBits_msbBits (by omega) hx
        have hheld : InputHolds s s.inPos (tokenBits (leafWidth A) (ts ++ [.leaf x])) := by
          rw [tokenBits_append, tokenBits_leaf, inputHolds_append, inputHolds_cons, ← hpos]
          exact ⟨hi, hlt, hv, hxi⟩
        dsimp only
        by_cases hbad : A ≤ x ∨ x ∈ d.used
        · rw [if_pos hbad]
          exact .inl ⟨rfl, ts, hopen, .inr ⟨x, hxlt, by rwa [hused] at hbad, hheld⟩⟩
        · rw [if_neg hbad]
          have hgood : ¬ (A ≤ x ∨ x ∈ tokenLeaves ts) := by rwa [hused] at hbad
          refine ⟨[.leaf x], ⟨⟨?_, ?_, ?_⟩, hheld, ?_, ?_, ?_⟩, ?_, ?_⟩
          · simpa [List.count_append] using hf.1
          · rw [tokenLeaves_append, tokenLeaves_leaf, List.nodup_append]
            refine ⟨hf.2.1, by simp, ?_⟩
            simp only [List.mem_singleton, ne_eq, forall_eq]
            rintro y hy rfl
            exact hgood (.inr hy)
          · intro y hy
            rw [tokenLeaves_append, tokenLeaves_leaf, List.mem_append, List.mem_singleton] at hy
            rcases hy with hy | rfl
            · exact hf.2.2 y hy
            · omega
          · rw [tokenBits_append, tokenBits_leaf, List.length_append, List.length_cons, msbBits_length]
            show q = _
            omega
          · simpa [List.count_append] using hint
          · intro y
            show y ∈ x :: d.used ↔ _
            rw [tokenLeaves_append, tokenLeaves_leaf, List.mem_append, List.mem_singleton, List.mem_cons, hused]
            tauto
          · simp [tokenLeaves_append, List.count_append]
          · intro hle
            exact hb.snoc (by simpa [tokenLeaves_append, List.count_append] using hle)
    · -- an inner node
      have hheld : InputHolds s s.inPos (tokenBits (leafWidth A) (ts ++ [.node])) := by
        rw [tokenBits_append, tokenBits_node]
        exact (inputHolds_append _ _ _ _).2 ⟨hi, by rwa [← hpos]⟩
      by_cases hbad : A - 1 < d.internal + 1
      · rw [if_pos hbad]
        exact .inl ⟨rfl, ts, hopen, .inl ⟨by have := hf.1; omega, hheld⟩⟩
      · rw [if_neg hbad]
        have hle := hb.le
        have hb1 : TokensBegin (ts ++ [.node]) :=
          hb.snoc (by simp only [tokenLeaves_append, tokenLeaves_node, List.append_nil, List.count_append]; omega)
        have hr1 : TokensRead s A (ts ++ [.node]) { d with pos := d.pos + 1, internal := d.internal + 1 } := by
          refine ⟨⟨?_, ?_, ?_⟩, hheld, ?_, ?_, ?_⟩
          · simp only [List.count_append, List.count_singleton_self]; omega
          · simpa [tokenLeaves_append] using hf.2.1
          · simpa [tokenLeaves_append] using hf.2.2
          · simp [tokenBits_append]; omega
          · simp [List.count_append]; omega
          · simpa [tokenLeaves_append] using hused
        have hc1 : (ts ++ [TreeToken.node]).count .node = ts.count .node + 1 := by simp [List.count_append]
        have hl1 : tokenLeaves (ts ++ [.node]) = tokenLeaves ts := by simp [tokenLeaves_append]
        have k0 := ih hb1 hr1 (by omega)
        cases h0 : huffDeserialize s A n { d with pos := d.pos + 1, internal := d.internal + 1 } with
        | error c => rw [h0] at k0; exact k0
        | ok r0 =>
          obtain ⟨c0, d0⟩ := r0
          rw [h0] at k0
          obtain ⟨us, hr2, hbal2, hb2⟩ := k0
          rw [hc1, hl1] at hbal2 hb2
          have hge2 : (ts ++ [TreeToken.node]).count .node ≤ (ts ++ [TreeToken.node] ++ us).count .node := by
            rw [List.count_append (l₁ := ts ++ [TreeToken.node])]; omega
          have k1 := ih (hb2 (by omega)) hr2 (by omega)
          dsimp only
          cases h1 : huffDeserialize s A n d0 with
          | error c => rw [h1] at k1; exact k1
          | ok r1 =>
            obtain ⟨c1, d1⟩ := r1
            rw [h1] at k1
            obtain ⟨vs, hr3, hbal3, hb3⟩ := k1
            have e : ts ++ [TreeToken.node] ++ us ++ vs = ts ++ ([TreeToken.node] ++ us ++ vs) := by simp
            rw [e] at hr3 hbal3 hb3
            exact ⟨_, hr3, by omega, fun h => hb3 (by omega)⟩

/-- The parse for alphabet size A ends in one of three ways, and the input says in which. -/
theorem huffDeserialize_cases {s : State} {A : Nat} (hA : 1 ≤ A) (hp : s.inPos ≤ 8 * s.inLen) :
    match huffDeserialize s A A { pos := s.inPos, used := [], internal := 0 } with
    | .error c => (c = .fmtHtTree ∧ BadTree s A) ∨ (c = .fmtTruncated ∧ EndsInTree s A)
    | .ok _ => ∃ us, TokensFit A us ∧ InputHolds s s.inPos (tokenBits (leafWidth A) us) ∧
        (tokenLeaves us).length = us.count .node + 1 := by
  have k := huffDeserialize_tokens (s := s) (A := A) (n := A) (ts := []) (d := { pos := s.inPos, used := [], internal := 0 }) hA
    (by intro n hn; simp at hn; subst hn; simp)
    ⟨⟨by simp, by simp, by simp⟩, inputHolds_nil _ _ hp, by simp, by simp, by simp⟩ (by simp)
  cases h : huffDeserialize s A A { pos := s.inPos, used := [], internal := 0 } with
  | error c => rw [h] at k; exact k
  | ok r =>
    obtain ⟨t, e⟩ := r
    rw [h] at k
    obtain ⟨us, hr, hbal, -⟩ := k
    rw [List.nil_append] at hr hbal
    exact ⟨us, hr.1, hr.2.1, by simpa [Nat.add_comm] using hbal⟩

/-- A whole tree's tokens do not begin an open one. -/
theorem whole_not_begin {us vs : List TreeToken} (h : (tokenLeaves us).length = us.count .node + 1) :
    ¬ TokensBegin (us ++ vs) := fun hb => by have := hb.prefix.le; omega

/-- Tokens that fit hold no token that BadTree names. -/
theorem bad_not_fit {A : Nat} {ts vs : List TreeToken} {u : TreeToken} (h : TokensFit A (ts ++ [u] ++ vs))
    (hu : (ts.count .node = A - 1 ∧ u = .node) ∨ ∃ x, (A ≤ x ∨ x ∈ tokenLeaves ts) ∧ u = .leaf x) : False := by
  obtain ⟨h1, h2, h3⟩ := h.prefix
  rcases hu with ⟨hc, rfl⟩ | ⟨x, hx, rfl⟩
  · simp only [List.count_append, List.count_singleton_self] at h1; omega
  · rw [tokenLeaves_append, tokenLeaves_leaf] at h2 h3
    rcases hx with hx | hx
    · have := h3 x (by simp); omega
    · exact (List.nodup_append.1 h2).2.2 x hx x (by simp) rfl

/-- A token that BadTree names, with the tokens before it. -/
theorem BadTree.token {s : State} {A : Nat} (h : BadTree s A) : ∃ ts u, TokensOpen A ts ∧
    ((ts.count .node = A - 1 ∧ u = .node) ∨ ∃ x, (A ≤ x ∨ x ∈ tokenLeaves ts) ∧ u = .leaf x) ∧
    TokensEncodable (leafWidth A) (ts ++ [u]) ∧ InputHolds s s.inPos (tokenBits (leafWidth A) (ts ++ [u])) := by
  obtain ⟨ts, ho, ⟨hc, hi⟩ | ⟨x, hx, hbad, hi⟩⟩ := h
  · refine ⟨ts, .node, ho, .inl ⟨hc, rfl⟩, ?_, hi⟩
    simpa [TokensEncodable, tokenLeaves_append] using TokensFit.encodable ho.2
  · refine ⟨ts, .leaf x, ho, .inr ⟨x, hbad, rfl⟩, ?_, hi⟩
    intro y hy
    rw [tokenLeaves_append, tokenLeaves_leaf, List.mem_append, List.mem_singleton] at hy
    rcases hy with hy | rfl
    · exact TokensFit.encodable ho.2 y hy
    · exact hx

/-- Where the input ends after open tokens, it holds no token more. -/
theorem ends_no_token {s : State} {A : Nat} {us vs : List TreeToken} {u : TreeToken}
    (he : s.inPos + (tokenBits (leafWidth A) us).length = 8 * s.inLen ∨
      (InputHolds s s.inPos (tokenBits (leafWidth A) us ++ [false]) ∧
        8 * s.inLen < s.inPos + (tokenBits (leafWidth A) us).length + 1 + leafWidth A))
    (hi : InputHolds s s.inPos (tokenBits (leafWidth A) (us ++ u :: vs))) : False := by
  rw [show us ++ u :: vs = us ++ ([u] ++ vs) from rfl, tokenBits_append, tokenBits_append, inputHolds_append,
    inputHolds_append] at hi
  obtain ⟨-, h1, -⟩ := hi
  have hl := h1.1
  cases u with
  | node =>
    rw [tokenBits_node] at h1 hl
    rcases he with he | ⟨he, -⟩
    · simp at hl; omega
    · rw [inputHolds_append] at he
      have a := ((inputHolds_cons _ _ _ _).1 he.2).2.1
      have b := ((inputHolds_cons _ _ _ _).1 h1).2.1
      rw [a] at b
      cases b
  | leaf x =>
    rw [tokenBits_leaf, List.length_cons, msbBits_length] at hl
    omega

/-- A bad tree neither is a whole tree nor ends early. -/
theorem bad_not_whole {s : State} {A : Nat} {us : List TreeToken} (h : BadTree s A) (hf : TokensFit A us)
    (hi : InputHolds s s.inPos (tokenBits (leafWidth A) us)) (hw : (tokenLeaves us).length = us.count .node + 1) : False := by
  obtain ⟨ts, u, ho, hu, he, hb⟩ := h.token
  rcases tokens_comparable hb hi he hf.encodable with ⟨v, rfl⟩ | ⟨v, hv⟩
  · exact bad_not_fit hf hu
  · rcases List.eq_nil_or_concat v with rfl | ⟨v', x, rfl⟩
    · rw [List.append_nil] at hv
      subst hv
      exact bad_not_fit (vs := []) (by simpa using hf) hu
    · rw [List.concat_eq_append, ← List.append_assoc] at hv
      have := List.append_inj_left' hv rfl
      exact whole_not_begin (vs := v') hw (this ▸ ho.1)

theorem bad_not_ends {s : State} {A : Nat} (h : BadTree s A) (he : EndsInTree s A) : False := by
  obtain ⟨ts, u, ho, hu, hen, hb⟩ := h.token
  obtain ⟨us, hus, hi, he⟩ := he
  rcases tokens_comparable hb hi hen (TokensFit.encodable hus.2) with ⟨v, rfl⟩ | ⟨v, hv⟩
  · exact bad_not_fit hus.2 hu
  · cases v with
    | nil =>
      rw [List.append_nil] at hv
      subst hv
      exact bad_not_fit (vs := []) (by rw [List.append_nil]; exact hus.2) hu
    | cons x v =>
      rw [hv] at hb
      exact ends_no_token he hb

theorem ends_not_whole {s : State} {A : Nat} {us : List TreeToken} (h : EndsInTree s A) (hf : TokensFit A us)
    (hi : InputHolds s s.inPos (tokenBits (leafWidth A) us)) (hw : (tokenLeaves us).length = us.count .node + 1) : False := by
  obtain ⟨ts, ho, hi', he⟩ := h
  rcases tokens_comparable hi' hi (TokensFit.encodable ho.2) hf.encodable with ⟨v, rfl⟩ | ⟨v, rfl⟩
  · cases v with
    | nil => exact whole_not_begin (vs := []) hw (by rw [List.append_nil, List.append_nil]; exact ho.1)
    | cons x v => exact ends_no_token he hi
  · exact whole_not_begin hw ho.1

/-- A bad tree raises FMT_HT_TREE (R188). -/
theorem huffDeserialize_bad {s : State} {A : Nat} (hA : 1 ≤ A) (hp : s.inPos ≤ 8 * s.inLen) (h : BadTree s A) :
    huffDeserialize s A A { pos := s.inPos, used := [], internal := 0 } = .error .fmtHtTree := by
  have k := huffDeserialize_cases hA hp
  cases hd : huffDeserialize s A A { pos := s.inPos, used := [], internal := 0 } with
  | error c =>
    rw [hd] at k
    rcases k with ⟨rfl, -⟩ | ⟨-, he⟩
    · rfl
    · exact (bad_not_ends h he).elim
  | ok r =>
    rw [hd] at k
    obtain ⟨us, hf, hi, hw⟩ := k
    exact (bad_not_whole h hf hi hw).elim

/-- An input that ends inside the tree is truncated. -/
theorem huffDeserialize_truncated {s : State} {A : Nat} (hA : 1 ≤ A) (hp : s.inPos ≤ 8 * s.inLen) (h : EndsInTree s A) :
    huffDeserialize s A A { pos := s.inPos, used := [], internal := 0 } = .error .fmtTruncated := by
  have k := huffDeserialize_cases hA hp
  cases hd : huffDeserialize s A A { pos := s.inPos, used := [], internal := 0 } with
  | error c =>
    rw [hd] at k
    rcases k with ⟨-, he⟩ | ⟨rfl, -⟩
    · exact (bad_not_ends he h).elim
    · rfl
  | ok r =>
    rw [hd] at k
    obtain ⟨us, hf, hi, hw⟩ := k
    exact (ends_not_whole h hf hi hw).elim

end Sys2Proof.Machine
end

