-- ==== Sys2Proof/Laws/PerInstr.lean ====
section
/-! SUPPORT. Per command: its word is one of the words of its own row of the opcode map (`spec/30_encoding.md` R83, R86),
and its row is in the map. -/

namespace Sys2Proof.Laws.RowMatch

open Sys2Proof.Machine

/-- The encoding of the command is a word of the command's row, and the row is in the opcode map. -/
def Statement (i : Instr) : Prop := (rowOf i).Matches (encode i) ∧ rowOf i ∈ opcodeRows

/-- A row given field by field: the match word and the mask as assembled words. -/
theorem matches_of_fields {op : BitVec 6} {a b am bm : BitVec 2} {k km : BitVec 6} {x xm : BitVec 16} {r : OpcodeRow}
    (hm : r.mask = commandWord 0x3F am bm km xm) (hp : r.pattern = commandWord op 0 0 0 0)
    (ha : a &&& am = 0) (hb : b &&& bm = 0) (hk : k &&& km = 0) (hx : x &&& xm = 0) :
    r.Matches (commandWord op a b k x) := by
  have hop : op &&& 0x3F = op := by
    have : (0x3F : BitVec 6) = BitVec.allOnes 6 := rfl
    rw [this, BitVec.and_allOnes]
  rw [OpcodeRow.Matches, hm, hp, commandWord_and, hop, ha, hb, hk, hx]

theorem nop : Statement .nop :=
  ⟨matches_of_fields (am := 3) (bm := 3) (km := 63) (xm := 65535) rfl rfl (by simp) (by simp) (by simp) (by simp),
    by simp [opcodeRows, rowOf]⟩

theorem ftClear (a : BitVec 2) (x : BitVec 16) : Statement (.ftClear a x) :=
  ⟨matches_of_fields (am := 0) (bm := 3) (km := 63) (xm := 0) rfl rfl (by simp) (by simp) (by simp) (by simp),
    by simp [opcodeRows, rowOf]⟩

theorem ftSet (a : BitVec 2) (x : BitVec 16) : Statement (.ftSet a x) :=
  ⟨matches_of_fields (am := 0) (bm := 3) (km := 63) (xm := 0) rfl rfl (by simp) (by simp) (by simp) (by simp),
    by simp [opcodeRows, rowOf]⟩

theorem ftInc (a : BitVec 2) (x : BitVec 16) : Statement (.ftInc a x) :=
  ⟨matches_of_fields (am := 0) (bm := 3) (km := 63) (xm := 0) rfl rfl (by simp) (by simp) (by simp) (by simp),
    by simp [opcodeRows, rowOf]⟩

theorem ftGet (a : BitVec 2) (x : BitVec 16) : Statement (.ftGet a x) :=
  ⟨matches_of_fields (am := 0) (bm := 3) (km := 63) (xm := 0) rfl rfl (by simp) (by simp) (by simp) (by simp),
    by simp [opcodeRows, rowOf]⟩

theorem ftTotal (a : BitVec 2) : Statement (.ftTotal a) :=
  ⟨matches_of_fields (am := 0) (bm := 3) (km := 63) (xm := 65535) rfl rfl (by simp) (by simp) (by simp) (by simp),
    by simp [opcodeRows, rowOf]⟩

theorem ftLow (a : BitVec 2) (x : BitVec 16) : Statement (.ftLow a x) :=
  ⟨matches_of_fields (am := 0) (bm := 3) (km := 63) (xm := 0) rfl rfl (by simp) (by simp) (by simp) (by simp),
    by simp [opcodeRows, rowOf]⟩

theorem ftHigh (a : BitVec 2) (x : BitVec 16) : Statement (.ftHigh a x) :=
  ⟨matches_of_fields (am := 0) (bm := 3) (km := 63) (xm := 0) rfl rfl (by simp) (by simp) (by simp) (by simp),
    by simp [opcodeRows, rowOf]⟩

theorem ftLimit (a : BitVec 2) : Statement (.ftLimit a) :=
  ⟨matches_of_fields (am := 0) (bm := 3) (km := 63) (xm := 65535) rfl rfl (by simp) (by simp) (by simp) (by simp),
    by simp [opcodeRows, rowOf]⟩

theorem rcEncInit : Statement .rcEncInit :=
  ⟨matches_of_fields (am := 3) (bm := 3) (km := 63) (xm := 65535) rfl rfl (by simp) (by simp) (by simp) (by simp),
    by simp [opcodeRows, rowOf]⟩

theorem rcEncWrite (a : BitVec 2) (x : BitVec 16) : Statement (.rcEncWrite a x) :=
  ⟨matches_of_fields (am := 0) (bm := 3) (km := 63) (xm := 0) rfl rfl (by simp) (by simp) (by simp) (by simp),
    by simp [opcodeRows, rowOf]⟩

theorem rcEncFinish : Statement .rcEncFinish :=
  ⟨matches_of_fields (am := 3) (bm := 3) (km := 63) (xm := 65535) rfl rfl (by simp) (by simp) (by simp) (by simp),
    by simp [opcodeRows, rowOf]⟩

theorem rcDecInit : Statement .rcDecInit :=
  ⟨matches_of_fields (am := 3) (bm := 3) (km := 63) (xm := 65535) rfl rfl (by simp) (by simp) (by simp) (by simp),
    by simp [opcodeRows, rowOf]⟩

theorem rcDecRead (a : BitVec 2) : Statement (.rcDecRead a) :=
  ⟨matches_of_fields (am := 0) (bm := 3) (km := 63) (xm := 65535) rfl rfl (by simp) (by simp) (by simp) (by simp),
    by simp [opcodeRows, rowOf]⟩

theorem vtClear (k : BitVec 6) : Statement (.vtClear k) :=
  ⟨matches_of_fields (am := 3) (bm := 3) (km := 0) (xm := 65535) rfl rfl (by simp) (by simp) (by simp) (by simp),
    by simp [opcodeRows, rowOf]⟩

theorem vtMark (x : BitVec 16) : Statement (.vtMark x) :=
  ⟨matches_of_fields (am := 3) (bm := 3) (km := 63) (xm := 0) rfl rfl (by simp) (by simp) (by simp) (by simp),
    by simp [opcodeRows, rowOf]⟩

theorem vtEncode : Statement .vtEncode :=
  ⟨matches_of_fields (am := 3) (bm := 3) (km := 63) (xm := 65535) rfl rfl (by simp) (by simp) (by simp) (by simp),
    by simp [opcodeRows, rowOf]⟩

theorem vtDecode (k : BitVec 6) : Statement (.vtDecode k) :=
  ⟨matches_of_fields (am := 3) (bm := 3) (km := 0) (xm := 65535) rfl rfl (by simp) (by simp) (by simp) (by simp),
    by simp [opcodeRows, rowOf]⟩

theorem vtFwd (x : BitVec 16) : Statement (.vtFwd x) :=
  ⟨matches_of_fields (am := 3) (bm := 3) (km := 63) (xm := 0) rfl rfl (by simp) (by simp) (by simp) (by simp),
    by simp [opcodeRows, rowOf]⟩

theorem vtInv (x : BitVec 16) : Statement (.vtInv x) :=
  ⟨matches_of_fields (am := 3) (bm := 3) (km := 63) (xm := 0) rfl rfl (by simp) (by simp) (by simp) (by simp),
    by simp [opcodeRows, rowOf]⟩

theorem htBuild (a : BitVec 2) (b : BitVec 2) : Statement (.htBuild a b) :=
  ⟨matches_of_fields (am := 0) (bm := 0) (km := 63) (xm := 65535) rfl rfl (by simp) (by simp) (by simp) (by simp),
    by simp [opcodeRows, rowOf]⟩

theorem htSerialize (a : BitVec 2) : Statement (.htSerialize a) :=
  ⟨matches_of_fields (am := 0) (bm := 3) (km := 63) (xm := 65535) rfl rfl (by simp) (by simp) (by simp) (by simp),
    by simp [opcodeRows, rowOf]⟩

theorem htDeserialize (a : BitVec 2) (x : BitVec 16) : Statement (.htDeserialize a x) :=
  ⟨matches_of_fields (am := 0) (bm := 3) (km := 63) (xm := 0) rfl rfl (by simp) (by simp) (by simp) (by simp),
    by simp [opcodeRows, rowOf]⟩

theorem htEncode (a : BitVec 2) (x : BitVec 16) : Statement (.htEncode a x) :=
  ⟨matches_of_fields (am := 0) (bm := 3) (km := 63) (xm := 0) rfl rfl (by simp) (by simp) (by simp) (by simp),
    by simp [opcodeRows, rowOf]⟩

theorem htDecode (a : BitVec 2) : Statement (.htDecode a) :=
  ⟨matches_of_fields (am := 0) (bm := 3) (km := 63) (xm := 65535) rfl rfl (by simp) (by simp) (by simp) (by simp),
    by simp [opcodeRows, rowOf]⟩

theorem htLen (a : BitVec 2) (x : BitVec 16) : Statement (.htLen a x) :=
  ⟨matches_of_fields (am := 0) (bm := 3) (km := 63) (xm := 0) rfl rfl (by simp) (by simp) (by simp) (by simp),
    by simp [opcodeRows, rowOf]⟩

theorem bsPut (k : BitVec 6) : Statement (.bsPut k) :=
  ⟨matches_of_fields (am := 3) (bm := 3) (km := 0) (xm := 65535) rfl rfl (by simp) (by simp) (by simp) (by simp),
    by simp [opcodeRows, rowOf]⟩

theorem bsGet (k : BitVec 6) : Statement (.bsGet k) :=
  ⟨matches_of_fields (am := 3) (bm := 3) (km := 0) (xm := 65535) rfl rfl (by simp) (by simp) (by simp) (by simp),
    by simp [opcodeRows, rowOf]⟩

theorem bsOutAlign : Statement .bsOutAlign :=
  ⟨matches_of_fields (am := 3) (bm := 3) (km := 63) (xm := 65535) rfl rfl (by simp) (by simp) (by simp) (by simp),
    by simp [opcodeRows, rowOf]⟩

theorem bsInAlign : Statement .bsInAlign :=
  ⟨matches_of_fields (am := 3) (bm := 3) (km := 63) (xm := 65535) rfl rfl (by simp) (by simp) (by simp) (by simp),
    by simp [opcodeRows, rowOf]⟩

theorem bsOutReset : Statement .bsOutReset :=
  ⟨matches_of_fields (am := 3) (bm := 3) (km := 63) (xm := 65535) rfl rfl (by simp) (by simp) (by simp) (by simp),
    by simp [opcodeRows, rowOf]⟩

theorem bsInSeek : Statement .bsInSeek :=
  ⟨matches_of_fields (am := 3) (bm := 3) (km := 63) (xm := 65535) rfl rfl (by simp) (by simp) (by simp) (by simp),
    by simp [opcodeRows, rowOf]⟩

end Sys2Proof.Laws.RowMatch
end

