-- ==== Sys2Proof/Tests/Slice0.lean ====
section
/-! SUPPORT. The model's own tests: what WellFormed and the decoder refuse, one command word per constructor written out
from the encoding tables of `spec/30_encoding.md`, single steps from the vectors of `spec/95_test_vectors.md`, and for every
obligation with hypotheses states that meet them. -/

namespace Sys2Proof.Tests

open Sys2Proof Sys2Proof.Machine

/-! ## WellFormed and Decode -/

/-- `k = 33` is refused in BS_PUT and BS_GET, and `k = 32` is not (R82). -/
theorem test_wellFormed : WellFormed (.bsPut 33) = false ∧ WellFormed (.bsGet 33) = false ∧ WellFormed (.bsPut 32) = true ∧
    WellFormed (.bsGet 32) = true ∧ WellFormed (.vtClear 63) = true := by decide

/-- V-FLT-1 to V-FLT-5, and a reserved opcode at the top of the space (R84). -/
theorem test_decode_refuses : decodeTableWord 32 0x00000001 = none ∧ decodeTableWord 32 0x38000000 = none ∧
    decodeTableWord 32 0x80210000 = none ∧ decodeTableWord 32 0x14000001 = none ∧ decodeTableWord 32 0x60010000 = none ∧
    decodeTableWord 32 0xFC000000 = none := by decide

/-- Words of the frequency-table rules' examples. FT_CLEAR f0, 3: op 000001, a 00, s 3. -/
theorem test_decode_ft : decodeTableWord 32 0b000001_00_00_000000_0000000000000011 = some (.ftClear 0 3) ∧
    decodeTableWord 32 0b000010_01_00_000000_0000000000000010 = some (.ftSet 1 2) ∧
    decodeTableWord 32 0b000011_00_00_000000_0000000000000001 = some (.ftInc 0 1) ∧
    decodeTableWord 32 0b000100_00_00_000000_0000000000000001 = some (.ftGet 0 1) ∧
    decodeTableWord 32 0b000101_01_00_000000_0000000000000000 = some (.ftTotal 1) ∧
    decodeTableWord 32 0b000110_00_00_000000_0000000000000010 = some (.ftLow 0 2) ∧
    decodeTableWord 32 0b000111_00_00_000000_0000000000000001 = some (.ftHigh 0 1) ∧
    decodeTableWord 32 0b001000_10_00_000000_0000000000000000 = some (.ftLimit 2) := by decide

/-- Range-coder words. -/
theorem test_decode_rc : decodeTableWord 32 0b001001_00_00_000000_0000000000000000 = some .rcEncInit ∧
    decodeTableWord 32 0b001010_11_00_000000_0000000000000101 = some (.rcEncWrite 3 5) ∧
    decodeTableWord 32 0b001011_00_00_000000_0000000000000000 = some .rcEncFinish ∧
    decodeTableWord 32 0b001100_00_00_000000_0000000000000000 = some .rcDecInit ∧
    decodeTableWord 32 0b001101_10_00_000000_0000000000000000 = some (.rcDecRead 2) := by decide

/-- Value-table words: VT_CLEAR and VT_DECODE carry the depth in k. -/
theorem test_decode_vt : decodeTableWord 32 0b010000_00_00_001000_0000000000000000 = some (.vtClear 8) ∧
    decodeTableWord 32 0b010001_00_00_000000_0000000000000101 = some (.vtMark 5) ∧
    decodeTableWord 32 0b010010_00_00_000000_0000000000000000 = some .vtEncode ∧
    decodeTableWord 32 0b010011_00_00_001000_0000000000000000 = some (.vtDecode 8) ∧
    decodeTableWord 32 0b010100_00_00_000000_0000000011111111 = some (.vtFwd 255) ∧
    decodeTableWord 32 0b010101_00_00_000000_0000000000000001 = some (.vtInv 1) := by decide

/-- Huffman words: HT_BUILD h1, f2 carries the bank in b. -/
theorem test_decode_ht : decodeTableWord 32 0b011000_01_10_000000_0000000000000000 = some (.htBuild 1 2) ∧
    decodeTableWord 32 0b011001_00_00_000000_0000000000000000 = some (.htSerialize 0) ∧
    decodeTableWord 32 0b011010_01_00_000000_0000000000000101 = some (.htDeserialize 1 5) ∧
    decodeTableWord 32 0b011011_00_00_000000_0000000000000100 = some (.htEncode 0 4) ∧
    decodeTableWord 32 0b011100_11_00_000000_0000000000000000 = some (.htDecode 3) ∧
    decodeTableWord 32 0b011101_00_00_000000_0000000000000000 = some (.htLen 0 0) := by decide

/-- NOP and bit-stream words. -/
theorem test_decode_bs : decodeTableWord 32 0b000000_00_00_000000_0000000000000000 = some .nop ∧
    decodeTableWord 32 0b100000_00_00_001000_0000000000000000 = some (.bsPut 8) ∧
    decodeTableWord 32 0b100001_00_00_100000_0000000000000000 = some (.bsGet 32) ∧
    decodeTableWord 32 0b100010_00_00_000000_0000000000000000 = some .bsOutAlign ∧
    decodeTableWord 32 0b100011_00_00_000000_0000000000000000 = some .bsInAlign ∧
    decodeTableWord 32 0b100100_00_00_000000_0000000000000000 = some .bsOutReset ∧
    decodeTableWord 32 0b100101_00_00_000000_0000000000000000 = some .bsInSeek := by decide

/-- The encoder writes the words of the rules' examples. -/
theorem test_encode : encode (.ftSet 1 2) = 0x09000002 ∧ encode (.vtDecode 8) = 0x4C080000 ∧
    encode (.htDeserialize 1 5) = 0x69000005 ∧ encode (.htBuild 0 3) = 0x60C00000 ∧ encode (.bsPut 8) = 0x80080000 := by decide

/-! ## States and single steps -/

/-- The state the vectors start from: reset, with N_SYM = 1024 and buffers of 64 bytes, OUTBUF written with zeros before. -/
def start : State := { State.reset with
  cfg := { nSym := 1024, inBytes := 64, outBytes := 64, base := 0 }
  outbuf := (List.range 64).map fun a => (a, 0) }

/-- The input buffer holds these bytes, and IN_LEN covers them. -/
def withInput (bytes : List Nat) (s : State) : State :=
  { s with
    inbuf := bytes.zipIdx.map fun p => (p.2, BitVec.ofNat 8 p.1)
    inLen := bytes.length }

/-- A bank holds these counts. -/
def load (a : BitVec 2) (l : List Nat) (s : State) : State := setBank a (l.map (BitVec.ofNat 32)) s

/-- A value table of depth `d` with these values marked. -/
def marked (d : Nat) (vs : List Nat) (s : State) : State := { s with vtDepth := d, present := presenceOf vs }

/-- The tree of V-HT-12: codes 0:0, 2:10, 4:11, alphabet 5. -/
def treeHt12 : HuffTree := { alphabet := 5, root := .node (.leaf 0) (.node (.leaf 2) (.leaf 4)) }

/-- The outcome is a next state with the property. -/
def ended (o : Host.Outcome State Fault Refusal) (p : State → Bool) : Bool :=
  match o with
  | .next t => p t
  | .fault _ => false
  | .refused _ => false

/-- The outcome is a next state with this fault latched. -/
def endedIn (o : Host.Outcome State Fault Refusal) (c : FaultCode) : Bool :=
  ended o fun t => decide (t.fault = some { code := c, cmd := 0 })

/-- The output stream below OUTPOS as one binary number. -/
def outNumber (t : State) : Nat := numberOf ((List.range t.outPos).map (outBitAt t))

/-- The bits of the output stream below OUTPOS. -/
def outBits (t : State) : List Nat := (List.range t.outPos).map fun p => (outBitAt t p).toNat

/-- V-BS-1. -/
theorem test_nop : ended (exec .nop { start with cmdCount := 7 }) (fun t => t.cmdCount = 8 ∧ t.irqStatus = 2) = true := by
  decide

/-- V-FT-1 and V-FT-F1. -/
theorem test_ftClear : ended (exec (.ftClear 0 3) start) (fun t => counts t 0 = [0, 0, 0]) = true := by decide
theorem test_ftClear_zero : endedIn (exec (.ftClear 0 0) start) .ftLimit = true := by decide

/-- V-FT-6: the old count makes room for the new one. -/
theorem test_ftSet : ended (exec (.ftSet 0 0) { load 0 [0xFFFFFFFF, 0] start with data := 7 })
    (fun t => t.fault = none ∧ counts t 0 = [7, 0]) = true := by decide

/-- V-FT-2 and V-FT-F4. -/
theorem test_ftInc : ended (exec (.ftInc 0 1) (load 0 [0, 1, 0] start)) (fun t => counts t 0 = [0, 2, 0]) = true := by decide
theorem test_ftInc_overflow : ended (exec (.ftInc 0 1) (load 0 [0xFFFFFFFF, 0] start))
    (fun t => (t.fault.map (·.code)) = some .ftOverflow ∧ counts t 0 = [0xFFFFFFFF, 0]) = true := by decide

/-- V-FT-2, V-FT-3, V-FT-4 and V-FT-5. -/
theorem test_ftGet : ended (exec (.ftGet 0 1) (load 0 [0, 2, 0] start)) (fun t => t.result = 2) = true := by decide
theorem test_ftTotal : ended (exec (.ftTotal 0) (load 0 [1, 2, 1] start)) (fun t => t.result = 4) = true := by decide
theorem test_ftLow : ended (exec (.ftLow 0 2) (load 0 [1, 2, 1] start)) (fun t => t.result = 3) = true := by decide
theorem test_ftHigh : ended (exec (.ftHigh 1 0) (load 1 [0, 4, 0] start)) (fun t => t.fault = none ∧ t.result = 0) = true := by
  decide
theorem test_ftLimit : ended (exec (.ftLimit 2) start) (fun t => t.fault = none ∧ t.result = 0) = true := by decide

/-- R129's example. -/
theorem test_rcEncInit : ended (exec .rcEncInit start) (fun t => t.rcHigh = 0x7FFFFFFF ∧ t.rcMode = .enc) = true := by decide

/-- V-RC-1, its third write: the pending bit comes out after the shifted one. -/
theorem test_rcEncWrite : ended
    (exec (.rcEncWrite 0 2) { load 0 [1, 2, 1] start with rcMode := .enc, rcUnderflow := 1, outPos := 2, outbuf := [(0, 0)] })
    (fun t => outBits t = [0, 0, 1, 0, 1] ∧ t.rcLow = 0 ∧ t.rcHigh = 0x7FFFFFFF ∧ t.rcUnderflow = 0) = true := by decide

/-- V-RC-9, its last write. -/
theorem test_rcEncWrite_underflow : ended
    (exec (.rcEncWrite 0 2) { load 0 [5, 1, 1, 1] start with rcMode := .enc, rcHigh := 0x63FFFFFF, outPos := 10 })
    (fun t => t.rcLow = 0x18000000 ∧ t.rcHigh = 0x7BFFFFFF ∧ t.rcUnderflow = 1 ∧ t.outPos = 12) = true := by decide

/-- V-RC-1's finish: a 1, then padding; the pending bit is dropped. -/
theorem test_rcEncFinish : ended (exec .rcEncFinish { start with rcMode := .enc, rcUnderflow := 1, outPos := 5 })
    (fun t => t.outPos = 8 ∧ t.outbuf.head? = some (0, 0x04) ∧ t.rcUnderflow = 0 ∧ t.rcMode = .idle) = true := by decide

/-- V-RC-1's decoder: 8 bits read, 23 implicit zeros. -/
theorem test_rcDecInit : ended (exec .rcDecInit (withInput [0x2C] start))
    (fun t => t.rcCode = 0x16000000 ∧ t.inPos = 8 ∧ t.rcMode = .dec) = true := by decide

/-- V-RC-1's second read. -/
theorem test_rcDecRead : ended
    (exec (.rcDecRead 0) { load 0 [1, 2, 1] (withInput [0x2C] start) with rcMode := .dec, rcCode := 0x58000000, inPos := 8 })
    (fun t => t.result = 1 ∧ t.rcCode = 0x70000000 ∧ t.inPos = 8) = true := by decide

/-- V-VT-F14, and R158's example. -/
theorem test_vtClear : ended (exec (.vtClear 8) (marked 3 [5] start)) (fun t => t.vtDepth = 8 ∧ presentAt t 5 = false) = true := by
  decide +kernel
theorem test_vtClear_zero : endedIn (exec (.vtClear 0) start) .vtDepth = true := by decide

/-- R159's example, and V-VT-F9 at its boundary. -/
theorem test_vtMark : ended (exec (.vtMark 5) { marked 3 [] start with vtValid := true })
    (fun t => presentAt t 5 = true ∧ presentAt t 4 = false ∧ t.vtValid = false) = true := by decide +kernel
theorem test_vtMark_value : endedIn (exec (.vtMark 8) (marked 3 [] start)) .vtValue = true := by decide +kernel

/-- V-VT-3: a bitmap. -/
theorem test_vtEncode : ended (exec .vtEncode (marked 3 [2, 5] start))
    (fun t => outBits t = [0, 0, 0, 0, 1, 0, 0, 1, 0, 0] ∧ t.result = 10 ∧ t.vtCeil = 2 ∧ fwdAt t 5 = 1 ∧ invAt t 1 = 5) =
    true := by decide +kernel

/-- V-VT-18: the empty table of depth 5 as a delta payload. -/
theorem test_vtEncode_delta : ended (exec .vtEncode (marked 5 [] start))
    (fun t => outNumber t = 0b01111111111111111110100 ∧ t.outPos = 23 ∧ t.vtTag = 1 ∧ t.result = 23) = true := by
  decide +kernel

/-- V-VT-20 and V-VT-F5. -/
theorem test_vtDecode : ended (exec (.vtDecode 1) (withInput [0b01_1_1_1_000] start))
    (fun t => occupied t 512 = [0, 1] ∧ t.vtTag = 1 ∧ t.result = 5 ∧ t.vtCeil = 2) = true := by decide +kernel
theorem test_vtDecode_zero_run : endedIn (exec (.vtDecode 2) (withInput [0b10_001_01_1, 0b01_000000] start)) .fmtVtPayload =
    true := by decide +kernel

/-- V-VT-5: VT_FWD 255 gives 1, and VT_INV 1 gives 255. -/
theorem test_vtFwd : ended (exec (.vtFwd 255) (buildTranslation [0, 255] (marked 8 [0, 255] start))) (fun t => t.result = 1) =
    true := by decide +kernel
theorem test_vtInv : ended (exec (.vtInv 1) (buildTranslation [0, 255] (marked 8 [0, 255] start))) (fun t => t.result = 255) =
    true := by decide +kernel

/-- V-HT-1 and V-HT-6 (the tie-break). -/
theorem test_htBuild : ended (exec (.htBuild 0 0) (load 0 [5, 9, 12, 13, 16, 45] start)) (fun t => t.result = 29 ∧
    (slot t 0).map (·.root) = some (.node (.leaf 5) (.node (.node (.leaf 2) (.leaf 3))
      (.node (.node (.leaf 0) (.leaf 1)) (.leaf 4))))) = true := by decide
theorem test_htBuild_tie : ended (exec (.htBuild 0 0) (load 0 [1, 1, 1] start)) (fun t => t.result = 11 ∧
    (slot t 0).map (·.root) = some (.node (.leaf 2) (.node (.leaf 0) (.leaf 1)))) = true := by decide

/-- V-HT-12. -/
theorem test_htSerialize : ended (exec (.htSerialize 0) (setSlot 0 treeHt12 start))
    (fun t => outNumber t = 0b10000100100100 ∧ t.outPos = 14 ∧ t.result = 14) = true := by decide

/-- V-HT-7 and V-HT-F2. -/
theorem test_htDeserialize : ended (exec (.htDeserialize 1 5) (withInput [0b10000100, 0b10010000] start))
    (fun t => slot t 1 = some treeHt12 ∧ t.inPos = 14 ∧ t.result = 14) = true := by decide
theorem test_htDeserialize_repeated : endedIn (exec (.htDeserialize 1 3) (withInput [0b1_001_001_0] start)) .fmtHtTree = true := by
  decide

/-- V-HT-16 and V-HT-F7. -/
theorem test_htEncode : ended (exec (.htEncode 0 4) (setSlot 0 treeHt12 start))
    (fun t => outNumber t = 0b11 ∧ t.outPos = 2 ∧ t.result = 2) = true := by decide
theorem test_htEncode_absent : endedIn (exec (.htEncode 0 1) (setSlot 0 treeHt12 start)) .htSymbol = true := by decide

/-- V-HT-17, its second read. -/
theorem test_htDecode : ended (exec (.htDecode 0) { setSlot 0 treeHt12 (withInput [0b1100_0000] start) with inPos := 2 })
    (fun t => t.result = 0 ∧ t.inPos = 3) = true := by decide

/-- V-HT-18, on V-HT-12's tree: symbol 0 has length 1. -/
theorem test_htLen : ended (exec (.htLen 3 0) (setSlot 3 treeHt12 start)) (fun t => t.result = 1 ∧ t.outPos = 0) = true := by decide

/-- V-BS-3, its second command, into a fifth byte of 1s whose other bits stay (R66), and V-BS-12. -/
theorem test_bsPut : ended (exec (.bsPut 32)
      { start with data := 0x12345678, outPos := 3, outbuf := [(0, 0xE0), (1, 0), (2, 0), (3, 0), (4, 0xFF)] })
    (fun t => t.outPos = 35 ∧ t.outbuf = [(0, 0xE2), (1, 0x46), (2, 0x8A), (3, 0xCF), (4, 0x1F)]) = true := by decide
theorem test_bsPut_full : ended (exec (.bsPut 3) { start with cfg := { start.cfg with outBytes := 4 }, outPos := 30 })
    (fun t => t.fault.map (·.code) = some .outOverflow ∧ t.outPos = 30) = true := by decide

/-- V-BS-4 and V-BS-5. -/
theorem test_bsGet : ended (exec (.bsGet 12) { withInput [0x84, 0x91] start with inPos := 4 })
    (fun t => t.result = 0x491 ∧ t.inPos = 16) = true := by decide
theorem test_bsGet_truncated : ended (exec (.bsGet 1) { withInput [0x84, 0x91] start with inPos := 16, result := 0x491 })
    (fun t => statusWord t = 0x00000006 ∧ t.result = 0x491 ∧ t.inPos = 16) = true := by decide

/-- V-BS-6, V-BS-7 and V-BS-8. -/
theorem test_bsOutAlign : ended (exec .bsOutAlign { start with outPos := 29 }) (fun t => t.outPos = 32 ∧ t.result = 3) = true := by
  decide
theorem test_bsInAlign : ended (exec .bsInAlign { start with inPos := 20 }) (fun t => t.inPos = 24) = true := by decide
theorem test_bsOutReset : ended (exec .bsOutReset { start with outPos := 40, outbuf := [(0, 1)] })
    (fun t => t.outPos = 0 ∧ t.outbuf = [(0, 1)]) = true := by decide

/-- V-BS-9: bit 32 of 4 bytes is the end, bit 33 is past it. -/
theorem test_bsInSeek : ended (exec .bsInSeek { withInput [0, 0, 0, 0] start with data := 32 }) (fun t => t.inPos = 32) = true := by
  decide
theorem test_bsInSeek_past : endedIn (exec .bsInSeek { withInput [0, 0, 0, 0] start with data := 33 }) .bsSeek = true := by decide

/-! ## The host's side -/

/-- V-FLT-1: a step at an illegal word. -/
theorem test_step_illegal : ended (step (start.withFetchWord 32 1)) (fun t => faultCodeWord t = 0x30 ∧ faultCmdWord t = 1 ∧
    statusWord t = 0x00000002 ∧ t.cmdCount = 0) = true := by decide

/-- A step at V-FT-5's word, from reset. -/
theorem test_step_ftLimit : ended (step (State.reset.withFetchWord 32 0x22000000)) (fun t => t.cmdCount = 1 ∧ statusWord t = 0) =
    true := by decide

/-- V-FLT-6: IN_LEN written while FT_TOTAL f1 is pending. -/
theorem test_protocol : ended (hostWrite 0x02C 3 { start with pending := some 0x15000000 })
    (fun t => faultCodeWord t = 0x31 ∧ faultCmdWord t = 0x15000000 ∧ t.inLen = 0 ∧ statusWord t = 2 ∧ t.irqStatus = 1) = true := by
  decide

/-- V-FLT-8: with the latch set a CMD write is ignored, and a DATA write is not. -/
theorem test_fault_sticky : ended (hostWrite 0x014 0 { start with fault := some { code := .illegalCommand, cmd := 0x38000000 } })
    (fun t => busy t = false ∧ faultCmdWord t = 0x38000000) = true ∧
    ended (hostWrite 0x018 3 { start with fault := some { code := .illegalCommand, cmd := 0x38000000 } }) (fun t => t.data = 3) =
    true := by decide

/-- V-FLT-9: the DONE interrupt, then its acknowledgement. -/
theorem test_irq : ended (exec .nop { start with irqEn := 2 }) (fun t => t.irqStatus = 2 ∧ irqLine t) = true ∧
    ended (hostWrite 0x028 2 { start with irqEn := 2, irqStatus := 2 }) (fun t => t.irqStatus = 0 ∧ irqLine t = false) = true := by
  decide

/-- V-BS-10. -/
theorem test_inLen : ended (hostWrite 0x02C 1000 { start with inPos := 5 }) (fun t => t.inLen = 64 ∧ t.inPos = 0) = true := by decide

/-- R63: big-endian words. -/
theorem test_inbuf : ended (hostWrite 0x1000004 0x84910203 start)
    (fun t => t.inbuf = [(4, 0x84), (5, 0x91), (6, 0x02), (7, 0x03)] ∧ readIdle t 0x1000004 0 = 0x84910203) = true := by decide

/-- R43: PARAM0 of the default instance. -/
theorem test_param0 : param0Word State.reset = 0x09440400 := by decide

/-! ## Witnesses
For each obligation with hypotheses, states and operands that meet them, clause by clause, at the boundary where a clause has
one. -/

/-- The next state of an outcome that has one. -/
def nextOf (o : Host.Outcome State Fault Refusal) : State :=
  match o with
  | .next t => t
  | .fault _ => start
  | .refused _ => start

theorem next_eq {o : Host.Outcome State Fault Refusal} (h : ended o (fun _ => true) = true) : o = .next (nextOf o) := by
  cases o with
  | next t => rfl
  | fault f => simp [ended] at h
  | refused r => simp [ended] at h

theorem slotsFormed_of {s : State} (h : ∀ a : BitVec 2, (match slot s a with
    | none => true
    | some t => decide (1 ≤ t.alphabet ∧ t.alphabet ≤ s.cfg.nSym ∧ (huffSymbols t.root).Nodup ∧
        ∀ x ∈ huffSymbols t.root, x < t.alphabet)) = true) : SlotsFormed s := by
  intro a t ht
  have := h a
  rw [ht] at this
  exact of_decide_eq_true (p := _ ∧ _) this

/-- A latched fault. -/
def latched : FaultRecord := { code := .illegalCommand, cmd := 0x38000000 }

theorem test_witness_DecodeOfEncode : WellFormed (.bsPut 32) = true := by decide

theorem test_witness_EncodeOfDecode : decode 0x84200000 = .ok (.bsGet 32) := by decide

theorem test_witness_LegalWordsDecode : rowOf (.bsPut 0) ∈ opcodeRows ∧ (rowOf (.bsPut 0)).Matches 0x80200000 ∧
    LegalWord 0x80200000 ∧ ¬ LegalWord 0x80210000 := by
  unfold LegalWord OpcodeRow.Matches
  decide

theorem test_witness_StepRunsDecodedCommand : start.fault = none ∧
    ({ start with pending := some 0, schedule := [.block] } : State).schedule = .block :: [] ∧ start.schedule = [] ∧
    decode 0 = .ok .nop := by decide

theorem test_witness_StepTakesNextTurn :
    ({ start with schedule := [.write 0x018 5] } : State).schedule = .write 0x018 5 :: [] ∧
    ({ start with schedule := [.read 0x01C] } : State).schedule = .read 0x01C :: [] ∧
    ({ start with schedule := [.reset] } : State).schedule = .reset :: [] ∧
    (({ start with schedule := [.block] } : State).schedule = .block :: [] ∧ start.pending = none) ∧
    start.schedule = [] ∧ ({ start with fault := some latched, pending := some 0 } : State).fault.isSome := by decide

theorem test_witness_IllegalWordFaults : start.fault = none ∧
    ({ start with pending := some 1 } : State).pending = some 1 ∧ ¬ LegalWord 1 ∧ start.schedule = [] ∧ LegalWord 0 := by
  unfold LegalWord OpcodeRow.Matches
  decide

theorem test_witness_EveryCommandEnds : start.fault = none := by decide

/-- BS_IN_SEEK past the end. -/
theorem test_witness_PreciseFaultsKeepState : exec .bsInSeek { start with data := 1 } =
      .next (nextOf (exec .bsInSeek { start with data := 1 })) ∧
    Faulted { start with data := 1 } (nextOf (exec .bsInSeek { start with data := 1 })) .bsSeek ∧
    FaultCode.bsSeek ∉ impreciseOf .bsInSeek :=
  ⟨next_eq (by decide), by unfold Faulted; decide, by decide⟩

theorem test_witness_OutputIsAppended : exec (.bsPut 3) start = .next (nextOf (exec (.bsPut 3) start)) ∧
    (nextOf (exec (.bsPut 3) start)).fault = none ∧ Instr.bsPut 3 ≠ .bsOutReset :=
  ⟨next_eq (by decide), by decide, by decide⟩

/-- A block turn, which is no reset; the platform's reset, and the host's. -/
theorem test_witness_FaultStaysUntilReset :
    (step { start with fault := some latched, schedule := [.block] } =
        .next (nextOf (step { start with fault := some latched, schedule := [.block] })) ∧
      ¬ ResetIsNext { start with fault := some latched, schedule := [.block] }) ∧
    (step { start with fault := some latched, schedule := [.reset] } =
        .next (nextOf (step { start with fault := some latched, schedule := [.reset] })) ∧
      ResetIsNext { start with fault := some latched, schedule := [.reset] }) ∧
    (step { start with fault := some latched, schedule := [.write 0x004 1] } =
        .next (nextOf (step { start with fault := some latched, schedule := [.write 0x004 1] })) ∧
      ResetIsNext { start with fault := some latched, schedule := [.write 0x004 1] }) := by
  refine ⟨⟨next_eq (by decide), ?_⟩, ⟨next_eq (by decide), [], .inl rfl⟩,
    next_eq (by decide), [], .inr ⟨0x004, 1, rfl, by decide, by decide⟩⟩
  rintro ⟨rest, h | ⟨a, v, h, -⟩⟩
  · exact absurd (List.cons.inj h).1 (by decide)
  · exact absurd (List.cons.inj h).1 nofun

theorem test_witness_CumulativeSums : 0 < limit (load 0 [1, 0, 3] start) 0 ∧ 2 < limit (load 0 [1, 0, 3] start) 0 := by decide

/-- Limits 1 and N_SYM are accepted, 0 and N_SYM + 1 are not. -/
theorem test_witness_FtClearRule : (1 ≤ (1 : BitVec 16).toNat ∧ (1 : BitVec 16).toNat ≤ start.cfg.nSym) ∧
    (1 ≤ (1024 : BitVec 16).toNat ∧ (1024 : BitVec 16).toNat ≤ start.cfg.nSym) ∧
    start.fault = none ∧ (0 : BitVec 16).toNat = 0 ∧ start.cfg.nSym < (1025 : BitVec 16).toNat := by decide

/-- The new Total is 2^32 − 1, then 2^32; the symbol is the limit. -/
theorem test_witness_FtSetRule :
    ((1 : BitVec 16).toNat < limit (load 0 [0xFFFFFFFE, 9] start) 0 ∧
      total (load 0 [0xFFFFFFFE, 9] { start with data := 1 }) 0 - count (load 0 [0xFFFFFFFE, 9] start) 0 1 + (1 : Word).toNat ≤
        2 ^ 32 - 1) ∧
    start.fault = none ∧ limit (load 0 [0xFFFFFFFE, 9] start) 0 ≤ (2 : BitVec 16).toNat ∧
    2 ^ 32 - 1 < total (load 0 [0xFFFFFFFE, 9] start) 0 - count (load 0 [0xFFFFFFFE, 9] start) 0 1 + (2 : Word).toNat := by decide

theorem test_witness_FtIncRule :
    ((1 : BitVec 16).toNat < limit (load 0 [0xFFFFFFFD, 1] start) 0 ∧ total (load 0 [0xFFFFFFFD, 1] start) 0 + 1 ≤ 2 ^ 32 - 1) ∧
    start.fault = none ∧ limit (load 0 [0xFFFFFFFD, 1] start) 0 ≤ (2 : BitVec 16).toNat ∧
    ((1 : BitVec 16).toNat < limit (load 0 [0xFFFFFFFD, 2] start) 0 ∧ 2 ^ 32 - 1 < total (load 0 [0xFFFFFFFD, 2] start) 0 + 1) := by
  decide

theorem test_witness_FtSymbolReads :
    ((1 : BitVec 16).toNat < limit (load 0 [0xFFFFFFFE, 1] start) 0 ∧ total (load 0 [0xFFFFFFFE, 1] start) 0 ≤ 2 ^ 32 - 1) ∧
    start.fault = none ∧ limit (load 0 [0xFFFFFFFE, 1] start) 0 ≤ (2 : BitVec 16).toNat := by decide

theorem test_witness_FtBankReads : start.cfg.Legal ∧ BanksInRange (load 0 [0xFFFFFFFE, 1] start) := by
  unfold BanksInRange
  decide

/-- An encoder with bank 0 = [1, 2, 1]. -/
def encoding : State := { load 0 [1, 2, 1] start with rcMode := .enc }

theorem coderValid_encoding : CoderValid encoding := by
  unfold CoderValid
  decide

theorem test_witness_RcEncWriteCompletes : encoding.rcMode = .enc ∧ (2 : BitVec 16).toNat < limit encoding 0 ∧
    CoderValid encoding ∧ count encoding 0 (2 : BitVec 16).toNat ≠ 0 ∧ total encoding 0 < 0x20000002 ∧
    OutputRoom encoding (31 + encoding.rcUnderflow.toNat) ∧ encoding.rcUnderflow.toNat + 30 < 2 ^ 32 :=
  ⟨by decide, by decide, coderValid_encoding, by decide, by decide, by unfold OutputRoom; decide, by decide⟩

/-- V-RC-1's first write, whose two bits are the last of the buffer. -/
theorem test_witness_RcEncWriteCompletes_full : CoderValid { encoding with outPos := 510 } ∧
    ∃ e, Renormalizes coderEncShift coderEncUnderflow
        (narrowed { encoding with outPos := 510 } 0 0 (coderOf { encoding with outPos := 510 })) e ∧
      OutputRoom { encoding with outPos := 510 } e.out.length ∧ ¬ OutputRoom { encoding with outPos := 510 } (e.out.length + 1) ∧
      e.uf < 2 ^ 32 := by
  have h : narrowed { encoding with outPos := 510 } 0 0 (coderOf { encoding with outPos := 510 }) =
      { low := 0, high := 0x1FFFFFFF, code := 0, uf := 0, pos := 0, out := [] } := by decide
  rw [h]
  refine ⟨by unfold CoderValid; decide, { low := 0, high := 0x7FFFFFFF, code := 0, uf := 0, pos := 0, out := [false, false] },
    ⟨{ low := 0, high := 0x7FFFFFFF, code := 0, uf := 0, pos := 0, out := [false, false] }, ?_, ?_⟩, ?_, ?_, ?_⟩
  · refine .again (by unfold SameTopBit; decide) (.again (by unfold SameTopBit; decide) ?_)
    exact .stop (by unfold SameTopBit; decide)
  · exact .stop (by unfold StraddlesMiddle; decide)
  · unfold OutputRoom; decide
  · unfold OutputRoom; decide
  · decide

/-- Each check fails with the ones before it passed; MAXTOTAL itself is refused. -/
theorem test_witness_RcEncWriteFaults : encoding.fault = none ∧ start.rcMode ≠ .enc ∧
    (encoding.rcMode = .enc ∧ limit encoding 0 ≤ (3 : BitVec 16).toNat) ∧
    ((2 : BitVec 16).toNat < limit encoding 0 ∧
      ({ encoding with rcLow := 5, rcHigh := 5 } : State).rcHigh.toNat ≤ ({ encoding with rcLow := 5 } : State).rcLow.toNat) ∧
    rcRange { encoding with rcHigh := 0x20000000 } < 0x20000002 ∧
    (CoderValid (load 0 [1, 0] encoding) ∧ count (load 0 [1, 0] encoding) 0 (1 : BitVec 16).toNat = 0) ∧
    CoderValid (load 0 [0x20000001, 1] encoding) ∧ count (load 0 [0x20000001, 1] encoding) 0 (1 : BitVec 16).toNat ≠ 0 ∧
    0x20000002 ≤ total (load 0 [0x20000001, 1] encoding) 0 := by
  unfold CoderValid
  decide

/-- An encoder whose output buffer is full, and one whose counter of pending bits is at its end. -/
def brimming : State := { encoding with outPos := 512 }
def manyPending : State := { encoding with rcUnderflow := 0xFFFFFFFF }

/-- V-RC-1's first write emits two bits; its second has one underflow and no shift. -/
theorem test_witness_RcEncWriteFaults_imprecise :
    (∃ e, Renormalizes coderEncShift coderEncUnderflow (narrowed brimming 0 0 (coderOf brimming)) e ∧
      PositionsInRange brimming ∧ ¬ OutputRoom brimming e.out.length) ∧
    ∃ e, Renormalizes coderEncShift coderEncUnderflow (narrowed manyPending 0 1 (coderOf manyPending)) e ∧
      PositionsInRange manyPending ∧ OutputRoom manyPending e.out.length ∧ 2 ^ 32 ≤ e.uf := by
  have h1 : narrowed brimming 0 0 (coderOf brimming) = { low := 0, high := 0x1FFFFFFF, code := 0, uf := 0, pos := 0, out := [] } := by
    decide
  have h2 : narrowed manyPending 0 1 (coderOf manyPending) =
      { low := 0x20000000, high := 0x5FFFFFFF, code := 0, uf := 0xFFFFFFFF, pos := 0, out := [] } := by decide
  rw [h1, h2]
  refine ⟨⟨{ low := 0, high := 0x7FFFFFFF, code := 0, uf := 0, pos := 0, out := [false, false] },
      ⟨{ low := 0, high := 0x7FFFFFFF, code := 0, uf := 0, pos := 0, out := [false, false] }, ?_, ?_⟩, ?_, ?_⟩,
    ⟨{ low := 0, high := 0x7FFFFFFF, code := 0, uf := 0x100000000, pos := 0, out := [] },
      ⟨{ low := 0x20000000, high := 0x5FFFFFFF, code := 0, uf := 0xFFFFFFFF, pos := 0, out := [] }, ?_, ?_⟩, ?_, ?_, ?_⟩⟩
  · refine .again (by unfold SameTopBit; decide) (.again (by unfold SameTopBit; decide) ?_)
    exact .stop (by unfold SameTopBit; decide)
  · exact .stop (by unfold StraddlesMiddle; decide)
  · unfold PositionsInRange; decide
  · unfold OutputRoom; decide
  · exact .stop (by unfold SameTopBit; decide)
  · refine .again (by unfold StraddlesMiddle; decide) ?_
    exact .stop (by unfold StraddlesMiddle; decide)
  · unfold PositionsInRange; decide
  · unfold OutputRoom; decide
  · decide

/-- The last bit of the buffer is free, then it is not (V-RC-21, V-RC-20). -/
theorem test_witness_RcEncFinishRule :
    (encoding.rcMode = .enc ∧ ({ encoding with outPos := 511 } : State).outPos < 8 * encoding.cfg.outBytes) ∧
    start.fault = none ∧ start.rcMode ≠ .enc ∧ brimming.outPos = 8 * brimming.cfg.outBytes := by decide

theorem test_witness_RcDecInitRule : PositionsInRange { withInput [0x2C] start with inPos := 8 } := by
  unfold PositionsInRange
  decide

/-- A decoder with bank 0 = [1, 2, 1] (V-RC-1). -/
def decoding : State := { load 0 [1, 2, 1] (withInput [0x2C] start) with rcMode := .dec, rcCode := 0x16000000, inPos := 8 }

theorem test_witness_RcDecReadCompletes : decoding.rcMode = .dec ∧ CoderValid decoding ∧ PositionsInRange decoding ∧
    decoding.cfg.Legal ∧ BanksInRange decoding ∧ 0 < total decoding 0 ∧ total decoding 0 < 0x20000002 := by
  unfold CoderValid PositionsInRange BanksInRange
  decide

theorem test_witness_RcDecReadFaults : decoding.fault = none ∧ start.rcMode ≠ .dec ∧
    (decoding.rcMode = .dec ∧ ({ decoding with rcHigh := 0 } : State).rcHigh.toNat ≤ decoding.rcLow.toNat) ∧
    rcRange { decoding with rcHigh := 0x20000000 } < 0x20000002 ∧
    (CoderValid (load 0 [0x20000001, 1] decoding) ∧ 0x20000002 ≤ total (load 0 [0x20000001, 1] decoding) 0) ∧
    (CoderValid (load 0 [] decoding) ∧ total (load 0 [] decoding) 0 = 0) ∧
    (0x20000002 ≤ rcRange { decoding with rcHigh := 0x20000001 } ∧
      ({ decoding with rcHigh := 0x20000001 } : State).rcHigh.toNat < (0x20000002 : BitVec 31).toNat) := by
  unfold CoderValid
  decide

/-- V-RC-2: symbol 0 of [1, 1], encoded and decoded. -/
def message : Message := [(0, [1, 1], 0)]
def roundInit : State := nextOf (exec .rcEncInit start)
def roundWritten : State := (encodeMessage message roundInit).getD start
def roundFinished : State := nextOf (exec .rcEncFinish roundWritten)
def roundInput : State := withInput [0x40] start

theorem test_witness_RangeCoderRoundTrip : start.fault = none ∧ exec .rcEncInit start = .next roundInit ∧
    encodeMessage message roundInit = some roundWritten ∧ exec .rcEncFinish roundWritten = .next roundFinished ∧
    roundFinished.fault = none ∧ roundInput.fault = none ∧
    8 * roundInput.inLen = roundInput.inPos + (roundFinished.outPos - start.outPos) ∧
    (∀ j, j < roundFinished.outPos - start.outPos →
      inBitAt roundInput (roundInput.inPos + j) = outBitAt roundFinished (start.outPos + j)) ∧
    exec .rcDecInit roundInput = .next (nextOf (exec .rcDecInit roundInput)) := by
  have h : (encodeMessage message roundInit).isSome = true := by decide +kernel
  refine ⟨by decide, next_eq (by decide), ?_, next_eq (by decide +kernel), by decide +kernel, by decide, by decide +kernel, ?_,
    next_eq (by decide +kernel)⟩
  · unfold roundWritten
    obtain ⟨t, ht⟩ := Option.isSome_iff_exists.1 h
    rw [ht]; rfl
  · have : roundFinished.outPos - start.outPos = 8 := by decide +kernel
    rw [this]
    decide +kernel

/-- Depths 1 and 9 are accepted, 0 and 10 are not. -/
theorem test_witness_VtClearRule : (1 ≤ (1 : BitVec 6).toNat ∧ (9 : BitVec 6).toNat ≤ 9) ∧ start.fault = none ∧
    (0 : BitVec 6).toNat = 0 ∧ 9 < (10 : BitVec 6).toNat := by decide

/-- The largest value of depth 3, and the value past it. -/
theorem test_witness_VtMarkRule : (TableInRange (marked 3 [] start) ∧ (marked 3 [] start).vtDepth ≠ 0 ∧
      (7 : BitVec 16).toNat < 2 ^ (marked 3 [] start).vtDepth) ∧
    (start.fault = none ∧ start.vtDepth = 0) ∧ (marked 3 [] start).fault = none ∧
    2 ^ (marked 3 [] start).vtDepth ≤ (8 : BitVec 16).toNat := by
  unfold TableInRange
  decide

/-- The table of V-VT-12 in the last four bits of the buffer, and in the last one. -/
theorem test_witness_VtEncodeRule :
    (start.cfg.Legal ∧ TableInRange (marked 1 [0] { start with outPos := 508 }) ∧
      (marked 1 [0] { start with outPos := 508 }).vtDepth ≠ 0 ∧
      ∃ j ≤ 2, OutputRoom (marked 1 [0] { start with outPos := 508 })
        (2 + (payload (marked 1 [0] { start with outPos := 508 }) (2 ^ 1) j).length)) ∧
    (start.fault = none ∧ start.vtDepth = 0) ∧
    (PositionsInRange (marked 1 [0] { start with outPos := 509 }) ∧
      ∀ j ≤ 2, ¬ OutputRoom (marked 1 [0] { start with outPos := 509 })
        (2 + (payload (marked 1 [0] { start with outPos := 509 }) (2 ^ 1) j).length)) := by
  unfold TableInRange PositionsInRange OutputRoom
  decide +kernel

/-- The payloads of V-VT-21, V-VT-20 and, with tag 0, V-VT-1, each of the values 0 and 1 at depth 1. -/
theorem test_witness_VtDecodeReadsPayload : start.cfg.Legal ∧ PositionsInRange (withInput [0b10_01_1_00_0] start) ∧
    InputHolds (withInput [0b10_01_1_00_0] start) 0 (msbBits 2 2 ++ payload (marked 1 [0, 1] start) (2 ^ 1) 2) ∧
    InputHolds (withInput [0b01_1_1_1_000] start) 0 (msbBits 2 1 ++ payload (marked 1 [0, 1] start) (2 ^ 1) 1) ∧
    InputHolds (withInput [0b00_11_0000] start) 0 (msbBits 2 0 ++ payload (marked 1 [0, 1] start) (2 ^ 1) 0) := by
  unfold PositionsInRange InputHolds
  decide +kernel

/-- V-VT-20's completion; V-VT-F7, V-VT-F1, and an input of one bit. -/
theorem test_witness_VtDecodeReadsOnlyPayloads :
    (exec (.vtDecode 1) (withInput [0b01_1_1_1_000] start) =
        .next (nextOf (exec (.vtDecode 1) (withInput [0b01_1_1_1_000] start))) ∧
      (nextOf (exec (.vtDecode 1) (withInput [0b01_1_1_1_000] start))).fault = none) ∧
    start.fault = none ∧ 9 < (10 : BitVec 6).toNat ∧ InputHolds (withInput [0b11_000000] start) 0 [true, true] ∧
    (PositionsInRange { withInput [0] start with inPos := 7 } ∧
      8 * ({ withInput [0] start with inPos := 7 } : State).inLen < 7 + 2) := by
  refine ⟨⟨next_eq (by decide +kernel), by decide +kernel⟩, by decide, by decide, ?_, ?_⟩
  · unfold InputHolds; decide
  · unfold PositionsInRange; decide

/-- RefCode(2) is 0:1, 1:01, 2:00 (R151). At depth 1: a delta payload with gaps 1, 1; range payloads with a run of 0 after
the first, and with one run that misses M. -/
theorem test_witness_VtDecode_badPayload : BadPayload (withInput [0b01_01_01_00] start) (2 ^ 1) ∧
    BadPayload (withInput [0b10_00_1_1_00] start) (2 ^ 1) ∧ BadPayload (withInput [0b10_1_01_000] start) (2 ^ 1) := by
  refine ⟨.inl ⟨[1], 1, ?_⟩, .inr ⟨2, [0], 0, ?_⟩, .inr ⟨0, [], 1, ?_⟩⟩ <;>
  · first
    | unfold GapsOpen SymbolsHeld InputHolds; decide
    | unfold RunsOpen SymbolsHeld InputHolds; decide

/-- Inputs that end inside the tag, the bitmap, a gap's code, the run count's code and a run's code. -/
theorem test_witness_VtDecode_truncated : EndsInTable { withInput [0] start with inPos := 7 } (2 ^ 1) ∧
    EndsInTable { withInput [0b00] start with inPos := 6 } (2 ^ 1) ∧
    EndsInTable { withInput [0b01_0] start with inPos := 5 } (2 ^ 1) ∧
    EndsInTable { withInput [0b10_0] start with inPos := 5 } (2 ^ 1) ∧
    EndsInTable { withInput [0b10_1_0] start with inPos := 4 } (2 ^ 1) := by
  refine ⟨.inl (by decide), .inr (.inl ?_), .inr (.inr (.inl ⟨?_, [], ?_, ?_, 1, [false], [true], ?_⟩)),
    .inr (.inr (.inr ⟨?_, .inl ⟨1, [false], [true], ?_⟩⟩)),
    .inr (.inr (.inr ⟨?_, .inr ⟨0, [], ?_, ?_, 1, [false], [true], ?_⟩⟩))⟩ <;>
  · first
    | unfold InputHolds; decide
    | unfold GapsOpen; decide
    | unfold RunsOpen; decide
    | unfold SymbolsHeld InputHolds; decide

/-- The bits of V-VT-12, written and read back. -/
def vtWritten : State := nextOf (exec .vtEncode (marked 1 [0] start))

theorem test_witness_ValueTableRoundTrip : (marked 1 [0] start).fault = none ∧ TableInRange (marked 1 [0] start) ∧
    exec .vtEncode (marked 1 [0] start) = .next vtWritten ∧ vtWritten.fault = none ∧
    (1 : BitVec 6).toNat = (marked 1 [0] start).vtDepth ∧ (withInput [0b0010_0000] start).cfg.Legal ∧
    PositionsInRange (withInput [0b0010_0000] start) ∧ 0 + (vtWritten.outPos - 0) ≤ 8 * (withInput [0b0010_0000] start).inLen ∧
    ∀ j, j < vtWritten.outPos - 0 → inBitAt (withInput [0b0010_0000] start) (0 + j) = outBitAt vtWritten (0 + j) := by
  have h : vtWritten.outPos - 0 = 4 := by decide +kernel
  refine ⟨by decide, by unfold TableInRange; decide, next_eq (by decide +kernel), by decide +kernel, by decide, by decide,
    by unfold PositionsInRange; decide, by rw [h]; decide, ?_⟩
  rw [h]
  decide +kernel

/-- The translation of V-VT-3's table: value 5 is the last, index 1 the last. -/
def translated : State := buildTranslation [2, 5] (marked 3 [2, 5] start)

theorem test_witness_VtTranslates :
    (translated.vtValid = true ∧ (5 : BitVec 16).toNat < 2 ^ translated.vtDepth ∧ presentAt translated 5 = true) ∧
    (1 : BitVec 16).toNat < translated.vtCeil ∧
    (start.fault = none ∧ start.vtValid = false) ∧
    translated.fault = none ∧ 2 ^ translated.vtDepth ≤ (8 : BitVec 16).toNat ∧ presentAt translated 7 = false ∧
    translated.vtCeil ≤ (2 : BitVec 16).toNat := by decide +kernel

theorem test_witness_TranslationIsIdentity : translated.vtValid = true ∧ (5 : BitVec 16).toNat < 2 ^ translated.vtDepth ∧
    presentAt translated 5 = true ∧ TableInRange translated ∧ TranslationBuilt translated := by
  unfold TableInRange TranslationBuilt rankOf
  decide +kernel

/-- A bank of one count, and an unconfigured one. -/
theorem test_witness_HtBuildRule : start.cfg.Legal ∧
    (1 ≤ limit (load 0 [7] start) 0 ∧ limit (load 0 [7] start) 0 ≤ start.cfg.nSym) ∧ start.fault = none ∧ limit start 0 = 0 ∧
    ({ start with cfg := { start.cfg with nSym := 2 } } : State).cfg.nSym < limit (load 0 [1, 1, 1] start) 0 := by
  decide

/-- The 14 bits of V-HT-12 fit exactly, then not. -/
theorem test_witness_HtSerializeRule : slot (setSlot 0 treeHt12 start) 0 = some treeHt12 ∧
    OutputRoom { start with outPos := 498 } (huffSerialize (leafWidth treeHt12.alphabet) treeHt12.root).length ∧
    (start.fault = none ∧ slot start 0 = none) ∧ PositionsInRange { start with outPos := 499 } ∧
    ¬ OutputRoom { start with outPos := 499 } (huffSerialize (leafWidth treeHt12.alphabet) treeHt12.root).length := by
  unfold OutputRoom PositionsInRange
  decide

/-- V-HT-7's input; the alphabet sizes 0 and N_SYM + 1. -/
theorem test_witness_HtDeserializeReadsTree : start.cfg.Legal ∧ PositionsInRange (withInput [0b10000100, 0b10010000] start) ∧
    (treeHt12.alphabet = (5 : BitVec 16).toNat ∧ TreeFormed start treeHt12 ∧
      InputHolds (withInput [0b10000100, 0b10010000] start) 0 (huffSerialize (leafWidth 5) treeHt12.root)) ∧
    start.fault = none ∧ (0 : BitVec 16).toNat = 0 ∧ start.cfg.nSym < (1025 : BitVec 16).toNat := by
  unfold PositionsInRange TreeFormed InputHolds
  decide

theorem test_witness_HtDeserializeReadsOnlyTrees : start.fault = none ∧
    exec (.htDeserialize 1 5) (withInput [0b10000100, 0b10010000] start) =
      .next (nextOf (exec (.htDeserialize 1 5) (withInput [0b10000100, 0b10010000] start))) ∧
    (nextOf (exec (.htDeserialize 1 5) (withInput [0b10000100, 0b10010000] start))).fault = none :=
  ⟨by decide, next_eq (by decide), by decide⟩

/-- For A = 2 a second inner node, a leaf 0 again after leaf 0; for A = 3 the leaf index 3. -/
theorem test_witness_HtDeserialize_badTree : BadTree (withInput [0b1_1_000000] start) 2 ∧
    BadTree (withInput [0b1_00_00_000] start) 2 ∧ BadTree (withInput [0b0_11_00000] start) 3 := by
  refine ⟨⟨[.node], ?_, .inl ?_⟩, ⟨[.node, .leaf 0], ?_, .inr ⟨0, ?_⟩⟩, ⟨[], ?_, .inr ⟨3, ?_⟩⟩⟩ <;>
  · first
    | unfold TokensOpen; decide
    | unfold InputHolds; decide

/-- Inputs that end after an inner node, and inside a leaf's index. -/
theorem test_witness_HtDeserialize_truncated : EndsInTree { withInput [0b1] start with inPos := 7 } 2 ∧
    EndsInTree { withInput [0b0] start with inPos := 7 } 2 := by
  refine ⟨⟨[.node], ?_, ?_, .inl ?_⟩, ⟨[], ?_, ?_, .inr ?_⟩⟩ <;>
  · first
    | unfold TokensOpen; decide
    | unfold InputHolds; decide
    | decide

/-- V-HT-12's tree in slot 0. -/
def coding : State := setSlot 0 treeHt12 start

theorem slotsFormed_coding (n : Nat) (l : List Nat) : SlotsFormed { withInput l coding with outPos := n } :=
  slotsFormed_of (s := coding) (by decide)

theorem test_witness_HtEncodeAndLenRule : (∀ n l, SlotsFormed { withInput l coding with outPos := n }) ∧ coding.cfg.Legal ∧ slot coding 0 = some treeHt12 ∧
    huffCode treeHt12.root (4 : BitVec 16).toNat = some [true, true] ∧ OutputRoom { coding with outPos := 510 } 2 ∧
    (coding.fault = none ∧ PositionsInRange { coding with outPos := 511 } ∧ ¬ OutputRoom { coding with outPos := 511 } 2) ∧
    slot coding 1 = none ∧ treeHt12.alphabet ≤ (5 : BitVec 16).toNat ∧ (1 : BitVec 16).toNat ∉ huffSymbols treeHt12.root := by
  refine ⟨slotsFormed_coding, ?_⟩
  unfold OutputRoom PositionsInRange
  decide

/-- V-HT-17's input, and one that ends after the first bit of the code 11. -/
theorem test_witness_HtDecodeRule : (∀ n l, SlotsFormed { withInput l coding with outPos := n }) ∧ coding.cfg.Legal ∧ slot coding 0 = some treeHt12 ∧
    huffCode treeHt12.root 4 = some [true, true] ∧ InputHolds (withInput [0b1100_0000] coding) 0 [true, true] ∧
    slot coding 1 = none ∧ huffCode treeHt12.root 4 = some ([true] ++ [true]) ∧
    InputHolds (withInput [0xFF] coding) 7 [true] ∧ 7 + [true].length = 8 * (withInput [0xFF] coding).inLen ∧
    PositionsInRange { withInput [0xFF] coding with inPos := 7 } := by
  refine ⟨slotsFormed_coding, ?_⟩
  unfold InputHolds PositionsInRange
  decide

theorem test_witness_CodesArePrefixFree : huffCode treeHt12.root 4 = some [true, true] ∧ [true, true] <+: [true, true] := by
  decide

theorem test_witness_SerializationLengths : (1 ≤ 256 ∧ 256 ≤ 2 ^ 8) ∧ leafWidth 256 = 8 ∧ leafWidth 257 = 9 ∧ leafWidth 1 = 0 := by
  decide

/-- V-HT-9's tree of [1, 1]: built, serialized (10001), read back; then symbol 1 (the bit 1) encoded and decoded. -/
def built : State := nextOf (exec (.htBuild 0 0) (load 0 [1, 1] start))
def serialized : State := nextOf (exec (.htSerialize 0) built)
def encodedOne : State := nextOf (exec (.htEncode 0 1) serialized)
def rebuilt : State := { setSlot 2 { alphabet := 2, root := .node (.leaf 0) (.leaf 1) } (withInput [0b10001_1_00] start) with inPos := 5 }

theorem test_witness_HuffmanRoundTrip :
    (start.fault = none ∧ start.cfg.Legal ∧ BanksInRange (load 0 [1, 1] start) ∧
      exec (.htBuild 0 0) (load 0 [1, 1] start) = .next built ∧ built.fault = none ∧
      exec (.htSerialize 0) built = .next serialized ∧ serialized.fault = none ∧
      (withInput [0b10001_1_00] start).cfg = start.cfg ∧ PositionsInRange (withInput [0b10001_1_00] start) ∧
      0 + (serialized.outPos - built.outPos) ≤ 8 * (withInput [0b10001_1_00] start).inLen ∧
      ∀ j, j < serialized.outPos - built.outPos →
        inBitAt (withInput [0b10001_1_00] start) (0 + j) = outBitAt serialized (built.outPos + j)) ∧
    count (load 0 [1, 1] start) 0 (1 : BitVec 16).toNat ≠ 0 ∧ exec (.htEncode 0 1) serialized = .next encodedOne ∧
    encodedOne.fault = none ∧ slot rebuilt 2 = slot built 0 ∧
    rebuilt.inPos + (encodedOne.outPos - serialized.outPos) ≤ 8 * rebuilt.inLen ∧
    ∀ j, j < encodedOne.outPos - serialized.outPos →
      inBitAt rebuilt (rebuilt.inPos + j) = outBitAt encodedOne (serialized.outPos + j) := by
  have h : serialized.outPos - built.outPos = 5 := by decide
  have h' : encodedOne.outPos - serialized.outPos = 1 := by decide
  refine ⟨⟨by decide, by decide, by unfold BanksInRange; decide, next_eq (by decide), by decide, next_eq (by decide), by decide, rfl,
    by unfold PositionsInRange; decide, by rw [h]; decide, by rw [h]; decide⟩, by decide, next_eq (by decide), by decide,
    by decide, by rw [h']; decide, by rw [h']; decide⟩

/-- V-BS-12: two bits fit at OUTPOS 30 of 32, three do not. -/
theorem test_witness_BsPutRule : OutputRoom { start with cfg := { start.cfg with outBytes := 4 }, outPos := 30 } 2 ∧
    start.fault = none ∧ ¬ OutputRoom { start with cfg := { start.cfg with outBytes := 4 }, outPos := 30 } 3 := by
  unfold OutputRoom
  decide

theorem test_witness_BsGetRule : ((32 : BitVec 6).toNat ≤ 32 ∧
      0 + (32 : BitVec 6).toNat ≤ 8 * (withInput [1, 2, 3, 4] start).inLen) ∧
    start.fault = none ∧ 8 * (withInput [1, 2, 3, 4] start).inLen < 1 + (32 : BitVec 6).toNat := by decide

theorem test_witness_BsMovesRule : (32 : Word).toNat ≤ 8 * (withInput [1, 2, 3, 4] start).inLen ∧ start.fault = none ∧
    8 * (withInput [1, 2, 3, 4] start).inLen < (33 : Word).toNat := by decide

theorem test_witness_CmdWriteIssues : ({ start with fault := some latched } : State).fault.isSome ∧
    (start.fault = none ∧ ({ start with pending := some 0x15000000 } : State).pending = some 0x15000000) ∧
    start.pending = none := by decide

/-- The first and the last INBUF word are guarded; the word past them, the ones beside CMD, DATA and IN_LEN and the OUTBUF
window are not. The last part is a command that faults. -/
theorem test_witness_ProtocolFault : start.cfg.Legal ∧ start.fault = none ∧
    ({ start with pending := some 0 } : State).pending = some 0 ∧
    (BusyGuarded start 0x014 ∧ BusyGuarded start 0x018 ∧ BusyGuarded start 0x02C ∧ BusyGuarded start 0x1000000 ∧
      BusyGuarded start 0x100003C) ∧
    (∀ off ∈ [0x000, 0x004, 0x010, 0x01C, 0x024, 0x028, 0x030, 0x060, 0xFFFFFC, 0x1000040, 0x2000000],
      ¬ BusyGuarded start off) ∧
    hostRead 0x01C { start with pending := some 0 } = .next (nextOf (hostRead 0x01C { start with pending := some 0 })) ∧
    exec (.ftClear 0 0) start = .next (nextOf (exec (.ftClear 0 0) start)) ∧
    (nextOf (exec (.ftClear 0 0) start)).fault = some { code := .ftLimit, cmd := 0 } := by
  refine ⟨by decide, by decide, by decide, ?_, ?_, next_eq rfl, next_eq (by decide), by decide⟩ <;>
  · unfold BusyGuarded; decide

theorem test_witness_RegisterWrites : start.pending = none ∧
    ({ start with fault := some latched } : State).pending = none := by decide

theorem test_witness_SoftReset : (1 : Word).getLsbD 0 = true ∧ (0xFFFFFFFE : Word).getLsbD 0 = false := by decide

theorem test_witness_IdleRegisterReads : start.cfg.Legal ∧ RegistersInRange { withInput [1] start with inPos := 8, outPos := 512 } ∧
    start.pending = none := by
  unfold RegistersInRange PositionsInRange TableInRange FaultEmptiesLatch
  decide

theorem test_witness_ExactReads : start.cfg.Legal := by decide

/-- The last word of each window. -/
theorem test_witness_InbufWords : start.cfg.Legal ∧ start.pending = none ∧ 4 * 15 < start.cfg.inBytes := by decide

theorem test_witness_OutbufWords : start.cfg.Legal ∧ 4 * 15 < start.cfg.outBytes ∧ start.pending = none ∧
    32 * 15 + 31 < ({ start with outPos := 512 } : State).outPos := by decide

/-- The first and the last offset of each hole. -/
theorem test_witness_IgnoredAccesses : start.cfg.Legal ∧ (0x060 % 4 = 0 ∧ 0x060 < inWindow ∧ 0xFFFFFC < inWindow) ∧
    (inWindow + start.cfg.inBytes ≤ 0x1000040 ∧ 0x1FFFFFC < outWindow) ∧
    outWindow + start.cfg.outBytes ≤ 0x2000040 ∧ 0x2FFFFFC < 0x3000000 := by decide

theorem test_witness_InterruptLine : start.fault = none ∧ exec .nop start = .next (nextOf (exec .nop start)) :=
  ⟨by decide, next_eq (by decide)⟩

/-- The decoder of V-RC-1 meets the premises of both invariants. -/
theorem test_witness_StepKeepsRanges : decoding.cfg.Legal ∧ RegistersInRange decoding ∧ BanksInRange decoding ∧
    BuffersFormed decoding ∧ step decoding = .next (nextOf (step decoding)) := by
  refine ⟨by decide, ?_, ?_, ?_, next_eq (by decide)⟩
  · unfold RegistersInRange PositionsInRange TableInRange FaultEmptiesLatch; decide
  · unfold BanksInRange; decide
  · unfold BuffersFormed; decide

theorem test_witness_StepKeepsSoundness : SoundUnlessFaulted decoding ∧ decoding.fault = none := by
  refine ⟨fun _ => ⟨?_, slotsFormed_of (by decide), ?_, ?_⟩, by decide⟩
  · unfold CoderValid; decide
  · unfold TranslationBuilt; decide
  · intro a h; exact absurd h (Nat.not_lt_zero _)

end Sys2Proof.Tests
end

section
/-! PROOFS. The inversion lemma of `step`: what a block's turn, a host access and a reset do (`spec/20_memory.md` R60-R71,
R234, R236). -/

namespace Sys2Proof.Machine

/-! ## What a step can do -/

/-- What one step does to the state, the schedule having moved on: the block's turn, a host access or a reset. -/
inductive Happened (s : State) : State → Prop
  /-- Nothing: an idle or faulted block's turn, or an ignored write. -/
  | nothing : Happened s s
  /-- The fault of an illegal word, or of a write refused with PROTOCOL. -/
  | faulted (c : FaultCode) : Happened s (enterFault c s)
  /-- The pending command. -/
  | command (i : Instr) (t : State) (hf : s.fault = none) (he : exec i s = .next t) : Happened s t
  /-- A host read. -/
  | read (v : Word) : Happened s { s with bus := v, draws := s.draws + 1 }
  /-- A reset, from the platform or by CTRL. -/
  | reset : Happened s (resetState s)
  /-- A write of CMD. -/
  | issued (v : Word) (hf : s.fault = none) : Happened s { s with pending := some v }
  /-- A write of DATA, IRQ_EN or IRQ_STATUS. -/
  | register (d : Word) (e q : BitVec 2) : Happened s { s with data := d, irqEn := e, irqStatus := q }
  /-- A write of IN_LEN. -/
  | length (n : Nat) (hn : n ≤ s.cfg.inBytes) : Happened s { s with inLen := n, inPos := 0 }
  /-- A write of an INBUF word. -/
  | word (i : Nat) (v : Word) (h4 : i % 4 = 0) (hi : i < s.cfg.inBytes) : Happened s (writeInWord i v s)

theorem inInWindow_iff (s : State) (off : Nat) :
    inInWindow s off = true ↔ inWindow ≤ off ∧ off < inWindow + s.cfg.inBytes := by simp [inInWindow]

theorem happened_unlessBusy {s t : State} (h : Happened s t) : Happened s (unlessBusy s t) := by
  unfold unlessBusy
  split
  · exact .faulted _
  · exact h

/-- A write at an aligned offset, by the registers of the address map. -/
theorem happened_writeOffset (s : State) (off : Nat) (v : Word) (h4 : off % 4 = 0) :
    Happened s (writeOffset off v s) := by
  unfold writeOffset
  split
  · unfold writeCtrl
    split
    · exact .reset
    · exact .nothing
  · unfold writeCmd
    split
    · exact .nothing
    · rename_i hf
      exact happened_unlessBusy (.issued v (by simpa [faulted] using hf))
  · exact happened_unlessBusy (.register v s.irqEn s.irqStatus)
  · exact .register s.data _ s.irqStatus
  · exact .register s.data s.irqEn _
  · exact happened_unlessBusy (.length _ (Nat.min_le_right _ _))
  · split
    · rename_i hw
      rw [inInWindow_iff] at hw
      simp only [inWindow] at hw
      exact happened_unlessBusy (.word _ v (by simp only [inWindow]; omega) (by simp only [inWindow]; omega))
    · exact .nothing

theorem blockOffset_mod_four {s : State} {a off : Nat} (h : blockOffset s a = some off) : off % 4 = 0 := by
  unfold blockOffset at h
  split at h
  · cases h; omega
  · cases h

theorem happened_blockStep {s t : State} (h : blockStep s = .next t) : Happened s t := by
  unfold blockStep enabledWord at h
  cases hf : s.fault with
  | some f => rw [hf] at h; cases h; exact .nothing
  | none =>
    rw [hf] at h
    cases hp : s.pending with
    | none => rw [hp] at h; cases h; exact .nothing
    | some w =>
      simp only [hp] at h
      split at h
      · cases h; exact .faulted _
      · exact .command _ t hf h

theorem happened_takeTurn {s t : State} {u : Turn} (h : takeTurn u s = .next t) : Happened s t := by
  cases u with
  | block => exact happened_blockStep h
  | reset => cases h; exact .reset
  | read a =>
    simp only [takeTurn, hostRead] at h
    split at h <;> cases h
    exact .read _
  | write a v =>
    simp only [takeTurn, hostWrite] at h
    split at h <;> cases h
    rename_i hb
    exact happened_writeOffset s _ v (blockOffset_mod_four hb)

/-- The inversion lemma of `step`. -/
theorem step_happened {s t : State} (h : step s = .next t) :
    ∃ rest, Happened { s with schedule := rest } t := by
  unfold step at h
  split at h
  · rename_i hs
    exact ⟨s.schedule, happened_blockStep h⟩
  · exact ⟨_, happened_takeTurn h⟩

end Sys2Proof.Machine
end

section
/-! PROOFS. The inversion lemma of completing commands, by what the invariants see of what they write. -/

namespace Sys2Proof.Machine

/-! ## What a completing command leaves -/

/-- What a completing command leaves before the completion effects, by what the invariants see of it. -/
inductive Wrote (s : State) : State → Prop
  /-- NOP. -/
  | nothing : Wrote s s
  /-- RESULT, after whatever else the command wrote. -/
  | result {u : State} (v : Nat) (h : Wrote s u) : Wrote s (setResult v u)
  /-- FT_CLEAR. -/
  | cleared (a : BitVec 2) (n : Nat) (hn : n ≤ s.cfg.nSym) : Wrote s (setBank a (List.replicate n 0) s)
  /-- FT_SET and FT_INC. -/
  | counted (a : BitVec 2) (x : Nat) (v : Word) (h : total s a - count s a x + v.toNat ≤ maxBankTotal) :
      Wrote s (setCount a x v s)
  /-- HT_SERIALIZE, HT_ENCODE, BS_PUT and BS_OUT_ALIGN. -/
  | emitted {u : State} (bs : List Bool) (he : emit bs s = .ok u) : Wrote s u
  /-- BS_OUT_RESET. -/
  | rewound : Wrote s { s with outPos := 0 }
  /-- HT_DECODE, BS_GET, BS_IN_ALIGN and BS_IN_SEEK. -/
  | moved (p : Nat) (hp : p ≤ 8 * s.inLen) : Wrote s { s with inPos := p }
  /-- RC_ENC_INIT. -/
  | encodingStarted : Wrote s { s with rcLow := 0, rcHigh := rcMask, rcCode := 0, rcUnderflow := 0, rcMode := .enc }
  /-- RC_ENC_WRITE. -/
  | encoded {t u : State} (a : BitVec 2) (x : Nat) (hm : s.rcMode = .enc) (hn : rcNarrow a x s = .ok t)
      (hr : rcRenormalize encShift encUnderflow t = .ok u) : Wrote s u
  /-- RC_ENC_FINISH. -/
  | encodingEnded {u : State} (bs : List Bool) (he : emit bs s = .ok u) :
      Wrote s { u with rcUnderflow := 0, rcMode := .idle }
  /-- RC_DEC_INIT. -/
  | decodingStarted : Wrote s { fillCode 31 { s with rcLow := 0, rcHigh := rcMask, rcUnderflow := 0, rcCode := 0 } with
      rcMode := .dec }
  /-- RC_DEC_READ. -/
  | decoded {t u : State} (a : BitVec 2) (x : Nat) (hn : rcNarrow a x s = .ok t)
      (hr : rcRenormalize decShift decUnderflow t = .ok u)
      (hc : u.rcLow.toNat ≤ u.rcCode.toNat ∧ u.rcCode.toNat ≤ u.rcHigh.toNat) : Wrote s u
  /-- VT_CLEAR. -/
  | tableCleared (k : Nat) (hk : k ≤ 9) : Wrote s { s with
      vtDepth := k, present := presenceOf [], vtCeil := 0, vtTag := 0, vtValid := false }
  /-- VT_MARK. -/
  | marked (x : Nat) : Wrote s { s with present := s.present.setIfInBounds x true, vtValid := false }
  /-- VT_ENCODE. -/
  | tableWritten {u : State} (bs : List Bool) (tag : BitVec 2) (he : emit bs s = .ok u) :
      Wrote s (buildTranslation (occupied s (2 ^ s.vtDepth)) { u with vtTag := tag })
  /-- VT_DECODE. -/
  | tableRead (k : Nat) (vs : List Nat) (tag : BitVec 2) (p : Nat) (hk : k ≤ 9) (hv : RisingIn (2 ^ k) 0 vs)
      (hp : p ≤ 8 * s.inLen) : Wrote s (buildTranslation vs { s with
        vtDepth := k, present := presenceOf vs, vtTag := tag, inPos := p })
  /-- HT_BUILD, which leaves INPOS where it is, and HT_DESERIALIZE. -/
  | tree (a : BitVec 2) (tr : HuffTree) (p : Nat) (ht : TreeFormed s tr) (hp : p ≤ 8 * s.inLen) :
      Wrote s { setSlot a tr s with inPos := p }

/-- An outcome that, where it is no fault, is a completion of one of the kinds of `Wrote`. -/
def CompletesAs (s : State) (o : Host.Outcome State Fault Refusal) : Prop :=
  ∀ t, o = .next t → t.fault = none → ∃ u, t = complete u ∧ Wrote s u

theorem completesAs_done {s u : State} (h : Wrote s u) : CompletesAs s (done u) := by
  intro t ht _
  cases ht
  exact ⟨u, rfl, h⟩

/-- A fault is no completion. -/
theorem completesAs_raise (s u : State) (c : FaultCode) : CompletesAs s (raise c u) := by
  intro t ht hf
  cases ht
  simp at hf

theorem completesAs_readSymbol (s : State) (v : Nat) (a : BitVec 2) (x : BitVec 16) :
    CompletesAs s (readSymbol v a x s) := by
  unfold readSymbol
  split
  · exact completesAs_raise _ _ _
  · exact completesAs_done (.result v .nothing)

theorem completesAs_emitCounted (s : State) (bs : List Bool) : CompletesAs s (emitCounted bs s) := by
  unfold emitCounted
  split
  · exact completesAs_raise _ _ _
  · rename_i u hu
    exact completesAs_done (.result _ (.emitted bs hu))

/-- HT_BUILD's tree is formed (R180, R181, R182). -/
theorem treeFormed_huffBuild (s : State) (b : BitVec 2) (h1 : 1 ≤ limit s b) (hn : limit s b ≤ s.cfg.nSym) :
    TreeFormed s { alphabet := limit s b, root := huffBuild ((counts s b).map BitVec.toNat) } := by
  have hperm := huffBuild_symbols ((counts s b).map BitVec.toNat)
  have hsymbols : ((huffLeavesOrZero ((counts s b).map BitVec.toNat)).map Prod.fst).Nodup ∧
      ∀ x ∈ (huffLeavesOrZero ((counts s b).map BitVec.toNat)).map Prod.fst, x < limit s b := by
    unfold huffLeavesOrZero
    split
    · simpa using Nat.lt_of_lt_of_le Nat.zero_lt_one h1
    · rw [huffLeaves_symbols, List.length_map]
      exact ⟨List.nodup_range.filter _, fun x hx => List.mem_range.1 (List.mem_filter.1 hx).1⟩
  exact ⟨h1, hn, hperm.nodup_iff.2 hsymbols.1, fun x hx => hsymbols.2 x (hperm.mem_iff.1 hx)⟩

theorem depthLegal_le {k : Nat} (h : ¬ ¬ depthLegal k = true) : k ≤ 9 := by
  have hk : 1 ≤ k ∧ k ≤ Config.vtMaxDepth := of_decide_eq_true (not_not.1 h)
  exact hk.2

/-- FT_INC's new count is the old one and 1, or less where that does not fit a word. -/
theorem count_succ_le (n : Nat) : (BitVec.ofNat 32 (n + 1)).toNat ≤ n + 1 := by
  rw [BitVec.toNat_ofNat]
  exact Nat.mod_le _ _

/-- Every completing command is of one of the kinds of `Wrote`. -/
theorem exec_completesAs (i : Instr) (s : State) (hp : s.inPos ≤ 8 * s.inLen) : CompletesAs s (exec i s) := by
  cases i with
  | nop => exact completesAs_done .nothing
  | ftClear a x =>
    simp only [exec, execFtClear]
    split
    · exact completesAs_raise _ _ _
    · exact completesAs_done (.cleared a _ (by omega))
  | ftSet a x =>
    simp only [exec, execFtSet]
    repeat' split
    any_goals exact completesAs_raise _ _ _
    exact completesAs_done (.counted a _ _ (by omega))
  | ftInc a x =>
    simp only [exec, execFtInc]
    repeat' split
    any_goals exact completesAs_raise _ _ _
    have hc := count_succ_le (count s a x.toNat)
    have hle : count s a x.toNat ≤ total s a := (Nat.le_add_left _ _).trans (high_le_total s a x.toNat)
    exact completesAs_done (.counted a _ _ (by omega))
  | ftGet a x => exact completesAs_readSymbol _ _ _ _
  | ftTotal a => exact completesAs_done (.result _ .nothing)
  | ftLow a x => exact completesAs_readSymbol _ _ _ _
  | ftHigh a x => exact completesAs_readSymbol _ _ _ _
  | ftLimit a => exact completesAs_done (.result _ .nothing)
  | rcEncInit => exact completesAs_done .encodingStarted
  | rcEncWrite a x =>
    simp only [exec, execRcEncWrite]
    repeat' split
    any_goals exact completesAs_raise _ _ _
    rename_i hm _ _ t ht _ u hu
    exact completesAs_done (.encoded a _ (not_not.1 hm) ht hu)
  | rcEncFinish =>
    simp only [exec, execRcEncFinish]
    repeat' split
    any_goals exact completesAs_raise _ _ _
    rename_i t ht
    exact completesAs_done (.encodingEnded _ ht)
  | rcDecInit => exact completesAs_done .decodingStarted
  | rcDecRead a =>
    simp only [exec, execRcDecRead]
    repeat' split
    any_goals exact completesAs_raise _ _ _
    rename_i t ht _ u hu hc
    exact completesAs_done (.result _ (.decoded a _ ht hu hc))
  | vtClear k =>
    simp only [exec, execVtClear]
    split
    · exact completesAs_raise _ _ _
    · rename_i hk
      exact completesAs_done (.tableCleared _ (depthLegal_le hk))
  | vtMark x =>
    simp only [exec, execVtMark]
    repeat' split
    any_goals exact completesAs_raise _ _ _
    exact completesAs_done (.marked _)
  | vtEncode =>
    simp only [exec, execVtEncode]
    repeat' split
    any_goals exact completesAs_raise _ _ _
    rename_i t ht
    exact completesAs_done (.result _ (.tableWritten _ _ ht))
  | vtDecode k =>
    simp only [exec, execVtDecode]
    split
    · exact completesAs_raise _ _ _
    rename_i hk
    split
    · exact completesAs_raise _ _ _
    rename_i tag vs p hr
    obtain ⟨hv, -, -, hq⟩ := readTable_rising hp hr
    exact completesAs_done (.result _ (.tableRead _ _ _ _ (depthLegal_le hk) hv hq))
  | vtFwd x =>
    simp only [exec, execVtFwd]
    repeat' split
    any_goals exact completesAs_raise _ _ _
    exact completesAs_done (.result _ .nothing)
  | vtInv x =>
    simp only [exec, execVtInv]
    repeat' split
    any_goals exact completesAs_raise _ _ _
    exact completesAs_done (.result _ .nothing)
  | htBuild a b =>
    simp only [exec, execHtBuild]
    split
    · exact completesAs_raise _ _ _
    · exact completesAs_done (.result _ (.tree a _ s.inPos (treeFormed_huffBuild s b (by omega) (by omega)) hp))
  | htSerialize a =>
    simp only [exec, execHtSerialize]
    split
    · exact completesAs_raise _ _ _
    · exact completesAs_emitCounted _ _
  | htDeserialize a x =>
    simp only [exec, execHtDeserialize]
    split
    · exact completesAs_raise _ _ _
    rename_i hx
    split
    · exact completesAs_raise _ _ _
    rename_i root d hd
    obtain ⟨hlt, hnd, -, -, -, hq⟩ := huffDeserialize_formed hp hd
    obtain ⟨hone, hmax⟩ := not_or.1 hx
    exact completesAs_done (.result _ (.tree a _ d.pos ⟨not_lt.1 hone, not_lt.1 hmax, hnd, hlt⟩ hq))
  | htEncode a x =>
    simp only [exec, execHtEncode]
    split
    · exact completesAs_raise _ _ _
    · exact completesAs_emitCounted _ _
  | htDecode a =>
    simp only [exec, execHtDecode]
    repeat' split
    any_goals exact completesAs_raise _ _ _
    rename_i x p hw
    exact completesAs_done (.result _ (.moved p (huffWalk_pos _ _ _ _ _ hp hw).2.1))
  | htLen a x =>
    simp only [exec, execHtLen]
    split
    · exact completesAs_raise _ _ _
    · exact completesAs_done (.result _ .nothing)
  | bsPut k =>
    simp only [exec, execBsPut]
    repeat' split
    any_goals exact completesAs_raise _ _ _
    rename_i t ht
    exact completesAs_done (.emitted _ ht)
  | bsGet k =>
    simp only [exec, execBsGet]
    repeat' split
    any_goals exact completesAs_raise _ _ _
    rename_i v p hb
    exact completesAs_done (.result _ (.moved p (inBits_pos _ _ _ _ _ _ hp hb).2))
  | bsOutAlign =>
    simp only [exec, execBsOutAlign]
    split
    · exact completesAs_raise _ _ _
    rename_i t ht
    exact completesAs_done (.result _ (.emitted _ ht))
  | bsInAlign => exact completesAs_done (.moved _ (by omega))
  | bsOutReset => exact completesAs_done .rewound
  | bsInSeek =>
    simp only [exec, execBsInSeek]
    split
    · exact completesAs_raise _ _ _
    · exact completesAs_done (.moved _ (by omega))

end Sys2Proof.Machine
end

section
/-! PROOFS. The ranges of `spec/10_state.md` R32-R34, R40, R41, R44 and R101 under every command, completing or faulting. -/

namespace Sys2Proof.Machine

/-! ## Ranges -/

/-- The ranges that do not speak of the latches. -/
def Ranged (s : State) : Prop := PositionsInRange s ∧ TableInRange s ∧ BanksInRange s ∧ BuffersFormed s

/-! ### What the coder's loops keep: a property the interval does not matter to and every action keeps -/

/-- The first loop (R123). -/
theorem rcShiftLoop_keeps {P : State → Prop} {act : State → Except FaultCode State}
    (hi : ∀ s l h, P s → P { s with rcLow := l, rcHigh := h }) (ha : ∀ s t, P s → act s = .ok t → P t) (n : Nat)
    {s t : State} (h : P s) (hr : rcShiftLoop act n s = .ok t) : P t := by
  induction n generalizing s with
  | zero => cases hr; exact h
  | succ n ih =>
    rw [rcShiftLoop] at hr
    repeat' split at hr
    · cases hr
    · rename_i v hv
      exact ih (hi _ _ _ (ha s v h hv)) hr
    · cases hr; exact h

/-- The second loop (R124). -/
theorem rcUnderflowLoop_keeps {P : State → Prop} {act : State → Except FaultCode State}
    (hi : ∀ s l h, P s → P { s with rcLow := l, rcHigh := h }) (ha : ∀ s t, P s → act s = .ok t → P t) (n : Nat)
    {s t : State} (h : P s) (hr : rcUnderflowLoop act n s = .ok t) : P t := by
  induction n generalizing s with
  | zero => cases hr; exact h
  | succ n ih =>
    rw [rcUnderflowLoop] at hr
    repeat' split at hr
    · cases hr
    · rename_i v hv
      exact ih (hi _ _ _ (ha s v h hv)) hr
    · cases hr; exact h

theorem rcRenormalize_keeps {P : State → Prop} {shift underflow : State → Except FaultCode State}
    (hi : ∀ s l h, P s → P { s with rcLow := l, rcHigh := h }) (hs : ∀ s t, P s → shift s = .ok t → P t)
    (hu : ∀ s t, P s → underflow s = .ok t → P t) {s t : State} (h : P s)
    (hr : rcRenormalize shift underflow s = .ok t) : P t := by
  rw [rcRenormalize] at hr
  split at hr
  · cases hr
  · rename_i v hv
    exact rcUnderflowLoop_keeps hi hu 30 (rcShiftLoop_keeps hi hs 31 h hv) hr

/-- Narrowing changes the interval only. -/
theorem rcNarrow_eq {a : BitVec 2} {x : Nat} {s t : State} (h : rcNarrow a x s = .ok t) :
    ∃ l r, t = { s with rcLow := l, rcHigh := r } := by
  rw [rcNarrow] at h
  repeat' split at h
  all_goals cases h
  exact ⟨_, _, rfl⟩

/-- What the encoder's update keeps: whatever the interval and the counter do not matter to and emission keeps. -/
theorem encoded_keeps {P : State → Prop} (hi : ∀ s l h, P s → P { s with rcLow := l, rcHigh := h })
    (hu : ∀ s n, P s → P { s with rcUnderflow := n }) (he : ∀ s t bs, P s → emit bs s = .ok t → P t) {s t u : State}
    {a : BitVec 2} {x : Nat} (h : P s) (hn : rcNarrow a x s = .ok t)
    (hr : rcRenormalize encShift encUnderflow t = .ok u) : P u := by
  obtain ⟨l, r, rfl⟩ := rcNarrow_eq hn
  refine rcRenormalize_keeps hi (fun s t hs ht => ?_) (fun s t hs ht => ?_) (hi s l r h) hr
  · obtain ⟨-, v, hv, rfl⟩ := encShift_spec s t ht
    exact hu v 0 (he s v _ hs hv)
  · obtain ⟨-, rfl⟩ := encUnderflow_spec s t ht
    exact hu s _ hs

/-- What the decoder's update keeps: whatever the interval and the code do not matter to and `InBitZ` keeps. -/
theorem decoded_keeps {P : State → Prop} (hi : ∀ s l h, P s → P { s with rcLow := l, rcHigh := h })
    (hz : ∀ s c, P s → P { s with rcCode := c, inPos := (inBitZ s s.inPos).2 }) {s t u : State} {a : BitVec 2} {x : Nat}
    (h : P s) (hn : rcNarrow a x s = .ok t) (hr : rcRenormalize decShift decUnderflow t = .ok u) : P u := by
  obtain ⟨l, r, rfl⟩ := rcNarrow_eq hn
  refine rcRenormalize_keeps hi (fun s t hs ht => ?_) (fun s t hs ht => ?_) (hi s l r h) hr
  · cases ht; exact hz s _ hs
  · cases ht; exact hz s _ hs

theorem fillCode_keeps {P : State → Prop} (hz : ∀ s c, P s → P { s with rcCode := c, inPos := (inBitZ s s.inPos).2 })
    (n : Nat) {s : State} (h : P s) : P (fillCode n s) := by
  induction n generalizing s with
  | zero => exact h
  | succ n ih => exact ih (hz s _ h)

/-! ### Ranges under the shared operations -/

theorem Ranged.inPos {s : State} (h : Ranged s) {p : Nat} (hp : p ≤ 8 * s.inLen) : Ranged { s with inPos := p } := by
  obtain ⟨⟨-, hl, ho⟩, hr⟩ := h
  exact ⟨⟨hp, hl, ho⟩, hr⟩

theorem Ranged.emit {s t : State} {bs : List Bool} (h : Ranged s) (he : emit bs s = .ok t) : Ranged t := by
  obtain ⟨⟨hi, hl, ho⟩, ht, hb, hf⟩ := h
  have hroom := emit_in_room bs s t he ho
  have hform := emit_formed bs s t he ho hf
  rw [emit_frame bs s t he] at hform ⊢
  exact ⟨⟨hi, hl, hroom⟩, ht, hb, hform⟩

theorem Ranged.inBitZ {s : State} (h : Ranged s) (c : BitVec 31) :
    Ranged { s with rcCode := c, inPos := (inBitZ s s.inPos).2 } :=
  Ranged.inPos (s := { s with rcCode := c }) h (inBitZ_pos s s.inPos h.1.1).2

/-- A bank with no more counts than N_SYM and a sum in bounds. -/
theorem Ranged.setBank {s : State} (h : Ranged s) (a : BitVec 2) {l : List Word} (hl : l.length ≤ s.cfg.nSym)
    (ht : sumCounts l ≤ 2 ^ 32 - 1) : Ranged (setBank a l s) := by
  obtain ⟨hp, hv, hb, hf⟩ := h
  refine ⟨hp, hv, fun b => ?_, hf⟩
  simp only [limit, total, counts_setBank, setBank_cfg]
  split
  · exact ⟨hl, ht⟩
  · exact hb b

theorem sumCounts_replicate_zero (n : Nat) : sumCounts (List.replicate n 0) = 0 := by
  simp [sumCounts]

/-- Setting one count of a list takes the old one from the sum and adds the new one. -/
theorem sumCounts_set_le (l : List Word) (x : Nat) (v : Word) :
    sumCounts (l.set x v) ≤ sumCounts l - (l[x]?.getD 0).toNat + v.toNat := by
  induction l generalizing x with
  | nil => simp [sumCounts]
  | cons w l ih =>
    cases x with
    | zero => simp [sumCounts]; omega
    | succ x =>
      have hle := sumCounts_take_succ l x ▸ sumCounts_take_le l (x + 1)
      have := ih x
      simp only [sumCounts, List.set_cons_succ, List.map_cons, List.sum_cons, List.getElem?_cons_succ] at this hle ⊢
      omega

theorem Ranged.setCount {s : State} (h : Ranged s) (a : BitVec 2) (x : Nat) (v : Word)
    (ht : total s a - count s a x + v.toNat ≤ maxBankTotal) : Ranged (setCount a x v s) := by
  obtain ⟨hlimit, -⟩ := h.2.2.1 a
  exact h.setBank a (by rw [List.length_set]; exact hlimit) ((sumCounts_set_le _ _ _).trans ht)

/-- The translation of at most 512 values. -/
theorem Ranged.buildTranslation {s : State} (h : Ranged s) {vs : List Nat} (hv : vs.length ≤ 512) :
    Ranged (buildTranslation vs s) := by
  obtain ⟨hp, ⟨hd, -⟩, hr⟩ := h
  exact ⟨hp, ⟨hd, hv⟩, hr⟩

theorem two_pow_le_512 {k : Nat} (hk : k ≤ 9) : 2 ^ k ≤ 512 := Nat.pow_le_pow_right (by omega) hk

/-- What a completing command leaves is in range. -/
theorem Wrote.ranged {s u : State} (hw : Wrote s u) (h : Ranged s) : Ranged u := by
  induction hw with
  | nothing => exact h
  | result v _ ih => exact ih
  | cleared a n hn => exact h.setBank a (by simpa using hn) (by rw [sumCounts_replicate_zero]; omega)
  | counted a x v ht => exact h.setCount a x v ht
  | emitted bs he => exact h.emit he
  | rewound =>
    obtain ⟨⟨hi, hl, -⟩, hr⟩ := h
    exact ⟨⟨hi, hl, Nat.zero_le _⟩, hr⟩
  | moved p hp => exact h.inPos hp
  | encodingStarted => exact h
  | encoded a x _ hn hr =>
    exact encoded_keeps (fun _ _ _ h => h) (fun _ _ h => h) (fun _ _ _ h he => h.emit he) h hn hr
  | encodingEnded bs he =>
    have hu := h.emit he
    exact hu
  | decodingStarted =>
    exact fillCode_keeps (P := fun u => Ranged { u with rcMode := .dec })
      (fun u c hu => Ranged.inBitZ (s := { u with rcMode := .dec }) hu c) 31 h
  | decoded a x hn hr _ => exact decoded_keeps (fun _ _ _ h => h) (fun _ c h => h.inBitZ c) h hn hr
  | tableCleared k hk =>
    obtain ⟨hp, -, hr⟩ := h
    exact ⟨hp, ⟨hk, Nat.zero_le _⟩, hr⟩
  | marked x => exact h
  | tableWritten bs tag he =>
    have hu := h.emit he
    exact Ranged.buildTranslation hu ((occupied_length_le s (2 ^ s.vtDepth)).trans (two_pow_le_512 h.2.1.1))
  | tableRead k vs tag p hk hv hp =>
    obtain ⟨⟨-, hl, ho⟩, ⟨-, hc⟩, hr⟩ := h
    refine Ranged.buildTranslation ?_ (hv.length_le.trans (two_pow_le_512 hk))
    exact ⟨⟨hp, hl, ho⟩, ⟨hk, hc⟩, hr⟩
  | tree a tr p _ hp => exact h.inPos hp

/-! ### Ranges after an imprecise fault (R233) -/

theorem Ranged.loseInPos {s : State} (h : Ranged s) : Ranged (loseInPos s) :=
  Ranged.inPos (s := { s with draws := s.draws + 1 }) h (Nat.lt_succ_iff.1 (Nat.mod_lt _ (Nat.succ_pos _)))

theorem Ranged.loseOutput {s : State} (h : Ranged s) : Ranged (loseOutput s) := by
  obtain ⟨⟨hi, hl, -⟩, ht, hb, hin, -, hinSize, -⟩ := h
  exact ⟨⟨hi, hl, Nat.lt_succ_iff.1 (Nat.mod_lt _ (Nat.succ_pos _))⟩, ht, hb, hin, wf_nil, hinSize, by simp⟩

theorem Ranged.loseTranslation {s : State} (h : Ranged s) : Ranged (loseTranslation s) := by
  obtain ⟨hp, ⟨hd, -⟩, hr⟩ := h
  exact ⟨hp, ⟨hd, Nat.lt_succ_iff.1 (Nat.mod_lt _ (Nat.succ_pos _))⟩, hr⟩

theorem Ranged.losePresence {s : State} (h : Ranged s) : Ranged (losePresence s) := by
  obtain ⟨hp, ⟨-, hc⟩, hr⟩ := h
  exact ⟨hp, ⟨Nat.lt_succ_iff.1 (Nat.mod_lt _ (Nat.succ_pos _)), hc⟩, hr⟩

theorem Ranged.loseWrites {s : State} (h : Ranged s) (i : Instr) : Ranged (loseWrites i s) := by
  cases i with
  | rcEncWrite a x => exact h.loseOutput
  | rcEncFinish => exact h.loseOutput
  | rcDecRead a => exact Ranged.loseInPos (s := loseResult s) h
  | vtEncode => exact Ranged.loseTranslation (s := loseResult (Machine.loseOutput s)) h.loseOutput
  | vtDecode k =>
    exact (Ranged.loseTranslation (s := loseResult (Machine.loseInPos s)) h.loseInPos).losePresence
  | htSerialize a => exact h.loseOutput
  | htDeserialize a x => exact h.loseInPos
  | htEncode a x => exact h.loseOutput
  | htDecode a => exact h.loseInPos
  | _ => exact h

/-- Every command keeps the ranges, whether it completes or faults. -/
theorem exec_ranged {i : Instr} {s t : State} (h : Ranged s) (he : exec i s = .next t) (hf : s.fault = none) :
    Ranged t := by
  obtain ⟨t', ht, hend⟩ := exec_ends i s
  rw [he] at ht
  cases ht
  cases hend with
  | completed u hu =>
    obtain ⟨hfault, -⟩ := bookkeeping_not_written i
    obtain ⟨v, hv, hw⟩ := exec_completesAs i s h.1.1 _ he ((show u.fault = s.fault from hu .fault hfault).trans hf)
    rw [hv]
    exact hw.ranged h
  | precise c => exact h
  | imprecise c => exact h.loseWrites i

end Sys2Proof.Machine
end

section
/-! PROOFS. Reset, and that every step keeps the ranges. -/

namespace Sys2Proof.Machine

/-! ## Reset -/

/-- Reset gives every piece of state the value R261 lists, from any state. -/
theorem resetState_values (s : State) : HasResetValues (resetState s) := by
  have hbank : ∀ a : BitVec 2, limit (resetState s) a = 0 := by
    intro a; simp [limit, counts, resetState, State.reset]
  have hslot : ∀ h : BitVec 2, slot (resetState s) h = none := by
    intro h; simp [slot, resetState, State.reset]
  exact ⟨rfl, rfl, rfl, rfl, rfl, rfl, rfl, rfl, rfl, rfl, rfl, rfl, rfl, rfl, rfl, rfl, rfl, rfl, rfl, hbank, hslot⟩

theorem resetState_ranged (s : State) : Ranged (resetState s) := by
  refine ⟨⟨Nat.le_refl _, Nat.zero_le _, Nat.zero_le _⟩, ⟨Nat.zero_le _, Nat.zero_le _⟩, fun a => ?_,
    wf_nil, wf_nil, by simp [resetState, State.reset], by simp [resetState, State.reset]⟩
  have hc : counts (resetState s) a = [] := by simp [counts, resetState, State.reset]
  simp [limit, total, hc, sumCounts]

/-- The reset state is what a reset leaves. -/
theorem reset_eq_resetState : State.reset = resetState { State.reset with draws := 0 } := rfl

/-! ## Every step keeps the ranges -/

theorem exec_pending {i : Instr} {s t : State} (he : exec i s = .next t) : t.pending = none := by
  obtain ⟨t', ht, hend⟩ := exec_ends i s
  rw [he] at ht
  cases ht
  cases hend <;> rfl

theorem exec_cfg {i : Instr} {s t : State} (he : exec i s = .next t) : t.cfg = s.cfg := by
  obtain ⟨-, -, -, -, hcfg, -⟩ := bookkeeping_not_written i
  obtain ⟨t', ht, hend⟩ := exec_ends i s
  rw [he] at ht
  cases ht
  cases hend with
  | completed u hu => exact hu .cfg hcfg
  | precise c => rfl
  | imprecise c => exact loseWrites_onlyChanges i s .cfg (by simp [hcfg])

theorem Ranged.inLen {s : State} (h : Ranged s) {n : Nat} (hn : n ≤ s.cfg.inBytes) :
    Ranged { s with inLen := n, inPos := 0 } := by
  obtain ⟨⟨-, -, ho⟩, hr⟩ := h
  exact ⟨⟨Nat.zero_le _, hn, ho⟩, hr⟩

/-- The four bytes of a word below a bound stay below it. -/
theorem writeInWord_bound {i n : Nat} {s : State} (v : Word) (hi : i + 4 ≤ n) (h : ∀ c ∈ s.inbuf, c.1 < n) :
    ∀ c ∈ (writeInWord i v s).inbuf, c.1 < n :=
  memWrite_bound _ _ _ _ (by omega) (memWrite_bound _ _ _ _ (by omega)
    (memWrite_bound _ _ _ _ (by omega) (memWrite_bound _ _ _ _ (by omega) h)))

/-- An aligned word of the buffer is in it with its four bytes, since IN_BYTES is a multiple of 4 (R6). -/
theorem Ranged.writeInWord {s : State} (h : Ranged s) (hl : s.cfg.Legal) {i : Nat} (v : Word) (h4 : i % 4 = 0)
    (hi : i < s.cfg.inBytes) : Ranged (writeInWord i v s) := by
  obtain ⟨-, ⟨hmod, -⟩, -⟩ := hl
  obtain ⟨hp, ht, hb, hin, hout, hinSize, houtSize⟩ := h
  have hroom : i + 4 ≤ s.cfg.inBytes := by omega
  exact ⟨hp, ht, hb, writeInWord_wf i v s hin, hout, writeInWord_bound v hroom hinSize, houtSize⟩

theorem Happened.cfg {s t : State} (h : Happened s t) : t.cfg = s.cfg := by
  cases h with
  | command i _ _ he => exact exec_cfg he
  | _ => rfl

theorem Happened.faultEmptiesLatch {s t : State} (h : Happened s t) (hl : FaultEmptiesLatch s) : FaultEmptiesLatch t := by
  cases h with
  | command i _ _ he => exact fun _ => exec_pending he
  | issued v hf => exact fun hs => by simp [hf] at hs
  | faulted c => exact fun _ => rfl
  | reset => exact fun _ => rfl
  | _ => exact hl

theorem Happened.ranged {s t : State} (h : Happened s t) (hc : s.cfg.Legal) (hr : Ranged s) : Ranged t := by
  cases h with
  | command i _ hf he => exact exec_ranged hr he hf
  | reset => exact resetState_ranged s
  | length n hn => exact hr.inLen hn
  | word i v h4 hi => exact hr.writeInWord hc v h4 hi
  | _ => exact hr

/-- Settles O59: the step is one of the kinds of `Happened`, and each keeps the ranges, the latches' rule and the
parameters. -/
theorem stepKeepsRanges : Obligations.StepKeepsRanges := by
  intro s t hc ⟨hp, hv, hl⟩ hb hf hstep
  obtain ⟨rest, h⟩ := step_happened hstep
  obtain ⟨hp', hv', hb', hf'⟩ := h.ranged hc ⟨hp, hv, hb, hf⟩
  exact ⟨h.cfg, ⟨hp', hv', h.faultEmptiesLatch hl⟩, hb', hf'⟩

end Sys2Proof.Machine
end

section
/-! PROOFS. What holds of a machine with no fault latched (R45, R46, R48, R120), and that every step keeps it. -/

namespace Sys2Proof.Machine

/-! ## What holds of a machine with no fault latched -/

/-- Soundness apart from the coder: formed trees, the translation VT_VALID promises, the output written. -/
def Stored (s : State) : Prop := SlotsFormed s ∧ TranslationBuilt s ∧ OutputWritten s

/-! ### The coder (R120, R135) -/

/-- Narrowing succeeds only for a symbol with a count and a total below MAXTOTAL (R122). -/
theorem rcNarrow_guards {a : BitVec 2} {x : Nat} {s t : State} (h : rcNarrow a x s = .ok t) :
    count s a x ≠ 0 ∧ total s a < rcMaxTotal := by
  rw [rcNarrow] at h
  repeat' split at h
  any_goals cases h
  rename_i hne hlt
  refine ⟨fun h0 => hne ?_, Nat.lt_of_not_le hlt⟩
  rw [high, h0, Nat.add_zero]

/-- From a valid coder state the narrowed interval is not empty. -/
theorem rcNarrow_nonempty {a : BitVec 2} {x : Nat} {s t : State} (hv : CoderValid s) (h : rcNarrow a x s = .ok t) :
    t.rcLow.toNat ≤ t.rcHigh.toNat := by
  obtain ⟨hc, ht⟩ := rcNarrow_guards h
  obtain ⟨u, hu, -, -, -, hle, -⟩ := rcNarrow_valid s a x hv hc ht
  rw [hu] at h
  cases h
  exact hle

/-- The encoder's update keeps RC_MODE. -/
theorem encoded_rcMode {a : BitVec 2} {x : Nat} {s t u : State} (hn : rcNarrow a x s = .ok t)
    (hr : rcRenormalize encShift encUnderflow t = .ok u) : u.rcMode = s.rcMode :=
  encoded_keeps (P := fun v => v.rcMode = s.rcMode) (fun _ _ _ h => h) (fun _ _ h => h)
    (fun _ _ _ h he => (show _ = _ from emit_onlyChanges he .rcMode (by simp)).trans h) rfl hn hr

/-- The interval RC_ENC_INIT and RC_DEC_INIT start with: every code is in it. -/
theorem coderValid_initial {s : State} (hl : s.rcLow = 0) (hh : s.rcHigh = rcMask) : CoderValid s := by
  have hmask : rcMask.toNat = 2147483647 := by decide
  have hzero : (0 : BitVec 31).toNat = 0 := rfl
  have hcode := s.rcCode.isLt
  simp only [CoderValid, rcRange, hl, hh, hmask, hzero, rcMinRange, rcFull]
  omega

/-- Every completing command leaves a valid coder state. -/
theorem Wrote.coderValid {s u : State} (hw : Wrote s u) (h : CoderValid s) : CoderValid u := by
  induction hw with
  | result v _ ih => exact ih
  | emitted bs he => rw [emit_frame _ _ _ he]; exact h
  | tableWritten bs tag he => rw [emit_frame _ _ _ he]; exact h
  | encodingStarted => exact coderValid_initial rfl rfl
  | encoded a x hm hn hr =>
    obtain ⟨hlt, hmin, hfull⟩ := rcRenormalize_interval _ _ encShift_keeps encUnderflow_keeps _ _ hr (rcNarrow_nonempty h hn)
    exact ⟨hlt, hmin, hfull, fun hd => by rw [encoded_rcMode hn hr, hm] at hd; cases hd⟩
  | encodingEnded bs he =>
    rw [emit_frame _ _ _ he]
    obtain ⟨hlt, hmin, hfull, -⟩ := h
    exact ⟨hlt, hmin, hfull, fun hd => by cases hd⟩
  | decodingStarted =>
    have hf := fillCode_onlyChanges 31 { s with rcLow := 0, rcHigh := rcMask, rcUnderflow := 0, rcCode := 0 }
    exact coderValid_initial (hf .rcLow (by simp)) (hf .rcHigh (by simp))
  | decoded a x hn hr hc =>
    obtain ⟨hlt, hmin, hfull⟩ := rcRenormalize_interval _ _ decShift_keeps decUnderflow_keeps _ _ hr (rcNarrow_nonempty h hn)
    exact ⟨hlt, hmin, hfull, fun _ => hc⟩
  | _ => exact h

/-! ### Trees, translation and output (R45, R46, R48) -/

/-- The translation of the present values is the one VT_VALID promises. -/
theorem translationBuilt_buildTranslation {s : State} {vs : List Nat} (hd : s.vtDepth ≤ 9)
    (hv : occupied s (2 ^ s.vtDepth) = vs) : TranslationBuilt (buildTranslation vs s) := by
  subst hv
  exact fun _ => ⟨rfl, fun v hlt hp => buildTranslation_rank (two_pow_le_512 hd) hlt hp⟩

theorem translationBuilt_of_invalid {s : State} (h : s.vtValid = false) : TranslationBuilt s := by
  intro hv
  rw [h] at hv
  cases hv

theorem occupied_congr {s t : State} (h : t.present = s.present) (m : Nat) : occupied t m = occupied s m := by
  have hp : presentAt t = presentAt s := by funext v; rw [presentAt, presentAt, h]
  rw [occupied, occupied, hp]

theorem Stored.emit {s t : State} {bs : List Bool} (h : Stored s) (he : emit bs s = .ok t) : Stored t := by
  obtain ⟨hs, ht, ho⟩ := h
  have hw := emit_written bs s t he ho
  rw [emit_frame bs s t he] at hw ⊢
  exact ⟨hs, ht, hw⟩

theorem SlotsFormed.setSlot {s : State} (h : SlotsFormed s) (a : BitVec 2) {tr : HuffTree} (ht : TreeFormed s tr) :
    SlotsFormed (setSlot a tr s) := by
  intro b u hu
  rw [slot_setSlot] at hu
  split at hu
  · cases hu; exact ht
  · exact h b u hu

/-- Every completing command keeps trees formed, the translation true and the output written. -/
theorem Wrote.stored {s u : State} (hw : Wrote s u) (hd : s.vtDepth ≤ 9) (h : Stored s) : Stored u := by
  induction hw with
  | result v _ ih => exact ih
  | emitted bs he => exact h.emit he
  | rewound => exact ⟨h.1, h.2.1, fun a ha => absurd ha (Nat.not_lt_zero _)⟩
  | encoded a x _ hn hr => exact encoded_keeps (fun _ _ _ h => h) (fun _ _ h => h) (fun _ _ _ h he => h.emit he) h hn hr
  | encodingEnded bs he =>
    have hu := h.emit he
    exact hu
  | decodingStarted => exact fillCode_keeps (P := fun u => Stored { u with rcMode := .dec }) (fun _ _ h => h) 31 h
  | decoded a x hn hr _ => exact decoded_keeps (fun _ _ _ h => h) (fun _ _ h => h) h hn hr
  | tableCleared k hk => exact ⟨h.1, translationBuilt_of_invalid rfl, h.2.2⟩
  | marked x => exact ⟨h.1, translationBuilt_of_invalid rfl, h.2.2⟩
  | @tableWritten u bs tag he =>
    obtain ⟨hs, -, ho⟩ := h.emit he
    have hdepth : u.vtDepth = s.vtDepth := emit_onlyChanges he .vtDepth (by simp)
    have hpresent : u.present = s.present := emit_onlyChanges he .present (by simp)
    refine ⟨hs, translationBuilt_buildTranslation (hdepth.trans_le hd) ?_, ho⟩
    exact (occupied_congr hpresent _).trans (by rw [hdepth])
  | tableRead k vs tag p hk hv _ =>
    exact ⟨h.1, translationBuilt_buildTranslation hk (occupied_presenceOf (two_pow_le_512 hk) hv rfl), h.2.2⟩
  | tree a tr p ht _ => exact ⟨h.1.setSlot a ht, h.2⟩
  | _ => exact h

/-! ### Every step keeps soundness -/

theorem soundUnlessFaulted_of_fault {s : State} (h : s.fault ≠ none) : SoundUnlessFaulted s := fun hn => absurd hn h

theorem resetState_sound (s : State) : SoundUnlessFaulted (resetState s) := by
  obtain ⟨-, -, -, -, -, -, -, -, -, -, -, -, -, -, -, -, -, -, -, -, hslot⟩ := resetState_values s
  refine fun _ => ⟨coderValid_initial rfl rfl, fun h t ht => ?_, translationBuilt_of_invalid rfl, fun a ha => ?_⟩
  · rw [hslot h] at ht; cases ht
  · exact absurd ha (Nat.not_lt_zero _)

theorem exec_sound {i : Instr} {s t : State} (hr : RegistersInRange s) (h : SoundUnlessFaulted s) (hf : s.fault = none)
    (he : exec i s = .next t) : SoundUnlessFaulted t := by
  obtain ⟨⟨hp, -⟩, ⟨hd, -⟩, -⟩ := hr
  intro ht
  obtain ⟨u, hu, hw⟩ := exec_completesAs i s hp t he ht
  obtain ⟨hc, hs⟩ := h hf
  rw [hu]
  exact ⟨hw.coderValid hc, hw.stored hd hs⟩

theorem Happened.sound {s t : State} (h : Happened s t) (hr : RegistersInRange s) (hs : SoundUnlessFaulted s) :
    SoundUnlessFaulted t := by
  cases h with
  | command i _ hf he => exact exec_sound hr hs hf he
  | reset => exact resetState_sound s
  | faulted c => exact soundUnlessFaulted_of_fault (by simp)
  | _ => exact hs

/-- Settles O60: the step is one of the kinds of `Happened`; a fault promises nothing, a completing command keeps the
coder valid and what is stored sound, a reset starts sound, and the host's other accesses touch nothing of it. -/
theorem stepKeepsSoundness : Obligations.StepKeepsSoundness := by
  intro s t hr _ hs hstep
  obtain ⟨rest, h⟩ := step_happened hstep
  exact h.sound hr hs

end Sys2Proof.Machine
end

section
/-! PROOFS. Host accesses: CMD, and the registers' writes and reads (`spec/10_state.md` R26-R42, `spec/20_memory.md` R71). -/

namespace Sys2Proof.Machine

/-! ## Host accesses -/

/-- A read at an aligned offset answers the value there, and changes nothing of the block (R71). -/
theorem readsAs_readValue (s : State) (off : Nat) (h : off % 4 = 0) (hb : off < 0x3000000) :
    ReadsAs s off (readValue s off (Config.freeBits 32 s.draws)) := by
  refine ⟨{ s with bus := readValue s off (Config.freeBits 32 s.draws), draws := s.draws + 1 },
    by rw [hostRead, blockOffset_aligned s off h hb], rfl, ?_⟩
  intro p hp
  cases p <;> simp_all [Part.Same, counts, slot, inByte, outByte]

theorem readValue_always {s : State} {off : Nat} {v : Word} (h : readAlways s off = some v) (f : Word) :
    readValue s off f = v := by rw [readValue, h]

theorem readValue_idle {s : State} {off : Nat} (hp : s.pending = none) (h : readAlways s off = none) (f : Word) :
    readValue s off f = readIdle s off f := by simp [readValue, h, busy, hp]

/-- A register whose read is exact at any time. -/
theorem readsAs_always {s : State} {off : Nat} {v : Word} (h4 : off % 4 = 0) (hb : off < 0x3000000)
    (h : readAlways s off = some v) : ReadsAs s off v :=
  readsAs_of_value s off v h4 hb (readValue_always h)

/-- A register whose read is exact while no command is pending. -/
theorem readsAs_idle {s : State} {off : Nat} {v : Word} (hp : s.pending = none) (h4 : off % 4 = 0) (hb : off < 0x3000000)
    (h : readAlways s off = none) (hv : ∀ f, readIdle s off f = v) : ReadsAs s off v :=
  readsAs_of_value s off v h4 hb fun f => (readValue_idle hp h f).trans (hv f)

/-- A register of a number that fits 32 bits, while no command is pending. -/
theorem readsNumber_idle {s : State} {off n : Nat} (hp : s.pending = none) (h4 : off % 4 = 0) (hb : off < 0x3000000)
    (h : readAlways s off = none) (hv : ∀ f, readIdle s off f = BitVec.ofNat 32 n) (hn : n < 2 ^ 32) :
    ReadsNumber s off n :=
  ⟨_, readsAs_idle hp h4 hb h hv, by rw [BitVec.toNat_ofNat, Nat.mod_eq_of_lt hn]⟩

/-- A register of fewer than 32 bits, while no command is pending. -/
theorem readsField_idle {s : State} {off k : Nat} {x : BitVec k} (hp : s.pending = none) (h4 : off % 4 = 0)
    (hb : off < 0x3000000) (h : readAlways s off = none) (hv : ∀ f, readIdle s off f = x.setWidth 32) (hk : k ≤ 32) :
    ReadsNumber s off x.toNat :=
  ⟨_, readsAs_idle hp h4 hb h hv, BitVec.toNat_setWidth_of_le hk⟩

/-- A write at an aligned offset, from what the write does there. -/
theorem writesTo_of_writeOffset {s t : State} {off : Nat} {v : Word} {ps : List Part} {P : State → Prop}
    (h4 : off % 4 = 0) (hb : off < 0x3000000) (h : writeOffset off v s = t) (ho : OnlyChanges ps s t) (hP : P t) :
    WritesTo s off v ps P := ⟨t, by rw [hostWrite_aligned s off v h4 hb, h], ho, hP⟩

theorem unlessBusy_idle {s : State} (hp : s.pending = none) (t : State) : unlessBusy s t = t := by
  simp [unlessBusy, busy, hp]

theorem unlessBusy_pending {s : State} {w : Word} (hp : s.pending = some w) (t : State) :
    unlessBusy s t = enterFault .protocol s := by simp [unlessBusy, busy, hp]

/-! ### What a register write changes -/

theorem setPending_onlyChanges (w : Option Word) (s : State) : OnlyChanges [.pending] s { s with pending := w } := by
  intro p hp
  cases p <;> simp_all [Part.Same, counts, slot, inByte, outByte]

theorem setData_onlyChanges (v : Word) (s : State) : OnlyChanges [.data] s { s with data := v } := by
  intro p hp
  cases p <;> simp_all [Part.Same, counts, slot, inByte, outByte]

theorem setInLen_onlyChanges (n q : Nat) (s : State) :
    OnlyChanges [.inLen, .inPos] s { s with inLen := n, inPos := q } := by
  intro p hp
  cases p <;> simp_all [Part.Same, counts, slot, inByte, outByte]

theorem setIrqEn_onlyChanges (e : BitVec 2) (s : State) : OnlyChanges [.irqEn] s { s with irqEn := e } := by
  intro p hp
  cases p <;> simp_all [Part.Same, counts, slot, inByte, outByte]

theorem setIrqStatus_onlyChanges (q : BitVec 2) (s : State) :
    OnlyChanges [.irqStatus] s { s with irqStatus := q } := by
  intro p hp
  cases p <;> simp_all [Part.Same, counts, slot, inByte, outByte]

/-! ### CMD -/

theorem writeCmd_faulted {s : State} (v : Word) (h : s.fault.isSome) : writeCmd v s = s := by
  simp [writeCmd, faulted, h]

theorem writeCmd_clear {s : State} (v : Word) (h : s.fault = none) :
    writeCmd v s = unlessBusy s { s with pending := some v } := by simp [writeCmd, faulted, h]

/-- Settles O48: `writeCmd` case by case. -/
theorem cmdWriteIssues : Obligations.CmdWriteIssues := by
  intro s v
  refine ⟨fun hf => ?_, fun w hf hp => ?_, fun hf hp => ?_, fun _ => ?_⟩
  · exact writesTo_of_writeOffset (by omega) (by omega) (writeCmd_faulted v hf) (OnlyChanges.refl _ _) rfl
  · refine ⟨enterFault .protocol s, ?_, ?_, rfl, ?_, enterFault_onlyChanges _ _⟩
    · rw [hostWrite_aligned s _ v (by omega) (by omega), ← unlessBusy_pending hp, ← writeCmd_clear v hf]
      rfl
    · simp [enterFault, hf, hp]
    · simp [enterFault, hf]
  · exact writesTo_of_writeOffset (by omega) (by omega) ((writeCmd_clear v hf).trans (unlessBusy_idle hp _))
      (setPending_onlyChanges _ _) ⟨rfl, rfl⟩
  · exact readsAs_always (by omega) (by omega) rfl

/-! ### Register writes -/

/-- Settles O50: each of the four writes is a single update of the state. -/
theorem registerWrites : Obligations.RegisterWrites := by
  intro s v
  refine ⟨fun hp => ?_, fun hp => ?_, ?_, ?_⟩
  · exact writesTo_of_writeOffset (by omega) (by omega) (unlessBusy_idle hp _) (setData_onlyChanges v s) rfl
  · exact writesTo_of_writeOffset (by omega) (by omega) (unlessBusy_idle hp _) (setInLen_onlyChanges _ _ s) ⟨rfl, rfl⟩
  · refine writesTo_of_writeOffset (t := { s with irqEn := v.setWidth 2 }) (by omega) (by omega) rfl
      (setIrqEn_onlyChanges _ s) fun j hj => ?_
    simp only [BitVec.getLsbD_setWidth, hj, decide_true, Bool.true_and]
  · refine writesTo_of_writeOffset (t := { s with irqStatus := s.irqStatus &&& ~~~(v.setWidth 2) }) (by omega) (by omega)
      rfl (setIrqStatus_onlyChanges _ s) fun j hj => ?_
    simp only [BitVec.getLsbD_and, BitVec.getLsbD_not, BitVec.getLsbD_setWidth, hj, decide_true, Bool.true_and]

/-! ### Register reads -/

/-- Settles O52: each of the thirteen offsets answers its register, whose range fits 32 bits. -/
theorem idleRegisterReads : Obligations.IdleRegisterReads := by
  rintro s ⟨-, ⟨-, -, hin⟩, ⟨-, -, hout⟩, -⟩ ⟨⟨hpos, hlen, hopos⟩, ⟨hdepth, hceil⟩, -⟩ hp
  refine ⟨readsAs_idle hp ?_ ?_ rfl fun _ => rfl, readsAs_idle hp ?_ ?_ rfl fun _ => rfl,
    readsAs_idle hp ?_ ?_ rfl fun _ => rfl, readsNumber_idle hp ?_ ?_ rfl (fun _ => rfl) ?_,
    readsNumber_idle hp ?_ ?_ rfl (fun _ => rfl) ?_, readsNumber_idle hp ?_ ?_ rfl (fun _ => rfl) ?_,
    readsField_idle hp ?_ ?_ rfl (fun _ => rfl) ?_, readsField_idle hp ?_ ?_ rfl (fun _ => rfl) ?_,
    readsField_idle hp ?_ ?_ rfl (fun _ => rfl) ?_, readsAs_idle hp ?_ ?_ rfl fun _ => rfl,
    readsNumber_idle hp ?_ ?_ rfl (fun _ => rfl) ?_, readsNumber_idle hp ?_ ?_ rfl (fun _ => rfl) ?_,
    readsField_idle hp ?_ ?_ rfl (fun _ => rfl) ?_⟩ <;> omega

end Sys2Proof.Machine
end

section
/-! PROOFS. Reads exact at any time, the two windows, and the holes of the address map (`spec/20_memory.md` R60-R65). -/

namespace Sys2Proof.Machine

/-! ### Exact reads -/

/-- The fields of a word laid out as STATUS is (R23). -/
theorem statusLayout (valid format fault busy : Bool) (mode : BitVec 2) :
    let v : Word := (0 : BitVec 25) ++ BitVec.ofBool valid ++ mode ++ (0 : BitVec 1) ++
      BitVec.ofBool format ++ BitVec.ofBool fault ++ BitVec.ofBool busy
    v.getLsbD 0 = busy ∧ v.getLsbD 1 = fault ∧ v.getLsbD 2 = format ∧ v.getLsbD 3 = false ∧
      v.toNat / 16 % 4 = mode.toNat ∧ v.getLsbD 6 = valid ∧ v.toNat < 2 ^ 7 := by
  revert valid format fault busy mode
  decide

/-- STATUS.FCLASS says that a format fault is latched (R23, R230). -/
theorem formatError_iff (s : State) :
    formatError s = true ↔ ∃ f, s.fault = some f ∧ 0x40 ≤ (faultNumber f.code).toNat := by
  unfold formatError
  cases s.fault <;> simp

theorem rcModeBits_toNat (m : RcMode) : (rcModeBits m).toNat = match m with | .idle => 0 | .enc => 1 | .dec => 2 := by
  cases m <;> rfl

theorem faultCodeWord_toNat (s : State) :
    (faultCodeWord s).toNat = match s.fault with | none => 0 | some f => (faultNumber f.code).toNat := by
  unfold faultCodeWord
  cases s.fault with
  | none => rfl
  | some f => exact BitVec.toNat_setWidth_of_le (by omega)

theorem toNat_append_add {m n : Nat} (x : BitVec m) (y : BitVec n) : (x ++ y).toNat = x.toNat * 2 ^ n + y.toNat := by
  rw [BitVec.toNat_append, ← Nat.shiftLeft_add_eq_or_of_lt y.isLt, Nat.shiftLeft_eq]

/-- PARAM0 with an N_SYM of 16 bits (R6, R43). -/
theorem param0Word_toNat {s : State} (h : s.cfg.nSym < 2 ^ 16) :
    (param0Word s).toNat = 9 * 2 ^ 24 + 4 * 2 ^ 20 + 4 * 2 ^ 16 + s.cfg.nSym := by
  have hconst : ((0 : BitVec 4) ++ BitVec.ofNat 4 Config.vtMaxDepth ++ BitVec.ofNat 4 Config.numHt ++
    BitVec.ofNat 4 Config.numFt).toNat = 0x944 := by decide
  rw [param0Word, toNat_append_add, hconst, BitVec.toNat_ofNat, Nat.mod_eq_of_lt h]
  omega

/-- Settles O53: each of the nine offsets is one `readAlways` answers, and the value's fields are read off its layout. -/
theorem exactReads : Obligations.ExactReads := by
  rintro s ⟨⟨-, hsym⟩, ⟨-, -, hin⟩, ⟨-, -, hout⟩, -⟩
  obtain ⟨hbusy, hfault, hformat, hzero, hmode, hvalid, hlt⟩ :=
    statusLayout s.vtValid (formatError s) (faulted s) (busy s) (rcModeBits s.rcMode)
  refine ⟨⟨_, readsAs_always (by omega) (by omega) rfl, rfl⟩,
    ⟨_, readsAs_always (by omega) (by omega) rfl, hbusy, hfault, by rw [← formatError_iff, ← hformat]; rfl, hzero,
      hmode.trans (rcModeBits_toNat _), hvalid, hlt⟩,
    ⟨_, readsAs_always (by omega) (by omega) rfl, faultCodeWord_toNat s⟩, readsAs_always (by omega) (by omega) rfl,
    ⟨_, readsAs_always (by omega) (by omega) rfl, BitVec.toNat_setWidth_of_le (by omega)⟩,
    ⟨_, readsAs_always (by omega) (by omega) rfl, BitVec.toNat_setWidth_of_le (by omega)⟩,
    ⟨_, readsAs_always (by omega) (by omega) rfl, param0Word_toNat (by omega)⟩,
    ⟨_, readsAs_always (by omega) (by omega) rfl, ?_⟩, ⟨_, readsAs_always (by omega) (by omega) rfl, ?_⟩, by decide⟩
  · rw [BitVec.toNat_ofNat, Nat.mod_eq_of_lt (by omega)]
  · rw [BitVec.toNat_ofNat, Nat.mod_eq_of_lt (by omega)]

/-! ### Windows and holes of the address map -/

/-- The offsets that host writes act on, besides the INBUF window (R22-R43). -/
def writableRegisters : List Nat := [0x004, 0x014, 0x018, 0x024, 0x028, 0x02C]

/-- Past the writable registers a write is one of the INBUF window or ignored. -/
theorem writeOffset_window (s : State) {off : Nat} (v : Word) (h : off ∉ writableRegisters) :
    writeOffset off v s = if inInWindow s off then unlessBusy s (writeInWord (off - inWindow) v s) else s := by
  unfold writeOffset
  split
  iterate 6 exact absurd (by decide) h
  rfl

/-- Past the registers a read is one of a window or of a hole, which reads 0. -/
theorem readAlways_window (s : State) {off : Nat} (h : 0x060 ≤ off) :
    readAlways s off = if inInWindow s off || inOutWindow s off then none else some 0 := by
  unfold readAlways
  split
  iterate 24 omega
  rfl

theorem readIdle_window (s : State) {off : Nat} (f : Word) (h : 0x060 ≤ off) :
    readIdle s off f = if inInWindow s off then inWord s (off - inWindow) else outWord s (off - outWindow) f := by
  unfold readIdle
  split
  iterate 13 omega
  rfl

theorem not_writable_of_ge {off : Nat} (h : 0x060 ≤ off) : off ∉ writableRegisters := by
  intro hm
  simp only [writableRegisters, List.mem_cons, List.not_mem_nil, or_false] at hm
  omega

theorem inOutWindow_iff (s : State) (off : Nat) :
    inOutWindow s off = true ↔ outWindow ≤ off ∧ off < outWindow + s.cfg.outBytes := by simp [inOutWindow]

/-- A write to a register that is not writable, or to an offset outside the INBUF window. -/
theorem hostWrite_ignored {s : State} {off : Nat} (v : Word) (h4 : off % 4 = 0) (hb : off < 0x3000000)
    (hr : off ∉ writableRegisters) (hw : ¬ (inWindow ≤ off ∧ off < inWindow + s.cfg.inBytes)) :
    hostWrite (s.cfg.base + off) v s = .next s := by
  rw [hostWrite_aligned s off v h4 hb, writeOffset_window s v hr, if_neg (by rw [inInWindow_iff]; exact hw)]

/-! ### Big-endian words (R63, R64) -/

/-- Bit `31 − n` of a big-endian word is bit `7 − n % 8` of its byte `n / 8`. -/
theorem bigEndian_getLsbD (f : Nat → Byte) (i n : Nat) (hn : n < 32) :
    (bigEndian (f i) (f (i + 1)) (f (i + 2)) (f (i + 3))).getLsbD (31 - n) = (f (i + n / 8)).getLsbD (7 - n % 8) := by
  simp only [bigEndian, BitVec.getLsbD_append]
  rcases (by omega : n / 8 = 0 ∨ n / 8 = 1 ∨ n / 8 = 2 ∨ n / 8 = 3) with h | h | h | h <;> rw [h]
  · rw [if_neg (by omega), if_neg (by omega), if_neg (by omega), Nat.add_zero]
    congr 1
    omega
  · rw [if_neg (by omega), if_neg (by omega), if_pos (by omega)]
    congr 1
    omega
  · rw [if_neg (by omega), if_pos (by omega)]
    congr 1
    omega
  · rw [if_pos (by omega)]
    congr 1
    omega

/-- Words that agree in bit `31 − n` for every n below 32 are equal. -/
theorem word_ext {v w : Word} (h : ∀ n < 32, v.getLsbD (31 - n) = w.getLsbD (31 - n)) : v = w := by
  apply BitVec.eq_of_getLsbD_eq
  intro i hi
  have := h (31 - i) (by omega)
  rwa [show 31 - (31 - i) = i by omega] at this

/-- An INBUF word write replaces its four bytes, the first from bits 31:24. -/
theorem inByte_writeInWord (i n : Nat) (v : Word) (s : State) (hn : n < 4) :
    inByte (writeInWord i v s) (i + n) = v.extractLsb' (24 - 8 * n) 8 := by
  simp only [inByte, writeInWord, memRead_memWrite]
  rcases (by omega : n = 0 ∨ n = 1 ∨ n = 2 ∨ n = 3) with rfl | rfl | rfl | rfl <;> simp

/-- It changes no other byte. -/
theorem inByte_writeInWord_other {i a : Nat} (v : Word) (s : State) (ha : a < i ∨ i + 4 ≤ a) :
    inByte (writeInWord i v s) a = inByte s a := by
  simp only [inByte, writeInWord, memRead_memWrite]
  rw [if_neg (by omega), if_neg (by omega), if_neg (by omega), if_neg (by omega)]

/-- The word written reads back. -/
theorem inWord_writeInWord (i : Nat) (v : Word) (s : State) : inWord (writeInWord i v s) i = v := by
  refine word_ext fun n hn => ?_
  rw [inWord, bigEndian_getLsbD _ _ _ hn, inByte_writeInWord _ _ _ _ (by omega), BitVec.getLsbD_extractLsb',
    decide_eq_true (by omega), Bool.true_and]
  congr 1
  omega

theorem writeInWord_onlyChanges (i : Nat) (v : Word) (s : State) : OnlyChanges [.inbuf] s (writeInWord i v s) := by
  intro p hp
  cases p <;> simp_all [Part.Same, counts, slot, outByte, writeInWord]

/-- Settles O54: the write is `writeInWord`, whose bytes and read-back the lemmas above give. -/
theorem inbufWords : Obligations.InbufWords := by
  rintro s j v ⟨-, ⟨-, -, hin⟩, -⟩ hp hj
  have hge : 0x060 ≤ inWindow + 4 * j := by simp only [inWindow]; omega
  have h4 : (inWindow + 4 * j) % 4 = 0 := by simp only [inWindow]; omega
  have hb : inWindow + 4 * j < 0x3000000 := by simp only [inWindow]; omega
  have hw : inInWindow s (inWindow + 4 * j) = true := (inInWindow_iff _ _).2 (by omega)
  have hi : inWindow + 4 * j - inWindow = 4 * j := by omega
  refine writesTo_of_writeOffset (t := writeInWord (4 * j) v s) h4 hb ?_ (writeInWord_onlyChanges _ _ _)
    ⟨fun n hn => inByte_writeInWord _ _ _ _ hn, fun a ha => inByte_writeInWord_other v s ha, ?_⟩
  · rw [writeOffset_window s v (not_writable_of_ge hge), if_pos hw, unlessBusy_idle hp, hi]
  · have hw' : inInWindow (writeInWord (4 * j) v s) (inWindow + 4 * j) = true := hw
    refine readsAs_idle hp h4 hb ?_ fun f => ?_
    · rw [readAlways_window _ hge, hw']
      rfl
    · rw [readIdle_window _ f hge, if_pos hw', hi, inWord_writeInWord]

/-- The known bits of an OUTBUF word are its top ones, as many as OUTPOS is past the word's start. -/
theorem topMask_getLsbD {n m : Nat} (hn : n < 32) (h : n < m) : (topMask m).getLsbD (31 - n) = true := by
  simp only [topMask, BitVec.getLsbD_shiftLeft, BitVec.getLsbD_allOnes]
  simp
  omega

/-- A bit of an OUTBUF word below OUTPOS is the stream's (R64, R65). -/
theorem outWord_getLsbD {s : State} {j n : Nat} (f : Word) (hn : n < 32) (h : 32 * j + n < s.outPos) :
    (outWord s (4 * j) f).getLsbD (31 - n) = outBitAt s (32 * j + n) := by
  rw [outWord]
  simp only [BitVec.getLsbD_or, BitVec.getLsbD_and, BitVec.getLsbD_not]
  rw [topMask_getLsbD hn (by omega), bigEndian_getLsbD _ _ _ hn, outBitAt,
    show (32 * j + n) / 8 = 4 * j + n / 8 by omega, show (32 * j + n) % 8 = n % 8 by omega]
  simp

/-- Settles O55: the window reads `outWord`, and no write acts on it. -/
theorem outbufWords : Obligations.OutbufWords := by
  rintro s j ⟨-, ⟨-, -, hin⟩, ⟨-, -, hout⟩, -⟩ hj
  have hge : 0x060 ≤ outWindow + 4 * j := by simp only [outWindow]; omega
  have h4 : (outWindow + 4 * j) % 4 = 0 := by simp only [outWindow]; omega
  have hb : outWindow + 4 * j < 0x3000000 := by simp only [outWindow]; omega
  have hnot : ¬ (inWindow ≤ outWindow + 4 * j ∧ outWindow + 4 * j < inWindow + s.cfg.inBytes) := by
    simp only [inWindow, outWindow]; omega
  refine ⟨fun hp => ?_, fun v => hostWrite_ignored v h4 hb (not_writable_of_ge hge) hnot⟩
  refine ⟨_, readsAs_readValue s _ h4 hb, fun n hn hpos => ?_⟩
  have hw : inInWindow s (outWindow + 4 * j) = false := by
    rw [← Bool.not_eq_true, inInWindow_iff]; exact hnot
  have ho : inOutWindow s (outWindow + 4 * j) = true := (inOutWindow_iff _ _).2 (by omega)
  have hnone : readAlways s (outWindow + 4 * j) = none := by
    rw [readAlways_window _ hge, ho, Bool.or_true, if_pos rfl]
  rw [readValue_idle hp hnone, readIdle_window _ _ hge, hw, if_neg Bool.false_ne_true,
    show outWindow + 4 * j - outWindow = 4 * j by omega, outWord_getLsbD _ hn hpos]

/-! ### Holes, read-only registers and address bits 1:0 -/

/-- Address bits 1:0 do not matter, since BASE is a multiple of 4 (R6, R61). -/
theorem blockOffset_align {s : State} (h : s.cfg.base % 4 = 0) (a : Nat) : blockOffset s a = blockOffset s (a / 4 * 4) := by
  have hiff : (s.cfg.base ≤ a ∧ a < s.cfg.base + blockBytes) ↔
      (s.cfg.base ≤ a / 4 * 4 ∧ a / 4 * 4 < s.cfg.base + blockBytes) := by
    simp only [blockBytes]; omega
  have hoff : (a - s.cfg.base) / 4 * 4 = (a / 4 * 4 - s.cfg.base) / 4 * 4 := by omega
  simp only [blockOffset, hiff, hoff]

/-- Settles O56: holes and read-only registers are outside what `writeOffset` acts on, holes are what `readAlways` answers 0
for, and an access sees its address through `blockOffset`. -/
theorem ignoredAccesses : Obligations.IgnoredAccesses := by
  refine ⟨?_, ?_, fun s => ⟨readsAs_always (by omega) (by omega) rfl, readsAs_always (by omega) (by omega) rfl⟩, ?_⟩
  · rintro s off v ⟨-, ⟨-, -, hin⟩, ⟨-, -, hout⟩, -⟩ h4 hhole
    simp only [inWindow, outWindow] at hhole
    have hb : off < 0x3000000 := by omega
    have hge : 0x060 ≤ off := by omega
    have hi : ¬ (inWindow ≤ off ∧ off < inWindow + s.cfg.inBytes) := by simp only [inWindow]; omega
    have ho : ¬ (outWindow ≤ off ∧ off < outWindow + s.cfg.outBytes) := by simp only [outWindow]; omega
    refine ⟨readsAs_always h4 hb ?_, hostWrite_ignored v h4 hb (not_writable_of_ge hge) hi⟩
    rw [readAlways_window _ hge, if_neg (by rw [Bool.or_eq_true, inInWindow_iff, inOutWindow_iff]; tauto)]
  · intro s v off hoff
    have hlist : off % 4 = 0 ∧ off < 0x060 ∧ off ∉ writableRegisters := by revert off; decide
    obtain ⟨h4, hlt, hr⟩ := hlist
    exact hostWrite_ignored v h4 (by omega) hr (by simp only [inWindow]; omega)
  · rintro s a v ⟨-, -, -, hbase⟩
    have hoff := blockOffset_align (s := s) (by omega) a
    exact ⟨by rw [hostRead, hostRead, hoff], by rw [hostWrite, hostWrite, hoff]⟩

end Sys2Proof.Machine
end

section
/-! PROOFS. The interrupt line, the reset state, and the translation of values (R237, R261, R164). -/

namespace Sys2Proof.Machine

/-! ### The interrupt line -/

/-- Two bits have a common 1 (R237). -/
theorem and_ne_zero_iff_bits : ∀ q e : BitVec 2,
    decide (q &&& e ≠ 0) = ((q.getLsbD 0 && e.getLsbD 0) || (q.getLsbD 1 && e.getLsbD 1)) := by decide

theorem or_done_bits : ∀ q : BitVec 2, (q ||| 0b10).getLsbD 1 = true ∧ (q ||| 0b10).getLsbD 0 = q.getLsbD 0 := by decide

theorem or_fault_bits : ∀ q : BitVec 2, (q ||| 0b01).getLsbD 1 = q.getLsbD 1 ∧ (q ||| 0b01).getLsbD 0 = true := by decide

/-- What an event does to the two sources: completion sets DONE_IS, bit 1, and fault entry FAULT_IS, bit 0 (R31, R237). -/
def IrqEvent (q : BitVec 2) (t : State) : Prop :=
  t.irqStatus.getLsbD 1 = (q.getLsbD 1 || t.fault.isNone) ∧ t.irqStatus.getLsbD 0 = (q.getLsbD 0 || t.fault.isSome)

theorem complete_irqEvent {s : State} (h : s.fault = none) : IrqEvent s.irqStatus (complete s) := by
  obtain ⟨hdone, hother⟩ := or_done_bits s.irqStatus
  exact ⟨by rw [complete_irqStatus, hdone, complete_fault, h]; simp,
    by rw [complete_irqStatus, hother, complete_fault, h]; simp⟩

theorem enterFault_irqEvent (c : FaultCode) {s : State} (h : s.fault = none) :
    IrqEvent s.irqStatus (enterFault c s) := by
  obtain ⟨hother, hfault⟩ := or_fault_bits s.irqStatus
  have hq : (enterFault c s).irqStatus = s.irqStatus ||| 0b01 := by simp [enterFault, h]
  exact ⟨by rw [hq, hother]; simp, by rw [hq, hfault]; simp⟩

/-- Settles O57: a command ends in a completion or a fault entry, by `exec_ends`, and either is one event. -/
theorem interruptLine : Obligations.InterruptLine := by
  refine ⟨fun s => and_ne_zero_iff_bits s.irqStatus s.irqEn, fun i s t hf he => ?_⟩
  obtain ⟨hfault, -, -, hirq, -⟩ := bookkeeping_not_written i
  obtain ⟨t', ht, hend⟩ := exec_ends i s
  rw [he] at ht
  cases ht
  show IrqEvent s.irqStatus t
  cases hend with
  | completed u hu =>
    have huf : u.fault = none := (show u.fault = s.fault from hu .fault hfault).trans hf
    have huq : u.irqStatus = s.irqStatus := hu .irqStatus hirq
    exact huq ▸ complete_irqEvent huf
  | precise c => exact enterFault_irqEvent c hf
  | imprecise c =>
    have hl := loseWrites_onlyChanges i s
    have hlf : (loseWrites i s).fault = none := (show _ = s.fault from hl .fault (by simp [hfault])).trans hf
    have hlq : (loseWrites i s).irqStatus = s.irqStatus := hl .irqStatus (by simp [hirq])
    exact hlq ▸ enterFault_irqEvent c hlf

/-! ### The reset state -/

/-- Settles O58: the reset state is what a reset leaves, so it has reset's values and meets the invariants. -/
theorem resetStateMeetsInvariants : Obligations.ResetState := by
  rw [Obligations.ResetState, reset_eq_resetState]
  obtain ⟨hp, ht, hb, hf⟩ := resetState_ranged { State.reset with draws := 0 }
  exact ⟨resetState_values _, by decide, ⟨hp, ht, fun _ => rfl⟩, hb, hf, resetState_sound _⟩

/-! ### The translation and back -/

/-- The rank of a present value is below the number of present values. -/
theorem rankOf_lt {s : State} {m v : Nat} (hv : v < m) (hp : presentAt s v = true) :
    rankOf s v < (occupied s m).length := by
  have hmem : v ∈ occupied s m := List.mem_filter.2 ⟨List.mem_range.2 hv, hp⟩
  rw [rankOf, ← occupied_filter_lt s hv.le]
  exact List.length_filter_lt_length_iff_exists.2 ⟨v, hmem, by simp⟩

theorem exec_vtFwd {s : State} {x : BitVec 16} (hvalid : s.vtValid = true) (hx : x.toNat < 2 ^ s.vtDepth)
    (hp : presentAt s x.toNat = true) : exec (.vtFwd x) s = done (setResult (fwdAt s x.toNat) s) := by
  simp only [exec, execVtFwd]
  rw [if_neg (by simp [hvalid]), if_neg (by omega), if_neg (by simp [hp])]

theorem exec_vtInv {s : State} {x : BitVec 16} (hvalid : s.vtValid = true) (hx : x.toNat < s.vtCeil) :
    exec (.vtInv x) s = done (setResult (invAt s x.toNat) s) := by
  simp only [exec, execVtInv]
  rw [if_neg (by simp [hvalid]), if_neg (by omega)]

/-- Settles O33: VT_FWD answers the rank, which is below VT_CEIL, and VT_INV of the rank answers the value. -/
theorem translationIsIdentity : Obligations.TranslationIsIdentity := by
  rintro s x hvalid hx hp ⟨-, hceil⟩ hbuilt
  obtain ⟨hcount, htranslate⟩ := hbuilt hvalid
  obtain ⟨hfwd, hinv⟩ := htranslate _ hx hp
  have hrank : rankOf s x.toNat < s.vtCeil := hcount ▸ rankOf_lt hx hp
  have hresult : (complete (setResult (fwdAt s x.toNat) s)).result.toNat = rankOf s x.toNat := by
    rw [complete_result, setResult_toNat _ (by omega), hfwd]
  have hoperand : (BitVec.ofNat 16 (rankOf s x.toNat)).toNat = rankOf s x.toNat := by
    rw [BitVec.toNat_ofNat, Nat.mod_eq_of_lt (by omega)]
  refine ⟨_, exec_vtFwd hvalid hx hp, by rw [hresult]; exact hrank, ?_⟩
  rw [hresult]
  refine completes_of_done (exec_vtInv hvalid (by rw [hoperand]; exact hrank)) (setResult_onlyChanges _ _) ?_
  rw [complete_result, setResult_toNat, hoperand] <;> rw [invAt_complete, invAt_setResult]
  · exact hinv
  · rw [hoperand, hinv]; omega

end Sys2Proof.Machine
end

section
/-! PROOFS. The step at an enabled, an idle and a faulted block, and the schedule's turns (`spec/20_memory.md` R69, R70). -/

namespace Sys2Proof.Machine

/-! ### The step -/

theorem blockStep_of_decoded {s : State} {w : Word} {i : Instr} (hf : s.fault = none) (hp : s.pending = some w)
    (hd : decode w = .ok i) : blockStep s = exec i s := by
  simp only [blockStep, enabledWord, hf, hp, hd]

/-- An idle block waits for a CMD write, a faulted one for a reset (R234, R261). -/
theorem blockStep_of_disabled {s : State} (h : s.pending = none ∨ s.fault.isSome) : blockStep s = .next s := by
  have hw : enabledWord s = none := by
    cases hf : s.fault with
    | some f => rw [enabledWord, hf]
    | none => rw [enabledWord, hf]; exact h.resolve_right (by simp [hf])
  rw [blockStep, hw]

theorem step_of_turn {s : State} {u : Turn} {rest : List Turn} (h : s.schedule = u :: rest) :
    step s = takeTurn u { s with schedule := rest } := by
  rw [step, h]

theorem step_of_no_turn {s : State} (h : s.schedule = []) : step s = blockStep s := by
  rw [step, h]

/-- Settles O5: at the block's turn, and with no turn left, the step is the block's, which decodes the pending word. -/
theorem stepRunsDecodedCommand : Obligations.StepRunsDecodedCommand := by
  intro s w i hf hp hd
  refine ⟨fun rest hs => ?_, fun hs => ?_⟩
  · rw [step_of_turn hs]
    exact blockStep_of_decoded hf hp hd
  · rw [step_of_no_turn hs]
    exact blockStep_of_decoded hf hp hd

/-- Settles O6: each kind of turn is its own operation, and a disabled block leaves the state as it is. -/
theorem stepTakesNextTurn : Obligations.StepTakesNextTurn := by
  intro s rest
  refine ⟨fun a v hs => step_of_turn hs, fun a hs => step_of_turn hs, fun hs => ?_, fun hs hd => ?_, fun hs hd => ?_⟩
  · exact ⟨_, step_of_turn hs, resetState_values _, rfl, rfl⟩
  · rw [step_of_turn hs]
    exact blockStep_of_disabled hd
  · rw [step_of_no_turn hs]
    exact blockStep_of_disabled hd

end Sys2Proof.Machine
end

section
/-! PROOFS. How every command ends (`spec/60_exceptions.md` R231-R233), and what it does to the output stream
(`spec/20_memory.md` R66). -/

namespace Sys2Proof.Machine

/-! ### How a command ends -/

theorem impreciseOf_subset_raisedBy (i : Instr) : impreciseOf i ⊆ raisedBy i := by
  cases i <;> simp [impreciseOf, raisedBy]

/-- Settles O8: each of the three ends of `exec_ends` is a completion or one of the command's faults. -/
theorem everyCommandEnds : Obligations.EveryCommandEnds := by
  intro i s hf
  obtain ⟨t, he, hend⟩ := exec_ends i s
  cases hend with
  | completed u hu => exact .inl (completes_of_done he hu trivial)
  | precise c hc => exact .inr ⟨c, hc, (faultsPrecisely_of_raise he hf).imprecisely⟩
  | imprecise c hc => exact .inr ⟨c, impreciseOf_subset_raisedBy i hc, faultsImprecisely_of_raise he hf⟩

/-! ### The output stream -/

/-- An update that leaves OUTBUF and OUTPOS appends nothing. -/
theorem appended_nil_of_onlyChanges {ps : List Part} {s t : State} (h : OnlyChanges ps s t) (hb : Part.outbuf ∉ ps)
    (hp : Part.outPos ∉ ps) : Appended s t [] := by
  have hbyte : ∀ a, outByte t a = outByte s a := h .outbuf hb
  exact ⟨h .outPos hp, fun i hi => absurd hi (Nat.not_lt_zero i), fun a _ => hbyte a,
    fun p _ => by rw [outBitAt, outBitAt, hbyte]⟩

/-- The encoder's update appends what its renormalization puts out (R123, R125). -/
theorem encoded_appended {s t u : State} {a : BitVec 2} {x : Nat} (hn : rcNarrow a x s = .ok t)
    (hr : rcRenormalize encShift encUnderflow t = .ok u) : ∃ bs, Appended s u bs := by
  refine encoded_keeps (P := fun v => ∃ bs, Appended s v bs) (fun _ _ _ h => h) (fun _ _ h => h) ?_ ⟨[], ?_⟩ hn hr
  · rintro v w cs ⟨bs, hv⟩ he
    exact ⟨bs ++ cs, hv.trans (emit_appended cs v w he)⟩
  · exact (Emitted.refl s).1

/-- An outcome that, where it is no fault, has appended to the output stream. -/
def AppendsUnlessFault (s : State) (o : Host.Outcome State Fault Refusal) : Prop :=
  ∀ t, o = .next t → t.fault = none → ∃ bs, Appended s t bs

theorem appendsUnlessFault_raise (s u : State) (c : FaultCode) : AppendsUnlessFault s (raise c u) := by
  intro t ht hf
  cases ht
  simp at hf

theorem appendsUnlessFault_done {s u : State} (h : ∃ bs, Appended s u bs) : AppendsUnlessFault s (done u) := by
  intro t ht _
  cases ht
  exact h

theorem appendsUnlessFault_emitCounted (s : State) (bs : List Bool) : AppendsUnlessFault s (emitCounted bs s) := by
  unfold emitCounted
  split
  · exact appendsUnlessFault_raise _ _ _
  · rename_i u hu
    exact appendsUnlessFault_done ⟨bs, emit_appended bs s u hu⟩

/-- A command whose rule writes neither OUTBUF nor OUTPOS appends nothing. -/
theorem appendsUnlessFault_of_unwritten {i : Instr} (s : State) (hb : Part.outbuf ∉ writes i)
    (hp : Part.outPos ∉ writes i) : AppendsUnlessFault s (exec i s) := by
  intro t he hf
  obtain ⟨u, rfl, hu⟩ := completed_of_exec he hf
  exact ⟨[], appended_complete (appended_nil_of_onlyChanges hu hb hp)⟩

/-- Every command but BS_OUT_RESET appends to the output stream, if but the empty list of bits. -/
theorem exec_appendsUnlessFault {i : Instr} (s : State) (hi : i ≠ .bsOutReset) : AppendsUnlessFault s (exec i s) := by
  cases i with
  | rcEncWrite a x =>
    simp only [exec, execRcEncWrite]
    repeat' split
    any_goals exact appendsUnlessFault_raise _ _ _
    rename_i t ht _ u hu
    exact appendsUnlessFault_done (encoded_appended ht hu)
  | rcEncFinish =>
    simp only [exec, execRcEncFinish]
    repeat' split
    any_goals exact appendsUnlessFault_raise _ _ _
    rename_i t ht
    exact appendsUnlessFault_done ⟨_, emit_appended _ s t ht⟩
  | vtEncode =>
    simp only [exec, execVtEncode]
    repeat' split
    any_goals exact appendsUnlessFault_raise _ _ _
    rename_i t ht
    exact appendsUnlessFault_done ⟨_, emit_appended _ s t ht⟩
  | htSerialize a =>
    simp only [exec, execHtSerialize]
    split
    · exact appendsUnlessFault_raise _ _ _
    · exact appendsUnlessFault_emitCounted _ _
  | htEncode a x =>
    simp only [exec, execHtEncode]
    split
    · exact appendsUnlessFault_raise _ _ _
    · exact appendsUnlessFault_emitCounted _ _
  | bsPut k =>
    simp only [exec, execBsPut]
    repeat' split
    any_goals exact appendsUnlessFault_raise _ _ _
    rename_i t ht
    exact appendsUnlessFault_done ⟨_, emit_appended _ s t ht⟩
  | bsOutAlign =>
    simp only [exec, execBsOutAlign]
    split
    · exact appendsUnlessFault_raise _ _ _
    · rename_i t ht
      exact appendsUnlessFault_done ⟨_, emit_appended _ s t ht⟩
  | bsOutReset => exact absurd rfl hi
  | _ => exact appendsUnlessFault_of_unwritten s (by simp [writes]) (by simp [writes])

/-- Settles O10: every completing command but BS_OUT_RESET appends to the output stream. -/
theorem outputIsAppended : Obligations.OutputIsAppended :=
  fun _ s t _ he ht hi => exec_appendsUnlessFault s hi t he ht

end Sys2Proof.Machine
end

section
/-! PROOFS. What VT_DECODE reads, and the fault of every input it does not read (`spec/42_value_table.md` R153-R156, R161). -/

namespace Sys2Proof.Machine

/-! ### VT_DECODE -/

theorem depthLegal_iff (k : Nat) : depthLegal k = true ↔ 1 ≤ k ∧ k ≤ 9 := by
  rw [depthLegal, Config.vtMaxDepth, decide_eq_true_iff]

/-- VT_DECODE's state before the completion effects, with the tag, the values and the position it read (R161). -/
def decodedTable (k : BitVec 6) (tag : Nat) (vs : List Nat) (p : Nat) (s : State) : State :=
  setResult (p - s.inPos) (buildTranslation vs
    { s with vtDepth := k.toNat, present := presenceOf vs, vtTag := BitVec.ofNat 2 tag, inPos := p })

/-! What VT_DECODE does, by its depth and by what it reads. -/

theorem exec_vtDecode_depth {s : State} {k : BitVec 6} (hk : ¬ (1 ≤ k.toNat ∧ k.toNat ≤ 9)) :
    exec (.vtDecode k) s = raise .vtDepth s := by
  rw [exec, execVtDecode, if_pos (by rwa [depthLegal_iff])]

theorem exec_vtDecode_error {s : State} {k : BitVec 6} {c : FaultCode} (hk : 1 ≤ k.toNat ∧ k.toNat ≤ 9)
    (hr : readTable s (2 ^ k.toNat) s.inPos = .error c) :
    exec (.vtDecode k) s = raise c (loseWrites (.vtDecode k) s) := by
  rw [exec, execVtDecode, if_neg (by rwa [depthLegal_iff, not_not]), hr]
  rfl

theorem exec_vtDecode_ok {s : State} {k : BitVec 6} {tag p : Nat} {vs : List Nat} (hk : 1 ≤ k.toNat ∧ k.toNat ≤ 9)
    (hr : readTable s (2 ^ k.toNat) s.inPos = .ok (tag, vs, p)) :
    exec (.vtDecode k) s = done (decodedTable k tag vs p s) := by
  rw [exec, execVtDecode, if_neg (by rwa [depthLegal_iff, not_not]), hr]
  rfl

/-- Where VT_DECODE completes, the depth was legal and a table was read. -/
theorem vtDecode_completed {s t : State} {k : BitVec 6} (he : exec (.vtDecode k) s = .next t) (ht : t.fault = none) :
    (1 ≤ k.toNat ∧ k.toNat ≤ 9) ∧ ∃ tag vs p, readTable s (2 ^ k.toNat) s.inPos = .ok (tag, vs, p) ∧
      t = complete (decodedTable k tag vs p s) := by
  by_cases hk : 1 ≤ k.toNat ∧ k.toNat ≤ 9
  · refine ⟨hk, ?_⟩
    cases hr : readTable s (2 ^ k.toNat) s.inPos with
    | error c =>
      rw [exec_vtDecode_error hk hr] at he
      cases he
      simp at ht
    | ok r =>
      obtain ⟨tag, vs, p⟩ := r
      rw [exec_vtDecode_ok hk hr] at he
      cases he
      exact ⟨tag, vs, p, rfl, rfl⟩
  · rw [exec_vtDecode_depth hk] at he
    cases he
    simp at ht

/-- The values VT_DECODE marks are the values it read. -/
theorem presentAt_decodedTable {s : State} {k : BitVec 6} {tag p v : Nat} {vs : List Nat} (hv : v < 512) :
    presentAt (complete (decodedTable k tag vs p s)) v = decide (v ∈ vs) := by
  have hget := presenceOf_get vs v
  simp only [hv, true_and] at hget
  exact hget

/-- A completing VT_DECODE read the tag and the payload of the values it found. -/
theorem vtDecode_reads {s t : State} {k : BitVec 6} (hp : PositionsInRange s) (he : exec (.vtDecode k) s = .next t)
    (ht : t.fault = none) :
    1 ≤ k.toNat ∧ k.toNat ≤ 9 ∧ t.vtTag.toNat ≤ 2 ∧
      InputHolds s s.inPos (msbBits 2 t.vtTag.toNat ++ payload t (2 ^ k.toNat) t.vtTag.toNat) ∧
      t.inPos = s.inPos + (2 + (payload t (2 ^ k.toNat) t.vtTag.toNat).length) := by
  obtain ⟨⟨hk1, hk9⟩, tag, vs, p, hr, rfl⟩ := vtDecode_completed he ht
  obtain ⟨-, htag, -⟩ := readTable_rising hp.1 hr
  have hm := two_pow_le_512 hk9
  obtain ⟨hin, hpos⟩ := readTable_payload hp.1 hr fun v hv => presentAt_decodedTable (s := s) (k := k) (tag := tag) (p := p)
    (hv.trans_le hm)
  have hfield : (complete (decodedTable k tag vs p s)).vtTag.toNat = tag :=
    (BitVec.toNat_ofNat tag 2).trans (Nat.mod_eq_of_lt (by omega))
  rw [hfield]
  exact ⟨hk1, hk9, htag, hin, hpos⟩

/-- Settles O30: what is read is the payload of the values found, and the three faults of a parse answer the three forms of
input that are no table. -/
theorem vtDecodeReadsOnlyPayloads : Obligations.VtDecodeReadsOnlyPayloads := by
  refine ⟨fun s t k _ hp he ht => vtDecode_reads hp he ht, fun s k hf => ⟨fun hk => ?_, fun h1 h9 hi => ?_,
    fun h1 h9 hb => ?_, fun h1 h9 hp hend => ?_, fun h1 h9 => ?_⟩⟩
  · exact faultsPrecisely_of_raise (exec_vtDecode_depth (by omega)) hf
  · exact faultsImprecisely_of_raise (exec_vtDecode_error ⟨h1, h9⟩ (readTable_reserved hi)) hf
  · exact faultsImprecisely_of_raise (exec_vtDecode_error ⟨h1, h9⟩ (readTable_bad hb)) hf
  · exact faultsImprecisely_of_raise (exec_vtDecode_error ⟨h1, h9⟩ (readTable_truncated hp.1 hend)) hf
  · rcases readTable_cases s (2 ^ k.toNat) with ⟨⟨tag, vs, p⟩, hr⟩ | hother
    · exact .inl (completes_of_exec (exec_vtDecode_ok ⟨h1, h9⟩ hr) hf trivial)
    · exact .inr hother

end Sys2Proof.Machine
end

section
/-! PROOFS. What HT_DESERIALIZE reads, and the fault of every input it does not read (`spec/43_huffman.md` R185, R188). -/

namespace Sys2Proof.Machine

/-! ### HT_DESERIALIZE -/

/-- A tree that is read was there: the input held its serialization (R185, R188). -/
theorem huffDeserialize_holds {s : State} {A n : Nat} {d e : DesState} {t : Tree} (hp : d.pos ≤ 8 * s.inLen)
    (h : huffDeserialize s A n d = .ok (t, e)) :
    InputHolds s d.pos (huffSerialize (leafWidth A) t) ∧
      e.pos = d.pos + (huffSerialize (leafWidth A) t).length := by
  induction n generalizing d e t with
  | zero => simp [huffDeserialize] at h
  | succ n ih =>
    rw [huffDeserialize] at h
    rcases inBit_cases s d.pos hp with hb | ⟨hq, hb⟩ <;> rw [hb] at h
    · simp at h
    · cases hv : inBitAt s d.pos <;> rw [hv] at h <;> dsimp only at h
      · repeat' split at h
        any_goals cases h
        rename_i x q hx _
        obtain ⟨-, hbits, rfl⟩ := inBits_msbBits hq hx
        refine ⟨(inputHolds_cons _ _ _ _).2 ⟨hq, hv, hbits⟩, ?_⟩
        simp only [huffSerialize, List.length_cons, msbBits_length]
        omega
      · repeat' split at h
        any_goals cases h
        rename_i c0 d0 h0 _ c1 h1
        obtain ⟨i0, p0⟩ := ih hq h0
        obtain ⟨i1, p1⟩ := ih (p0 ▸ i0.1) h1
        rw [p0] at i1 p1
        dsimp only at p1
        refine ⟨(inputHolds_cons _ _ _ _).2 ⟨hq, hv, (inputHolds_append _ _ _ _).2 ⟨i0, i1⟩⟩, ?_⟩
        simp only [huffSerialize, List.length_cons, List.length_append]
        omega

/-- HT_DESERIALIZE's state before the completion effects, with the tree and the position it read (R188). -/
def deserialized (a : BitVec 2) (tr : HuffTree) (p : Nat) (s : State) : State :=
  setResult (p - s.inPos) { setSlot a tr s with inPos := p }

theorem slot_deserialized (a : BitVec 2) (tr : HuffTree) (p : Nat) (s : State) :
    slot (complete (deserialized a tr p s)) a = some tr := by
  have hslot := slot_setSlot a a tr s
  rw [if_pos rfl] at hslot
  exact hslot

/-- `Des()` at the start of HT_DESERIALIZE (R188). -/
abbrev parseTree (s : State) (A : Nat) : Except FaultCode (Tree × DesState) :=
  huffDeserialize s A A { pos := s.inPos, used := [], internal := 0 }

/-! What HT_DESERIALIZE does, by its alphabet size and by what it reads. -/

theorem exec_htDeserialize_alphabet {s : State} {a : BitVec 2} {x : BitVec 16}
    (hx : ¬ (1 ≤ x.toNat ∧ x.toNat ≤ s.cfg.nSym)) : exec (.htDeserialize a x) s = raise .htAlphabet s := by
  rw [exec, execHtDeserialize, if_pos (by omega)]

theorem exec_htDeserialize_error {s : State} {a : BitVec 2} {x : BitVec 16} {c : FaultCode}
    (hx : 1 ≤ x.toNat ∧ x.toNat ≤ s.cfg.nSym) (hr : parseTree s x.toNat = .error c) :
    exec (.htDeserialize a x) s = raise c (loseWrites (.htDeserialize a x) s) := by
  rw [parseTree] at hr
  rw [exec, execHtDeserialize, if_neg (by omega), hr]
  rfl

theorem exec_htDeserialize_ok {s : State} {a : BitVec 2} {x : BitVec 16} {root : Tree} {d : DesState}
    (hx : 1 ≤ x.toNat ∧ x.toNat ≤ s.cfg.nSym) (hr : parseTree s x.toNat = .ok (root, d)) :
    exec (.htDeserialize a x) s = done (deserialized a { alphabet := x.toNat, root := root } d.pos s) := by
  rw [parseTree] at hr
  rw [exec, execHtDeserialize, if_neg (by omega), hr]
  rfl

/-- Where HT_DESERIALIZE completes, the alphabet size was legal and a tree was read. -/
theorem htDeserialize_completed {s t : State} {a : BitVec 2} {x : BitVec 16}
    (he : exec (.htDeserialize a x) s = .next t) (ht : t.fault = none) :
    (1 ≤ x.toNat ∧ x.toNat ≤ s.cfg.nSym) ∧ ∃ root d, parseTree s x.toNat = .ok (root, d) ∧
      t = complete (deserialized a { alphabet := x.toNat, root := root } d.pos s) := by
  by_cases hx : 1 ≤ x.toNat ∧ x.toNat ≤ s.cfg.nSym
  · refine ⟨hx, ?_⟩
    cases hr : parseTree s x.toNat with
    | error c =>
      rw [exec_htDeserialize_error hx hr] at he
      cases he
      simp at ht
    | ok r =>
      obtain ⟨root, d⟩ := r
      rw [exec_htDeserialize_ok hx hr] at he
      cases he
      exact ⟨root, d, rfl, rfl⟩
  · rw [exec_htDeserialize_alphabet hx] at he
    cases he
    simp at ht

/-- A completing HT_DESERIALIZE read the serialization of the formed tree the slot now holds. -/
theorem htDeserialize_reads {s t : State} {a : BitVec 2} {x : BitVec 16} (hp : PositionsInRange s)
    (he : exec (.htDeserialize a x) s = .next t) (ht : t.fault = none) :
    ∃ tr, slot t a = some tr ∧ tr.alphabet = x.toNat ∧ TreeFormed s tr ∧
      InputHolds s s.inPos (huffSerialize (leafWidth x.toNat) tr.root) ∧
      t.inPos = s.inPos + (huffSerialize (leafWidth x.toNat) tr.root).length := by
  obtain ⟨⟨h1, hN⟩, root, d, hr, rfl⟩ := htDeserialize_completed he ht
  obtain ⟨hlt, hnd, -⟩ := huffDeserialize_formed hp.1 hr
  obtain ⟨hin, hpos⟩ := huffDeserialize_holds hp.1 hr
  exact ⟨_, slot_deserialized a _ _ s, rfl, ⟨h1, hN, hnd, hlt⟩, hin, hpos⟩

/-- Settles O37: what is read is the serialization of the tree the slot holds, and the two faults of the parse answer the
two forms of input that are no tree. -/
theorem htDeserializeReadsOnlyTrees : Obligations.HtDeserializeReadsOnlyTrees := by
  refine ⟨fun s t a x _ hp he ht => htDeserialize_reads hp he ht,
    fun s a x hf hp h1 hN => ⟨fun hb => ?_, fun hend => ?_, ?_⟩⟩
  · exact faultsImprecisely_of_raise (exec_htDeserialize_error ⟨h1, hN⟩ (huffDeserialize_bad h1 hp.1 hb)) hf
  · exact faultsImprecisely_of_raise (exec_htDeserialize_error ⟨h1, hN⟩ (huffDeserialize_truncated h1 hp.1 hend)) hf
  · have hcases := huffDeserialize_cases h1 hp.1
    cases hr : parseTree s x.toNat with
    | ok r =>
      obtain ⟨root, d⟩ := r
      exact .inl (completes_of_exec (exec_htDeserialize_ok ⟨h1, hN⟩ hr) hf trivial)
    | error c =>
      rw [parseTree] at hr
      rw [hr] at hcases
      rcases hcases with ⟨-, hbad⟩ | ⟨-, hends⟩
      · exact .inr (.inl hbad)
      · exact .inr (.inr hends)

end Sys2Proof.Machine
end

section
/-! PROOFS. The decoder, the encoder and the opcode map agree, and what the step does with a word that is no command
(`spec/30_encoding.md` R81-R84, R86). -/

namespace Sys2Proof.Machine

/-! ### Decoding an encoding -/

/-- Each command's word carries its own opcode and operands, and 0 in the fields its row does not use. -/
theorem decode_encode {i : Instr} (h : WellFormed i = true) : decode (encode i) = .ok i := by
  cases i with
  | bsPut k | bsGet k => simpa [decode, encode, whenCountFits, WellFormed] using h
  | _ => simp [decode, encode, whenUnusedZero]

/-- Settles O1, by the fields of an assembled word. -/
theorem decodeOfEncode : Obligations.DecodeOfEncode := fun _ => decode_encode

/-- Settles O4: each word is the encoding of the command it stands for. -/
theorem sampleWordsDecode : Obligations.SampleWordsDecode :=
  ⟨decode_encode (i := .nop) rfl, decode_encode (i := .ftSet 1 2) rfl, decode_encode (i := .ftHigh 0 1) rfl,
    decode_encode (i := .rcEncWrite 0 0) rfl, decode_encode (i := .rcDecRead 0) rfl, decode_encode (i := .vtDecode 8) rfl,
    decode_encode (i := .vtFwd 255) rfl, decode_encode (i := .htDeserialize 1 5) rfl,
    decode_encode (i := .htEncode 0 4) rfl, decode_encode (i := .bsPut 8) rfl, decode_encode (i := .bsInSeek) rfl⟩

/-! ### Encoding what was decoded -/

/-- A word is assembled from given fields exactly when they are its own. -/
theorem commandWord_eq_iff (op : BitVec 6) (a b : BitVec 2) (k : BitVec 6) (x : BitVec 16) (w : Word) :
    commandWord op a b k x = w ↔
      op = opField w ∧ a = aField w ∧ b = bField w ∧ k = kField w ∧ x = sField w := by
  rw [← commandWord_inj, commandWord_fields]

theorem whenUnusedZero_eq_ok {c : Bool} {i j : Instr} : whenUnusedZero c i = .ok j ↔ c = true ∧ i = j := by
  cases c <;> simp [whenUnusedZero]

theorem whenCountFits_eq_ok {c : Bool} {k : BitVec 6} {i j : Instr} :
    whenCountFits c k i = .ok j ↔ c = true ∧ k.toNat ≤ 32 ∧ i = j := by
  rw [whenCountFits]
  repeat' split
  all_goals simp [*]

theorem opField_of_toNat {w : Word} {n : Nat} (h : (opField w).toNat = n) : BitVec.ofNat 6 n = opField w := by
  rw [← h, BitVec.ofNat_toNat, BitVec.setWidth_eq]

/-- The row that accepts a word has its opcode, found its unused fields 0, and took the operands from the others. -/
theorem encode_of_decode {w : Word} {i : Instr} (h : decode w = .ok i) : encode i = w ∧ WellFormed i = true := by
  unfold decode at h
  dsimp only at h
  split at h
  case h_33 => cases h
  case h_27 hop | h_28 hop =>
    rw [whenCountFits_eq_ok, decide_eq_true_iff] at h
    obtain ⟨hzero, hk, rfl⟩ := h
    simp [encode, commandWord_eq_iff, WellFormed, ← opField_of_toNat hop, hzero, hk]
  all_goals
    rename_i hop
    rw [whenUnusedZero_eq_ok, decide_eq_true_iff] at h
    obtain ⟨hzero, rfl⟩ := h
    simp [encode, commandWord_eq_iff, WellFormed, ← opField_of_toNat hop, hzero]

/-- Settles O2, row by row of the decoder. -/
theorem encodeOfDecode : Obligations.EncodeOfDecode := fun _ _ => encode_of_decode

/-! ### The opcode map -/

/-- Every command's word is in the command's row, and the row is in the map. -/
theorem encode_matches (i : Instr) : (rowOf i).Matches (encode i) ∧ rowOf i ∈ opcodeRows := by
  cases i with
  | nop => exact Laws.RowMatch.nop
  | ftClear a x => exact Laws.RowMatch.ftClear a x
  | ftSet a x => exact Laws.RowMatch.ftSet a x
  | ftInc a x => exact Laws.RowMatch.ftInc a x
  | ftGet a x => exact Laws.RowMatch.ftGet a x
  | ftTotal a => exact Laws.RowMatch.ftTotal a
  | ftLow a x => exact Laws.RowMatch.ftLow a x
  | ftHigh a x => exact Laws.RowMatch.ftHigh a x
  | ftLimit a => exact Laws.RowMatch.ftLimit a
  | rcEncInit => exact Laws.RowMatch.rcEncInit
  | rcEncWrite a x => exact Laws.RowMatch.rcEncWrite a x
  | rcEncFinish => exact Laws.RowMatch.rcEncFinish
  | rcDecInit => exact Laws.RowMatch.rcDecInit
  | rcDecRead a => exact Laws.RowMatch.rcDecRead a
  | vtClear k => exact Laws.RowMatch.vtClear k
  | vtMark x => exact Laws.RowMatch.vtMark x
  | vtEncode => exact Laws.RowMatch.vtEncode
  | vtDecode k => exact Laws.RowMatch.vtDecode k
  | vtFwd x => exact Laws.RowMatch.vtFwd x
  | vtInv x => exact Laws.RowMatch.vtInv x
  | htBuild a b => exact Laws.RowMatch.htBuild a b
  | htSerialize a => exact Laws.RowMatch.htSerialize a
  | htDeserialize a x => exact Laws.RowMatch.htDeserialize a x
  | htEncode a x => exact Laws.RowMatch.htEncode a x
  | htDecode a => exact Laws.RowMatch.htDecode a
  | htLen a x => exact Laws.RowMatch.htLen a x
  | bsPut k => exact Laws.RowMatch.bsPut k
  | bsGet k => exact Laws.RowMatch.bsGet k
  | bsOutAlign => exact Laws.RowMatch.bsOutAlign
  | bsInAlign => exact Laws.RowMatch.bsInAlign
  | bsOutReset => exact Laws.RowMatch.bsOutReset
  | bsInSeek => exact Laws.RowMatch.bsInSeek

/-! A mask of ones keeps a field. -/

theorem and_ones2 (a : BitVec 2) : a &&& 3 = a := BitVec.and_allOnes
theorem and_ones6 (k : BitVec 6) : k &&& 63 = k := BitVec.and_allOnes
theorem and_ones16 (x : BitVec 16) : x &&& 0xFFFF = x := BitVec.and_allOnes

/-- A word under a mask that keeps the opcode, field by field. -/
theorem and_commandWord_eq_iff (w : Word) (op : BitVec 6) (am bm : BitVec 2) (km : BitVec 6) (xm : BitVec 16) :
    w &&& commandWord 63 am bm km xm = commandWord op 0 0 0 0 ↔
      opField w = op ∧ aField w &&& am = 0 ∧ bField w &&& bm = 0 ∧ kField w &&& km = 0 ∧ sField w &&& xm = 0 := by
  rw [← commandWord_inj, ← and_ones6 (opField w), ← commandWord_and, commandWord_fields]

/-! The six masks of the map: a word that matches under one is assembled from the opcode and the operands it leaves. -/

section Masks
variable {w : Word} {op : BitVec 6}

theorem eq_of_mask_none (h : w &&& 0xFFFFFFFF = commandWord op 0 0 0 0) : commandWord op 0 0 0 0 = w := by
  rw [← h]
  exact BitVec.and_allOnes

theorem eq_of_mask_a (h : w &&& 0xFCFFFFFF = commandWord op 0 0 0 0) : commandWord op (aField w) 0 0 0 = w := by
  have hf := (and_commandWord_eq_iff w op 0 3 63 0xFFFF).1 h
  simp only [and_ones2, and_ones6, and_ones16] at hf
  simp [commandWord_eq_iff, hf]

theorem eq_of_mask_ab (h : w &&& 0xFC3FFFFF = commandWord op 0 0 0 0) : commandWord op (aField w) (bField w) 0 0 = w := by
  have hf := (and_commandWord_eq_iff w op 0 0 63 0xFFFF).1 h
  simp only [and_ones6, and_ones16] at hf
  simp [commandWord_eq_iff, hf]

theorem eq_of_mask_ax (h : w &&& 0xFCFF0000 = commandWord op 0 0 0 0) :
    commandWord op (aField w) 0 0 (sField w) = w := by
  have hf := (and_commandWord_eq_iff w op 0 3 63 0).1 h
  simp only [and_ones2, and_ones6] at hf
  simp [commandWord_eq_iff, hf]

theorem eq_of_mask_k (h : w &&& 0xFFC0FFFF = commandWord op 0 0 0 0) : commandWord op 0 0 (kField w) 0 = w := by
  have hf := (and_commandWord_eq_iff w op 3 3 0 0xFFFF).1 h
  simp only [and_ones2, and_ones16] at hf
  simp [commandWord_eq_iff, hf]

theorem eq_of_mask_x (h : w &&& 0xFFFF0000 = commandWord op 0 0 0 0) : commandWord op 0 0 0 (sField w) = w := by
  have hf := (and_commandWord_eq_iff w op 3 3 63 0).1 h
  simp only [and_ones2, and_ones6] at hf
  simp [commandWord_eq_iff, hf]

end Masks

/-- A word of a command's row is the encoding of a command of that row, with the operands in the word. -/
theorem exists_encode_of_matches {i : Instr} {w : Word} (h : (rowOf i).Matches w) :
    ∃ j, rowOf j = rowOf i ∧ encode j = w := by
  cases i with
  | nop => exact ⟨.nop, rfl, eq_of_mask_none h⟩
  | ftClear => exact ⟨.ftClear (aField w) (sField w), rfl, eq_of_mask_ax h⟩
  | ftSet => exact ⟨.ftSet (aField w) (sField w), rfl, eq_of_mask_ax h⟩
  | ftInc => exact ⟨.ftInc (aField w) (sField w), rfl, eq_of_mask_ax h⟩
  | ftGet => exact ⟨.ftGet (aField w) (sField w), rfl, eq_of_mask_ax h⟩
  | ftTotal => exact ⟨.ftTotal (aField w), rfl, eq_of_mask_a h⟩
  | ftLow => exact ⟨.ftLow (aField w) (sField w), rfl, eq_of_mask_ax h⟩
  | ftHigh => exact ⟨.ftHigh (aField w) (sField w), rfl, eq_of_mask_ax h⟩
  | ftLimit => exact ⟨.ftLimit (aField w), rfl, eq_of_mask_a h⟩
  | rcEncInit => exact ⟨.rcEncInit, rfl, eq_of_mask_none h⟩
  | rcEncWrite => exact ⟨.rcEncWrite (aField w) (sField w), rfl, eq_of_mask_ax h⟩
  | rcEncFinish => exact ⟨.rcEncFinish, rfl, eq_of_mask_none h⟩
  | rcDecInit => exact ⟨.rcDecInit, rfl, eq_of_mask_none h⟩
  | rcDecRead => exact ⟨.rcDecRead (aField w), rfl, eq_of_mask_a h⟩
  | vtClear => exact ⟨.vtClear (kField w), rfl, eq_of_mask_k h⟩
  | vtMark => exact ⟨.vtMark (sField w), rfl, eq_of_mask_x h⟩
  | vtEncode => exact ⟨.vtEncode, rfl, eq_of_mask_none h⟩
  | vtDecode => exact ⟨.vtDecode (kField w), rfl, eq_of_mask_k h⟩
  | vtFwd => exact ⟨.vtFwd (sField w), rfl, eq_of_mask_x h⟩
  | vtInv => exact ⟨.vtInv (sField w), rfl, eq_of_mask_x h⟩
  | htBuild => exact ⟨.htBuild (aField w) (bField w), rfl, eq_of_mask_ab h⟩
  | htSerialize => exact ⟨.htSerialize (aField w), rfl, eq_of_mask_a h⟩
  | htDeserialize => exact ⟨.htDeserialize (aField w) (sField w), rfl, eq_of_mask_ax h⟩
  | htEncode => exact ⟨.htEncode (aField w) (sField w), rfl, eq_of_mask_ax h⟩
  | htDecode => exact ⟨.htDecode (aField w), rfl, eq_of_mask_a h⟩
  | htLen => exact ⟨.htLen (aField w) (sField w), rfl, eq_of_mask_ax h⟩
  | bsPut => exact ⟨.bsPut (kField w), rfl, eq_of_mask_k h⟩
  | bsGet => exact ⟨.bsGet (kField w), rfl, eq_of_mask_k h⟩
  | bsOutAlign => exact ⟨.bsOutAlign, rfl, eq_of_mask_none h⟩
  | bsInAlign => exact ⟨.bsInAlign, rfl, eq_of_mask_none h⟩
  | bsOutReset => exact ⟨.bsOutReset, rfl, eq_of_mask_none h⟩
  | bsInSeek => exact ⟨.bsInSeek, rfl, eq_of_mask_none h⟩

theorem exists_rowOf {r : OpcodeRow} (h : r ∈ opcodeRows) : ∃ i, rowOf i = r := by
  revert r
  simp [opcodeRows]

/-- A command is well formed exactly when its word meets R82's bound on `k`. -/
theorem wellFormed_iff (i : Instr) :
    WellFormed i = true ↔ (rowOf i ∈ countRows → (kField (encode i)).toNat ≤ 32) := by
  cases i with
  | bsPut k | bsGet k => simp [WellFormed, countRows, rowOf, encode]
  | _ => simp [WellFormed, countRows, rowOf]

/-- The legal words are the encodings of the well-formed commands. -/
theorem legalWord_iff (w : Word) : LegalWord w ↔ ∃ i, WellFormed i = true ∧ encode i = w := by
  constructor
  · rintro ⟨r, hrow, hmatch, hk⟩
    obtain ⟨i, rfl⟩ := exists_rowOf hrow
    obtain ⟨j, hj, rfl⟩ := exists_encode_of_matches hmatch
    exact ⟨j, (wellFormed_iff j).2 (hj ▸ hk), rfl⟩
  · rintro ⟨i, hi, rfl⟩
    obtain ⟨hmatch, hrow⟩ := encode_matches i
    exact ⟨rowOf i, hrow, hmatch, (wellFormed_iff i).1 hi⟩

theorem decodes_iff_legalWord (w : Word) : (∃ i, decode w = .ok i) ↔ LegalWord w := by
  rw [legalWord_iff]
  constructor
  · rintro ⟨i, h⟩
    obtain ⟨hw, hi⟩ := encode_of_decode h
    exact ⟨i, hi, hw⟩
  · rintro ⟨i, hi, rfl⟩
    exact ⟨i, decode_encode hi⟩

/-! Every mask keeps the whole opcode, and no two rows have one opcode (R83). -/

theorem opField_mask {r : OpcodeRow} (h : r ∈ opcodeRows) : opField r.mask = 63 := by
  revert r
  decide

theorem opcodes_nodup : (opcodeRows.map fun r => opField r.pattern).Nodup := by decide

/-- A word of a row has the row's opcode. -/
theorem opField_of_matches {r : OpcodeRow} {w : Word} (h : r ∈ opcodeRows) (hm : r.Matches w) :
    opField r.pattern = opField w := by
  rw [← hm]
  calc opField (w &&& r.mask) = opField w &&& opField r.mask := BitVec.extractLsb'_and
    _ = opField w := by rw [opField_mask h, and_ones6]

/-- Settles O3: a word's row is the one of its opcode. -/
theorem legalWordsDecode : Obligations.LegalWordsDecode :=
  ⟨decodes_iff_legalWord, fun _ _ hr _ hq hrw hqw => List.inj_on_of_nodup_map opcodes_nodup hr hq
    ((opField_of_matches hr hrw).trans (opField_of_matches hq hqw).symm)⟩

/-! ### Illegal words -/

theorem blockStep_of_illegal {s : State} {w : Word} (hf : s.fault = none) (hp : s.pending = some w)
    (hw : ¬ LegalWord w) : blockStep s = raise .illegalCommand s := by
  cases hd : decode w with
  | ok i => exact absurd ((decodes_iff_legalWord w).1 ⟨i, hd⟩) hw
  | error e => simp only [blockStep, enabledWord, hf, hp, hd, illegalCommand]

theorem setSchedule_onlyChanges (r : List Turn) (s : State) : OnlyChanges [.schedule] s { s with schedule := r } := by
  intro p hp
  cases p <;> simp_all [Part.Same, counts, slot, inByte, outByte]

/-- Where a step is the block's, it is the block's step at the schedule that remains. -/
theorem step_of_block_next {s : State} (h : s.schedule = [] ∨ ∃ rest, s.schedule = .block :: rest) :
    ∃ r, step s = blockStep { s with schedule := r } := by
  rcases h with h | ⟨rest, h⟩
  · exact ⟨[], by rw [step_of_no_turn h, ← h]⟩
  · exact ⟨rest, step_of_turn h⟩

/-- Settles O7: an illegal word does not decode, and the encodings of the well-formed commands are the legal words. -/
theorem illegalWordFaults : Obligations.IllegalWordFaults := by
  refine ⟨fun s w hf hp hw hs => ?_, fun w hw => ?_⟩
  · obtain ⟨r, hstep⟩ := step_of_block_next hs
    refine ⟨_, hstep.trans (blockStep_of_illegal hf hp hw), faulted_enterFault hf, ?_⟩
    exact ((setSchedule_onlyChanges r s).mono (by simp)).trans ((enterFault_onlyChanges _ _).mono (by simp))
  · obtain ⟨i, hi, rfl⟩ := (legalWord_iff w).1 hw
    refine ⟨i, decode_encode hi, hi, fun j hj hji => ?_⟩
    exact Except.ok.inj ((decode_encode hj).symm.trans (hji ▸ decode_encode hi))

end Sys2Proof.Machine
end

section
/-! PROOFS. The sums of a bank, and what the frequency-table commands do (`spec/40_freq_table.md` R100-R109). -/

namespace Sys2Proof.Machine

/-! ### The sums of a bank -/

/-- Low of a symbol adds up the counts before it (R100). -/
theorem low_eq_sum (s : State) (a : BitVec 2) (x : Nat) : low s a x = (Finset.range x).sum (count s a) := by
  induction x with
  | zero => rfl
  | succ x ih => rw [← high_eq_low_succ, high, Finset.sum_range_succ, ih]

/-- Settles O12: Total is Low at the limit, and High of a symbol is Low of the next. -/
theorem cumulativeSums : Obligations.CumulativeSums := by
  refine fun s a => ⟨?_, rfl, fun hpos => ?_, fun x _ => ⟨low_eq_sum s a x, rfl, ?_⟩⟩
  · rw [← low_limit, low_eq_sum]
  · rw [high_eq_low_succ, Nat.sub_add_cancel hpos, low_limit]
  · rw [high, left_eq_add]

theorem count_le_total (s : State) (a : BitVec 2) (x : Nat) : count s a x ≤ total s a :=
  (Nat.le_add_left _ _).trans (high_le_total s a x)

/-! ### A bank after an update -/

theorem limit_setBank (s : State) (a : BitVec 2) (l : List Word) : limit (setBank a l s) a = l.length := by
  simp [limit, counts_setBank]

theorem count_setBank (s : State) (a : BitVec 2) (l : List Word) (y : Nat) :
    count (setBank a l s) a y = (l[y]?.getD 0).toNat := by
  simp [count, counts_setBank]

theorem limit_setCount (s : State) (a : BitVec 2) (x : Nat) (v : Word) :
    limit (setCount a x v s) a = limit s a := by
  rw [setCount, limit_setBank, List.length_set, limit]

theorem count_setCount {s : State} {a : BitVec 2} {x : Nat} (v : Word) (hx : x < limit s a) (y : Nat) :
    count (setCount a x v s) a y = if y = x then v.toNat else count s a y := by
  rw [setCount, count_setBank]
  by_cases hy : y = x
  · subst hy
    rw [if_pos rfl, List.getElem?_set_self hx, Option.getD_some]
  · rw [if_neg hy, List.getElem?_set_ne (Ne.symm hy), count]

/-! ### What a command leaves that sets a count or answers a number -/

/-- A command that writes the bank alone, and sets one count below the limit to `f` of what it was. -/
theorem completes_of_setCount {i : Instr} {s : State} {a : BitVec 2} {x : Nat} {v : Word} (f : Nat → Nat)
    (he : exec i s = done (setCount a x v s)) (hw : writes i = [.bank a]) (hx : x < limit s a)
    (hv : v.toNat = f (count s a x)) :
    Completes i s fun t => limit t a = limit s a ∧ ∀ y, count t a y = if y = x then f (count s a y) else count s a y := by
  refine completes_of_done he (hw ▸ setBank_onlyChanges a _ s) ⟨limit_setCount s a x v, fun y => ?_⟩
  rw [count_complete, count_setCount v hx]
  split
  · next hy => rw [hv, hy]
  · rfl

/-- A command that answers a number that fits RESULT, and writes RESULT alone. -/
theorem completes_of_setResult {i : Instr} {s : State} {v : Nat} (he : exec i s = done (setResult v s))
    (hw : writes i = [.result]) (hv : v ≤ 2 ^ 32 - 1) : Completes i s fun t => t.result.toNat = v :=
  completes_of_done he (hw ▸ setResult_onlyChanges v s) (setResult_toNat s (by omega))

theorem readSymbol_below {s : State} {a : BitVec 2} {x : BitVec 16} (v : Nat) (hx : x.toNat < limit s a) :
    readSymbol v a x s = done (setResult v s) := if_neg (Nat.not_le.2 hx)

theorem readSymbol_past {s : State} {a : BitVec 2} {x : BitVec 16} (v : Nat) (hx : limit s a ≤ x.toNat) :
    readSymbol v a x s = raise .ftSymbol s := if_pos hx

/-! ### FT_CLEAR, FT_SET and FT_INC -/

theorem exec_ftClear {s : State} (a : BitVec 2) {x : BitVec 16} (h1 : 1 ≤ x.toNat) (hn : x.toNat ≤ s.cfg.nSym) :
    exec (.ftClear a x) s = done (setBank a (List.replicate x.toNat 0) s) := if_neg (by omega)

theorem exec_ftClear_limit {s : State} (a : BitVec 2) {x : BitVec 16} (h : x.toNat = 0 ∨ s.cfg.nSym < x.toNat) :
    exec (.ftClear a x) s = raise .ftLimit s := if_pos (by omega)

theorem exec_ftSet {s : State} {a : BitVec 2} {x : BitVec 16} (hx : x.toNat < limit s a)
    (ht : total s a - count s a x.toNat + s.data.toNat ≤ maxBankTotal) :
    exec (.ftSet a x) s = done (setCount a x.toNat s.data s) := by
  rw [exec, execFtSet, if_neg (Nat.not_le.2 hx), if_neg (Nat.not_lt.2 ht)]

theorem exec_ftSet_symbol {s : State} {a : BitVec 2} {x : BitVec 16} (hx : limit s a ≤ x.toNat) :
    exec (.ftSet a x) s = raise .ftSymbol s := if_pos hx

theorem exec_ftSet_overflow {s : State} {a : BitVec 2} {x : BitVec 16} (hx : x.toNat < limit s a)
    (ht : maxBankTotal < total s a - count s a x.toNat + s.data.toNat) :
    exec (.ftSet a x) s = raise .ftOverflow s := by
  rw [exec, execFtSet, if_neg (Nat.not_le.2 hx), if_pos ht]

theorem exec_ftInc {s : State} {a : BitVec 2} {x : BitVec 16} (hx : x.toNat < limit s a)
    (ht : total s a + 1 ≤ maxBankTotal) :
    exec (.ftInc a x) s = done (setCount a x.toNat (BitVec.ofNat 32 (count s a x.toNat + 1)) s) := by
  rw [exec, execFtInc, if_neg (Nat.not_le.2 hx), if_neg (Nat.not_lt.2 ht)]

theorem exec_ftInc_symbol {s : State} {a : BitVec 2} {x : BitVec 16} (hx : limit s a ≤ x.toNat) :
    exec (.ftInc a x) s = raise .ftSymbol s := if_pos hx

theorem exec_ftInc_overflow {s : State} {a : BitVec 2} {x : BitVec 16} (hx : x.toNat < limit s a)
    (ht : maxBankTotal < total s a + 1) : exec (.ftInc a x) s = raise .ftOverflow s := by
  rw [exec, execFtInc, if_neg (Nat.not_le.2 hx), if_pos ht]

/-- Settles O13: a new list of zeros has the operand's length, and a bad operand is refused before it is made. -/
theorem ftClearRule : Obligations.FtClearRule := by
  refine fun s a x => ⟨fun h1 hn => ?_, fun hs h => faultsPrecisely_of_raise (exec_ftClear_limit a h) hs⟩
  refine completes_of_done (exec_ftClear a h1 hn) (setBank_onlyChanges a _ s) ⟨?_, fun y => ?_⟩
  · rw [limit_complete, limit_setBank, List.length_replicate]
  · rw [count_complete, count_setBank, List.getElem?_replicate]
    split <;> rfl

/-- Settles O14: past both checks the list of counts has DATA set at the symbol and nowhere else. -/
theorem ftSetRule : Obligations.FtSetRule := fun s _ _ =>
  ⟨fun hx ht => completes_of_setCount (fun _ => s.data.toNat) (exec_ftSet hx ht) rfl hx rfl,
    fun hs hx => faultsPrecisely_of_raise (exec_ftSet_symbol hx) hs,
    fun hs hx ht => faultsPrecisely_of_raise (exec_ftSet_overflow hx ht) hs⟩

/-- Settles O15: a count is at most the Total, so one more than it fits a word. -/
theorem ftIncRule : Obligations.FtIncRule := by
  refine fun s a x => ⟨fun hx ht => ?_, fun hs hx => faultsPrecisely_of_raise (exec_ftInc_symbol hx) hs,
    fun hs hx ht => faultsPrecisely_of_raise (exec_ftInc_overflow hx ht) hs⟩
  have hle := count_le_total s a x.toNat
  refine completes_of_setCount (· + 1) (exec_ftInc hx ht) rfl hx ?_
  rw [BitVec.toNat_ofNat, Nat.mod_eq_of_lt (by omega)]

/-! ### The answers about a symbol and a bank -/

/-- A command that answers a number about a symbol below the limit (R105, R107, R108). -/
theorem completes_of_readSymbol {i : Instr} {s : State} {a : BitVec 2} {x : BitVec 16} {v : Nat}
    (he : exec i s = readSymbol v a x s) (hw : writes i = [.result]) (hx : x.toNat < limit s a)
    (hv : v ≤ 2 ^ 32 - 1) : Completes i s fun t => t.result.toNat = v :=
  completes_of_setResult (he.trans (readSymbol_below v hx)) hw hv

/-- Settles O16: a symbol's count, Low and High are at most the Total. -/
theorem ftSymbolReads : Obligations.FtSymbolReads := by
  refine fun s a x => ⟨fun hx ht => ?_, fun hs hx => ?_⟩
  · have hhigh := (high_le_total s a x.toNat).trans ht
    exact ⟨completes_of_readSymbol rfl rfl hx ((count_le_total s a x.toNat).trans ht),
      completes_of_readSymbol rfl rfl hx ((low_le_high s a x.toNat).trans hhigh),
      completes_of_readSymbol rfl rfl hx hhigh⟩
  · exact ⟨faultsPrecisely_of_raise (readSymbol_past _ hx) hs, faultsPrecisely_of_raise (readSymbol_past _ hx) hs,
      faultsPrecisely_of_raise (readSymbol_past _ hx) hs⟩

/-- Settles O17: the Total is within R101's bound, and the limit is at most N_SYM. -/
theorem ftBankReads : Obligations.FtBankReads := by
  intro s a ⟨⟨_, hsym⟩, _⟩ hb
  obtain ⟨hlimit, htotal⟩ := hb a
  exact ⟨completes_of_setResult rfl rfl htotal, completes_of_setResult rfl rfl (by omega)⟩

end Sys2Proof.Machine
end

section
/-! PROOFS. The checks of the shared update, and what the encoder's commands do (`spec/41_range_coder.md` R121, R122,
R129-R131). -/

namespace Sys2Proof.Machine

theorem rcMask_toNat : rcMask.toNat = 2 ^ 31 - 1 := by decide

/-- A command that raises a fault leaves the fault latch set. -/
theorem fault_of_raise {s u : State} {c : FaultCode} (h : raise c s = .next u) : u.fault ≠ none := by
  cases h
  simp

/-! ### The checks and the narrowing of the shared update -/

theorem rcCheckState_lowGeHigh {s : State} (h : s.rcHigh.toNat ≤ s.rcLow.toNat) :
    rcCheckState s = some .rcLowGeHigh := if_pos h

theorem rcCheckState_range {s : State} (hlt : s.rcLow.toNat < s.rcHigh.toNat) (hr : rcRange s < rcMinRange) :
    rcCheckState s = some .rcRange := by
  rw [rcCheckState, if_neg (Nat.not_le.2 hlt), if_neg (by simp only [and_rcMask]; simp), if_pos (by omega)]

/-- A range has at most as many codes as 31-bit registers have values, so R121's checks need the lower bounds only. -/
theorem rcCheckState_none {s : State} (hlt : s.rcLow.toNat < s.rcHigh.toNat) (hr : rcMinRange ≤ rcRange s) :
    rcCheckState s = none := by
  have hH := s.rcHigh.isLt
  have hfull : rcRange s ≤ rcFull := by simp only [rcRange, rcFull]; omega
  rw [rcCheckState, if_neg (Nat.not_le.2 hlt), if_neg (by simp only [and_rcMask]; simp), if_neg (by omega)]

theorem rcNarrow_of_check {s : State} {c : FaultCode} (a : BitVec 2) (x : Nat) (h : rcCheckState s = some c) :
    rcNarrow a x s = .error c := by
  rw [rcNarrow, h]

theorem rcNarrow_zeroFreq {s : State} {a : BitVec 2} {x : Nat} (hv : CoderValid s) (h : count s a x = 0) :
    rcNarrow a x s = .error .rcZeroFreq := by
  rw [rcNarrow, rcCheckState_valid s hv]
  exact if_pos (by rw [high, h, Nat.add_zero])

theorem rcNarrow_total {s : State} {a : BitVec 2} {x : Nat} (hv : CoderValid s) (hc : count s a x ≠ 0)
    (ht : rcMaxTotal ≤ total s a) : rcNarrow a x s = .error .rcTotal := by
  have hne : low s a x ≠ high s a x := by rw [high]; omega
  simp only [rcNarrow, rcCheckState_valid s hv, if_neg hne, if_pos ht]

/-- The narrowed state holds the pseudocode's narrowed interval, which is not empty and lies in the old one (R122, R134). -/
theorem rcNarrow_narrowed {s : State} {a : BitVec 2} {x : Nat} (hv : CoderValid s) (hc : count s a x ≠ 0)
    (ht : total s a < rcMaxTotal) :
    ∃ l r, rcNarrow a x s = .ok { s with rcLow := l, rcHigh := r } ∧
      l.toNat = (narrowed s a x (coderOf s)).low ∧ r.toNat = (narrowed s a x (coderOf s)).high ∧
      s.rcLow.toNat ≤ l.toNat ∧ l.toNat ≤ r.toNat ∧ r.toNat ≤ s.rcHigh.toNat := by
  obtain ⟨u, hu, he, hlow, hhigh, hle, hin⟩ := rcNarrow_valid s a x hv hc ht
  exact ⟨u.rcLow, u.rcHigh, he ▸ hu, hlow, hhigh, hlow ▸ Nat.le_add_right _ _, hle, hin⟩

/-! ### RC_ENC_INIT -/

/-- The state RC_ENC_INIT sets up (R129). -/
def startEncoder (s : State) : State :=
  { s with rcLow := 0, rcHigh := rcMask, rcCode := 0, rcUnderflow := 0, rcMode := .enc }

theorem exec_rcEncInit (s : State) : exec .rcEncInit s = done (startEncoder s) := rfl

theorem startEncoder_onlyChanges (s : State) :
    OnlyChanges [.rcLow, .rcHigh, .rcCode, .rcUnderflow, .rcMode] s (startEncoder s) := by
  intro p hp
  cases p <;> simp_all [Part.Same, startEncoder, counts, slot, inByte, outByte]

/-- Settles O18: the values are those the command assigns. -/
theorem rcEncInitRule : Obligations.RcEncInitRule := fun s =>
  completes_of_done (exec_rcEncInit s) (startEncoder_onlyChanges s) ⟨rfl, rcMask_toNat, rfl, rfl, rfl⟩

/-! ### RC_ENC_WRITE -/

section EncWrite
variable {s t u : State} {a : BitVec 2} {x : BitVec 16} {c : FaultCode}

theorem exec_rcEncWrite_mode (hm : s.rcMode ≠ .enc) : exec (.rcEncWrite a x) s = raise .rcMode s := if_pos hm

theorem exec_rcEncWrite_symbol (hm : s.rcMode = .enc) (hx : limit s a ≤ x.toNat) :
    exec (.rcEncWrite a x) s = raise .ftSymbol s := by
  rw [exec, execRcEncWrite, if_neg (not_not.2 hm), if_pos hx]

theorem exec_rcEncWrite_check (hm : s.rcMode = .enc) (hx : x.toNat < limit s a)
    (hn : rcNarrow a x.toNat s = .error c) : exec (.rcEncWrite a x) s = raise c s := by
  rw [exec, execRcEncWrite, if_neg (not_not.2 hm), if_neg (Nat.not_le.2 hx), hn]

theorem exec_rcEncWrite_error (hm : s.rcMode = .enc) (hx : x.toNat < limit s a) (hn : rcNarrow a x.toNat s = .ok t)
    (hr : rcRenormalize encShift encUnderflow t = .error c) :
    exec (.rcEncWrite a x) s = raise c (loseWrites (.rcEncWrite a x) s) := by
  rw [exec, execRcEncWrite, if_neg (not_not.2 hm), if_neg (Nat.not_le.2 hx), hn]
  simp only [hr]
  rfl

theorem exec_rcEncWrite_ok (hm : s.rcMode = .enc) (hx : x.toNat < limit s a) (hn : rcNarrow a x.toNat s = .ok t)
    (hr : rcRenormalize encShift encUnderflow t = .ok u) : exec (.rcEncWrite a x) s = done u := by
  rw [exec, execRcEncWrite, if_neg (not_not.2 hm), if_neg (Nat.not_le.2 hx), hn]
  simp only [hr]

/-- Where RC_ENC_WRITE completes, every check passed and renormalization ended. -/
theorem rcEncWrite_completed (he : exec (.rcEncWrite a x) s = .next u) (hu : u.fault = none) :
    s.rcMode = .enc ∧ x.toNat < limit s a ∧ ∃ t v, rcNarrow a x.toNat s = .ok t ∧
      rcRenormalize encShift encUnderflow t = .ok v ∧ u = complete v := by
  by_cases hm : s.rcMode = .enc
  case neg => exact absurd hu (fault_of_raise ((exec_rcEncWrite_mode hm).symm.trans he))
  by_cases hx : x.toNat < limit s a
  case neg => exact absurd hu (fault_of_raise ((exec_rcEncWrite_symbol hm (Nat.not_lt.1 hx)).symm.trans he))
  cases hn : rcNarrow a x.toNat s with
  | error c => exact absurd hu (fault_of_raise ((exec_rcEncWrite_check hm hx hn).symm.trans he))
  | ok t =>
    cases hr : rcRenormalize encShift encUnderflow t with
    | error c => exact absurd hu (fault_of_raise ((exec_rcEncWrite_error hm hx hn hr).symm.trans he))
    | ok v =>
      rw [exec_rcEncWrite_ok hm hx hn hr] at he
      cases he
      exact ⟨hm, hx, t, v, rfl, hr, rfl⟩

end EncWrite

/-- The encoder's update from a valid state (R122-R126): the end value of the pseudocode's loops, how much one symbol can put
out, and when the update ends and when it overflows. -/
theorem encUpdate_spec {s : State} {a : BitVec 2} {x : Nat} (hv : CoderValid s) (hc : count s a x ≠ 0)
    (ht : total s a < rcMaxTotal) :
    ∃ t e, rcNarrow a x s = .ok t ∧ Renormalizes coderEncShift coderEncUnderflow (narrowed s a x (coderOf s)) e ∧
      e.out.length ≤ 31 + s.rcUnderflow.toNat ∧ e.uf ≤ s.rcUnderflow.toNat + 30 ∧
      (OutputRoom s e.out.length → e.uf < 2 ^ 32 →
        ∃ u, rcRenormalize encShift encUnderflow t = .ok u ∧ HoldsEncoder u e ∧ Appended s u e.out) ∧
      (s.outPos ≤ 8 * s.cfg.outBytes → ¬ OutputRoom s e.out.length →
        rcRenormalize encShift encUnderflow t = .error .outOverflow) ∧
      (OutputRoom s e.out.length → 2 ^ 32 ≤ e.uf →
        rcRenormalize encShift encUnderflow t = .error .rcUnderflowOvf) := by
  obtain ⟨l, r, hn, hl, hr, -, hle, -⟩ := rcNarrow_narrowed hv hc ht
  obtain ⟨e, he, hlen, huf, hok, hover, hovf⟩ := encRenormalize_spec { s with rcLow := l, rcHigh := r }
    (narrowed s a x (coderOf s)) ⟨hl, hr, rfl⟩ hle rfl
  refine ⟨_, e, hn, he, hlen, huf, fun hroom hsmall => ?_, hover, hovf⟩
  obtain ⟨u, hu, hholds, happ, -⟩ := hok hroom hsmall
  exact ⟨u, hu, hholds, happ.1⟩

/-- The encoder's update writes RC_ENC_WRITE's list at most (R130). -/
theorem encUpdate_onlyChanges {s t u : State} {a : BitVec 2} {x : Nat} (hn : rcNarrow a x s = .ok t)
    (hr : rcRenormalize encShift encUnderflow t = .ok u) :
    OnlyChanges [.rcLow, .rcHigh, .rcUnderflow, .outbuf, .outPos] s u :=
  ((rcNarrow_within a x s t hn).mono (by simp)).trans
    (rcRenormalize_within encShift_within encUnderflow_within (by simp) t u hr)

/-- Settles O19: one symbol puts out at most 31 bits besides the pending ones, so the room of the second case is room for
the bits of the first. -/
theorem rcEncWriteCompletes : Obligations.RcEncWriteCompletes := by
  intro s a x hm hx hv hc ht
  obtain ⟨t, e, hn, he, hlen, huf, hok, -, -⟩ := encUpdate_spec hv hc ht
  refine ⟨e, he, fun hfits => ?_⟩
  have hroom : OutputRoom s e.out.length ∧ e.uf < 2 ^ 32 := by
    rcases hfits with h | ⟨hroom, hsmall⟩
    · exact h
    · simp only [OutputRoom] at hroom ⊢
      omega
  obtain ⟨u, hu, ⟨hlow, hhigh, hpend⟩, happ⟩ := hok hroom.1 hroom.2
  exact completes_of_done (exec_rcEncWrite_ok hm hx hn hu) (encUpdate_onlyChanges hn hu)
    ⟨hlow, hhigh, hpend, appended_complete happ⟩

/-- Settles O20: each check is the first that fails, and the two overflows are those of the loops. -/
theorem rcEncWriteFaults : Obligations.RcEncWriteFaults := by
  refine fun s a x hf => ⟨fun hm => ?_, fun hm hx => ?_, fun hm hx hle => ?_, fun hm hx hlt hr => ?_,
    fun hm hx hv hc => ?_, fun hm hx hv hc ht => ?_, fun e he hm hx hv hc ht hp => ?_⟩
  · exact faultsPrecisely_of_raise (exec_rcEncWrite_mode hm) hf
  · exact faultsPrecisely_of_raise (exec_rcEncWrite_symbol hm hx) hf
  · exact faultsPrecisely_of_raise
      (exec_rcEncWrite_check hm hx (rcNarrow_of_check a _ (rcCheckState_lowGeHigh hle))) hf
  · exact faultsPrecisely_of_raise
      (exec_rcEncWrite_check hm hx (rcNarrow_of_check a _ (rcCheckState_range hlt hr))) hf
  · exact faultsPrecisely_of_raise (exec_rcEncWrite_check hm hx (rcNarrow_zeroFreq hv hc)) hf
  · exact faultsPrecisely_of_raise (exec_rcEncWrite_check hm hx (rcNarrow_total hv hc ht)) hf
  · obtain ⟨t, d, hn, hd, -, -, -, hover, hovf⟩ := encUpdate_spec hv hc ht
    cases hd.det he
    exact ⟨fun hroom => faultsImprecisely_of_raise (exec_rcEncWrite_error hm hx hn (hover hp.2.2 hroom)) hf,
      fun hroom hlarge => faultsImprecisely_of_raise (exec_rcEncWrite_error hm hx hn (hovf hroom hlarge)) hf⟩

/-! ### RC_ENC_FINISH -/

/-- The bits RC_ENC_FINISH puts out at stream position `p` (R131). -/
def finalBits (p : Nat) : List Bool := true :: List.replicate (bitsToByte (p + 1)) false

theorem bitsToByte_lt (p : Nat) : bitsToByte p < 8 := by
  rw [bitsToByte]; omega

theorem finalBits_length (p : Nat) : (finalBits p).length = 1 + bitsToByte (p + 1) := by
  rw [finalBits, List.length_cons, List.length_replicate, Nat.add_comm]

/-- After the final bits the stream is at a byte boundary. -/
theorem finalBits_aligned (p : Nat) : (p + (finalBits p).length) % 8 = 0 := by
  rw [finalBits_length, bitsToByte]; omega

/-- A buffer is whole bytes, so where the final bit fits its padding does. -/
theorem finalBits_room {s : State} (h : s.outPos < 8 * s.cfg.outBytes) : OutputRoom s (finalBits s.outPos).length := by
  rw [OutputRoom, finalBits_length, bitsToByte]; omega

theorem exec_rcEncFinish_mode {s : State} (hm : s.rcMode ≠ .enc) : exec .rcEncFinish s = raise .rcMode s := if_pos hm

theorem exec_rcEncFinish_error {s : State} {c : FaultCode} (hm : s.rcMode = .enc)
    (he : emit (finalBits s.outPos) s = .error c) :
    exec .rcEncFinish s = raise c (loseWrites .rcEncFinish s) := by
  rw [finalBits] at he
  rw [exec, execRcEncFinish, if_neg (not_not.2 hm), he]
  rfl

theorem exec_rcEncFinish_ok {s t : State} (hm : s.rcMode = .enc) (he : emit (finalBits s.outPos) s = .ok t) :
    exec .rcEncFinish s = done { t with rcUnderflow := 0, rcMode := .idle } := by
  rw [finalBits] at he
  rw [exec, execRcEncFinish, if_neg (not_not.2 hm), he]

/-- Where RC_ENC_FINISH completes, the final bits were put out. -/
theorem rcEncFinish_completed {s u : State} (he : exec .rcEncFinish s = .next u) (hu : u.fault = none) :
    Appended s u (finalBits s.outPos) := by
  by_cases hm : s.rcMode = .enc
  case neg => exact absurd hu (fault_of_raise ((exec_rcEncFinish_mode hm).symm.trans he))
  cases ht : emit (finalBits s.outPos) s with
  | error c => exact absurd hu (fault_of_raise ((exec_rcEncFinish_error hm ht).symm.trans he))
  | ok t =>
    rw [exec_rcEncFinish_ok hm ht] at he
    cases he
    exact emit_appended _ s t ht

/-- Settles O21: the padding ends at the byte boundary the buffer's size is a multiple of. -/
theorem rcEncFinishRule : Obligations.RcEncFinishRule := by
  refine fun s => ⟨fun hm hp => ?_, fun hf hm => ?_, fun hf hm hp => ?_⟩
  · obtain ⟨t, ht⟩ := emit_room _ s (finalBits_room hp)
    have happ := emit_appended _ s t ht
    refine completes_of_done (exec_rcEncFinish_ok hm ht) ?_ ⟨_, bitsToByte_lt _, happ, ?_, rfl, rfl⟩
    · refine ((emit_onlyChanges ht).mono (by simp [writes])).trans ?_
      intro p hp
      cases p <;> simp_all [Part.Same, writes, counts, slot, inByte]
    · exact (congrArg (· % 8) happ.1).trans (finalBits_aligned _)
  · exact faultsPrecisely_of_raise (exec_rcEncFinish_mode hm) hf
  · have hroom : ¬ OutputRoom s (finalBits s.outPos).length := by rw [OutputRoom, finalBits_length]; omega
    exact faultsImprecisely_of_raise (exec_rcEncFinish_error hm (emit_no_room _ s hroom hp.le)) hf

end Sys2Proof.Machine
end

section
/-! PROOFS. What the decoder's commands do: the first 31 bits, the symbol of the value, and the update
(`spec/41_range_coder.md` R122-R124, R127, R128, R132, R133, R135, R138). -/

namespace Sys2Proof.Machine

/-! ### Input bits as a number -/

/-- The number of the `n` input bits at position `p`, zeros past the end of input. -/
def bitsAt (s : State) (n p : Nat) : Nat := numberOf ((List.range n).map fun j => bitOrZero s (p + j))

/-- One more bit at the end. -/
theorem bitsAt_succ (s : State) (n p : Nat) : bitsAt s (n + 1) p = 2 * bitsAt s n p + (bitOrZero s (p + n)).toNat := by
  simp [bitsAt, numberOf, List.range_succ]

/-- The first bit is the most significant. -/
theorem bitsAt_succ' (s : State) (n p : Nat) :
    bitsAt s (n + 1) p = (bitOrZero s p).toNat * 2 ^ n + bitsAt s n (p + 1) := by
  induction n with
  | zero => simp [bitsAt, numberOf]
  | succ n ih =>
    rw [bitsAt_succ, ih, bitsAt_succ s n (p + 1), Nat.add_assoc p 1 n, Nat.add_comm 1 n, pow_succ]
    ring

theorem bitsAt_lt (s : State) (n p : Nat) : bitsAt s n p < 2 ^ n := by
  induction n with
  | zero => simp [bitsAt, numberOf]
  | succ n ih =>
    have hbit := Bool.toNat_le (bitOrZero s (p + n))
    rw [bitsAt_succ]
    omega

/-- Where INPOS stops, every further bit is 0, as every bit past it is (R68). -/
theorem bitOrZero_min (s : State) (p : Nat) : bitOrZero s (min p (8 * s.inLen)) = bitOrZero s p := by
  by_cases h : p ≤ 8 * s.inLen
  · rw [Nat.min_eq_left h]
  · rw [Nat.min_eq_right (by omega), bitOrZero, bitOrZero, decide_eq_false (by omega), decide_eq_false (by omega)]
    rfl

/-! ### RC_DEC_INIT -/

/-- Filling a code that has room for `n` more bits: they move in, and INPOS moves on to the end of input at most. The
position is a nominal one, that goes on where INPOS stops. -/
theorem fillCode_spec (n : Nat) {s : State} {p : Nat} (hp : s.inPos = min p (8 * s.inLen))
    (hc : (s.rcCode.toNat + 1) * 2 ^ n ≤ 2 ^ 31) :
    (fillCode n s).rcCode.toNat = s.rcCode.toNat * 2 ^ n + bitsAt s n p ∧
      (fillCode n s).inPos = min (p + n) (8 * s.inLen) := by
  induction n generalizing s p with
  | zero => exact ⟨by simp [fillCode, bitsAt, numberOf], hp⟩
  | succ n ih =>
    have hz : inBitZ s s.inPos = (bitOrZero s p, min (p + 1) (8 * s.inLen)) := by
      rw [inBitZ_eq s _ (by omega), hp, bitOrZero_min]
      congr 1
      omega
    have hbit := Bool.toNat_le (bitOrZero s p)
    have hone : 1 ≤ 2 ^ n := Nat.one_le_two_pow
    rw [pow_succ] at hc
    have hcode : (s.rcCode <<< 1 ||| (BitVec.ofBool (inBitZ s s.inPos).1).setWidth 31).toNat =
        2 * s.rcCode.toNat + (bitOrZero s p).toNat := by
      rw [shl1_or_toNat, hz, Nat.mod_eq_of_lt (by nlinarith)]
    obtain ⟨hfill, hpos⟩ := ih (s := { s with
        rcCode := s.rcCode <<< 1 ||| (BitVec.ofBool (inBitZ s s.inPos).1).setWidth 31, inPos := (inBitZ s s.inPos).2 })
      (p := p + 1) (by rw [hz]) (by simp only [hcode]; nlinarith)
    refine ⟨hfill.trans ?_, hpos.trans (by rw [Nat.add_right_comm, Nat.add_assoc])⟩
    simp only [hcode, bitsAt_succ', pow_succ]
    change _ + bitsAt s n (p + 1) = _
    ring

/-- The state RC_DEC_INIT fills the code in. -/
def startDecoder (s : State) : State := { s with rcLow := 0, rcHigh := rcMask, rcUnderflow := 0, rcCode := 0 }

/-- The state RC_DEC_INIT sets up (R132). -/
def filledDecoder (s : State) : State := { fillCode 31 (startDecoder s) with rcMode := .dec }

theorem exec_rcDecInit (s : State) : exec .rcDecInit s = done (filledDecoder s) := rfl

theorem startDecoder_onlyChanges (s : State) :
    OnlyChanges [.rcLow, .rcHigh, .rcCode, .rcUnderflow] s (startDecoder s) := by
  intro p hp
  cases p <;> simp_all [Part.Same, startDecoder, counts, slot, inByte, outByte]

theorem setRcMode_onlyChanges (m : RcMode) (s : State) : OnlyChanges [.rcMode] s { s with rcMode := m } := by
  intro p hp
  cases p <;> simp_all [Part.Same, counts, slot, inByte, outByte]

theorem filledDecoder_onlyChanges (s : State) : OnlyChanges (writes .rcDecInit) s (filledDecoder s) :=
  ((startDecoder_onlyChanges s).mono (by simp [writes])).trans
    (((fillCode_onlyChanges 31 _).mono (by simp [writes])).trans ((setRcMode_onlyChanges _ _).mono (by simp [writes])))

theorem filledDecoder_values (s : State) :
    (filledDecoder s).rcLow = 0 ∧ (filledDecoder s).rcHigh = rcMask ∧ (filledDecoder s).rcUnderflow = 0 ∧
      (filledDecoder s).rcMode = .dec := by
  have hkept := fillCode_onlyChanges 31 (startDecoder s)
  have hlow : (fillCode 31 (startDecoder s)).rcLow = 0 := hkept .rcLow (by simp)
  have hhigh : (fillCode 31 (startDecoder s)).rcHigh = rcMask := hkept .rcHigh (by simp)
  have hpend : (fillCode 31 (startDecoder s)).rcUnderflow = 0 := hkept .rcUnderflow (by simp)
  rw [filledDecoder]
  generalize fillCode 31 (startDecoder s) = t at hlow hhigh hpend ⊢
  exact ⟨hlow, hhigh, hpend, rfl⟩

/-- The code is empty when its 31 bits move in. -/
theorem filledDecoder_code {s : State} (hp : s.inPos ≤ 8 * s.inLen) :
    (filledDecoder s).rcCode.toNat = bitsAt s 31 s.inPos ∧
      (filledDecoder s).inPos = min (s.inPos + 31) (8 * s.inLen) := by
  have hzero : (startDecoder s).rcCode.toNat = 0 := rfl
  obtain ⟨hcode, hpos⟩ := fillCode_spec 31 (s := startDecoder s) (p := s.inPos) (Nat.min_eq_left hp).symm
    (by rw [hzero, Nat.zero_add, Nat.one_mul])
  rw [hzero, Nat.zero_mul, Nat.zero_add] at hcode
  rw [filledDecoder]
  generalize fillCode 31 (startDecoder s) = t at hcode hpos ⊢
  exact ⟨hcode, hpos⟩

/-- Settles O22: the interval is the whole one, and the code the next 31 bits. -/
theorem rcDecInitRule : Obligations.RcDecInitRule := by
  rintro s ⟨hp, -, -⟩
  obtain ⟨t, ht⟩ : ∃ t, filledDecoder s = t := ⟨_, rfl⟩
  obtain ⟨hlow, hhigh, hpend, hmode⟩ := filledDecoder_values s
  obtain ⟨hcode, hpos⟩ := filledDecoder_code hp
  refine completes_of_done (exec_rcDecInit s) (filledDecoder_onlyChanges s) ?_
  rw [ht] at hlow hhigh hpend hmode hcode hpos ⊢
  exact ⟨hlow, (congrArg BitVec.toNat hhigh).trans rcMask_toNat, hpend, hmode, hcode, hpos⟩

/-! ### RC_DEC_READ -/

section DecRead
variable {s t u : State} {a : BitVec 2} {x : Nat} {c : FaultCode}

theorem exec_rcDecRead_mode (hm : s.rcMode ≠ .dec) : exec (.rcDecRead a) s = raise .rcMode s := if_pos hm

theorem exec_rcDecRead_check (hm : s.rcMode = .dec) (hc : rcCheckState s = some c) :
    exec (.rcDecRead a) s = raise c s := by
  rw [exec, execRcDecRead, if_neg (not_not.2 hm), hc]

theorem exec_rcDecRead_total (hm : s.rcMode = .dec) (hc : rcCheckState s = none) (ht : rcMaxTotal ≤ total s a) :
    exec (.rcDecRead a) s = raise .rcTotal s := by
  rw [exec, execRcDecRead, if_neg (not_not.2 hm), hc]
  exact if_pos ht

theorem exec_rcDecRead_zeroFreq (hm : s.rcMode = .dec) (hc : rcCheckState s = none) (ht : total s a = 0) :
    exec (.rcDecRead a) s = raise .rcZeroFreq s := by
  rw [exec, execRcDecRead, if_neg (not_not.2 hm), hc]
  simp only [ht, rcMaxTotal]
  rfl

theorem exec_rcDecRead_sync (hm : s.rcMode = .dec) (hc : rcCheckState s = none) (ht : total s a < rcMaxTotal)
    (h0 : 0 < total s a) (hv : ¬ (0 ≤ rcValue a s ∧ rcValue a s < total s a)) :
    exec (.rcDecRead a) s = raise .rcSync s := by
  rw [exec, execRcDecRead, if_neg (not_not.2 hm), hc]
  simp only [if_neg (Nat.not_le.2 ht), if_neg h0.ne', if_pos hv]

theorem exec_rcDecRead_ok (hm : s.rcMode = .dec) (hc : rcCheckState s = none) (ht : total s a < rcMaxTotal)
    (h0 : 0 < total s a) (hv : 0 ≤ rcValue a s ∧ rcValue a s < total s a) (hx : symbolAt a (rcValue a s) s = some x)
    (hn : rcNarrow a x s = .ok t) (hr : rcRenormalize decShift decUnderflow t = .ok u)
    (hin : u.rcLow.toNat ≤ u.rcCode.toNat ∧ u.rcCode.toNat ≤ u.rcHigh.toNat) :
    exec (.rcDecRead a) s = done (setResult x u) := by
  rw [exec, execRcDecRead, if_neg (not_not.2 hm), hc]
  simp only [if_neg (Nat.not_le.2 ht), if_neg h0.ne', if_neg (not_not.2 hv), hx, hn, hr, if_pos hin]

end DecRead

/-- The value of R133, over Nat. -/
def decodedValue (s : State) (a : BitVec 2) : Nat :=
  ((s.rcCode.toNat - s.rcLow.toNat + 1) * total s a - 1) / (s.rcHigh.toNat - s.rcLow.toNat + 1)

/-- In a valid state the command's value, taken over the integers, is that over Nat. -/
theorem rcValue_eq_decodedValue {s : State} {a : BitVec 2} (hle : s.rcLow.toNat ≤ s.rcCode.toNat) (h0 : 0 < total s a) :
    rcValue a s = decodedValue s a := by
  have hone : 1 ≤ (s.rcCode.toNat - s.rcLow.toNat + 1) * total s a := Nat.mul_pos (Nat.succ_pos _) h0
  rw [rcValue, decodedValue, rcRange, Int.natCast_ediv, Nat.cast_sub hone, Nat.cast_mul]
  congr 3
  omega

/-- The value of a valid decoder state is below the Total, and the narrowed interval of its symbol holds the code (R135). -/
theorem decodedValue_spec {s : State} {a : BitVec 2} (hv : CoderValid s) (hm : s.rcMode = .dec) (h0 : 0 < total s a) :
    rcValue a s = decodedValue s a ∧ decodedValue s a < total s a ∧
      ∀ x, low s a x ≤ decodedValue s a → decodedValue s a < high s a x →
        s.rcLow.toNat + low s a x * rcRange s / total s a ≤ s.rcCode.toNat ∧
        s.rcCode.toNat ≤ s.rcLow.toNat + high s a x * rcRange s / total s a - 1 := by
  have hval := rcValue_eq_decodedValue (hv.2.2.2 hm).1 h0
  obtain ⟨v, hv', hspec⟩ := rcValue_spec s a hv hm h0.ne'
  obtain rfl : v = decodedValue s a := Int.ofNat.inj (hv'.symm.trans hval)
  exact ⟨hval, hspec⟩

/-- The value of a code outside the interval is outside `[0, Total)`. -/
theorem rcValue_outside {s : State} {a : BitVec 2} (h0 : 0 < total s a) (hlt : s.rcLow.toNat < s.rcHigh.toNat)
    (hout : s.rcCode.toNat < s.rcLow.toNat ∨ s.rcHigh.toNat < s.rcCode.toNat) :
    ¬ (0 ≤ rcValue a s ∧ rcValue a s < total s a) := by
  have hrange : (0 : Int) < rcRange s := by simp only [rcRange]; omega
  have htotal : (0 : Int) < total s a := by omega
  rcases hout with hlow | hhigh
  · have hneg : rcValue a s < 0 := by
      refine Int.ediv_neg_of_neg_of_pos ?_ hrange
      have : (s.rcCode.toNat : Int) - s.rcLow.toNat + 1 ≤ 0 := by omega
      nlinarith
    omega
  · have hlarge : (total s a : Int) ≤ rcValue a s := by
      rw [rcValue, Int.le_ediv_iff_mul_le hrange]
      have : (rcRange s : Int) + 1 ≤ s.rcCode.toNat - s.rcLow.toNat + 1 := by simp only [rcRange]; omega
      nlinarith
    omega

/-- What the decoder's update writes (R133). -/
theorem HoldsDecoder.onlyChanges {s u : State} {c : Coder} (h : HoldsDecoder s u c) :
    OnlyChanges [.rcLow, .rcHigh, .rcCode, .inPos] s u := by
  obtain ⟨-, -, -, -, -, he⟩ := h
  rw [he]
  intro p hp
  cases p <;> simp_all [Part.Same, counts, slot, inByte, outByte]

/-- RC_DEC_READ from a valid state, for the symbol whose interval has the value: it completes, and leaves a valid state with
the end value of the pseudocode's loops. -/
theorem decRead_spec {s : State} {a : BitVec 2} {x : Nat} (hm : s.rcMode = .dec) (hv : CoderValid s)
    (hp : s.inPos ≤ 8 * s.inLen) (ht : total s a < rcMaxTotal) (hx : x < limit s a)
    (hin : low s a x ≤ decodedValue s a ∧ decodedValue s a < high s a x) :
    ∃ u e, exec (.rcDecRead a) s = done (setResult x u) ∧
      Renormalizes (coderDecShift s) (coderDecUnderflow s) (narrowed s a x (coderOf s)) e ∧ HoldsDecoder s u e ∧
      CoderValid u := by
  have hc : count s a x ≠ 0 := by rw [high] at hin; omega
  have h0 : 0 < total s a := by have := high_le_total s a x; omega
  obtain ⟨hval, hvt, hcode⟩ := decodedValue_spec hv hm h0
  obtain ⟨l, r, hn, hl, hr, -, -, -⟩ := rcNarrow_narrowed hv hc ht
  obtain ⟨hlc, hch⟩ := hcode x hin.1 hin.2
  obtain ⟨u, e, hu, he, hholds, hin', hlt, hmin, hfull⟩ := decRenormalize_coder { s with rcLow := l, rcHigh := r }
    (narrowed s a x (coderOf s)) ⟨hl, hr, rfl, rfl, hp, rfl⟩ ⟨hl.trans_le hlc, hch.trans hr.ge⟩
  refine ⟨u, e, ?_, he, hholds, hlt, hmin, hfull, fun _ => hin'⟩
  exact exec_rcDecRead_ok hm (rcCheckState_valid s hv) ht h0 (by omega) (hval ▸ symbolAt_eq s a _ x hx hin) hn hu hin'

/-- Settles O23: the value is below the Total, so it is in one symbol's interval, and the update follows the loops. -/
theorem rcDecReadCompletes : Obligations.RcDecReadCompletes := by
  rintro s a hm hv ⟨hp, -, -⟩ ⟨⟨-, hsym⟩, -⟩ hb h0 ht
  obtain ⟨-, hvt, -⟩ := decodedValue_spec hv hm h0
  obtain ⟨x, hx, hin⟩ := exists_symbol s a _ hvt
  obtain ⟨u, e, hexec, he, hholds, hvalid⟩ := decRead_spec hm hv hp ht hx hin
  have hfits : x < 2 ^ 32 := by have := (hb a).1; omega
  refine ⟨x, _, e, rfl, hx, hin, fun y _ h1 h2 => symbol_unique s a _ y x ⟨h1, h2⟩ hin, he, ?_⟩
  have hframe := hholds.onlyChanges
  obtain ⟨hlow, hhigh, hcode, hpos, -, -⟩ := hholds
  exact completes_of_done hexec
    ((hframe.mono (by simp [writes])).trans ((setResult_onlyChanges x u).mono (by simp [writes])))
    ⟨setResult_toNat u hfits, hlow, hhigh, hcode, hpos, hvalid⟩

/-- Settles O24: each check is the first that fails, and a code outside the interval has a value outside `[0, Total)`. -/
theorem rcDecReadFaults : Obligations.RcDecReadFaults := by
  refine fun s a hf => ⟨fun hm => ?_, fun hm hle => ?_, fun hm hlt hr => ?_, fun hm hv ht => ?_, fun hm hv ht => ?_,
    fun hm hlt hr h0 ht hout => ?_⟩ <;> refine faultsPrecisely_of_raise ?_ hf
  · exact exec_rcDecRead_mode hm
  · exact exec_rcDecRead_check hm (rcCheckState_lowGeHigh hle)
  · exact exec_rcDecRead_check hm (rcCheckState_range hlt hr)
  · exact exec_rcDecRead_total hm (rcCheckState_valid s hv) ht
  · exact exec_rcDecRead_zeroFreq hm (rcCheckState_valid s hv) ht
  · exact exec_rcDecRead_sync hm (rcCheckState_none hlt hr) ht h0 (rcValue_outside h0 hlt hout)

end Sys2Proof.Machine
end

section
/-! PROOFS. What one pair of loops over the integers makes of the bits to come: where the input holds the bits the encoder's
loops put out, the decoder's loops run in step with them (`spec/41_range_coder.md` R123-R128, R136). -/

namespace Sys2Proof.Machine

/-! ### Loops and intervals -/

/-- A property the body keeps under the condition holds where the loop ends, and the condition fails there. -/
theorem While.rule {α : Type} {cond P : α → Prop} {body : α → α} {c d : α} (h : While cond body c d)
    (hbody : ∀ c, cond c → P c → P (body c)) (hc : P c) : P d ∧ ¬ cond d := by
  induction h with
  | stop h => exact ⟨hc, h⟩
  | again h _ ih => exact ih (hbody _ h hc)

/-- A 31-bit interval that is not empty. -/
def IsInterval (c : Coder) : Prop := c.low ≤ c.high ∧ c.high < 2 ^ 31

/-- An interval with HALF inside: bit 30 is 0 in low and 1 in high. -/
def HoldsHalf (c : Coder) : Prop := c.low < 2 ^ 30 ∧ 2 ^ 30 ≤ c.high ∧ c.high < 2 ^ 31

theorem shifted_isInterval {c : Coder} (hs : SameTopBit c) (h : IsInterval c) :
    IsInterval (shifted (coderEncShift c)) := by
  obtain ⟨hle, hlt⟩ := h
  simp only [SameTopBit] at hs
  simp only [IsInterval, shifted_low, shifted_high, coderEncShift_low, coderEncShift_high]
  omega

theorem cancelled_holdsHalf {c : Coder} : HoldsHalf (cancelled (coderEncUnderflow c)) := by
  simp only [HoldsHalf, cancelled_low, cancelled_high, coderEncUnderflow_low, coderEncUnderflow_high]
  omega

/-- The encoder's first loop ends with HALF inside the interval. -/
theorem encShiftWhile_holdsHalf {c m : Coder} (h : While SameTopBit (fun c => shifted (coderEncShift c)) c m)
    (hi : IsInterval c) : HoldsHalf m := by
  obtain ⟨⟨hle, hlt⟩, hs⟩ := h.rule (P := IsInterval) (fun _ hs hc => shifted_isInterval hs hc) hi
  simp only [SameTopBit] at hs
  simp only [HoldsHalf]
  omega

/-- Renormalization ends with HALF inside the interval. -/
theorem Renormalizes.holdsHalf {c e : Coder} (h : Renormalizes coderEncShift coderEncUnderflow c e)
    (hi : IsInterval c) : HoldsHalf e := by
  obtain ⟨m, h1, h2⟩ := h
  exact (h2.rule (fun _ _ _ => cancelled_holdsHalf) (encShiftWhile_holdsHalf h1 hi)).1

/-! ### Bits to come -/

/-- The input bits of `d` at position `p` on, zeros past its end, begin with `bs`. -/
def Reads (d : State) (p : Nat) (bs : List Bool) : Prop := ∀ i, ∀ h : i < bs.length, bitOrZero d (p + i) = bs[i]

theorem reads_append {d : State} {p : Nat} {xs ys : List Bool} :
    Reads d p (xs ++ ys) ↔ Reads d p xs ∧ Reads d (p + xs.length) ys := by
  refine ⟨fun h => ⟨fun i hi => ?_, fun i hi => ?_⟩, fun ⟨hx, hy⟩ i hi => ?_⟩
  · rw [h i (by rw [List.length_append]; omega), List.getElem_append_left hi]
  · rw [Nat.add_assoc, h (xs.length + i) (by rw [List.length_append]; omega), List.getElem_append_right (by omega)]
    simp only [Nat.add_sub_cancel_left]
  · by_cases hlt : i < xs.length
    · rw [hx i hlt, List.getElem_append_left hlt]
    · rw [List.getElem_append_right (by omega), ← hy (i - xs.length) (by rw [List.length_append] at hi; omega)]
      congr 1
      omega

theorem reads_singleton {d : State} {p : Nat} {x : Bool} : Reads d p [x] ↔ bitOrZero d p = x := by
  refine ⟨fun h => h 0 (by simp), fun h i hi => ?_⟩
  obtain rfl : i = 0 := by simpa using hi
  exact h

/-- A window of 31 bits, by its first bit and by its last. -/
theorem bitsAt_slide (d : State) (p : Nat) :
    (bitOrZero d p).toNat * 2 ^ 30 + bitsAt d 30 (p + 1) = 2 * bitsAt d 30 p + (bitOrZero d (p + 30)).toNat :=
  (bitsAt_succ' d 30 p).symm.trans (bitsAt_succ d 30 p)

/-- Where the bits put out begin at `b`, the position past the next top bit and the complements pending for it. -/
def codePos (b : Nat) (c : Coder) : Nat := b + c.out.length + 1 + c.uf

theorem codePos_shifted (b : Nat) (c : Coder) : codePos b (shifted (coderEncShift c)) = codePos b c + 1 := by
  simp only [codePos, shifted_out, shifted_uf, coderEncShift_out, coderEncShift_uf, List.length_append,
    List.length_cons, List.length_replicate]
  omega

theorem codePos_cancelled (b : Nat) (c : Coder) : codePos b (cancelled (coderEncUnderflow c)) = codePos b c + 1 := rfl

/-- The bits put out, a top bit and the complements pending for it. -/
def outWithTop (c : Coder) (x : Bool) : List Bool := c.out ++ x :: List.replicate c.uf (!x)

theorem outWithTop_length (b : Nat) (c : Coder) (x : Bool) : b + (outWithTop c x).length = codePos b c := by
  simp only [outWithTop, codePos, List.length_append, List.length_cons, List.length_replicate]
  omega

theorem outWithTop_shifted (c : Coder) (x : Bool) :
    outWithTop (shifted (coderEncShift c)) x = outWithTop c (decide (2 ^ 30 ≤ c.low)) ++ [x] := rfl

theorem outWithTop_cancelled (c : Coder) (x : Bool) :
    outWithTop (cancelled (coderEncUnderflow c)) x = outWithTop c x ++ [!x] := by
  simp only [outWithTop, cancelled_out, cancelled_uf, coderEncUnderflow_out, coderEncUnderflow_uf, List.replicate_succ',
    List.append_assoc, List.cons_append]

/-- `v` is the code the bits to come give a decoder that follows the encoder's values `c`, and it is in the interval. The
bits put out begin at position `b`; the next ones are a top bit and, for each pending bit, its complement, which the
decoder has deleted from its code (R126, R128). -/
def Foretold (d : State) (b : Nat) (c : Coder) (v : Nat) : Prop :=
  ∃ x : Bool, Reads d b (outWithTop c x) ∧ v = x.toNat * 2 ^ 30 + bitsAt d 30 (codePos b c) ∧ c.low ≤ v ∧ v ≤ c.high

/-- The decoder's values that follow the encoder's values `c`, the code being `v`; what a decoder does not use is that of
`r`. -/
def decoderAt (d : State) (b : Nat) (c : Coder) (v : Nat) (r : Coder) : Coder :=
  { r with low := c.low, high := c.high, code := v, pos := min (codePos b c + 30) (8 * d.inLen) }

/-- Bit 30 of a 31-bit value, and what is left of the value. -/
theorem topBit_bounds {n : Nat} (h : n < 2 ^ 31) :
    (decide (2 ^ 30 ≤ n)).toNat * 2 ^ 30 ≤ n ∧ n < (decide (2 ^ 30 ≤ n)).toNat * 2 ^ 30 + 2 ^ 30 := by
  by_cases hn : 2 ^ 30 ≤ n
  · rw [decide_eq_true hn, Bool.toNat_true]; omega
  · rw [decide_eq_false hn, Bool.toNat_false]; omega

theorem toNat_not (x : Bool) : (!x).toNat + x.toNat = 1 := by cases x <;> rfl

/-- The decoder's next position, where the bits to come are counted past the end of input too. -/
theorem min_add_one_min (p n : Nat) : min (min p n + 1) n = min (p + 1) n := by omega

/-- One iteration of the first loop, taken back: the bits it puts out are the top bit and its complements. -/
theorem foretold_of_shifted {d : State} {b w : Nat} {c : Coder} (hs : SameTopBit c) (hi : IsInterval c)
    (h : Foretold d b (shifted (coderEncShift c)) w) :
    ∃ v, Foretold d b c v ∧ ∀ r,
      shifted (coderDecShift d (decoderAt d b c v r)) = decoderAt d b (shifted (coderEncShift c)) w r := by
  obtain ⟨x, hreads, hw, hlow, hhigh⟩ := h
  obtain ⟨hle, hlt⟩ := hi
  rw [outWithTop_shifted, reads_append, reads_singleton, outWithTop_length] at hreads
  obtain ⟨hout, hx⟩ := hreads
  have hslide := bitsAt_slide d (codePos b c)
  have hB := bitsAt_lt d 30 (codePos b c)
  have hbit := Bool.toNat_le (bitOrZero d (codePos b c + 30))
  have htopl := topBit_bounds (hle.trans_lt hlt)
  have htoph := topBit_bounds hlt
  have hy := Bool.toNat_le (decide (2 ^ 30 ≤ c.low))
  rw [← decide_eq_decide.2 hs] at htoph
  rw [codePos_shifted, ← hx, hslide] at hw
  simp only [shifted_low, shifted_high, coderEncShift_low, coderEncShift_high] at hlow hhigh
  generalize (decide (2 ^ 30 ≤ c.low)) = y at hout htopl htoph hy
  refine ⟨_, ⟨y, hout, rfl, by omega, by omega⟩, fun r => ?_⟩
  have hcode : 2 * (y.toNat * 2 ^ 30 + bitsAt d 30 (codePos b c)) % 2 ^ 31 +
      (bitOrZero d (codePos b c + 30)).toNat = w := by omega
  simp only [decoderAt, codePos_shifted, Nat.add_right_comm _ 1 30]
  simp only [shifted, coderDecShift, bitOrZero_min, min_add_one_min, hcode]
  rfl

/-- A window of 30 bits that moves on by one deletes its top bit `n`, and a bit above the window is not in it. -/
theorem window_moves {x n v w k : Nat} (h : n * 2 ^ 30 + w = 2 * v + k) (hw : w < 2 ^ 30) (hk : k ≤ 1) :
    2 * (x * 2 ^ 30 + v) % 2 ^ 30 + k = w := by omega

/-- One iteration of the second loop, taken back: the bit it deletes is the complement of the top bit. -/
theorem foretold_of_cancelled {d : State} {b w : Nat} {c : Coder} (hs : StraddlesMiddle c) (hi : HoldsHalf c)
    (h : Foretold d b (cancelled (coderEncUnderflow c)) w) :
    ∃ v, Foretold d b c v ∧ ∀ r,
      cancelled (coderDecUnderflow d (decoderAt d b c v r)) = decoderAt d b (cancelled (coderEncUnderflow c)) w r := by
  obtain ⟨x, hreads, hw, hlow, hhigh⟩ := h
  obtain ⟨hl, hh, hlt⟩ := hi
  obtain ⟨hl29, hh29⟩ := hs
  rw [outWithTop_cancelled, reads_append, reads_singleton, outWithTop_length] at hreads
  obtain ⟨hout, hx⟩ := hreads
  have hslide := bitsAt_slide d (codePos b c)
  have hB := bitsAt_lt d 30 (codePos b c)
  have hB' := bitsAt_lt d 30 (codePos b c + 1)
  have hbit := Bool.toNat_le (bitOrZero d (codePos b c + 30))
  have hnot := toNat_not x
  rw [hx] at hslide
  rw [codePos_cancelled] at hw
  simp only [cancelled_low, cancelled_high, coderEncUnderflow_low, coderEncUnderflow_high] at hlow hhigh
  refine ⟨_, ⟨x, hout, rfl, by omega, by omega⟩, fun r => ?_⟩
  have htop : (x.toNat * 2 ^ 30 + bitsAt d 30 (codePos b c)) / 2 ^ 30 = x.toNat := by omega
  have hcode : x.toNat * 2 ^ 30 + 2 * (x.toNat * 2 ^ 30 + bitsAt d 30 (codePos b c)) % 2 ^ 30 +
      (bitOrZero d (codePos b c + 30)).toNat = w := by rw [Nat.add_assoc, window_moves hslide hB' hbit, hw]
  simp only [decoderAt, codePos_cancelled, Nat.add_right_comm _ 1 30]
  simp only [cancelled, coderDecUnderflow, bitOrZero_min, min_add_one_min, htop, hcode]
  rfl

/-- The encoder's first loop, taken back, with the decoder's loop in step (R123, R125, R127). -/
theorem foretold_of_shiftWhile {d : State} {b w : Nat} {c m : Coder}
    (h : While SameTopBit (fun c => shifted (coderEncShift c)) c m) (hi : IsInterval c) (hm : Foretold d b m w) :
    ∃ v, Foretold d b c v ∧ ∀ r,
      While SameTopBit (fun c => shifted (coderDecShift d c)) (decoderAt d b c v r) (decoderAt d b m w r) := by
  induction h with
  | stop h => exact ⟨w, hm, fun _ => .stop h⟩
  | again h _ ih =>
    obtain ⟨v', hv', hloop⟩ := ih (shifted_isInterval h hi) hm
    obtain ⟨v, hv, hstep⟩ := foretold_of_shifted h hi hv'
    exact ⟨v, hv, fun r => .again h (hstep r ▸ hloop r)⟩

/-- The encoder's second loop, taken back, with the decoder's loop in step (R124, R126, R128). -/
theorem foretold_of_cancelWhile {d : State} {b w : Nat} {m e : Coder}
    (h : While StraddlesMiddle (fun c => cancelled (coderEncUnderflow c)) m e) (hi : HoldsHalf m)
    (he : Foretold d b e w) :
    ∃ v, Foretold d b m v ∧ ∀ r,
      While StraddlesMiddle (fun c => cancelled (coderDecUnderflow d c)) (decoderAt d b m v r)
        (decoderAt d b e w r) := by
  induction h with
  | stop h => exact ⟨w, he, fun _ => .stop h⟩
  | again h _ ih =>
    obtain ⟨v', hv', hloop⟩ := ih cancelled_holdsHalf he
    obtain ⟨v, hv, hstep⟩ := foretold_of_cancelled h hi hv'
    exact ⟨v, hv, fun r => .again h (hstep r ▸ hloop r)⟩

/-- Where the bits to come give a code in the interval the encoder's renormalization ends in, they give one in the interval
it starts from, and the decoder's renormalization takes the one to the other (R136). -/
theorem foretold_of_renormalizes {d : State} {b w : Nat} {c e : Coder}
    (h : Renormalizes coderEncShift coderEncUnderflow c e) (hi : IsInterval c) (he : Foretold d b e w) :
    ∃ v, Foretold d b c v ∧ ∀ r,
      Renormalizes (coderDecShift d) (coderDecUnderflow d) (decoderAt d b c v r) (decoderAt d b e w r) := by
  obtain ⟨m, h1, h2⟩ := h
  obtain ⟨u, hu, hloop2⟩ := foretold_of_cancelWhile h2 (encShiftWhile_holdsHalf h1 hi) he
  obtain ⟨v, hv, hloop1⟩ := foretold_of_shiftWhile h1 hi hu
  exact ⟨v, hv, fun r => ⟨_, hloop1 r, hloop2 r⟩⟩

end Sys2Proof.Machine
end

section
/-! PROOFS. A completing encoding over the integers, and that a decoding of its output follows it symbol by symbol
(`spec/41_range_coder.md` R136, R137). -/

namespace Sys2Proof.Machine

/-! ### What a completing RC_ENC_WRITE did -/

theorem appended_nil (s : State) : Appended s s [] := (Emitted.refl s).1

/-- The state after a first-loop iteration whose bits were put out holds the integers' values. -/
theorem holdsEncoder_shifted {s v : State} {c : Coder} (hc : HoldsEncoder s c) (hv : emit (shiftBits s) s = .ok v) :
    HoldsEncoder { v with rcUnderflow := 0, rcLow := v.rcLow <<< 1, rcHigh := v.rcHigh <<< 1 ||| 1 }
      (shifted (coderEncShift c)) := by
  obtain ⟨hlow, hhigh, -⟩ := hc
  have hkept := emit_onlyChanges hv
  have hl : v.rcLow = s.rcLow := hkept .rcLow (by simp)
  have hh : v.rcHigh = s.rcHigh := hkept .rcHigh (by simp)
  refine ⟨?_, ?_, rfl⟩
  · simp only [hl, shl1_toNat, hlow, shifted_low, coderEncShift_low]
  · simp only [hh, shl1_or_one_toNat, hhigh, shifted_high, coderEncShift_high]

theorem shifted_out_eq {s : State} {c : Coder} (hc : HoldsEncoder s c) :
    (shifted (coderEncShift c)).out = c.out ++ shiftBits s := by
  obtain ⟨hlow, -, huf⟩ := hc
  rw [shifted_out, coderEncShift_out, shiftBits, bit30_iff, hlow, huf]

/-- An iteration of the first loop doubles the width. -/
theorem shifted_width {c : Coder} (hs : SameTopBit c) (hi : IsInterval c) :
    (shifted (coderEncShift c)).high - (shifted (coderEncShift c)).low + 1 = 2 * (c.high - c.low + 1) := by
  obtain ⟨hle, hlt⟩ := hi
  simp only [SameTopBit] at hs
  simp only [shifted_low, shifted_high, coderEncShift_low, coderEncShift_high]
  omega

/-- A first loop of the encoder that ends without a fault is the pseudocode's, and appended what that loop puts out. -/
theorem encShiftLoop_ok (n : Nat) {s t : State} {c : Coder} (hc : HoldsEncoder s c) (hi : IsInterval c)
    (hw : 2 ^ 31 ≤ (c.high - c.low + 1) * 2 ^ n) (h : rcShiftLoop encShift n s = .ok t) :
    ∃ m bs, While SameTopBit (fun c => shifted (coderEncShift c)) c m ∧ HoldsEncoder t m ∧ m.out = c.out ++ bs ∧
      Appended s t bs := by
  induction n generalizing s c with
  | zero =>
    cases h
    refine ⟨c, [], .stop ?_, hc, (List.append_nil _).symm, appended_nil _⟩
    obtain ⟨hle, hlt⟩ := hi
    simp only [SameTopBit]
    omega
  | succ n ih =>
    have hcond : (s.rcLow ^^^ s.rcHigh) &&& rcHalf = 0 ↔ SameTopBit c := by
      rw [sameTop_iff, hc.1, hc.2.1, SameTopBit]
    rw [rcShiftLoop] at h
    split at h
    · rename_i hs
      rw [hcond] at hs
      rw [encShift_eq] at h
      cases hv : emit (shiftBits s) s with
      | error e => simp only [hv] at h; cases h
      | ok v =>
        simp only [hv] at h
        obtain ⟨m, bs, hloop, hm, hout, happ⟩ := ih (holdsEncoder_shifted hc hv) (shifted_isInterval hs hi)
          (by rw [shifted_width hs hi, Nat.mul_comm 2, Nat.mul_assoc, ← Nat.pow_succ']; exact hw) h
        refine ⟨m, shiftBits s ++ bs, .again hs hloop, hm, ?_, (emit_appended _ s v hv).trans happ⟩
        rw [hout, shifted_out_eq hc, List.append_assoc]
    · rename_i hs
      cases h
      exact ⟨c, [], .stop (mt hcond.2 hs), hc, (List.append_nil _).symm, appended_nil _⟩

/-- A renormalization of the encoder that ends without a fault is the pseudocode's, and appended its bits. -/
theorem encRenormalize_ok {s t : State} {c : Coder} (hc : HoldsEncoder s c) (hi : IsInterval c) (ho : c.out = [])
    (h : rcRenormalize encShift encUnderflow s = .ok t) :
    ∃ e, Renormalizes coderEncShift coderEncUnderflow c e ∧ HoldsEncoder t e ∧ Appended s t e.out := by
  rw [rcRenormalize] at h
  split at h
  · cases h
  · rename_i u hu
    obtain ⟨m, bs, hloop, hm, hout, happ⟩ := encShiftLoop_ok 31 hc hi (by omega) hu
    obtain ⟨hl, hh, hlt⟩ := encShiftWhile_holdsHalf hloop hi
    obtain ⟨e, hloop', hout', -, -, -, -, hok, hovf⟩ := encUnderflowLoop_spec 30 u m hm
      (by rw [hm.1]; exact hl) (by rw [hm.2.1]; exact hh) (by rw [hm.1, hm.2.1]; omega)
    have hsmall : e.uf < 2 ^ 32 := by
      by_contra hlarge
      rw [hovf (Nat.le_of_not_lt hlarge)] at h
      cases h
    obtain ⟨t', ht', he, hframe⟩ := hok hsmall
    rw [h] at ht'
    cases ht'
    refine ⟨e, ⟨m, hloop, hloop'⟩, he, ?_⟩
    rw [hout', hout, ho, List.nil_append, hframe]
    exact happ

/-- A completing RC_ENC_WRITE from a valid state: it ran the pseudocode's loops from the narrowed interval and appended the
bits they put out, and the state it leaves is valid again. -/
theorem rcEncWrite_ok {s u : State} {a : BitVec 2} {x : BitVec 16} (hv : CoderValid s)
    (he : exec (.rcEncWrite a x) s = .next u) (hu : u.fault = none) :
    x.toNat < limit s a ∧ count s a x.toNat ≠ 0 ∧ total s a < rcMaxTotal ∧ CoderValid u ∧ HoldsHalf (coderOf u) ∧
      ∃ e, Renormalizes coderEncShift coderEncUnderflow (narrowed s a x.toNat (coderOf s)) e ∧ HoldsEncoder u e ∧
        Appended s u e.out := by
  obtain ⟨hm, hx, t, w, hn, hr, rfl⟩ := rcEncWrite_completed he hu
  obtain ⟨hc, ht⟩ := rcNarrow_guards hn
  obtain ⟨l, r, hn', hl, hr', -, hle, -⟩ := rcNarrow_narrowed hv hc ht
  rw [hn] at hn'
  cases hn'
  have hi : IsInterval (narrowed s a x.toNat (coderOf s)) := ⟨hl ▸ hr' ▸ hle, hr' ▸ r.isLt⟩
  obtain ⟨e, hren, hholds, happ⟩ := encRenormalize_ok ⟨hl, hr', rfl⟩ hi rfl hr
  have hhalf := hren.holdsHalf hi
  rw [HoldsHalf, ← hholds.1, ← hholds.2.1] at hhalf
  exact ⟨hx, hc, ht, (Wrote.encoded a _ hm hn hr).coderValid hv, hhalf, e, hren, hholds, happ⟩

/-! ### A message -/

/-- Where the encoding of a message completes, so does that of its first symbol, and that of the rest from there. -/
theorem encodeMessage_cons {a : BitVec 2} {l : List Word} {x : BitVec 16} {m : Message} {s t : State}
    (h : encodeMessage ((a, l, x) :: m) s = some t) :
    ∃ u, exec (.rcEncWrite a x) (setBank a l s) = .next u ∧ u.fault = none ∧ encodeMessage m u = some t := by
  rw [encodeMessage] at h
  split at h
  · rename_i u hu
    split at h
    · rename_i hf
      exact ⟨u, hu, Option.isNone_iff_eq_none.1 hf, h⟩
    · cases h
  · cases h

/-- Where the read of the first symbol completes, the decoding goes on from there. -/
theorem decodeMessage_cons {a : BitVec 2} {l : List Word} {x : BitVec 16} {m : Message} {k u : State}
    (he : exec (.rcDecRead a) (setBank a l k) = .next u) (hu : u.fault = none) :
    decodeMessage ((a, l, x) :: m) k = (decodeMessage m u).map (u.result.toNat :: ·) := by
  simp only [decodeMessage, he, hu, Option.isNone_none, if_true]

/-- Encoding a message appends to the output stream. -/
theorem encodeMessage_appended (m : Message) {s t : State} (h : encodeMessage m s = some t) :
    ∃ bs, Appended s t bs := by
  induction m generalizing s with
  | nil => cases h; exact ⟨[], appended_nil _⟩
  | cons p m ih =>
    obtain ⟨a, l, x⟩ := p
    obtain ⟨u, he, hu, hm⟩ := encodeMessage_cons h
    obtain ⟨xs, hxs⟩ := exec_appendsUnlessFault (setBank a l s) (by simp) u he hu
    obtain ⟨ys, hys⟩ := ih hm
    exact ⟨xs ++ ys, Appended.trans (s := s) hxs hys⟩

/-! ### The output as the decoder's input -/

/-- From position `b` on, the input of `d` is the output of `u` from position `p` on: the bits below OUTPOS, then zeros. -/
def InputIs (d : State) (b : Nat) (u : State) (p : Nat) : Prop :=
  ∀ j, bitOrZero d (b + j) = (decide (p + j < u.outPos) && outBitAt u (p + j))

theorem InputIs.advance {d u : State} {b p : Nat} (h : InputIs d b u p) (n : Nat) : InputIs d (b + n) u (p + n) := by
  intro j
  rw [Nat.add_assoc, Nat.add_assoc, h]

/-- What was appended, and kept by what was appended after it, is read. -/
theorem InputIs.reads {d s t u : State} {b : Nat} {bs cs : List Bool} (h : InputIs d b u s.outPos)
    (hbs : Appended s t bs) (hcs : Appended t u cs) : Reads d b bs := by
  obtain ⟨hpos, hbits, -, -⟩ := hbs
  obtain ⟨hpos', -, -, hkept⟩ := hcs
  intro i hi
  rw [h i, decide_eq_true (by omega), Bool.true_and, hkept _ (.inl (by omega)), hbits i hi]

/-- After the final 1 everything is read as 0 (R131, R68). -/
theorem InputIs.final {d s u : State} {b : Nat} (h : InputIs d b u s.outPos) (hu : Appended s u (finalBits s.outPos)) :
    bitOrZero d b = true ∧ ∀ j, bitOrZero d (b + 1 + j) = false := by
  have hreads := h.reads hu (appended_nil u)
  refine ⟨hreads 0 (Nat.succ_pos _), fun j => ?_⟩
  rw [Nat.add_assoc]
  by_cases hj : 1 + j < (finalBits s.outPos).length
  · rw [hreads _ hj]
    simp only [finalBits, Nat.add_comm 1 j, List.getElem_cons_succ, List.getElem_replicate]
  · rw [h, decide_eq_false (by rw [hu.1]; omega), Bool.false_and]

theorem bitsAt_eq_zero {d : State} {p : Nat} (h : ∀ j, bitOrZero d (p + j) = false) (n : Nat) : bitsAt d n p = 0 := by
  induction n with
  | zero => rfl
  | succ n ih => rw [bitsAt_succ, ih, h]; rfl

/-- At the end of the encoding the bits to come are `10000…`: HALF is the code, and it is in the interval (R136). -/
theorem foretold_final {d s u : State} {b : Nat} (h : InputIs d b u s.outPos)
    (hu : Appended s u (finalBits s.outPos)) (hi : HoldsHalf (coderOf s)) : Foretold d b (coderOf s) (2 ^ 30) := by
  obtain ⟨hone, hzero⟩ := h.final hu
  obtain ⟨hl, hh, -⟩ := hi
  refine ⟨true, ?_, ?_, hl.le, hh⟩
  · intro i hi
    cases i with
    | zero => exact hone
    | succ i =>
      simp only [outWithTop, coderOf_out, List.nil_append, Bool.not_true, List.getElem_cons_succ,
        List.getElem_replicate]
      rw [← Nat.add_assoc, Nat.add_right_comm, hzero]
  · rw [bitsAt_eq_zero (fun j => ?_)]
    · rfl
    · rw [codePos, coderOf_out, List.length_nil, Nat.add_zero, Nat.add_assoc, hzero]

/-! ### One symbol -/

/-- Foretelling from the state a command leaves, as from the end of its loops. -/
theorem Foretold.of_state {d u : State} {b w : Nat} {e : Coder} (hu : HoldsEncoder u e) (hr : Reads d b e.out)
    (h : Foretold d (b + e.out.length) (coderOf u) w) : Foretold d b e w := by
  obtain ⟨hlow, hhigh, huf⟩ := hu
  obtain ⟨x, hreads, hw, hl, hh⟩ := h
  simp only [outWithTop, codePos, coderOf_out, coderOf_uf, coderOf_low, coderOf_high, hlow, hhigh, huf, List.nil_append,
    List.length_nil, Nat.add_zero] at hreads hw hl hh
  exact ⟨x, reads_append.2 ⟨hr, hreads⟩, hw, hl, hh⟩

/-- A code in the narrowed interval has its value in the symbol's interval (R133). -/
theorem value_in_symbol {lo v range total sl sh : Nat} (h0 : 0 < total) (ht : total ≤ range) (hs : sl < sh)
    (hl : lo + sl * range / total ≤ v) (hh : v ≤ lo + sh * range / total - 1) :
    sl ≤ ((v - lo + 1) * total - 1) / range ∧ ((v - lo + 1) * total - 1) / range < sh := by
  have hr : 0 < range := h0.trans_le ht
  have hone : 1 ≤ sh * range / total := Nat.div_pos (ht.trans (Nat.le_mul_of_pos_left _ (by omega))) h0
  have hpos : 1 ≤ (v - lo + 1) * total := Nat.mul_pos (Nat.succ_pos _) h0
  constructor
  · have hlt : sl * range < (v - lo + 1) * total := (Nat.div_lt_iff_lt_mul h0).1 (by omega)
    rw [Nat.le_div_iff_mul_le hr]
    omega
  · have hle : (v - lo + 1) * total ≤ sh * range := (Nat.le_div_iff_mul_le h0).1 (by omega)
    rw [Nat.div_lt_iff_lt_mul hr]
    omega

/-- Two states with the same input stream. -/
def SameInput (d k : State) : Prop := k.inLen = d.inLen ∧ ∀ a, inByte k a = inByte d a

theorem SameInput.bitOrZero {d k : State} (h : SameInput d k) (p : Nat) : bitOrZero k p = bitOrZero d p := by
  obtain ⟨hlen, hbyte⟩ := h
  simp only [Machine.bitOrZero, inBitAt, hlen, hbyte]

/-- Decoders of the same input read alike. -/
theorem Renormalizes.of_sameInput {d k : State} (h : SameInput d k) {c e : Coder}
    (hr : Renormalizes (coderDecShift k) (coderDecUnderflow k) c e) :
    Renormalizes (coderDecShift d) (coderDecUnderflow d) c e := by
  have hs : coderDecShift k = coderDecShift d := by funext c; simp only [coderDecShift, h.bitOrZero, h.1]
  have hu : coderDecUnderflow k = coderDecUnderflow d := by funext c; simp only [coderDecUnderflow, h.bitOrZero, h.1]
  rw [hs, hu] at hr
  exact hr

/-- `k` is a decoder of the input of `d` with no fault, in step with the encoder's values `c`: it has the interval, the code
is `v`, and INPOS is where the bits to come put it. -/
def InStep (d : State) (b v : Nat) (c : Coder) (k : State) : Prop :=
  k.fault = none ∧ k.rcMode = .dec ∧ SameInput d k ∧ coderOf k = decoderAt d b c v (coderOf k)

theorem coderOf_eq_decoderAt_iff {d k : State} {b v : Nat} {c : Coder} :
    coderOf k = decoderAt d b c v (coderOf k) ↔ k.rcLow.toNat = c.low ∧ k.rcHigh.toNat = c.high ∧ k.rcCode.toNat = v ∧
      k.inPos = min (codePos b c + 30) (8 * d.inLen) := by
  simp [coderOf, decoderAt]

/-- What a narrowing computes depends on the bank's counts alone. -/
theorem narrowed_congr {s k : State} {a : BitVec 2} (h : counts k a = counts s a) (x : Nat) (c : Coder) :
    narrowed k a x c = narrowed s a x c := by
  simp only [narrowed, high, low, count, total, h]

/-- A decoder in step is in a valid state where the encoder is, the code being in the interval. -/
theorem InStep.coderValid {d s k : State} {b v : Nat} (hk : InStep d b v (coderOf s) k) (hv : CoderValid s)
    (hf : Foretold d b (coderOf s) v) : CoderValid k := by
  obtain ⟨-, -, -, hcoder⟩ := hk
  obtain ⟨hlow, hhigh, hcode, -⟩ := coderOf_eq_decoderAt_iff.1 hcoder
  obtain ⟨-, -, -, hvl, hvh⟩ := hf
  simp only [CoderValid, rcRange, hlow, hhigh, hcode]
  exact ⟨hv.1, hv.2.1, hv.2.2.1, fun _ => ⟨hvl, hvh⟩⟩

/-- After a command that ended the decoder's loops at the values in step with `e`, the decoder is in step with `e`. -/
theorem InStep.of_holdsDecoder {d k k' : State} {b v w : Nat} {c e : Coder} (hk : InStep d b v c k)
    (h : HoldsDecoder k k' (decoderAt d b e w (coderOf k))) : InStep d b w e k' := by
  have hframe := h.onlyChanges
  obtain ⟨hfault, hmode, ⟨hlen, hbyte⟩, -⟩ := hk
  obtain ⟨hlow, hhigh, hcode, hpos, -, -⟩ := h
  have hfault' : k'.fault = k.fault := hframe .fault (by simp)
  have hmode' : k'.rcMode = k.rcMode := hframe .rcMode (by simp)
  have hlen' : k'.inLen = k.inLen := hframe .inLen (by simp)
  have hbyte' : ∀ a, inByte k' a = inByte k a := hframe .inbuf (by simp)
  exact ⟨hfault'.trans hfault, hmode'.trans hmode, ⟨hlen'.trans hlen, fun a => (hbyte' a).trans (hbyte a)⟩,
    coderOf_eq_decoderAt_iff.2 ⟨hlow, hhigh, hcode, hpos⟩⟩

/-- In step with the end of RC_ENC_WRITE's loops is in step with the state it leaves. -/
theorem InStep.of_holdsEncoder {d u k : State} {b w : Nat} {e : Coder} (hu : HoldsEncoder u e) (hk : InStep d b w e k) :
    InStep d (b + e.out.length) w (coderOf u) k := by
  obtain ⟨hlow, hhigh, huf⟩ := hu
  obtain ⟨hfault, hmode, hinput, hcoder⟩ := hk
  refine ⟨hfault, hmode, hinput, ?_⟩
  rw [coderOf_eq_decoderAt_iff] at hcoder ⊢
  simpa only [coderOf_low, coderOf_high, codePos, coderOf_out, coderOf_uf, List.length_nil, Nat.add_zero, hlow, hhigh,
    huf] using hcoder

/-- RC_DEC_READ of a decoder in step with an encoder state `s` whose bank has the same counts: where the code is in the
interval narrowed to a symbol, it answers the symbol, and is in step with the end of the loops again. -/
theorem InStep.read {d s k : State} {a : BitVec 2} {x b v w : Nat} {e : Coder} (hk : InStep d b v (coderOf s) k)
    (hcounts : counts k a = counts s a) (hv : CoderValid s) (hf : Foretold d b (coderOf s) v) (hx : x < limit s a)
    (hc : count s a x ≠ 0) (ht : total s a < rcMaxTotal) (hn : Foretold d b (narrowed s a x (coderOf s)) v)
    (hdec : Renormalizes (coderDecShift d) (coderDecUnderflow d)
      (decoderAt d b (narrowed s a x (coderOf s)) v (coderOf k)) (decoderAt d b e w (coderOf k))) :
    ∃ k', exec (.rcDecRead a) k = done (setResult x k') ∧ InStep d b w e k' := by
  have hvalid := hk.coderValid hv hf
  have hk' := hk
  obtain ⟨-, hmode, hinput, hcoder⟩ := hk
  obtain ⟨hlow, hhigh, hcode, hpos⟩ := coderOf_eq_decoderAt_iff.1 hcoder
  have hlen := hinput.1
  have hlimit : limit k a = limit s a := by rw [limit, limit, hcounts]
  have htotal : total k a = total s a := by rw [total, total, hcounts]
  have hlows : low k a x = low s a x := by rw [low, low, hcounts]
  have hhighs : high k a x = high s a x := by rw [high, high, hlows, count, count, hcounts]
  have hvalue : low k a x ≤ decodedValue k a ∧ decodedValue k a < high k a x := by
    obtain ⟨-, -, -, hvl, hvh⟩ := hn
    rw [decodedValue, hlow, hhigh, hcode, htotal, hlows, hhighs]
    have h0 : 0 < total s a := by have := high_le_total s a x; rw [high] at this; omega
    exact value_in_symbol h0 (ht.le.trans hv.2.1) (by rw [high]; omega) hvl hvh
  obtain ⟨k', e', he, hren, hholds, -⟩ := decRead_spec hmode hvalid (by rw [hpos, hlen]; exact Nat.min_le_right _ _)
    (htotal ▸ ht) (hlimit ▸ hx) hvalue
  have hstart : narrowed k a x (coderOf k) = decoderAt d b (narrowed s a x (coderOf s)) v (coderOf k) :=
    (narrowed_congr hcounts x _).trans (congrArg (narrowed s a x) hcoder)
  rw [hstart] at hren
  rw [(hren.of_sameInput hinput).det hdec] at hholds
  exact ⟨k', he, hk'.of_holdsDecoder hholds⟩

/-- One symbol of a message: where the bits to come give a code after it, they give one before it, and a decoder in step
before it answers the symbol and is in step after it. -/
theorem symbol_decodes {d s u : State} {a : BitVec 2} {x : BitVec 16} {b w : Nat} {e : Coder} (hv : CoderValid s)
    (hx : x.toNat < limit s a) (hc : count s a x.toNat ≠ 0) (ht : total s a < rcMaxTotal)
    (hren : Renormalizes coderEncShift coderEncUnderflow (narrowed s a x.toNat (coderOf s)) e) (hu : HoldsEncoder u e)
    (hr : Reads d b e.out) (hw : Foretold d (b + e.out.length) (coderOf u) w) :
    ∃ v, Foretold d b (coderOf s) v ∧ ∀ k, InStep d b v (coderOf s) k → counts k a = counts s a →
      ∃ k', exec (.rcDecRead a) k = .next k' ∧ k'.result.toNat = x.toNat ∧
        InStep d (b + e.out.length) w (coderOf u) k' := by
  obtain ⟨l, r, -, hl, hh, hlow, hle, hhigh⟩ := rcNarrow_narrowed hv hc ht
  rw [hl] at hlow hle
  rw [hh] at hle hhigh
  obtain ⟨v, hn, hdec⟩ := foretold_of_renormalizes hren ⟨hle, hh ▸ r.isLt⟩ (hw.of_state hu hr)
  have hf : Foretold d b (coderOf s) v := by
    obtain ⟨y, hreads, hvy, hvl, hvh⟩ := hn
    exact ⟨y, hreads, hvy, hlow.trans hvl, hvh.trans hhigh⟩
  refine ⟨v, hf, fun k hk hcounts => ?_⟩
  obtain ⟨k', he, hk'⟩ := hk.read hcounts hv hf hx hc ht hn (hdec _)
  exact ⟨_, he, setResult_toNat k' (by have := x.isLt; omega), hk'.of_holdsEncoder hu⟩

/-- A message encoded from a valid state, up to the end of the encoding: the bits to come give a code in the interval, and
every decoder in step with the encoder decodes the message. -/
theorem encodeMessage_decodes {d u : State} (m : Message) {s t : State} {b : Nat} (hv : CoderValid s)
    (hi : HoldsHalf (coderOf s)) (hm : encodeMessage m s = some t) (hfin : Appended t u (finalBits t.outPos))
    (hin : InputIs d b u s.outPos) :
    ∃ v, Foretold d b (coderOf s) v ∧
      ∀ k, InStep d b v (coderOf s) k → decodeMessage m k = some (m.map fun e => e.2.2.toNat) := by
  induction m generalizing s b with
  | nil =>
    cases hm
    exact ⟨_, foretold_final hin hfin hi, fun _ _ => rfl⟩
  | cons p m ih =>
    obtain ⟨a, l, x⟩ := p
    obtain ⟨s', he, hf, hrest⟩ := encodeMessage_cons hm
    obtain ⟨hx, hc, ht, hv', hi', e, hren, hholds, happ⟩ := rcEncWrite_ok (s := setBank a l s) hv he hf
    obtain ⟨cs, hcs⟩ := encodeMessage_appended m hrest
    have hpos : s'.outPos = s.outPos + e.out.length := happ.1
    obtain ⟨w, hw, hdecodes⟩ := ih hv' hi' hrest (hpos ▸ hin.advance e.out.length)
    have hout : Reads d b e.out := InputIs.reads (s := s) hin happ (hcs.trans hfin)
    obtain ⟨v, hfore, hread⟩ := symbol_decodes (s := setBank a l s) hv hx hc ht hren hholds hout hw
    refine ⟨v, hfore, fun k hk => ?_⟩
    have hcounts : counts (setBank a l k) a = counts (setBank a l s) a := by simp only [counts_setBank, if_true]
    obtain ⟨k', hexec, hresult, hk'⟩ := hread (setBank a l k) hk hcounts
    rw [decodeMessage_cons hexec hk'.1, hdecodes k' hk', hresult]
    rfl

/-! ### The round trip -/

/-- A decoder that just filled its code is in step with an encoder that has put out nothing and has nothing pending. -/
theorem inStep_initial {d s : State} {v : Nat} (hp : d.inPos ≤ 8 * d.inLen) (hd : d.fault = none)
    (hlow : s.rcLow = 0) (hhigh : s.rcHigh = rcMask) (huf : s.rcUnderflow = 0)
    (hf : Foretold d d.inPos (coderOf s) v) : InStep d d.inPos v (coderOf s) (complete (filledDecoder d)) := by
  have hkept := filledDecoder_onlyChanges d
  obtain ⟨hl, hh, -, hmode⟩ := filledDecoder_values d
  obtain ⟨hcode, hpos⟩ := filledDecoder_code hp
  obtain ⟨k, hk⟩ : ∃ k, filledDecoder d = k := ⟨_, rfl⟩
  rw [hk] at hkept hl hh hmode hcode hpos ⊢
  have hfault : k.fault = d.fault := hkept .fault (by simp [writes])
  have hlen : k.inLen = d.inLen := hkept .inLen (by simp [writes])
  have hbyte : ∀ a, inByte k a = inByte d a := hkept .inbuf (by simp [writes])
  have hcodePos : codePos d.inPos (coderOf s) = d.inPos + 1 := by simp [codePos, huf]
  obtain ⟨x, hreads, hv, -, -⟩ := hf
  have hx : bitOrZero d d.inPos = x := hreads 0 (by simp [outWithTop])
  rw [hcodePos, ← hx, ← bitsAt_succ', ← hcode] at hv
  refine ⟨hfault.trans hd, hmode, ⟨hlen, hbyte⟩, coderOf_eq_decoderAt_iff.2 ⟨?_, ?_, hv.symm, ?_⟩⟩
  · rw [coderOf_low, hlow, complete_rcLow, hl]
  · rw [coderOf_high, hhigh, complete_rcHigh, hh]
  · rw [complete_inPos, hpos, hcodePos]

/-- Settles O25: the bits that end the encoding give a code in its last interval, so, symbol by symbol backwards, in every
interval before; RC_DEC_INIT reads the first of these codes, and each RC_DEC_READ comes to the next. -/
theorem rangeCoderRoundTrip : Obligations.RangeCoderRoundTrip := by
  intro m s s1 t u d d1 hs hinit hm hfin hu hd hlen hbits hdec
  have hfinal := rcEncFinish_completed hfin hu
  obtain ⟨cs, hcs⟩ := encodeMessage_appended m hm
  rw [exec_rcEncInit] at hinit
  rw [exec_rcDecInit] at hdec
  cases hinit
  cases hdec
  have hstart : HoldsHalf (coderOf (complete (startEncoder s))) := by
    have hlow : (startEncoder s).rcLow.toNat = 0 := rfl
    have hhigh : (startEncoder s).rcHigh.toNat = 2 ^ 31 - 1 := rcMask_toNat
    simp only [HoldsHalf, coderOf_low, coderOf_high, complete_rcLow, complete_rcHigh, hlow, hhigh]
    omega
  have hpos : u.outPos = s.outPos + cs.length + (finalBits t.outPos).length :=
    hfinal.1.trans (congrArg (· + (finalBits t.outPos).length) hcs.1)
  have hin : InputIs d d.inPos u s.outPos := by
    intro j
    by_cases hj : j < u.outPos - s.outPos
    · rw [bitOrZero, decide_eq_true (by omega), decide_eq_true (by omega), hbits j hj]
    · rw [bitOrZero, decide_eq_false (by omega), decide_eq_false (by omega), Bool.false_and, Bool.false_and]
  obtain ⟨v, hfore, hdecodes⟩ := encodeMessage_decodes m (coderValid_initial rfl rfl) hstart hm hfinal hin
  exact hdecodes _ (inStep_initial (by omega) hd rfl rfl rfl hfore)

end Sys2Proof.Machine
end

section
/-! PROOFS. The value-table commands: VT_CLEAR and VT_MARK, what VT_ENCODE writes, that VT_DECODE reads it and every other
serialization back, and the translation (`spec/42_value_table.md` R150-R164). -/

namespace Sys2Proof.Machine

/-! ### Completing -/

/-- A meaning that ends in `done u`, where `u` has counted nothing yet, completes: `exec_ends` holds its frame, as a fault
leaves CMDCOUNT alone. -/
theorem completes_of_exec_done {i : Instr} {s u : State} {P : State → Prop} (he : exec i s = done u)
    (hcount : u.cmdCount = s.cmdCount) (hP : P (complete u)) : Completes i s P := by
  obtain ⟨t, ht, hend⟩ := exec_ends i s
  have hut : complete u = t := Host.Outcome.next.inj (he.symm.trans ht)
  have hc : t.cmdCount = s.cmdCount + 1 := by rw [← hut, complete_cmdCount, hcount]
  have hone : ¬ s.cmdCount = s.cmdCount + 1 := by bv_omega
  cases hend with
  | completed v hv => exact completes_of_done ht hv (hut ▸ hP)
  | precise c => exact absurd hc hone
  | imprecise c =>
    obtain ⟨-, -, hw, -⟩ := bookkeeping_not_written i
    have hlost : (loseWrites i s).cmdCount = s.cmdCount := loseWrites_onlyChanges i s .cmdCount (by simp [hw])
    exact absurd (hlost.symm.trans hc) hone

/-! ### VT_CLEAR and VT_MARK -/

theorem exec_vtClear {s : State} {k : BitVec 6} (hk : 1 ≤ k.toNat ∧ k.toNat ≤ 9) : exec (.vtClear k) s = done { s with
    vtDepth := k.toNat, present := presenceOf [], vtCeil := 0, vtTag := 0, vtValid := false } := by
  rw [exec, execVtClear, if_neg (by rwa [depthLegal_iff, not_not])]

theorem exec_vtClear_depth {s : State} {k : BitVec 6} (hk : ¬ (1 ≤ k.toNat ∧ k.toNat ≤ 9)) :
    exec (.vtClear k) s = raise .vtDepth s := by
  rw [exec, execVtClear, if_pos (by rwa [depthLegal_iff])]

/-- Settles O26: the empty bitmap marks no value, and a bad depth is refused before it is made. -/
theorem vtClearRule : Obligations.VtClearRule := by
  refine fun s k => ⟨fun h1 h9 => ?_, fun hf hk => faultsPrecisely_of_raise (exec_vtClear_depth (by omega)) hf⟩
  refine completes_of_exec_done (exec_vtClear ⟨h1, h9⟩) rfl ⟨rfl, fun v => ?_, rfl, rfl, rfl⟩
  exact (presenceOf_get [] v).trans (by simp)

theorem exec_vtMark {s : State} {x : BitVec 16} (hd : s.vtDepth ≠ 0) (hx : x.toNat < 2 ^ s.vtDepth) :
    exec (.vtMark x) s = done { s with present := s.present.setIfInBounds x.toNat true, vtValid := false } := by
  rw [exec, execVtMark, if_neg hd, if_neg (Nat.not_le.2 hx)]

theorem exec_vtMark_depth {s : State} {x : BitVec 16} (hd : s.vtDepth = 0) :
    exec (.vtMark x) s = raise .vtDepth s := if_pos hd

theorem exec_vtMark_value {s : State} {x : BitVec 16} (hd : s.vtDepth ≠ 0) (hx : 2 ^ s.vtDepth ≤ x.toNat) :
    exec (.vtMark x) s = raise .vtValue s := by
  rw [exec, execVtMark, if_neg hd, if_pos hx]

/-- A bitmap with one more bit set. -/
theorem getD_setIfInBounds_true (p : Vector Bool 512) {x : Nat} (hx : x < 512) (v : Nat) :
    ((p.setIfInBounds x true)[v]?).getD false = (decide (v = x) || (p[v]?).getD false) := by
  rw [Vector.getElem?_setIfInBounds]
  by_cases hv : v = x
  · subst hv; simp [hx]
  · simp [hv, Ne.symm hv]

/-- Settles O27: a value below 2^depth is a bit of the bitmap, and both faults come before it is set. -/
theorem vtMarkRule : Obligations.VtMarkRule := by
  refine fun s x => ⟨fun ⟨hd9, _⟩ hd hx => ?_, fun hf hd => faultsPrecisely_of_raise (exec_vtMark_depth hd) hf,
    fun hf hd hx => faultsPrecisely_of_raise (exec_vtMark_value hd hx) hf⟩
  have hbit : x.toNat < 512 := hx.trans_le (two_pow_le_512 hd9)
  exact completes_of_exec_done (exec_vtMark hd hx) rfl ⟨getD_setIfInBounds_true s.present hbit, rfl⟩

/-! ### The tag VT_ENCODE chooses (R157) -/

/-- The best tag of three lengths is the first of the shortest. -/
theorem bestTag_spec (f : Nat → Nat) :
    (∀ j ≤ 2, f (bestTag (f 0) (f 1) (f 2)) ≤ f j) ∧
      ∀ j < bestTag (f 0) (f 1) (f 2), f (bestTag (f 0) (f 1) (f 2)) < f j := by
  suffices h : ∀ tag, tag = bestTag (f 0) (f 1) (f 2) →
      (f tag ≤ f 0 ∧ f tag ≤ f 1 ∧ f tag ≤ f 2) ∧ (0 < tag → f tag < f 0) ∧ (1 < tag → f tag < f 1) by
    obtain ⟨⟨le0, le1, le2⟩, lt0, lt1⟩ := h _ rfl
    have htag := bestTag_le (f 0) (f 1) (f 2)
    refine ⟨fun j hj => ?_, fun j hj => ?_⟩
    · rcases (by omega : j = 0 ∨ j = 1 ∨ j = 2) with rfl | rfl | rfl <;> assumption
    · rcases (by omega : j = 0 ∨ j = 1) with rfl | rfl
      · exact lt0 hj
      · exact lt1 hj
  rintro tag rfl
  unfold bestTag
  split
  · omega
  · split <;> omega

theorem payload_bitmap_length (s : State) (m : Nat) : (payload s m 0).length = m := by
  simp [payload, bitmapBits]

/-- The chosen tag's payload is a shortest one, and shorter than those of the tags before it. -/
theorem chosenTag_spec (s : State) (m : Nat) :
    (∀ j ≤ 2, (payload s m (chosenTag s m)).length ≤ (payload s m j).length) ∧
      ∀ j < chosenTag s m, (payload s m (chosenTag s m)).length < (payload s m j).length := by
  have h := bestTag_spec fun j => (payload s m j).length
  rwa [payload_bitmap_length] at h

theorem chosenTag_le (s : State) (m : Nat) : chosenTag s m ≤ 2 := bestTag_le _ _ _

theorem tagField_toNat {tag : Nat} (h : tag ≤ 2) : (BitVec.ofNat 2 tag).toNat = tag := by
  rw [BitVec.toNat_ofNat, Nat.mod_eq_of_lt (by omega)]

/-! ### VT_ENCODE -/

/-- The tag VT_ENCODE writes (R157). -/
def writtenTag (s : State) : Nat := chosenTag s (2 ^ s.vtDepth)

/-- The payload VT_ENCODE writes. -/
def writtenPayload (s : State) : List Bool := payload s (2 ^ s.vtDepth) (writtenTag s)

/-- The bits VT_ENCODE writes (R156, R160). -/
def writtenBits (s : State) : List Bool := msbBits 2 (writtenTag s) ++ writtenPayload s

theorem writtenBits_length (s : State) : (writtenBits s).length = 2 + (writtenPayload s).length := by
  rw [writtenBits, List.length_append, msbBits_length]

/-- VT_ENCODE's state before the completion effects, where `u` is `s` with the bits put out (R160). -/
def encodedTable (s u : State) : State :=
  setResult (2 + (writtenPayload s).length)
    (buildTranslation (occupied s (2 ^ s.vtDepth)) { u with vtTag := BitVec.ofNat 2 (writtenTag s) })

theorem exec_vtEncode_depth {s : State} (hd : s.vtDepth = 0) : exec .vtEncode s = raise .vtDepth s := if_pos hd

theorem exec_vtEncode_error {s : State} {c : FaultCode} (hd : s.vtDepth ≠ 0) (he : emit (writtenBits s) s = .error c) :
    exec .vtEncode s = raise c (loseWrites .vtEncode s) := by
  rw [writtenBits, writtenPayload, writtenTag] at he
  simp only [exec, execVtEncode, if_neg hd, he]
  rfl

theorem exec_vtEncode_ok {s u : State} (hd : s.vtDepth ≠ 0) (he : emit (writtenBits s) s = .ok u) :
    exec .vtEncode s = done (encodedTable s u) := by
  rw [writtenBits, writtenPayload, writtenTag] at he
  simp only [exec, execVtEncode, if_neg hd, he]
  rfl

/-- Where VT_ENCODE completes, a depth was set and the bits were put out. -/
theorem vtEncode_completed {s t : State} (he : exec .vtEncode s = .next t) (ht : t.fault = none) :
    s.vtDepth ≠ 0 ∧ ∃ u, emit (writtenBits s) s = .ok u ∧ t = complete (encodedTable s u) := by
  by_cases hd : s.vtDepth = 0
  case pos => exact absurd ht (fault_of_raise ((exec_vtEncode_depth hd).symm.trans he))
  cases hu : emit (writtenBits s) s with
  | error c => exact absurd ht (fault_of_raise ((exec_vtEncode_error hd hu).symm.trans he))
  | ok u =>
    rw [exec_vtEncode_ok hd hu] at he
    cases he
    exact ⟨hd, u, rfl, rfl⟩

/-- Putting out bits leaves the table as it is. -/
theorem emit_keeps_table {bs : List Bool} {s u : State} (he : emit bs s = .ok u) :
    u.vtDepth = s.vtDepth ∧ u.present = s.present :=
  ⟨emit_onlyChanges he .vtDepth (by simp), emit_onlyChanges he .present (by simp)⟩

theorem encodedTable_result (s u : State) :
    (complete (encodedTable s u)).result = BitVec.ofNat 32 (2 + (writtenPayload s).length) := rfl

section
variable {s u : State}

/-- VT_ENCODE leaves the values present as they are. -/
theorem occupied_encodedTable (he : emit (writtenBits s) s = .ok u) :
    occupied (complete (encodedTable s u)) (2 ^ (complete (encodedTable s u)).vtDepth) = occupied s (2 ^ s.vtDepth) := by
  obtain ⟨hdepth, hpresent⟩ := emit_keeps_table he
  exact (congrArg (fun n => occupied _ (2 ^ n)) hdepth).trans (occupied_congr hpresent _)

/-- VT_ENCODE leaves the translation of the values present (R46). -/
theorem translationBuilt_encodedTable (hd : s.vtDepth ≤ 9) (he : emit (writtenBits s) s = .ok u) :
    TranslationBuilt (complete (encodedTable s u)) :=
  translationBuilt_buildTranslation (s := { u with vtTag := BitVec.ofNat 2 (writtenTag s) })
    ((emit_keeps_table he).1.trans_le hd) (occupied_encodedTable he)

end

/-- Settles O28: the chosen tag has the shortest payload, so it has room where any has. -/
theorem vtEncodeRule : Obligations.VtEncodeRule := by
  refine fun s => ⟨fun hl ⟨hd9, _⟩ hd hroom => ?_, fun hf hd => faultsPrecisely_of_raise (exec_vtEncode_depth hd) hf,
    fun hf hd ⟨_, _, hpos⟩ hroom => ?_⟩
  · obtain ⟨j, hj, hjroom⟩ := hroom
    obtain ⟨hshortest, hfirst⟩ := chosenTag_spec s (2 ^ s.vtDepth)
    have htag : writtenTag s ≤ 2 := chosenTag_le _ _
    have hfits : OutputRoom s (2 + (writtenPayload s).length) :=
      (Nat.add_le_add_left (Nat.add_le_add_left (hshortest j hj) 2) _).trans hjroom
    have hresult : 2 + (writtenPayload s).length < 2 ^ 32 := by
      obtain ⟨-, -, ⟨-, -, hsize⟩, -⟩ := hl
      rw [OutputRoom] at hfits
      omega
    obtain ⟨u, hu⟩ := emit_room (writtenBits s) s (writtenBits_length s ▸ hfits)
    refine completes_of_exec_done (exec_vtEncode_ok hd hu) (emit_onlyChanges hu .cmdCount (by simp))
      ⟨writtenTag s, htag, hshortest, hfirst, emit_appended _ s u hu, tagField_toNat htag, ?_, rfl, rfl,
        translationBuilt_encodedTable hd9 hu⟩
    rw [encodedTable_result, BitVec.toNat_ofNat, Nat.mod_eq_of_lt hresult]
    rfl
  · have hnone : ¬ OutputRoom s (writtenBits s).length := writtenBits_length s ▸ hroom _ (chosenTag_le _ _)
    exact faultsImprecisely_of_raise (exec_vtEncode_error hd (emit_no_room _ s hnone hpos)) hf

/-! ### VT_DECODE of a payload -/

/-- VT_DECODE reads the tag and the payload of a set of values (R161). -/
theorem exec_vtDecode_payload {s e : State} {k : BitVec 6} {tag : Nat} (hk : 1 ≤ k.toNat ∧ k.toNat ≤ 9) (htag : tag ≤ 2)
    (h : InputHolds s s.inPos (msbBits 2 tag ++ payload e (2 ^ k.toNat) tag)) :
    exec (.vtDecode k) s = done (decodedTable k tag (occupied e (2 ^ k.toNat))
      (s.inPos + (2 + (payload e (2 ^ k.toNat) tag).length)) s) :=
  exec_vtDecode_ok hk (readTable_holds htag h)

/-- RESULT is how far the read moved INPOS. -/
theorem decodedTable_result (k : BitVec 6) (tag : Nat) (vs : List Nat) (n : Nat) (s : State) :
    (complete (decodedTable k tag vs (s.inPos + n) s)).result = BitVec.ofNat 32 n := by
  rw [complete_result, decodedTable, Nat.add_sub_cancel_left]
  rfl

section
variable {s : State} {k : BitVec 6} {tag p : Nat} {vs : List Nat}

/-- The values present after VT_DECODE read rising values are those values. -/
theorem occupied_decodedTable (hk : k.toNat ≤ 9) (h : RisingIn (2 ^ k.toNat) 0 vs) :
    occupied (complete (decodedTable k tag vs p s)) (2 ^ k.toNat) = vs :=
  occupied_presenceOf (two_pow_le_512 hk) h rfl

/-- VT_DECODE leaves the translation of the values it read (R46). -/
theorem translationBuilt_decodedTable (hk : k.toNat ≤ 9) (h : RisingIn (2 ^ k.toNat) 0 vs) :
    TranslationBuilt (complete (decodedTable k tag vs p s)) :=
  translationBuilt_buildTranslation
    (s := { s with vtDepth := k.toNat, present := presenceOf vs, vtTag := BitVec.ofNat 2 tag, inPos := p }) hk
    (occupied_decodedTable (s := s) (tag := tag) (p := p) hk h)

/-- After VT_DECODE read the values of `e` below 2^k, they are present and no others. -/
theorem presentAt_decodedTable_occupied (e : State) (hk : k.toNat ≤ 9) (v : Nat) :
    presentAt (complete (decodedTable k tag (occupied e (2 ^ k.toNat)) p s)) v =
      (decide (v < 2 ^ k.toNat) && presentAt e v) := by
  have hm := two_pow_le_512 hk
  have hmem : (v < 512 ∧ v ∈ occupied e (2 ^ k.toNat)) ↔ v < 2 ^ k.toNat ∧ presentAt e v = true := by
    rw [occupied, List.mem_filter, List.mem_range]
    exact ⟨And.right, fun h => ⟨h.1.trans_le hm, h⟩⟩
  calc presentAt (complete (decodedTable k tag (occupied e (2 ^ k.toNat)) p s)) v
      = decide (v < 512 ∧ v ∈ occupied e (2 ^ k.toNat)) := presenceOf_get _ v
    _ = (decide (v < 2 ^ k.toNat) && presentAt e v) := by simp [hmem]

end

/-- Settles O29: each payload is read back (`readTable_holds`) to the values it was made of. -/
theorem vtDecodeReadsPayload : Obligations.VtDecodeReadsPayload := by
  rintro s e k tag ⟨-, ⟨-, -, hsize⟩, -, -⟩ ⟨-, hlen, -⟩ h1 h9 htag hin
  have hresult : 2 + (payload e (2 ^ k.toNat) tag).length < 2 ^ 32 := by
    obtain ⟨hfits, -⟩ := hin
    rw [List.length_append, msbBits_length] at hfits
    omega
  refine completes_of_exec_done (exec_vtDecode_payload ⟨h1, h9⟩ htag hin) rfl ⟨rfl,
    presentAt_decodedTable_occupied e h9, tagField_toNat htag, rfl, rfl,
    translationBuilt_decodedTable h9 (risingIn_occupied e _), rfl, ?_⟩
  rw [decodedTable_result, BitVec.toNat_ofNat, Nat.mod_eq_of_lt hresult]

/-! ### The round trip (R164) -/

/-- An input that holds the bits a state appended to its output. -/
theorem inputHolds_of_appended {s t d : State} {bs : List Bool} {p : Nat} (h : Appended s t bs)
    (hlen : p + (t.outPos - s.outPos) ≤ 8 * d.inLen)
    (hbits : ∀ j, j < t.outPos - s.outPos → inBitAt d (p + j) = outBitAt t (s.outPos + j)) : InputHolds d p bs := by
  obtain ⟨hpos, hout, -, -⟩ := h
  rw [hpos, Nat.add_sub_cancel_left] at hlen hbits
  exact ⟨hlen, fun j hj => (hbits j hj).trans (hout j hj)⟩

/-- VT_DECODE reads back what VT_ENCODE writes at the same depth. -/
theorem exec_vtDecode_writtenBits {s d : State} {k : BitVec 6} (hk : k.toNat = s.vtDepth) (hd0 : s.vtDepth ≠ 0)
    (hd9 : s.vtDepth ≤ 9) (h : InputHolds d d.inPos (writtenBits s)) :
    exec (.vtDecode k) d = done (decodedTable k (writtenTag s) (occupied s (2 ^ s.vtDepth))
      (d.inPos + (2 + (writtenPayload s).length)) d) := by
  rw [writtenBits, writtenPayload, ← hk] at h
  have hread := exec_vtDecode_payload (by omega) (chosenTag_le _ _) h
  rwa [hk] at hread

/-- The translation of rising values depends on nothing else of the state. -/
theorem buildTranslation_congr {m : Nat} {vs : List Nat} (s t : State) (hm : m ≤ 512) (h : RisingIn m 0 vs) :
    (∀ v ∈ vs, fwdAt (buildTranslation vs s) v = fwdAt (buildTranslation vs t) v) ∧
      ∀ j < vs.length, invAt (buildTranslation vs s) j = invAt (buildTranslation vs t) j := by
  refine ⟨fun v hv => ?_, fun j hj => ?_⟩
  · obtain ⟨j, hj, rfl⟩ := List.getElem_of_mem hv
    rw [(buildTranslation_spec s hm h j hj).1, (buildTranslation_spec t hm h j hj).1]
  · rw [(buildTranslation_spec s hm h j hj).2, (buildTranslation_spec t hm h j hj).2]

/-- Settles O31: the input holds the tag and the payload of the values present, which VT_DECODE reads back; and both
commands build the translation from the same rising values. -/
theorem valueTableRoundTrip : Obligations.ValueTableRoundTrip := by
  rintro s t d k - ⟨hd9, -⟩ he ht hk - - hlen hbits
  obtain ⟨hd0, u, hu, rfl⟩ := vtEncode_completed he ht
  have hdepth := (emit_keeps_table hu).1
  have happ : Appended s (complete (encodedTable s u)) (writtenBits s) := emit_appended _ s u hu
  have hdecode := exec_vtDecode_writtenBits hk hd0 hd9 (inputHolds_of_appended happ hlen hbits)
  have hrise := risingIn_occupied s (2 ^ s.vtDepth)
  have hkept := occupied_encodedTable hu
  obtain ⟨hfwd, hinv⟩ := buildTranslation_congr d u (two_pow_le_512 hd9) hrise
  refine completes_of_exec_done hdecode rfl ⟨hk.trans hdepth.symm, ?_, rfl, rfl, ?_, ?_, fun v hv hp => ?_, hinv⟩
  · exact (occupied_decodedTable (hk.trans_le hd9) (by rwa [hk])).trans hkept.symm
  · exact (decodedTable_result k _ _ _ d).trans (encodedTable_result s u).symm
  · rw [happ.1, Nat.add_sub_cancel_left, writtenBits_length]
    rfl
  · exact hfwd v (hkept ▸ List.mem_filter.2 ⟨List.mem_range.2 hv, hp⟩)

/-! ### VT_FWD and VT_INV -/

theorem exec_vtFwd_notValid {s : State} (x : BitVec 16) (h : s.vtValid = false) :
    exec (.vtFwd x) s = raise .vtNotValid s := if_pos h

theorem exec_vtInv_notValid {s : State} (x : BitVec 16) (h : s.vtValid = false) :
    exec (.vtInv x) s = raise .vtNotValid s := if_pos h

section
variable {s : State} {x : BitVec 16}

theorem exec_vtFwd_value (h : s.vtValid = true) (hx : 2 ^ s.vtDepth ≤ x.toNat) :
    exec (.vtFwd x) s = raise .vtValue s := by
  rw [exec, execVtFwd, if_neg (by simp [h]), if_pos hx]

theorem exec_vtFwd_absent (h : s.vtValid = true) (hx : x.toNat < 2 ^ s.vtDepth) (hp : presentAt s x.toNat = false) :
    exec (.vtFwd x) s = raise .vtAbsent s := by
  rw [exec, execVtFwd, if_neg (by simp [h]), if_neg (Nat.not_le.2 hx), if_pos hp]

theorem exec_vtInv_index (h : s.vtValid = true) (hx : s.vtCeil ≤ x.toNat) :
    exec (.vtInv x) s = raise .vtIndex s := by
  rw [exec, execVtInv, if_neg (by simp [h]), if_pos hx]

end

theorem fwdAt_le (s : State) (v : Nat) : fwdAt s v ≤ 2 ^ 32 - 1 := by
  have h : fwdAt s v < 2 ^ 10 := BitVec.isLt _
  omega

theorem invAt_le (s : State) (i : Nat) : invAt s i ≤ 2 ^ 32 - 1 := by
  have h : invAt s i < 2 ^ 9 := BitVec.isLt _
  omega

/-- Settles O32: the entries of fwd and inv fit RESULT, and the checks come in the order of the rules. -/
theorem vtTranslates : Obligations.VtTranslates := fun s x =>
  ⟨fun hv hx hp => completes_of_setResult (exec_vtFwd hv hx hp) rfl (fwdAt_le s _),
    fun hv hx => completes_of_setResult (exec_vtInv hv hx) rfl (invAt_le s _),
    fun hf hv => ⟨faultsPrecisely_of_raise (exec_vtFwd_notValid x hv) hf,
      faultsPrecisely_of_raise (exec_vtInv_notValid x hv) hf⟩,
    fun hf hv hx => faultsPrecisely_of_raise (exec_vtFwd_value hv hx) hf,
    fun hf hv hx hp => faultsPrecisely_of_raise (exec_vtFwd_absent hv hx hp) hf,
    fun hf hv hx => faultsPrecisely_of_raise (exec_vtInv_index hv hx) hf⟩

end Sys2Proof.Machine
end

section
/-! PROOFS. Huffman trees: codes and serializations, and what the six commands do (`spec/43_huffman.md` R180-R192). -/

namespace Sys2Proof.Machine

/-! ### Codes (R183) -/

theorem huffCode_leaf {y x : Nat} {p : List Bool} : huffCode (.leaf y) x = some p ↔ y = x ∧ p = [] := by
  rw [huffCode]
  split
  · next h => simp [h, eq_comm]
  · next h => simp [h]

/-- A code in an inner node is a code in child0, or one in child1 where the symbol is no leaf of child0. -/
theorem huffCode_node {c0 c1 : Tree} {x : Nat} {p : List Bool} : huffCode (.node c0 c1) x = some p ↔
    (∃ r, huffCode c0 x = some r ∧ p = false :: r) ∨
      huffCode c0 x = none ∧ ∃ r, huffCode c1 x = some r ∧ p = true :: r := by
  rw [huffCode]
  cases huffCode c0 x with
  | some r => simp [eq_comm]
  | none => cases huffCode c1 x <;> simp [eq_comm]

/-- Two codes of which one begins with the other go the same way from the root to the same leaf. -/
theorem huffCode_prefixFree {t : Tree} {x y : Nat} {p q : List Bool} (hx : huffCode t x = some p)
    (hy : huffCode t y = some q) (h : p <+: q) : x = y := by
  induction t generalizing p q with
  | leaf z => exact (huffCode_leaf.1 hx).1.symm.trans (huffCode_leaf.1 hy).1
  | node c0 c1 ih0 ih1 =>
    rcases huffCode_node.1 hx with ⟨p', hx', rfl⟩ | ⟨-, p', hx', rfl⟩ <;>
      rcases huffCode_node.1 hy with ⟨q', hy', rfl⟩ | ⟨-, q', hy', rfl⟩ <;>
      obtain ⟨hbit, h'⟩ := List.cons_prefix_cons.1 h
    · exact ih0 hx' hy' h'
    · cases hbit
    · cases hbit
    · exact ih1 hx' hy' h'

theorem exists_huffCode_iff (t : Tree) (x : Nat) : (∃ p, huffCode t x = some p) ↔ x ∈ huffSymbols t := by
  rw [← huffCode_isSome, Option.isSome_iff_exists]

theorem huffCode_eq_none {t : Tree} {x : Nat} (h : x ∉ huffSymbols t) : huffCode t x = none := by
  rwa [← huffCode_isSome, Option.not_isSome_iff_eq_none] at h

/-- A code has one bit for each inner node on the way. -/
theorem huffCode_length_le {t : Tree} {x : Nat} {p : List Bool} (h : huffCode t x = some p) :
    p.length ≤ internalNodes t := by
  induction t generalizing p with
  | leaf y =>
    obtain ⟨-, rfl⟩ := huffCode_leaf.1 h
    exact Nat.zero_le _
  | node c0 c1 ih0 ih1 =>
    rw [internalNodes]
    rcases huffCode_node.1 h with ⟨r, hr, rfl⟩ | ⟨-, r, hr, rfl⟩ <;> rw [List.length_cons]
    · have := ih0 hr
      omega
    · have := ih1 hr
      omega

/-- Settles O40: by induction on the tree, since a code's first bit says in which child its leaf is. -/
theorem codesArePrefixFree : Obligations.CodesArePrefixFree :=
  ⟨fun _ _ _ _ _ hx hy h => huffCode_prefixFree hx hy h, exists_huffCode_iff⟩

/-- Settles O41: A − 1 fits the leaf width and no smaller one, and the length adds up over the tree. -/
theorem serializationLengths : Obligations.SerializationLengths := by
  refine ⟨fun A hA => ⟨?_, fun w hw => leafWidth_least hw⟩, fun A t => huffSerialize_length (leafWidth A) t⟩
  have hlast := lt_two_pow_leafWidth (A := A) (x := A - 1) (by omega)
  omega

/-! ### Formed trees (R180) -/

section
variable {s : State} {tr : HuffTree}

/-- Distinct leaf symbols below A are at most A. -/
theorem TreeFormed.leaves_le (h : TreeFormed s tr) : (huffSymbols tr.root).length ≤ tr.alphabet := by
  obtain ⟨-, -, hnd, hlt⟩ := h
  have hsub := hnd.subperm fun x hx => List.mem_range.2 (hlt x hx)
  simpa using hsub.length_le

theorem TreeFormed.internalNodes_lt (h : TreeFormed s tr) : internalNodes tr.root < tr.alphabet := by
  have hle := h.leaves_le
  rw [length_huffSymbols] at hle
  omega

variable (hl : s.cfg.Legal)
include hl

theorem TreeFormed.alphabet_lt (h : TreeFormed s tr) : tr.alphabet < 2 ^ 16 := by
  obtain ⟨⟨-, hsym⟩, -⟩ := hl
  obtain ⟨-, hN, -⟩ := h
  omega

/-- A leaf's symbol fits RESULT. -/
theorem TreeFormed.symbol_lt (h : TreeFormed s tr) {x : Nat} (hx : x ∈ huffSymbols tr.root) : x < 2 ^ 32 := by
  have hA := h.alphabet_lt hl
  obtain ⟨-, -, -, hlt⟩ := h
  have := hlt x hx
  omega

/-- A serialization's length fits RESULT. -/
theorem TreeFormed.serializedLength_lt (h : TreeFormed s tr) : serializedLength tr < 2 ^ 32 := by
  have hA := h.alphabet_lt hl
  have hleaves := h.leaves_le
  have hwidth : leafWidth tr.alphabet ≤ 16 := leafWidth_least hA.le
  have hmul := Nat.mul_le_mul hleaves hwidth
  rw [serializedLength]
  omega

end

/-! ### HT_BUILD -/

/-- The leaves HuffBuild starts with are the symbols with a count, or symbol 0 alone (R181, R182). -/
theorem huffLeavesOrZero_symbols (s : State) (b : BitVec 2) :
    (huffLeavesOrZero ((counts s b).map BitVec.toNat)).map Prod.fst = builtSymbols s b := by
  have hcount : ∀ x, ((counts s b).map BitVec.toNat)[x]?.getD 0 = count s b x := fun x => by
    rw [count, List.getElem?_map]
    cases (counts s b)[x]? <;> rfl
  rw [huffLeavesOrZero_eq, List.map_map]
  simp only [hcount, List.length_map]
  exact List.map_id' _

/-- What HT_BUILD puts into the slot (R186). -/
def builtTree (s : State) (b : BitVec 2) : HuffTree :=
  { alphabet := limit s b, root := huffBuild ((counts s b).map BitVec.toNat) }

theorem builtTree_symbols (s : State) (b : BitVec 2) : (huffSymbols (builtTree s b).root).Perm (builtSymbols s b) := by
  rw [← huffLeavesOrZero_symbols]
  exact huffBuild_symbols _

/-- HT_BUILD's state before the completion effects (R186). -/
def built (a b : BitVec 2) (s : State) : State :=
  setResult (serializedLength (builtTree s b)) (setSlot a (builtTree s b) s)

theorem slot_built (a b : BitVec 2) (s : State) : slot (complete (built a b s)) a = some (builtTree s b) := by
  rw [slot_complete, built, slot_setResult, slot_setSlot, if_pos rfl]

theorem exec_htBuild {s : State} (a : BitVec 2) {b : BitVec 2} (h1 : 1 ≤ limit s b) (hN : limit s b ≤ s.cfg.nSym) :
    exec (.htBuild a b) s = done (built a b s) := if_neg (by omega)

theorem exec_htBuild_alphabet {s : State} (a : BitVec 2) {b : BitVec 2} (h : limit s b = 0 ∨ s.cfg.nSym < limit s b) :
    exec (.htBuild a b) s = raise .htAlphabet s := if_pos (by omega)

/-- Settles O34: HuffBuild is the pseudocode's loop (`huffBuild_builds`), and the length of its tree's serialization
fits RESULT. -/
theorem htBuildRule : Obligations.HtBuildRule := by
  refine fun s a b hl => ⟨fun h1 hN => ⟨_, huffBuild_builds s b, builtTree_symbols s b, ?_⟩,
    fun hf h => faultsPrecisely_of_raise (exec_htBuild_alphabet a h) hf⟩
  have hformed : TreeFormed s (builtTree s b) := treeFormed_huffBuild s b h1 hN
  refine completes_of_exec_done (exec_htBuild a h1 hN) rfl ⟨slot_built a b s, ?_⟩
  rw [complete_result, built, setResult_toNat _ (hformed.serializedLength_lt hl), serializedLength,
    (builtTree_symbols s b).length_eq]
  rfl

/-! ### HT_SERIALIZE and the bits a command emits and counts -/

theorem emitCounted_ok {bs : List Bool} {s u : State} (h : emit bs s = .ok u) :
    emitCounted bs s = done (setResult bs.length u) := by
  have hpos := (emit_appended bs s u h).1
  rw [emitCounted, h]
  dsimp only
  rw [hpos, Nat.add_sub_cancel_left]

/-- A command that emits bits for which there is room, and counts them (R187, R189). -/
theorem completes_of_emitCounted {i : Instr} {s : State} {bs : List Bool} (he : exec i s = emitCounted bs s)
    (hl : s.cfg.Legal) (hroom : OutputRoom s bs.length) :
    Completes i s fun t => Appended s t bs ∧ t.result.toNat = bs.length := by
  have hfits : bs.length < 2 ^ 32 := by
    obtain ⟨-, -, ⟨-, -, hsize⟩, -⟩ := hl
    rw [OutputRoom] at hroom
    omega
  obtain ⟨u, hu⟩ := emit_room bs s hroom
  exact completes_of_exec_done (he.trans (emitCounted_ok hu)) (emit_onlyChanges hu .cmdCount (by simp))
    ⟨emit_appended bs s u hu, setResult_toNat u hfits⟩

/-- A command that emits bits for which there is no room (R187, R189). -/
theorem faultsImprecisely_of_emitCounted {i : Instr} {s : State} {bs : List Bool} (he : exec i s = emitCounted bs s)
    (hw : loseWrites i s = loseEmission s) (hf : s.fault = none) (hp : PositionsInRange s)
    (hroom : ¬ OutputRoom s bs.length) : FaultsImprecisely i s .outOverflow := by
  obtain ⟨-, -, hpos⟩ := hp
  refine faultsImprecisely_of_raise (he.trans ?_) hf
  rw [emitCounted, emit_no_room bs s hroom hpos, hw]

/-- A command that emits bits and counts them, and completes, has appended them. -/
theorem appended_of_emitCounted {s t : State} {bs : List Bool} (h : emitCounted bs s = .next t) (ht : t.fault = none) :
    Appended s t bs := by
  cases hu : emit bs s with
  | error c =>
    rw [emitCounted, hu] at h
    exact absurd ht (fault_of_raise h)
  | ok u =>
    rw [emitCounted_ok hu] at h
    cases h
    exact emit_appended bs s u hu

/-- The serialization of a slot's tree (R185). -/
abbrev serialization (tr : HuffTree) : List Bool := huffSerialize (leafWidth tr.alphabet) tr.root

theorem exec_htSerialize {s : State} {a : BitVec 2} {tr : HuffTree} (h : slot s a = some tr) :
    exec (.htSerialize a) s = emitCounted (serialization tr) s := by
  rw [exec, execHtSerialize, h]

theorem exec_htSerialize_empty {s : State} {a : BitVec 2} (h : slot s a = none) :
    exec (.htSerialize a) s = raise .htEmpty s := by
  rw [exec, execHtSerialize, h]

/-- Settles O35: a slot's tree is emitted and counted, and an empty slot is refused before that. -/
theorem htSerializeRule : Obligations.HtSerializeRule := fun _ _ hl =>
  ⟨fun _ hs hroom => completes_of_emitCounted (exec_htSerialize hs) hl hroom,
    fun hf hs => faultsPrecisely_of_raise (exec_htSerialize_empty hs) hf,
    fun _ hf hs hp hroom => faultsImprecisely_of_emitCounted (exec_htSerialize hs) rfl hf hp hroom⟩

/-! ### HT_DESERIALIZE of a serialization -/

/-- `Des()` reads back the serialization of a formed tree (R188): it has fewer than A inner nodes. -/
theorem parseTree_serialization {s : State} {tr : HuffTree} (h : TreeFormed s tr)
    (hi : InputHolds s s.inPos (serialization tr)) :
    ∃ d, parseTree s tr.alphabet = .ok (tr.root, d) ∧ d.pos = s.inPos + (serialization tr).length := by
  have hinner := h.internalNodes_lt
  obtain ⟨-, -, hnd, hlt⟩ := h
  obtain ⟨d, hd, hpos, -⟩ := huffDeserialize_serialize (d := { pos := s.inPos, used := [], internal := 0 }) hinner
    (by dsimp only; omega) hlt hnd (fun _ _ => List.not_mem_nil) hi
  exact ⟨d, hd, hpos⟩

/-- RESULT is how far the read moved INPOS. -/
theorem deserialized_result (a : BitVec 2) (tr : HuffTree) (n : Nat) (s : State) :
    (complete (deserialized a tr (s.inPos + n) s)).result = BitVec.ofNat 32 n := by
  rw [complete_result, deserialized, Nat.add_sub_cancel_left]
  rfl

/-- HT_DESERIALIZE reads the serialization of a formed tree of the alphabet size it is given into the slot. -/
theorem completes_htDeserialize {s : State} (a : BitVec 2) {x : BitVec 16} {tr : HuffTree} (hl : s.cfg.Legal)
    (hp : PositionsInRange s) (hA : tr.alphabet = x.toNat) (h : TreeFormed s tr)
    (hi : InputHolds s s.inPos (serialization tr)) : Completes (.htDeserialize a x) s fun t =>
      slot t a = some tr ∧ t.inPos = s.inPos + (serialization tr).length ∧
        t.result.toNat = (serialization tr).length := by
  have hfits : (serialization tr).length < 2 ^ 32 := by
    obtain ⟨-, ⟨-, -, hsize⟩, -⟩ := hl
    obtain ⟨-, hlen, -⟩ := hp
    obtain ⟨hend, -⟩ := hi
    omega
  obtain ⟨d, hd, hpos⟩ := parseTree_serialization h hi
  obtain ⟨A, root⟩ := tr
  obtain rfl : A = x.toNat := hA
  obtain ⟨h1, hN, -⟩ := h
  refine completes_of_exec_done (exec_htDeserialize_ok ⟨h1, hN⟩ hd) rfl ⟨slot_deserialized a _ _ s, hpos, ?_⟩
  rw [hpos, deserialized_result, BitVec.toNat_ofNat, Nat.mod_eq_of_lt hfits]

/-- Settles O36: `Des()` reads back the serialization of every formed tree, and a bad alphabet size is refused before
that. -/
theorem htDeserializeReadsTree : Obligations.HtDeserializeReadsTree := by
  refine fun s a x hl hp => ⟨fun tr hA htree hi => ?_,
    fun hf hx => faultsPrecisely_of_raise (exec_htDeserialize_alphabet (by omega)) hf⟩
  rw [← hA] at hi ⊢
  exact completes_htDeserialize a hl hp hA htree hi

/-! ### HT_ENCODE and HT_LEN -/

section
variable {s : State} {a : BitVec 2} {x : Nat} {tr : HuffTree}

theorem slotCode_empty (h : slot s a = none) : slotCode s a x = .error .htEmpty := by
  rw [slotCode, h]

theorem slotCode_symbol (h : slot s a = some tr) (hx : tr.alphabet ≤ x ∨ x ∉ huffSymbols tr.root) :
    slotCode s a x = .error .htSymbol := by
  rw [slotCode, h]
  dsimp only
  split
  · rfl
  · next hA => rw [huffCode_eq_none (hx.resolve_left hA)]

/-- A leaf of a formed tree is below A, so its code is found. -/
theorem slotCode_ok {p : List Bool} (h : slot s a = some tr) (hx : x < tr.alphabet) (hc : huffCode tr.root x = some p) :
    slotCode s a x = .ok p := by
  rw [slotCode, h]
  dsimp only
  rw [if_neg (Nat.not_le.2 hx), hc]

end

section
variable {s : State} {a : BitVec 2} {x : BitVec 16} {c : FaultCode} {p : List Bool}

theorem exec_htEncode_error (h : slotCode s a x.toNat = .error c) : exec (.htEncode a x) s = raise c s := by
  rw [exec, execHtEncode, h]

theorem exec_htEncode_ok (h : slotCode s a x.toNat = .ok p) : exec (.htEncode a x) s = emitCounted p s := by
  rw [exec, execHtEncode, h]

theorem exec_htLen_error (h : slotCode s a x.toNat = .error c) : exec (.htLen a x) s = raise c s := by
  rw [exec, execHtLen, h]

theorem exec_htLen_ok (h : slotCode s a x.toNat = .ok p) : exec (.htLen a x) s = done (setResult p.length s) := by
  rw [exec, execHtLen, h]

/-- The two commands raise the same fault where a symbol has no code. -/
theorem faultsPrecisely_of_slotCode (hf : s.fault = none) (h : slotCode s a x.toNat = .error c) :
    FaultsPrecisely (.htEncode a x) s c ∧ FaultsPrecisely (.htLen a x) s c :=
  ⟨faultsPrecisely_of_raise (exec_htEncode_error h) hf, faultsPrecisely_of_raise (exec_htLen_error h) hf⟩

end

/-- Settles O38: both commands act on `slotCode`; a code is shorter than the alphabet, so its length fits RESULT. -/
theorem htEncodeAndLenRule : Obligations.HtEncodeAndLenRule := by
  refine fun s a x hl hslots => ⟨fun tr p hs hc => ?_,
    fun hf hs => faultsPrecisely_of_slotCode hf (slotCode_empty hs),
    fun tr hf hs hx => faultsPrecisely_of_slotCode hf (slotCode_symbol hs hx)⟩
  have hformed := hslots a tr hs
  have hlength : p.length ≤ 2 ^ 32 - 1 := by
    have hinner := hformed.internalNodes_lt
    have hA := hformed.alphabet_lt hl
    have hp := huffCode_length_le hc
    omega
  obtain ⟨-, -, -, hlt⟩ := hformed
  have hok := slotCode_ok hs (hlt _ ((exists_huffCode_iff _ _).1 ⟨p, hc⟩)) hc
  exact ⟨completes_of_setResult (exec_htLen_ok hok) rfl hlength,
    fun hroom => completes_of_emitCounted (exec_htEncode_ok hok) hl hroom,
    fun hf hp hroom => faultsImprecisely_of_emitCounted (exec_htEncode_ok hok) rfl hf hp hroom⟩

/-! ### HT_DECODE -/

section
variable {s : State} {a : BitVec 2} {tr : HuffTree}

theorem exec_htDecode_empty (h : slot s a = none) : exec (.htDecode a) s = raise .htEmpty s := by
  rw [exec, execHtDecode, h]

theorem exec_htDecode_error {c : FaultCode} (h : slot s a = some tr) (hw : huffWalk s tr.root s.inPos = .error c) :
    exec (.htDecode a) s = raise c (loseWrites (.htDecode a) s) := by
  rw [exec, execHtDecode, h]
  dsimp only
  rw [hw]
  rfl

theorem exec_htDecode_ok {x p : Nat} (h : slot s a = some tr) (hw : huffWalk s tr.root s.inPos = .ok (x, p)) :
    exec (.htDecode a) s = done (setResult x { s with inPos := p }) := by
  rw [exec, execHtDecode, h]
  dsimp only
  rw [hw]

/-- HT_DECODE over the code of a symbol that fits RESULT. -/
theorem completes_htDecode {x : Nat} {p : List Bool} (h : slot s a = some tr) (hx : x < 2 ^ 32)
    (hc : huffCode tr.root x = some p) (hi : InputHolds s s.inPos p) :
    Completes (.htDecode a) s fun t => t.result.toNat = x ∧ t.inPos = s.inPos + p.length :=
  completes_of_exec_done (exec_htDecode_ok h (huffWalk_code hc hi)) rfl
    ⟨setResult_toNat { s with inPos := s.inPos + p.length } hx, rfl⟩

/-- HT_DECODE of an input that ends inside a code. -/
theorem faultsImprecisely_htDecode (hf : s.fault = none) (h : slot s a = some tr)
    (hend : EndsInCode s tr.root s.inPos) : FaultsImprecisely (.htDecode a) s .fmtTruncated :=
  faultsImprecisely_of_raise (exec_htDecode_error h (huffWalk_truncated hend)) hf

end

/-- Settles O39: a walk over a full tree ends at a leaf, having read its code, or at the end of the input inside a
code. -/
theorem htDecodeRule : Obligations.HtDecodeRule := by
  intro s a hl hslots
  have hcompletes : ∀ tr x p, slot s a = some tr → huffCode tr.root x = some p → InputHolds s s.inPos p →
      Completes (.htDecode a) s fun t => t.result.toNat = x ∧ t.inPos = s.inPos + p.length := fun tr x p hs hc hi =>
    completes_htDecode hs ((hslots a tr hs).symbol_lt hl ((exists_huffCode_iff _ _).1 ⟨p, hc⟩)) hc hi
  refine ⟨hcompletes, fun hf hs => faultsPrecisely_of_raise (exec_htDecode_empty hs) hf,
    fun tr x p q hf hs hc hq hi hend => faultsImprecisely_htDecode hf hs ⟨x, p, q, hc, hq, hi, hend⟩,
    fun tr hf hs hp => ?_⟩
  obtain ⟨hpos, -⟩ := hp
  obtain ⟨-, -, hnd, -⟩ := hslots a tr hs
  rcases huffWalk_cases hpos hnd with ⟨⟨x, p⟩, hw⟩ | ⟨-, hend⟩
  · obtain ⟨c, hc, hi, -⟩ := huffWalk_holds hpos hnd hw
    exact .inl ⟨x, c, hc, hi, hcompletes tr x c hs hc hi⟩
  · exact .inr ⟨hend, faultsImprecisely_htDecode hf hs hend⟩

/-! ### The round trip (R192) -/

/-- A completing HT_BUILD built a formed tree and left it in the slot. -/
theorem htBuild_completed {s t : State} {a b : BitVec 2} (he : exec (.htBuild a b) s = .next t) (ht : t.fault = none) :
    TreeFormed s (builtTree s b) ∧ slot t a = some (builtTree s b) := by
  by_cases h : limit s b = 0 ∨ s.cfg.nSym < limit s b
  · exact absurd ht (fault_of_raise ((exec_htBuild_alphabet a h).symm.trans he))
  · have h1 : 1 ≤ limit s b := by omega
    have hN : limit s b ≤ s.cfg.nSym := by omega
    rw [exec_htBuild a h1 hN] at he
    cases he
    exact ⟨treeFormed_huffBuild s b h1 hN, slot_built a b s⟩

/-- A symbol with a count is a leaf of the tree HT_BUILD makes. -/
theorem mem_builtTree {s : State} {b : BitVec 2} {x : Nat} (h : count s b x ≠ 0) :
    x ∈ huffSymbols (builtTree s b).root := by
  have hlimit : x < limit s b := by
    by_contra hge
    exact h (by simp [count, List.getElem?_eq_none (Nat.not_lt.1 hge)])
  have hmem : x ∈ (List.range (limit s b)).filter fun y => decide (0 < count s b y) :=
    List.mem_filter.2 ⟨List.mem_range.2 hlimit, decide_eq_true (Nat.pos_of_ne_zero h)⟩
  rw [(builtTree_symbols s b).mem_iff, builtSymbols, if_neg (List.ne_nil_of_mem hmem)]
  exact hmem

/-- A completing command leaves a slot its rule does not list as written. -/
theorem slot_of_completed {i : Instr} {s t : State} (he : exec i s = .next t) (ht : t.fault = none) {a : BitVec 2}
    (h : Part.slot a ∉ writes i) : slot t a = slot s a := by
  obtain ⟨u, rfl, hu⟩ := completed_of_exec he ht
  exact hu (.slot a) h

/-- Settles O42: HT_SERIALIZE appends the serialization of the formed tree HT_BUILD made, which HT_DESERIALIZE reads
back; each symbol with a count is a leaf of it, whose code HT_ENCODE appends and HT_DECODE walks back. -/
theorem huffmanRoundTrip : Obligations.HuffmanRoundTrip := by
  intro s t u d h h' f _ hl _ hbuild ht hser hu hcfg hp hlen hbits
  obtain ⟨hformed, hslot⟩ := htBuild_completed hbuild ht
  have hslot' : slot u h = some (builtTree s f) := (slot_of_completed hser hu (by simp [writes])).trans hslot
  rw [exec_htSerialize hslot] at hser
  have happ := appended_of_emitCounted hser hu
  have hformed' : TreeFormed d (builtTree s f) := by rwa [TreeFormed, hcfg]
  have hA : (builtTree s f).alphabet = (BitVec.ofNat 16 (limit s f)).toNat :=
    (Nat.mod_eq_of_lt (hformed.alphabet_lt hl)).symm
  refine ⟨?_, fun x v e hx henc hv hslot_e hlen_e hbits_e => ?_⟩
  · obtain ⟨w, hw, hfault, hpending, hcount, hirq, hframe, hslot_w, hpos, -⟩ :=
      completes_htDeserialize h' (hcfg ▸ hl) hp hA hformed' (inputHolds_of_appended happ hlen hbits)
    refine ⟨w, hw, hfault, hpending, hcount, hirq, hframe, hslot_w.trans hslot.symm, ?_⟩
    rw [hpos, happ.1, Nat.add_sub_cancel_left]
  · have hleaf := mem_builtTree hx
    obtain ⟨p, hc⟩ := (exists_huffCode_iff _ _).2 hleaf
    obtain ⟨-, -, -, hlt⟩ := hformed
    rw [exec_htEncode_ok (slotCode_ok hslot' (hlt _ hleaf) hc)] at henc
    have happ_v := appended_of_emitCounted henc hv
    have hdecode := completes_htDecode (hslot_e.trans hslot) (by omega) hc
      (inputHolds_of_appended happ_v hlen_e hbits_e)
    rwa [happ_v.1, Nat.add_sub_cancel_left]

end Sys2Proof.Machine
end

section
/-! PROOFS. NOP and the bit-stream commands (`spec/44_bitstream.md` R210-R216). -/

namespace Sys2Proof.Machine

/-! ### NOP -/

theorem exec_nop (s : State) : exec .nop s = done s := rfl

/-- Settles O43: NOP ends in its own state. -/
theorem nopRule : Obligations.NopRule := fun s => completes_of_exec_done (exec_nop s) rfl ⟨rfl, rfl, rfl⟩

/-! ### BS_PUT -/

/-- The field BS_PUT emits, bit by bit. -/
theorem msbBits_toNat {w : Nat} (k : Nat) (v : BitVec w) :
    msbBits k v.toNat = (List.range k).map fun j => v.getLsbD (k - 1 - j) := by
  refine List.ext_getElem (by simp) fun j hj _ => ?_
  rw [msbBits_getElem, List.getElem_map, List.getElem_range, BitVec.testBit_toNat]

theorem exec_bsPut_noRoom {s : State} {k : BitVec 6} (h : ¬ OutputRoom s k.toNat) :
    exec (.bsPut k) s = raise .outOverflow s := if_pos (Nat.not_le.1 h)

theorem exec_bsPut {s t : State} {k : BitVec 6} (h : OutputRoom s k.toNat)
    (ht : emit (msbBits k.toNat s.data.toNat) s = .ok t) : exec (.bsPut k) s = done t := by
  rw [exec, execBsPut, if_neg (Nat.not_lt.2 h), ht]

/-- Settles O44: where the range check passes every bit of the field fits. -/
theorem bsPutRule : Obligations.BsPutRule := by
  refine fun s k => ⟨fun hroom => ?_, fun hf hroom => faultsPrecisely_of_raise (exec_bsPut_noRoom hroom) hf⟩
  obtain ⟨t, ht⟩ := emit_room (msbBits k.toNat s.data.toNat) s (by rwa [msbBits_length])
  refine completes_of_done (exec_bsPut hroom ht) (emit_onlyChanges ht) (appended_complete ?_)
  rw [← msbBits_toNat]
  exact emit_appended _ s t ht

/-! ### BS_GET -/

/-- The `n` input bits at position `p`. -/
def inputBits (s : State) (n p : Nat) : List Bool := (List.range n).map fun j => inBitAt s (p + j)

@[simp] theorem inputBits_length (s : State) (n p : Nat) : (inputBits s n p).length = n := by simp [inputBits]

theorem inputHolds_inputBits {s : State} {n p : Nat} (h : p + n ≤ 8 * s.inLen) : InputHolds s p (inputBits s n p) :=
  ⟨by rwa [inputBits_length], fun j hj => by simp [inputBits]⟩

theorem numberOf_eq_bitsNat (bs : List Bool) : numberOf bs = bitsNat 0 bs := rfl

theorem numberOf_inputBits_lt (s : State) (n p : Nat) : numberOf (inputBits s n p) < 2 ^ n := by
  simpa [numberOf_eq_bitsNat] using (msbBits_bitsNat (inputBits s n p)).1

/-- A field read before the end of input gives the number of its bits. -/
theorem inBits_inputBits {s : State} {n p : Nat} (h : p + n ≤ 8 * s.inLen) :
    inBits s n 0 p = .ok (numberOf (inputBits s n p), p + n) := by
  simpa [numberOf_eq_bitsNat] using inBits_holds (v := 0) (inputHolds_inputBits h)

theorem exec_bsGet_truncated {s : State} {k : BitVec 6} (h : 8 * s.inLen < s.inPos + k.toNat) :
    exec (.bsGet k) s = raise .fmtTruncated s := if_pos h

theorem exec_bsGet {s : State} {k : BitVec 6} (h : s.inPos + k.toNat ≤ 8 * s.inLen) :
    exec (.bsGet k) s =
      done (setResult (numberOf (inputBits s k.toNat s.inPos)) { s with inPos := s.inPos + k.toNat }) := by
  rw [exec, execBsGet, if_neg (Nat.not_lt.2 h), inBits_inputBits h]

/-- Settles O45: the field is in the input, and the number of at most 32 bits fits RESULT. -/
theorem bsGetRule : Obligations.BsGetRule := by
  refine fun s k => ⟨fun hk hin => ?_, fun hf hend => faultsPrecisely_of_raise (exec_bsGet_truncated hend) hf⟩
  have hfits : numberOf (inputBits s k.toNat s.inPos) < 2 ^ 32 :=
    (numberOf_inputBits_lt s k.toNat s.inPos).trans_le (Nat.pow_le_pow_right (by decide) hk)
  exact completes_of_exec_done (exec_bsGet hin) rfl
    ⟨setResult_toNat { s with inPos := s.inPos + k.toNat } hfits, rfl⟩

/-! ### BS_OUT_ALIGN -/

theorem add_bitsToByte_mod (p : Nat) : (p + bitsToByte p) % 8 = 0 := by
  rw [bitsToByte]; omega

theorem exec_bsOutAlign {s t : State} (ht : emit (List.replicate (bitsToByte s.outPos) false) s = .ok t) :
    exec .bsOutAlign s = done (setResult (bitsToByte s.outPos) t) := by
  rw [exec, execBsOutAlign, ht]

/-- Settles O46: the padding to the next byte boundary fits from every position (`emit_padding`). -/
theorem bsOutAlignRule : Obligations.BsOutAlignRule := by
  intro s
  obtain ⟨t, ht⟩ := emit_padding s
  have happ := emit_appended _ s t ht
  have hlt := bitsToByte_lt s.outPos
  have hpos : t.outPos = s.outPos + bitsToByte s.outPos := by simpa using happ.1
  exact completes_of_exec_done (exec_bsOutAlign ht) (emit_onlyChanges ht .cmdCount (by simp))
    ⟨bitsToByte s.outPos, hlt, appended_complete (appended_setResult _ happ),
      (congrArg (· % 8) hpos).trans (add_bitsToByte_mod _), setResult_toNat t (by omega)⟩

/-! ### Moves -/

theorem exec_bsInAlign (s : State) : exec .bsInAlign s = done { s with inPos := 8 * ((s.inPos + 7) / 8) } := rfl

theorem exec_bsOutReset (s : State) : exec .bsOutReset s = done { s with outPos := 0 } := rfl

theorem exec_bsInSeek {s : State} (h : s.data.toNat ≤ 8 * s.inLen) :
    exec .bsInSeek s = done { s with inPos := s.data.toNat } := if_neg (Nat.not_lt.2 h)

theorem exec_bsInSeek_past {s : State} (h : 8 * s.inLen < s.data.toNat) : exec .bsInSeek s = raise .bsSeek s := if_pos h

/-- `8 * ceil(p / 8)` is the first multiple of 8 from `p` on (R214). -/
theorem roundUp_eight (p : Nat) :
    8 * ((p + 7) / 8) % 8 = 0 ∧ p ≤ 8 * ((p + 7) / 8) ∧ 8 * ((p + 7) / 8) < p + 8 := by omega

/-- Settles O47: each command assigns its one position, BS_IN_SEEK after its check of DATA. -/
theorem bsMovesRule : Obligations.BsMovesRule := fun s =>
  ⟨completes_of_exec_done (exec_bsInAlign s) rfl (roundUp_eight s.inPos),
    completes_of_exec_done (exec_bsOutReset s) rfl rfl,
    fun h => completes_of_exec_done (exec_bsInSeek h) rfl rfl,
    fun hf h => faultsPrecisely_of_raise (exec_bsInSeek_past h) hf⟩

end Sys2Proof.Machine
end

section
/-! PROOFS. Fault entry: precise faults, the latch that only a reset clears, and PROTOCOL (`spec/60_exceptions.md` R232-R236,
R260). -/

namespace Sys2Proof.Machine

/-! ### The fault a command raises -/

/-- A command's fault is one R231 lists for it: a fault entry from the command's own state, or one of its imprecise faults. -/
theorem exec_raised {i : Instr} {s t : State} {f : FaultRecord} (hs : s.fault = none) (he : exec i s = .next t)
    (hf : t.fault = some f) : (f.code ∈ raisedBy i ∧ t = enterFault f.code s) ∨ f.code ∈ impreciseOf i := by
  obtain ⟨hfault, -⟩ := bookkeeping_not_written i
  obtain ⟨t', ht, hend⟩ := exec_ends i s
  rw [he] at ht
  cases ht
  cases hend with
  | completed u hu =>
    have hu' : u.fault = s.fault := hu .fault hfault
    rw [complete_fault, hu', hs] at hf
    cases hf
  | precise c hc =>
    rw [enterFault_fault, hs] at hf
    cases hf
    exact .inl ⟨hc, rfl⟩
  | imprecise c hc =>
    have hl : (loseWrites i s).fault = s.fault := loseWrites_onlyChanges i s .fault (by simp [hfault])
    rw [enterFault_fault, hl, hs] at hf
    cases hf
    exact .inr hc

/-- Settles O9: a fault that is not imprecise is a fault entry from the command's own state. -/
theorem preciseFaultsKeepState : Obligations.PreciseFaultsKeepState := by
  rintro i s t c hs he ⟨hf, -⟩ hc
  obtain ⟨-, rfl⟩ := (exec_raised hs he hf).resolve_right hc
  exact enterFault_onlyChanges c s

/-! ### The latched fault -/

/-- The turns of the schedule that are a reset: the platform's, and a write of 1 to CTRL.SOFT_RESET (R260). -/
def Resets (s : State) : Turn → Prop
  | .reset => True
  | .write a v => blockOffset s a = some 0x004 ∧ v.getLsbD 0 = true
  | .read _ => False
  | .block => False

theorem resets_schedule (s : State) (rest : List Turn) (u : Turn) :
    Resets { s with schedule := rest } u ↔ Resets s u := by
  cases u <;> rfl

theorem resetIsNext_iff (s : State) : ResetIsNext s ↔ ∃ u rest, s.schedule = u :: rest ∧ Resets s u := by
  constructor
  · rintro ⟨rest, h | ⟨a, v, h, hr⟩⟩
    · exact ⟨_, rest, h, trivial⟩
    · exact ⟨_, rest, h, hr⟩
  · rintro ⟨u, rest, h, hr⟩
    cases u with
    | reset => exact ⟨rest, .inl h⟩
    | write a v => exact ⟨rest, .inr ⟨a, v, h, hr⟩⟩
    | read a => exact hr.elim
    | block => exact hr.elim

theorem takeTurn_of_resets {s : State} {u : Turn} (h : Resets s u) : takeTurn u s = .next (resetState s) := by
  cases u with
  | reset => rfl
  | write a v =>
    obtain ⟨ha, hv⟩ := h
    rw [takeTurn, hostWrite, ha]
    exact congrArg _ (if_pos hv)
  | read a => exact h.elim
  | block => exact h.elim

/-- The fault `f` is latched in `t`, and no command has completed since `s`. -/
def FaultKept (f : FaultRecord) (s t : State) : Prop := t.fault = some f ∧ t.cmdCount = s.cmdCount

/-- A set latch keeps what it holds when another fault is entered (R234). -/
theorem enterFault_faultKept {s : State} {f : FaultRecord} (c : FaultCode) (hf : s.fault = some f) :
    FaultKept f s (enterFault c s) := ⟨by rw [enterFault_fault, hf, Option.getD_some], rfl⟩

theorem unlessBusy_faultKept {s t : State} {f : FaultRecord} (hf : s.fault = some f) (ht : FaultKept f s t) :
    FaultKept f s (unlessBusy s t) := by
  unfold unlessBusy
  split
  · exact enterFault_faultKept _ hf
  · exact ht

/-- A write that is no reset, by the registers of the address map. -/
theorem writeOffset_faultKept {s : State} {off : Nat} {v : Word} {f : FaultRecord} (hf : s.fault = some f)
    (hr : ¬ (off = 0x004 ∧ v.getLsbD 0 = true)) : FaultKept f s (writeOffset off v s) := by
  unfold writeOffset
  split
  · rw [writeCtrl, if_neg fun hv => hr ⟨rfl, hv⟩]
    exact ⟨hf, rfl⟩
  · rw [writeCmd_faulted v (by rw [hf]; rfl)]
    exact ⟨hf, rfl⟩
  · exact unlessBusy_faultKept hf ⟨hf, rfl⟩
  · exact ⟨hf, rfl⟩
  · exact ⟨hf, rfl⟩
  · exact unlessBusy_faultKept hf ⟨hf, rfl⟩
  · split
    · exact unlessBusy_faultKept hf ⟨hf, rfl⟩
    · exact ⟨hf, rfl⟩

theorem blockStep_faultKept {s t : State} {f : FaultRecord} (hf : s.fault = some f) (h : blockStep s = .next t) :
    FaultKept f s t := by
  rw [blockStep_of_disabled (.inr (by rw [hf]; rfl))] at h
  cases h
  exact ⟨hf, rfl⟩

theorem takeTurn_faultKept {s t : State} {u : Turn} {f : FaultRecord} (hf : s.fault = some f) (hr : ¬ Resets s u)
    (h : takeTurn u s = .next t) : FaultKept f s t := by
  cases u with
  | block => exact blockStep_faultKept hf h
  | reset => exact absurd trivial hr
  | read a =>
    rw [takeTurn, hostRead] at h
    split at h <;> cases h
    exact ⟨hf, rfl⟩
  | write a v =>
    rw [takeTurn, hostWrite] at h
    split at h <;> cases h
    rename_i off ha
    exact writeOffset_faultKept hf fun ⟨hoff, hv⟩ => hr ⟨hoff ▸ ha, hv⟩

theorem step_faultKept {s t : State} {f : FaultRecord} (hf : s.fault = some f) (h : step s = .next t)
    (hr : ¬ ResetIsNext s) : FaultKept f s t := by
  cases hs : s.schedule with
  | nil => exact blockStep_faultKept hf (step_of_no_turn hs ▸ h)
  | cons u rest =>
    have hu : ¬ Resets { s with schedule := rest } u := fun hu =>
      hr ((resetIsNext_iff s).2 ⟨u, rest, hs, (resets_schedule s rest u).1 hu⟩)
    exact takeTurn_faultKept (s := { s with schedule := rest }) hf hu (step_of_turn hs ▸ h)

theorem step_of_resetIsNext {s : State} (h : ResetIsNext s) :
    ∃ rest, step s = .next (resetState { s with schedule := rest }) := by
  obtain ⟨u, rest, hs, hu⟩ := (resetIsNext_iff s).1 h
  exact ⟨rest, by rw [step_of_turn hs, takeTurn_of_resets ((resets_schedule s rest u).2 hu)]⟩

/-- Settles O11: every turn but a reset keeps the latched fault and the count, and a reset gives the latch its reset value. -/
theorem faultStaysUntilReset : Obligations.FaultStaysUntilReset := by
  refine ⟨fun s t f hf h hr => step_faultKept hf h hr, fun s t h hr => ?_, fun s v hf => ?_⟩
  · obtain ⟨rest, hstep⟩ := step_of_resetIsNext hr
    rw [hstep] at h
    cases h
    rfl
  · rw [hostWrite_aligned s _ v (by omega) (by omega)]
    exact congrArg _ (writeCmd_faulted v hf)

/-! ### PROTOCOL -/

/-- The guarded offsets are in the block's range, since the INBUF window is (R6, R60). -/
theorem BusyGuarded.lt {s : State} {off : Nat} (hl : s.cfg.Legal) (h : BusyGuarded s off) : off < 0x3000000 := by
  obtain ⟨-, ⟨-, -, hin⟩, -⟩ := hl
  simp only [BusyGuarded, inWindow] at h
  omega

theorem writeOffset_guarded {s : State} {off : Nat} {w : Word} (v : Word) (hf : s.fault = none)
    (hp : s.pending = some w) (h : BusyGuarded s off) : writeOffset off v s = enterFault .protocol s := by
  rcases h with rfl | rfl | rfl | hw
  · exact (writeCmd_clear v hf).trans (unlessBusy_pending hp _)
  · exact unlessBusy_pending hp _
  · exact unlessBusy_pending hp _
  · have hge : 0x060 ≤ off := by simp only [inWindow] at hw; omega
    rw [writeOffset_window s v (not_writable_of_ge hge), if_pos ((inInWindow_iff s off).2 hw), unlessBusy_pending hp]

theorem raisesProtocol_of_guarded {s : State} {off : Nat} {w : Word} (v : Word) (hl : s.cfg.Legal)
    (hf : s.fault = none) (hp : s.pending = some w) (h4 : off % 4 = 0) (h : BusyGuarded s off) :
    RaisesProtocol s off v w := by
  obtain ⟨hfault, hpending, hirq⟩ := faulted_enterFault (c := .protocol) hf
  rw [hp, Option.getD_some] at hfault
  exact ⟨_, by rw [hostWrite_aligned s off v h4 (h.lt hl), writeOffset_guarded v hf hp h], hfault, hpending, hirq,
    enterFault_onlyChanges _ _⟩

theorem writeOffset_unguarded {s : State} {off : Nat} (v : Word) (hf : s.fault = none)
    (h : BusyGuarded s off → s.pending = none) : (writeOffset off v s).fault = none := by
  obtain ⟨hguarded, hother⟩ := writeOffset_fault s off v hf
  by_cases hg : BusyGuarded s off
  · rw [hguarded hg, h hg, Option.map_none]
  · exact hother hg

theorem protocol_not_raisedBy (i : Instr) : FaultCode.protocol ∉ raisedBy i := by
  cases i <;> simp [raisedBy]

/-- Settles O49: a guarded write enters PROTOCOL while a command is pending, every other write and every read leaves the
latch, and no command lists PROTOCOL. -/
theorem protocolFault : Obligations.ProtocolFault := by
  refine ⟨fun s w v off hl hf hp h4 hg => raisesProtocol_of_guarded v hl hf hp h4 hg, fun s v off hf h4 hb h => ?_,
    fun s t a h => hostRead_fault h, fun i s t f hs he hf hc => protocol_not_raisedBy i (hc ▸ ?_)⟩
  · exact ⟨_, hostWrite_aligned s off v h4 hb, writeOffset_unguarded v hf h⟩
  · rcases exec_raised hs he hf with ⟨hmem, -⟩ | hmem
    · exact hmem
    · exact impreciseOf_subset_raisedBy i hmem

end Sys2Proof.Machine
end

section
/-! PROOFS. Soft reset by a CTRL write (`spec/70_reset_and_hazards.md` R260-R262). -/

namespace Sys2Proof.Machine

theorem hostWrite_ctrl (s : State) (v : Word) : hostWrite (s.cfg.base + 0x004) v s = .next (writeCtrl v s) :=
  hostWrite_aligned s 0x004 v (by omega) (by omega)

theorem writeCtrl_set {v : Word} (s : State) (h : v.getLsbD 0 = true) : writeCtrl v s = resetState s := if_pos h

theorem writeCtrl_clear {v : Word} (s : State) (h : v.getLsbD 0 = false) : writeCtrl v s = s :=
  if_neg (by rw [h]; exact Bool.false_ne_true)

/-- The interrupt line is low while no interrupt is pending (R237). -/
theorem irqLine_low {s : State} (h : s.irqStatus = 0) : irqLine s = false := by
  simp [irqLine, h]

/-- Settles O51: the write is `writeCtrl`, which is `resetState` or nothing, and a reset state has no interrupt pending. -/
theorem softReset : Obligations.SoftReset := by
  intro s v
  refine ⟨fun h => ⟨resetState s, ?_, resetState_values s, rfl, irqLine_low rfl⟩, fun h => ?_, fun _ => ?_⟩
  · rw [hostWrite_ctrl, writeCtrl_set s h]
  · rw [hostWrite_ctrl, writeCtrl_clear s h]
  · exact readsAs_always (by omega) (by omega) rfl

end Sys2Proof.Machine
end
